-- ==== Sys2Proof/Word.lean ====
section
/-!
DEFINITION. The bit-vector types of the block.  Only what the spec treats as bits is a bit vector: transmit
words, samples, bus bytes, register images and the values software sees as words (spec/00_scope.md R7).
Counts, lengths, bit lengths, indices and addresses are natural numbers (R8: "every intermediate is computed in the
natural numbers without wrap-around").
-/

namespace Sys2Proof

/-- A 32-bit word: a command-stream word, a transmit word, a register value, a raw GPIO sample (R46, R72, R45). -/
abbrev Word := BitVec 32

/-- A 16-bit sample, one bus write cycle (R71). -/
abbrev Sample := BitVec 16

/-- A bus byte or a host-memory byte (R47, R90). -/
abbrev Byte := BitVec 8

end Sys2Proof
end

