-- ==== Sys2Proof/Config.lean ====
section
/-!
DEFINITION. What an implementation or a launch fixes, and the free values.

* The register images the block writes (spec/10_state.md R22 to R29) and the OPEN encoders that lay them out in 32
  bits: constants with no body, so nothing depends on a layout.
* `Params`, the named parameters of spec/00_scope.md R6 that are plain data: a launch supplies them (R212), so they
  stand in State as data and every claim holds for all of them.
* The free values: what the environment answers, and what a register holds, where nothing fixes it.
-/

namespace Sys2Proof

/-- The peripheral registers by name (R21). `fifoWr` is the write-only FIFO port, `state` the read-only status. -/
inductive Reg where
  | src | fconf | fifoWr | state | conf | clkm | outlink | intEna | gate
  deriving DecidableEq, Repr, Inhabited

/-- `CLKM` (R22, R78): clock source enabled, the two fractional-divider fields, the integer divider. -/
structure ClkmImage where
  clkEn : Bool
  divA : Nat
  divB : Nat
  num : Nat
  deriving DecidableEq, Repr, Inhabited

/-- `SRC.width` (R23): the configured sample width, 16 or 32 bits. -/
inductive Width where
  | w16 | w32
  deriving DecidableEq, Repr, Inhabited

/-- `FCONF.fmode` (R24): `FC_SCALAR`, `FC_BULK`, `FC_DMA`; their bit values are OPEN. -/
inductive FifoMode where
  | scalar | bulk | dma
  deriving DecidableEq, Repr, Inhabited

/-- `FCONF` (R24): the FIFO mode and the descriptor-fetch bit. -/
structure FconfImage where
  fmode : FifoMode
  dscrEn : Bool
  deriving DecidableEq, Repr, Inhabited

/-- `OUTLINK` (R28): the descriptor's physical address and the start bit. -/
structure OutlinkImage where
  addr : Word
  start : Bool
  deriving DecidableEq, Repr, Inhabited

/-- The DMA descriptor record `P.desc` (R34, R77). -/
structure Descriptor where
  bufAddr : Word
  length : Nat
  size : Nat
  owner : Bool
  eof : Bool
  next : Word
  deriving DecidableEq, Repr, Inhabited

namespace Machine

/-- The images of the peripheral registers that hold one (R22 to R24, R27 to R29). -/
structure Regs where
  clkm : ClkmImage
  src : Width
  fconf : FconfImage
  txStart : Bool
  outlink : OutlinkImage
  intEna : Word
  deriving DecidableEq, Repr, Inhabited

/-- The OPEN parameters of R6 that are plain data; a launch supplies them (R212). -/
structure Params where
  /-- transmit FIFO capacity in words (D17) -/
  fifoDepth : Nat
  /-- spin iteration counts, visible in `hist` only (D25) -/
  kRepeat : Nat
  kBytes : Nat
  kDma : Nat
  /-- bus bytes the FIFO phase sends before the DMA phase may start (D27) -/
  tDma : Nat
  /-- whether a start is latched before the next idle poll (D16) -/
  pStartLatch : Bool
  /-- whether the descriptor is latched within `Spin(K_DMA)` (D32) -/
  pDmaLatch : Bool
  /-- the fixed fractional-divider fields (D9) -/
  fracA : Nat
  fracB : Nat
  /-- the value `init` writes to the interrupt-enable register (D41) -/
  intEnaValue : Word
  /-- legal peripheral instance selectors (D44) -/
  instances : List Nat
  /-- number of GPIO pad identifiers (D6) -/
  numGpio : Nat
  /-- the register writes (address, value) of `InitPeripheralMode` (D43) -/
  initMode : List (Word × Word)
  /-- addresses of the two scratch copies (D29) -/
  scratchAddr0 : Word
  scratchAddr1 : Word
  /-- the admitted host-memory region, as (base, size) pairs (D45) -/
  adm : List (Nat × Nat)
  /-- whether peripheral steps are weakly fair (D48) -/
  hwProgress : Bool
  deriving DecidableEq, Repr, Inhabited

end Machine

/-! ## OPEN encoders and functions (spec/93_implementation_defined.md section 2): constants with no body -/

/-- `REG_ADDR(inst, reg)` (D44). -/
opaque Config.regAddr : Nat → Reg → Word
/-- `CLKM_ENCODE` (D9). -/
opaque Config.clkmEncode : ClkmImage → Word
/-- `SRC_ENCODE`, with its sample-rate fields (D13). -/
opaque Config.srcEncode : Width → Word
/-- `FC_ENCODE` with `FC_SCALAR`, `FC_BULK`, `FC_DMA` (D13). -/
opaque Config.fcEncode : FconfImage → Word
/-- `OUTLINK_ENCODE` (D31). -/
opaque Config.outlinkEncode : OutlinkImage → Word
/-- `DESC_ENCODE`: the descriptor record as platform memory words (D31). -/
opaque Config.descEncode : Descriptor → List Word
/-- `physAddr`: the descriptor's address as the DMA engine sees it (D54). -/
opaque Config.physAddr : Word → Word

/-! ## Free values: what an answer is where the launch lists none, and what is unspecified.  Each is applied to the
State's draw counter, so that two draws are unrelated. -/

/-- A bus-clock draw beyond the listed ones (D51). -/
opaque Config.freeClock : Nat → Word
/-- A raw GPIO sample beyond the listed ones (D59). -/
opaque Config.freeRaw : Nat → Word
/-- An allocator answer beyond the listed ones (D33). -/
opaque Config.freeAlloc : Nat → Option Word
/-- A producer's next index beyond the listed answers (D34). -/
opaque Config.freeNext : Nat → Nat
/-- Byte `j` of a producer's answer beyond the listed bytes (D34). -/
opaque Config.freeByte : Nat → Nat → Byte
/-- The register images when the clock gate first releases the peripheral's reset (R122: "every register image
unspecified"). -/
opaque Config.freeRegs : Nat → Machine.Regs

end Sys2Proof
end

