-- ==== Sys2Proof/Syntax.lean ====
section
/-!
DEFINITION. The instructions: the seventeen exposed operations, one constructor per row of spec/opcode_table.json
(spec/30_encoding.md R65), with the operands of R64 and R66 in the source's argument order (R82).
A `value` is a word (its bits are selected); bit lengths, counts, lengths, host addresses, handles and pin identifiers are
natural numbers (R8), bounded by their encoding field in WellFormed.lean.
-/

namespace Sys2Proof

inductive Instr where
  /-- `config settings` (R126): instance selector, eight data pins, the three strobe pins, write frequency in Hz -/
  | config (inst : Nat) (pinD : Vector Nat 8) (pinRD pinWR pinRS : Nat) (freqWrite : Nat)
  /-- `init()` (R128) -/
  | init
  /-- `release()` (R127) -/
  | release
  /-- `beginTransaction()` (R139) -/
  | beginTransaction
  /-- `endTransaction()` (R140) -/
  | endTransaction
  /-- `wait()` (R141) -/
  | wait
  /-- `busy() -> bool` (R142) -/
  | busy
  /-- `writeCommand(value, bitLength)` (R148) -/
  | writeCommand (value : Word) (bitLength : Nat)
  /-- `writeData(value, bitLength)` (R149) -/
  | writeData (value : Word) (bitLength : Nat)
  /-- `writeDataRepeat(value, bitLength, count)` (R152) -/
  | writeDataRepeat (value : Word) (bitLength count : Nat)
  /-- `writeBytes(buffer, length, useDma)` (R158) -/
  | writeBytes (buffer length : Nat) (useDma : Bool)
  /-- `writePixels(producer, length)` (R167) -/
  | writePixels (producer length : Nat)
  /-- `beginRead()` (R170) -/
  | beginRead
  /-- `endRead()` (R171) -/
  | endRead
  /-- `readData(bitLength) -> value` (R172) -/
  | readData (bitLength : Nat)
  /-- `readBytes(dst, length, allowDma)` (R174) -/
  | readBytes (dst length : Nat) (allowDma : Bool)
  /-- `readPixels(dst, producer, length)` (R176) -/
  | readPixels (dst producer length : Nat)
  deriving DecidableEq, Repr, Inhabited

end Sys2Proof
end

