-- ==== Sys2Proof/WellFormed.lean ====
section
/-!
DEFINITION. Which instruction terms a packet can carry: every operand fits its field (spec/30_encoding.md R64, R66,
R86).  The legality of a bit length, a count or a pin number is NOT part of this: R68 checks it at execution.
-/

namespace Sys2Proof

/-- A quantity that fits a 32-bit operand word. -/
def fitsWord (n : Nat) : Bool := decide (n < 2 ^ 32)

/-- A quantity that fits an 8-bit field: `blen`, or a pin identifier of a `config` packet. -/
def fitsByte (n : Nat) : Bool := decide (n < 2 ^ 8)

/-- Every operand fits its field of the packet. -/
def Instr.wellFormed : Instr → Bool
  | .config inst pinD pinRD pinWR pinRS freqWrite =>
    fitsWord inst && pinD.toList.all fitsByte && fitsByte pinRD && fitsByte pinWR && fitsByte pinRS && fitsWord freqWrite
  | .init => true
  | .release => true
  | .beginTransaction => true
  | .endTransaction => true
  | .wait => true
  | .busy => true
  | .writeCommand _ bitLength => fitsByte bitLength
  | .writeData _ bitLength => fitsByte bitLength
  | .writeDataRepeat _ bitLength count => fitsByte bitLength && fitsWord count
  | .writeBytes buffer length _ => fitsWord buffer && fitsWord length
  | .writePixels producer length => fitsWord producer && fitsWord length
  | .beginRead => true
  | .endRead => true
  | .readData bitLength => fitsByte bitLength
  | .readBytes dst length _ => fitsWord dst && fitsWord length
  | .readPixels dst producer length => fitsWord dst && fitsWord producer && fitsWord length

end Sys2Proof
end

