-- ==== Sys2Proof/Decode.lean ====
section
/-!
DEFINITION. Command packets (spec/30_encoding.md R63 to R70, R80): the opcode table, a total decoder from the words of
the command stream, which rejects by name, and the encoder written from the same table.
-/

namespace Sys2Proof

/-- The field `v[lo+width-1 : lo]`, zero-extended (R7). -/
def bits (v : Nat) (lo width : Nat) : Nat := v / 2 ^ lo % 2 ^ width

/-- The seventeen opcodes (R65). -/
inductive Opcode where
  | config | init | release | beginTransaction | endTransaction | wait | busy
  | writeCommand | writeData | writeDataRepeat | writeBytes | writePixels
  | beginRead | endRead | readData | readBytes | readPixels
  deriving DecidableEq, Repr, Inhabited

/-- One row of the table of R65: opcode byte, packet length in words (header included), whether `blen` and `f` are
used. -/
structure OpRow where
  byte : Nat
  len : Nat
  usesBlen : Bool
  usesF : Bool
  deriving DecidableEq, Repr

/-- The opcode table (R65). -/
def Opcode.row : Opcode → OpRow
  | .config => ⟨0x01, 6, false, false⟩
  | .init => ⟨0x02, 1, false, false⟩
  | .release => ⟨0x03, 1, false, false⟩
  | .beginTransaction => ⟨0x04, 1, false, false⟩
  | .endTransaction => ⟨0x05, 1, false, false⟩
  | .wait => ⟨0x06, 1, false, false⟩
  | .busy => ⟨0x07, 1, false, false⟩
  | .writeCommand => ⟨0x10, 2, true, false⟩
  | .writeData => ⟨0x11, 2, true, false⟩
  | .writeDataRepeat => ⟨0x12, 3, true, false⟩
  | .writeBytes => ⟨0x13, 3, false, true⟩
  | .writePixels => ⟨0x14, 3, false, false⟩
  | .beginRead => ⟨0x20, 1, false, false⟩
  | .endRead => ⟨0x21, 1, false, false⟩
  | .readData => ⟨0x22, 1, true, false⟩
  | .readBytes => ⟨0x23, 3, false, true⟩
  | .readPixels => ⟨0x24, 4, false, false⟩

/-- Every opcode, in table order. -/
def Opcode.all : List Opcode :=
  [.config, .init, .release, .beginTransaction, .endTransaction, .wait, .busy,
    .writeCommand, .writeData, .writeDataRepeat, .writeBytes, .writePixels,
    .beginRead, .endRead, .readData, .readBytes, .readPixels]

/-- The opcode a byte names; every other byte names none (R65). -/
def opcodeOf (b : Nat) : Option Opcode := Opcode.all.find? fun o => o.row.byte == b

/-- Why a packet is rejected: the first six make it illegal (R70), `truncated` is the refusal of R80, `empty` is the end
of the stream (R207). -/
inductive Reject where
  | unknownOpcode
  | reservedBits
  | unusedBitLength
  | unusedFlag
  | configReserved
  | truncated
  | empty
  deriving DecidableEq, Repr

/-- Decoding a header word (R64, R70): the opcode, or the reason it is illegal. -/
def checkHeader (h : Word) : Except Reject Opcode :=
  match opcodeOf (bits h.toNat 0 8) with
  | none => .error .unknownOpcode
  | some o =>
    if bits h.toNat 17 15 ≠ 0 then .error .reservedBits
    else if o.row.usesBlen = false ∧ bits h.toNat 8 8 ≠ 0 then .error .unusedBitLength
    else if o.row.usesF = false ∧ bits h.toNat 16 1 ≠ 0 then .error .unusedFlag
    else .ok o

/-- The `k`-th operand word (`w1` is number 0). -/
def operandWord (ws : List Word) (k : Nat) : Word := ws.getD k 0#32

/-- The `k`-th operand as a quantity: the whole word, unsigned (R67). -/
def operandNat (ws : List Word) (k : Nat) : Nat := (operandWord ws k).toNat

/-- The four pin identifiers of a `config` operand word, the first-named in bits `[7:0]` (R66). -/
def pinByte (ws : List Word) (k i : Nat) : Nat := bits (operandNat ws k) (8 * i) 8

/-- Operand assembly (R66, R67): the instruction of a legal header `h` with opcode `o` and operand words `ws`. -/
def assemble (o : Opcode) (h : Word) (ws : List Word) : Except Reject Instr :=
  let blen := bits h.toNat 8 8
  let f := bits h.toNat 16 1 == 1
  match o with
  | .config =>
    if bits (operandNat ws 3) 24 8 ≠ 0 then .error .configReserved
    else .ok (.config (operandNat ws 0)
      #v[pinByte ws 1 0, pinByte ws 1 1, pinByte ws 1 2, pinByte ws 1 3,
         pinByte ws 2 0, pinByte ws 2 1, pinByte ws 2 2, pinByte ws 2 3]
      (pinByte ws 3 0) (pinByte ws 3 1) (pinByte ws 3 2) (operandNat ws 4))
  | .init => .ok .init
  | .release => .ok .release
  | .beginTransaction => .ok .beginTransaction
  | .endTransaction => .ok .endTransaction
  | .wait => .ok .wait
  | .busy => .ok .busy
  | .writeCommand => .ok (.writeCommand (operandWord ws 0) blen)
  | .writeData => .ok (.writeData (operandWord ws 0) blen)
  | .writeDataRepeat => .ok (.writeDataRepeat (operandWord ws 0) blen (operandNat ws 1))
  | .writeBytes => .ok (.writeBytes (operandNat ws 0) (operandNat ws 1) f)
  | .writePixels => .ok (.writePixels (operandNat ws 0) (operandNat ws 1))
  | .beginRead => .ok .beginRead
  | .endRead => .ok .endRead
  | .readData => .ok (.readData blen)
  | .readBytes => .ok (.readBytes (operandNat ws 0) (operandNat ws 1) f)
  | .readPixels => .ok (.readPixels (operandNat ws 0) (operandNat ws 1) (operandNat ws 2))

/-- The decoder, total on every list of words: the instruction of the packet at the head and the words after it, or a
rejection by name.  An illegal header outranks truncation, and truncation the `config` operand check (R80, R185,
R189). -/
def decode : List Word → Except Reject (Instr × List Word)
  | [] => .error .empty
  | h :: ws =>
    match checkHeader h with
    | .error e => .error e
    | .ok o =>
      if ws.length < o.row.len - 1 then .error .truncated
      else
        match assemble o h (ws.take (o.row.len - 1)) with
        | .error e => .error e
        | .ok i => .ok (i, ws.drop (o.row.len - 1))

/-- The instruction at the head of the words, if the decoder reads one. -/
def decodeInstr (ws : List Word) : Option Instr :=
  match decode ws with
  | .ok (i, _) => some i
  | .error _ => none

/-! ## The encoder -/

/-- The opcode of an instruction (R65). -/
def Instr.opcode : Instr → Opcode
  | .config .. => .config
  | .init => .init
  | .release => .release
  | .beginTransaction => .beginTransaction
  | .endTransaction => .endTransaction
  | .wait => .wait
  | .busy => .busy
  | .writeCommand .. => .writeCommand
  | .writeData .. => .writeData
  | .writeDataRepeat .. => .writeDataRepeat
  | .writeBytes .. => .writeBytes
  | .writePixels .. => .writePixels
  | .beginRead => .beginRead
  | .endRead => .endRead
  | .readData .. => .readData
  | .readBytes .. => .readBytes
  | .readPixels .. => .readPixels

/-- `len(opcode)` in words, header included (R64). -/
def Instr.len (i : Instr) : Nat := i.opcode.row.len

/-- A header word from its fields; `rsv` is 0 (R64). -/
def header (o : Opcode) (blen : Nat) (f : Bool) : Word :=
  BitVec.ofNat 32 (o.row.byte + 2 ^ 8 * blen + 2 ^ 16 * f.toNat)

/-- An operand word that carries a quantity whole (R67). -/
def natWord (n : Nat) : Word := BitVec.ofNat 32 n

/-- A `config` operand word of four bytes, the first-named in bits `[7:0]` (R66). -/
def pinsWord (a b c d : Nat) : Word := BitVec.ofNat 32 (a + 2 ^ 8 * b + 2 ^ 16 * c + 2 ^ 24 * d)

/-- The words of an instruction's packet. -/
def encode : Instr → List Word
  | .config inst d pinRD pinWR pinRS freqWrite =>
    [header .config 0 false, natWord inst, pinsWord d[0] d[1] d[2] d[3], pinsWord d[4] d[5] d[6] d[7],
      pinsWord pinRD pinWR pinRS 0, natWord freqWrite]
  | .init => [header .init 0 false]
  | .release => [header .release 0 false]
  | .beginTransaction => [header .beginTransaction 0 false]
  | .endTransaction => [header .endTransaction 0 false]
  | .wait => [header .wait 0 false]
  | .busy => [header .busy 0 false]
  | .writeCommand value blen => [header .writeCommand blen false, value]
  | .writeData value blen => [header .writeData blen false, value]
  | .writeDataRepeat value blen count => [header .writeDataRepeat blen false, value, natWord count]
  | .writeBytes buffer length useDma => [header .writeBytes 0 useDma, natWord buffer, natWord length]
  | .writePixels producer length => [header .writePixels 0 false, natWord producer, natWord length]
  | .beginRead => [header .beginRead 0 false]
  | .endRead => [header .endRead 0 false]
  | .readData blen => [header .readData blen false]
  | .readBytes dst length allowDma => [header .readBytes 0 allowDma, natWord dst, natWord length]
  | .readPixels dst producer length =>
    [header .readPixels 0 false, natWord dst, natWord producer, natWord length]

/-! ## Table words (numbered as spec/opcode_table.json numbers its bits) -/

/-- The longest packet, in words (R64: `config`). -/
def maxPacketWords : Nat := 6

/-- The words of an instruction whose table bits are `w`: word `k` is bits `32k+31 .. 32k`; the bits above `nbits` are
0. -/
def tableWords (nbits w : Nat) : List Word :=
  (List.range maxPacketWords).map fun k => BitVec.ofNat 32 (bits (w % 2 ^ nbits) (32 * k) 32)

/-- The instruction the decoder reads from the table word `w` of `nbits` bits. -/
def decodeTableWord (nbits w : Nat) : Option Instr := decodeInstr (tableWords nbits w)

end Sys2Proof
end

