-- ==== Sys2Proof/Machine/State.lean ====
section
/-!
DEFINITION. The architectural state (spec/10_state.md): the sequencer `S`, the peripheral `P`, the pins `G`, the
environment `E`, host memory `M`, the two traces, the command stream and the launch parameters; the reasons a step can
stop; the state after power-on, for any launch, and `State.reset`.
All of it is plain data.
-/

namespace Sys2Proof.Machine

/-! ## Faults the machine takes (R186) -/

/-- The fault codes of R186, in the order of their numbers 1 to 14.  Taking one writes `S.fault` (R184). -/
inductive FaultCode where
  | illegal | lifecycle | config | noTxn | nested | readMode | notReadMode | operand
  | hazard | fifoOverflow | radioDma | dmaLatch | producer | alloc
  deriving DecidableEq, Repr, Inhabited

/-! ## The sequencer's registers `S` -/

/-- `S.life` (R19). -/
inductive Life where
  | reset | configured | initialised
  deriving DecidableEq, Repr, Inhabited

/-- `S.mode` (R17): `none` before the first transaction. -/
inductive Mode where
  | none | scalar32 | bulk16 | bulk16Dma
  deriving DecidableEq, Repr, Inhabited

/-- The `Config` record (R14). -/
structure Cfg where
  inst : Nat
  /-- `pinD[i]` drives data line `Di` -/
  pinD : Vector Nat 8
  pinRD : Nat
  pinWR : Nat
  pinRS : Nat
  freqWrite : Nat
  deriving DecidableEq, Repr

/-- `S.cache` (R18). -/
structure Cache where
  valid : Bool
  freq : Word
  clkm : ClkmImage
  deriving DecidableEq, Repr, Inhabited

/-- `S.desc`, the descriptor bookkeeping (R13, R34). -/
structure DescBook where
  allocated : Bool
  capacity : Nat
  addr : Word
  deriving DecidableEq, Repr, Inhabited

/-- The micro-operation at which the sequencer is held for good (R10, R208). -/
inductive Hold where
  /-- `WaitIdle`: the idle flag never reads 1 (R109) -/
  | waitIdle
  /-- `PollIdle` with `P_START_LATCH`: the start is never latched (R108) -/
  | pollIdle
  /-- `Spin(K_DMA)` with `P_DMA_LATCH`: the descriptor is never latched (R98) -/
  | spinDma
  /-- `MemRead` outside `Adm` (R47) -/
  | memRead (addr : Nat)
  /-- `MemWrite` outside `Adm` (R47) -/
  | memWrite (addr : Nat)
  deriving DecidableEq, Repr, Inhabited

/-- The sequencer's registers (R13), its two private buffers (R35), the binding of the register handles (R129), and the
model's own mark `hold`. -/
structure Sequencer where
  life : Life
  cfg : Cfg
  txn : Bool
  read : Bool
  mode : Mode
  cache : Cache
  res : Word
  pc : Nat
  desc : DescBook
  /-- which scratch copy the next DMA load fills: `false` is copy 0 -/
  flip : Bool
  fault : Option (FaultCode × Nat)
  refused : Bool
  /-- `S.pixbuf`: the bytes the last pull wrote, at most 512 -/
  pixbuf : List Byte
  /-- `S.rdbuf`: the bytes read so far of the current read batch, at most 32 -/
  rdbuf : List Byte
  /-- the instance the register handles are bound to, none before `init` -/
  handles : Option Nat
  /-- the model's own: the micro-operation at which the sequencer is held with nothing left to lift the hold -/
  hold : Option Hold
  deriving DecidableEq, Repr

/-! ## The peripheral `P` -/

/-- `GATE` (R30). -/
structure Gate where
  clockOn : Bool
  resetReleased : Bool
  deriving DecidableEq, Repr, Inhabited

/-- `P.tx` (R32). -/
structure Tx where
  running : Bool
  latchPending : Bool
  deriving DecidableEq, Repr, Inhabited

/-- `P.dma` (R33); `buf = false` is scratch copy 0. -/
structure Dma where
  loaded : Bool
  latched : Bool
  stream : List Sample
  buf : Bool
  deriving DecidableEq, Repr, Inhabited

/-- The peripheral: register images, clock gate, FIFO, transmitter, DMA engine, descriptor, scratch copies. -/
structure Peripheral where
  regs : Regs
  /-- the registers `InitPeripheralMode` wrote, (address, value) in the order written (R201, D43) -/
  modeRegs : List (Word × Word)
  gate : Gate
  /-- transmit FIFO, oldest word first (R31) -/
  fifo : List Word
  tx : Tx
  dma : Dma
  desc : Descriptor
  scratch0 : List Sample
  scratch1 : List Sample
  deriving DecidableEq, Repr, Inhabited

/-! ## The pins `G` (R36) -/

/-- The eleven roles; `d i` is data line `Di`. -/
inductive Role where
  | d (i : Fin 8) | rd | wr | rs
  deriving DecidableEq, Repr, Inhabited

inductive Dir where
  | input | output
  deriving DecidableEq, Repr, Inhabited

/-- What drives a pad: its GPIO level, parallel-output slot `k`, the inverted word clock, or nothing. -/
inductive Route where
  | gpio | parOut (k : Nat) | wordClkInv | null
  deriving DecidableEq, Repr, Inhabited

structure Pad where
  claimed : Bool
  dir : Dir
  /-- output level; `true` is 1 -/
  level : Bool
  route : Route
  deriving DecidableEq, Repr, Inhabited

structure Pads where
  d : Vector Pad 8
  rd : Pad
  wr : Pad
  rs : Pad
  deriving DecidableEq, Repr

/-! ## Traces (R37) -/

/-- A bus event: a write cycle, or a GPIO level change. -/
inductive BusEvent where
  | wr (rs : Bool) (d : Byte)
  | lvl (r : Role) (l : Bool)
  deriving DecidableEq, Repr, Inhabited

/-- What a `RegWrite` writes: a register and its image (the word is the image's OPEN encoding, R21). -/
inductive RegImage where
  | src (width : Width)
  | fconf (image : FconfImage)
  | clkm (image : ClkmImage)
  | outlink (image : OutlinkImage)
  | intEna (value : Word)
  deriving DecidableEq, Repr, Inhabited

/-- The micro-operation events of `hist` (spec/41_micro_ops.md). -/
inductive Event where
  | regWr (image : RegImage)
  /-- one register write of `InitPeripheralMode` (D43) -/
  | modeWr (addr value : Word)
  | push (w : Word)
  | start
  | poll (idle : Bool)
  | wait
  | spin (k : Nat)
  | claim (r : Role)
  | level (r : Role) (l : Bool)
  | dir (r : Role) (d : Dir)
  | route (r : Role) (s : Route)
  | sample (w : Word)
  | clock (f : Word)
  | alloc (n : Nat) (addr : Word)
  | free (addr : Word)
  | bufWr (copy : Bool) (n : Nat)
  | descWr (d : Descriptor)
  | pull (producer start stop next : Nat)
  | radio (on : Bool)
  | gate
  | mRd (addr : Nat) (v : Byte)
  | mWr (addr : Nat) (v : Byte)
  deriving DecidableEq, Repr, Inhabited

/-! ## The environment `E` (R39) -/

/-- One answer of a pixel producer to a pull (R120): the next index it reports, the bytes it writes into `S.pixbuf` (write
direction), and the host-memory bytes it stores itself (read direction: the caller's destination). -/
structure PullAnswer where
  next : Nat
  bytes : List Byte
  stores : List Host.Cell
  deriving DecidableEq, Repr, Inhabited

/-- A pixel producer: its handle, its constant destination bit depth, its answers to come. -/
structure Producer where
  handle : Nat
  depth : Nat
  answers : List PullAnswer
  deriving DecidableEq, Repr, Inhabited

/-- The display device (R177): the raw words it presents, in order; with `loopback = some q` it is the loopback device of
R178 with queue `q`, which fixes the data-pin bits of each raw word while `q` is not empty. -/
structure Device where
  script : List Word
  loopback : Option (List Byte)
  deriving DecidableEq, Repr, Inhabited

/-- What was handed to a producer in the read direction (R120): the pixels `start .. stop-1` of destination `dst`. -/
structure Handover where
  producer : Nat
  dst : Nat
  start : Nat
  stop : Nat
  bytes : List Byte
  deriving DecidableEq, Repr, Inhabited

/-- One move of the interleaving (R102): the sequencer's next micro-operation, one transmitter step, one DMA engine step,
or an environment step. -/
inductive Move where
  | seq
  | tx
  | dma
  | radio (clkEn : Word)
  | clkm (image : ClkmImage)
  deriving DecidableEq, Repr, Inhabited

/-- The environment: what it answers and which agent moves next, as lists the step reads. -/
structure Env where
  /-- answers of `QueryBusClock` to come, in Hz -/
  busClock : List Word
  /-- the radio's clock-enable bits -/
  radioClkEn : Word
  device : Device
  producers : List Producer
  /-- the allocator's answers to come: an address, or failure -/
  allocs : List (Option Word)
  /-- what the producers were handed, oldest first -/
  handed : List Handover
  /-- the interleaving to come; when it is used up the sequencer moves, and the peripheral moves as R100 says -/
  sched : List Move
  /-- the model's own: how many free values have been drawn -/
  drawn : Nat
  deriving DecidableEq, Repr, Inhabited

/-- Host memory (R47): (address, byte) pairs, addresses strictly rising, no pair whose byte is what an unlisted address
reads as. -/
abbrev Memory := List Host.Cell

/-! ## The state -/

structure State where
  S : Sequencer
  P : Peripheral
  G : Pads
  E : Env
  M : Memory
  bus : List BusEvent
  /-- every micro-operation, in order, with the command pointer (R124) -/
  hist : List (Nat × Event)
  /-- the command stream (R46) -/
  stream : List Word
  /-- the launch parameters (R6, R212) -/
  par : Params
  deriving DecidableEq, Repr

/-! ## Why a step has no next state -/

/-- The machine takes no step any more.  Every one of these is raised by the step function alone, in a state where the spec
gives no agent a step, or no step that must be taken (log entry 19); no instruction's meaning ends in one. -/
inductive Fault where
  /-- `S.fault` is set: the state is frozen (R184).  Raised by step.  Safe: the spec gives no step there. -/
  | stopped (code : FaultCode) (pc : Nat)
  /-- The sequencer is held for good (R10, R208): no step lifts the hold, or the peripheral's steps that would are never
  taken without `HW_PROGRESS` (R100).  Raised by step.  Safe. -/
  | held (h : Hold)
  /-- The stream has ended or its last packet was refused, and a peripheral step is enabled that, without `HW_PROGRESS`, is
  never taken (R100).  Raised by step.  Safe. -/
  | stalled
  /-- The stream has ended and no agent has an enabled step: the final observation (R207).  Raised by step.  Safe. -/
  | runComplete
  deriving DecidableEq, Repr

/-- The machine refuses. -/
inductive Refusal where
  /-- exec has no meaning for the instruction yet.  Raised by exec's refused arms only.  Safe. -/
  | notModelled (mnemonic : String)
  /-- `S.refused` is set: the last packet is truncated (R80, R207), and no agent has an enabled step left; while one is
  left and never taken step answers `stalled`.  Raised by step.  Safe. -/
  | truncatedPacket
  deriving DecidableEq, Repr

/-! ## Power-on (R41, R198, R199) -/

/-- What a launch supplies (R212). -/
structure Launch where
  par : Params
  stream : List Word
  mem : Memory
  env : Env
  deriving DecidableEq, Repr

/-- The direction, level and route of a pad at power-on, unspecified (R41, D56). -/
structure PadResidue where
  dir : Dir
  level : Bool
  route : Route
  deriving DecidableEq, Repr, Inhabited

/-- The fields whose power-on value R41 leaves unspecified. -/
structure Residue where
  cfg : Cfg
  cacheFreq : Word
  cacheClkm : ClkmImage
  res : Word
  descAddr : Word
  regs : Regs
  dmaBuf : Bool
  desc : Descriptor
  scratch0 : List Sample
  scratch1 : List Sample
  padD : Vector PadResidue 8
  padRD : PadResidue
  padWR : PadResidue
  padRS : PadResidue
  deriving DecidableEq, Repr

/-- A pad at power-on: not claimed, the rest unspecified (R41). -/
def PadResidue.pad (p : PadResidue) : Pad := ⟨false, p.dir, p.level, p.route⟩

/-- The state at power-on, for any launch and any unspecified contents: every field R41 fixes at the value it gives. -/
def State.powerOn (l : Launch) (u : Residue) : State where
  S := {
    life := .reset, cfg := u.cfg, txn := false, read := false, mode := .none,
    cache := ⟨false, u.cacheFreq, u.cacheClkm⟩, res := u.res, pc := 0,
    desc := ⟨false, 0, u.descAddr⟩, flip := false, fault := none, refused := false,
    pixbuf := [], rdbuf := [], handles := none, hold := none }
  P := {
    regs := u.regs, modeRegs := [], gate := ⟨false, false⟩, fifo := [], tx := ⟨false, false⟩,
    dma := ⟨false, false, [], u.dmaBuf⟩, desc := u.desc, scratch0 := u.scratch0, scratch1 := u.scratch1 }
  G := ⟨u.padD.map PadResidue.pad, u.padRD.pad, u.padWR.pad, u.padRS.pad⟩
  E := l.env
  M := l.mem
  bus := []
  hist := []
  stream := l.stream
  par := l.par

/-- DESIGN CHOICE (log entry 2): the unspecified fields all zero, false, empty or input.  Unsafe: a claim about
`State.reset` alone could lean on them. -/
def Residue.zero : Residue where
  cfg := ⟨0, Vector.replicate 8 0, 0, 0, 0, 0⟩
  cacheFreq := 0#32
  cacheClkm := ⟨false, 0, 0, 0⟩
  res := 0#32
  descAddr := 0#32
  regs := ⟨⟨false, 0, 0, 0⟩, .w16, ⟨.scalar, false⟩, false, ⟨0#32, false⟩, 0#32⟩
  dmaBuf := false
  desc := ⟨0#32, 0, 0, false, false, 0#32⟩
  scratch0 := []
  scratch1 := []
  padD := Vector.replicate 8 ⟨.input, false, .gpio⟩
  padRD := ⟨.input, false, .gpio⟩
  padWR := ⟨.input, false, .gpio⟩
  padRS := ⟨.input, false, .gpio⟩

/-- The parameters of the common launch L0 (spec/95_test_vectors.md section 3).  DESIGN CHOICE (log entry 3) for those L0
leaves open: spin counts, fractional fields and `INT_ENA_VALUE` 0, no `InitPeripheralMode` writes, scratch copies at 0
and 512. -/
def Params.l0 : Params where
  fifoDepth := 32
  kRepeat := 0
  kBytes := 0
  kDma := 0
  tDma := 64
  pStartLatch := true
  pDmaLatch := true
  fracA := 0
  fracB := 0
  intEnaValue := 0#32
  instances := [0]
  numGpio := 40
  initMode := []
  scratchAddr0 := 0#32
  scratchAddr1 := 512#32
  adm := [(0x1000, 0x100), (0x2000, 0x100)]
  hwProgress := true

/-- An environment that lists no answer (every draw is a free value), with the radio off and no interleaving listed.
DESIGN CHOICE (log entry 3). -/
def Env.free : Env where
  busClock := []
  radioClkEn := 0#32
  device := ⟨[], none⟩
  producers := []
  allocs := []
  handed := []
  sched := []
  drawn := 0

/-- The machine right after reset: power-on (R198) with an empty command stream, no host memory listed and the parameters
of L0. -/
def State.reset : State := State.powerOn ⟨Params.l0, [], [], Env.free⟩ Residue.zero

end Sys2Proof.Machine
end

