-- ==== Sys2Proof/Machine/Operands.lean ====
section
/-!
DEFINITION. The pure functions of the operands and of the transmit formats: arithmetic (spec/00_scope.md R8), the source's
constants (R6), operand legality (R14, R68), transmit words and samples (spec/30_encoding.md R71 to R79), the clock
divider (R134) and the read path's bit unscrambling (R175).
-/

namespace Sys2Proof.Machine

/-! ## Arithmetic (R8) -/

/-- `ceil8(b) = (b + 7) div 8`. -/
def ceil8 (b : Nat) : Nat := (b + 7) / 8

/-- `clamp(x, lo, hi) = min(max(x, lo), hi)`. -/
def clamp (x lo hi : Nat) : Nat := min (max x lo) hi

/-! ## The source's constants (R6) -/

def divMin : Nat := 4
def divMax : Nat := 32
/-- `REP_BATCH2` -/
def repBatch2 : Nat := 32
/-- `REP_BATCH3` -/
def repBatch3 : Nat := 10
def bytesBatch : Nat := 32
def dmaLoadMin : Nat := 64
def dmaLoadMax : Nat := 256
def pixLimit2 : Nat := 256
def pixLimit3 : Nat := 170
def rdBatch2 : Nat := 16
def rdBatch3 : Nat := 10

/-! ## Operand legality -/

/-- The legal bit lengths of `writeCommand`, `writeData`, `readData` (R68). -/
def legalBitLength (blen : Nat) : Bool := decide (blen ≤ 32)

/-- The legal bit lengths of `writeDataRepeat`: a pixel of 2 or 3 bytes (R68). -/
def legalRepeatLength (blen : Nat) : Bool := ceil8 blen == 2 || ceil8 blen == 3

/-- The bytes a scalar transfer of `blen` bits moves: rounded up, at least one (R147, R172). -/
def scalarBytes (blen : Nat) : Nat := max 1 (ceil8 blen)

/-- The eleven pin identifiers of a configuration, data lines first. -/
def Cfg.pins (c : Cfg) : List Nat := c.pinD.toList ++ [c.pinRD, c.pinWR, c.pinRS]

/-- No two entries are equal. -/
def pairwiseDistinct : List Nat → Bool
  | [] => true
  | p :: ps => !ps.contains p && pairwiseDistinct ps

/-- The validity check of a configuration (R14). -/
def Cfg.valid (c : Cfg) (p : Params) : Bool :=
  pairwiseDistinct c.pins && c.pins.all (fun k => decide (k < p.numGpio)) &&
    c.pinD.toList.all (fun k => decide (k < 32)) && p.instances.contains c.inst &&
    decide (1 ≤ c.freqWrite) && decide (c.freqWrite ≤ 2 ^ 32 - 2)

/-- The number of a fault code (R186). -/
def FaultCode.number : FaultCode → Nat
  | .illegal => 1
  | .lifecycle => 2
  | .config => 3
  | .noTxn => 4
  | .nested => 5
  | .readMode => 6
  | .notReadMode => 7
  | .operand => 8
  | .hazard => 9
  | .fifoOverflow => 10
  | .radioDma => 11
  | .dmaLatch => 12
  | .producer => 13
  | .alloc => 14

/-! ## Producers (R120) -/

/-- `p` names a producer of the environment: the first one listed under the handle. -/
def Env.producer (e : Env) (p : Nat) : Option Producer := e.producers.find? fun q => q.handle == p

/-- `bpp(p) = ceil8(depth(p))`, 0 for an unknown handle. -/
def Env.bpp (e : Env) (p : Nat) : Nat :=
  match e.producer p with
  | none => 0
  | some q => ceil8 q.depth

/-! ## Bytes, samples and transmit words -/

/-- `v[8i+7 : 8i]`. -/
def byteOf (v : Word) (i : Nat) : Byte := v.extractLsb' (8 * i) 8

/-- `(t << 8) | b`: a byte with the register-select tag at sample bit 8 (R71). -/
def tagged (t : Bool) (b : Byte) : Sample := (BitVec.ofBool t).zeroExtend 16 <<< 8 ||| b.zeroExtend 16

/-- The scalar transmit word `WS(t, b)` (R72). -/
def WS (t : Bool) (b : Byte) : Word := (tagged t b).zeroExtend 32 <<< 16

/-- The bulk transmit word `WB(b0, b1)`, both samples tagged as data (R74). -/
def WB (b0 b1 : Byte) : Word := (tagged true b0).zeroExtend 32 <<< 16 ||| (tagged true b1).zeroExtend 32

/-- `WR2(c)` (R75). -/
def WR2 (c : Word) : Word := WB (byteOf c 0) (byteOf c 1)

/-- `WR3a(c)`, `WR3b(c)`, `WR3c(c)`, in push order (R75). -/
def WR3 (c : Word) : List Word :=
  [WB (byteOf c 0) (byteOf c 1), WB (byteOf c 2) (byteOf c 0), WB (byteOf c 1) (byteOf c 2)]

/-- The DMA sample `SD(b)` (R76). -/
def SD (b : Byte) : Sample := tagged true b

/-- The samples one transmit word produces, in order: its high half in 32-bit width (R73), both halves, high first, in
16-bit width (R74). -/
def samplesOf (width : Width) (w : Word) : List Sample :=
  match width with
  | .w32 => [w.extractLsb' 16 16]
  | .w16 => [w.extractLsb' 16 16, w.extractLsb' 0 16]

/-- The bus write cycle of a sample: `RS = h[8]`, `Di = h[i]` (R71, R90). -/
def cycleOf (h : Sample) : BusEvent := .wr (h.getLsbD 8) (h.extractLsb' 0 8)

/-! ## Register images (R77 to R79) -/

/-- `ClkmImage(d)` (R78). -/
def clkmImage (p : Params) (d : Nat) : ClkmImage := ⟨true, p.fracA, p.fracB, d⟩

/-- The `SRC` image of a mode (R79); `none` has none and takes the 32-bit one. -/
def Mode.width : Mode → Width
  | .none => .w32
  | .scalar32 => .w32
  | .bulk16 => .w16
  | .bulk16Dma => .w16

/-- The `FCONF` image of a mode (R79). -/
def Mode.fconf : Mode → FconfImage
  | .none => ⟨.scalar, false⟩
  | .scalar32 => ⟨.scalar, false⟩
  | .bulk16 => ⟨.bulk, false⟩
  | .bulk16Dma => ⟨.dma, true⟩

/-- The register a `RegWrite` writes. -/
def RegImage.reg : RegImage → Reg
  | .src _ => .src
  | .fconf _ => .fconf
  | .clkm _ => .clkm
  | .outlink _ => .outlink
  | .intEna _ => .intEna

/-- The 32-bit value a `RegWrite` moves: the image under its OPEN encoder (R55, R21). -/
def RegImage.word : RegImage → Word
  | .src w => Config.srcEncode w
  | .fconf f => Config.fcEncode f
  | .clkm c => Config.clkmEncode c
  | .outlink o => Config.outlinkEncode o
  | .intEna v => v

/-- The address of a register under the handles bound at `init` (R43, R129): none before. -/
def Sequencer.regAddr (s : Sequencer) (r : Reg) : Option Word := s.handles.map fun i => Config.regAddr i r

/-- The descriptor of a load of `n` bus bytes from the scratch copy at `bufAddr` (R77, R163). -/
def loadDescriptor (bufAddr : Word) (n : Nat) : Descriptor := ⟨bufAddr, 2 * n, 2 * n, true, true, 0#32⟩

/-- `scratchAddr(k)` (R35). -/
def Params.scratchAddr (p : Params) (copy : Bool) : Word := if copy then p.scratchAddr1 else p.scratchAddr0

/-- The scratch copy a descriptor's `bufAddr` names (R118). -/
def Params.copyAt (p : Params) (a : Word) : Bool := a == p.scratchAddr1

/-! ## Clock divider (R134) -/

/-- `divider(f, w) = clamp(1 + f div (1 + w), DIV_MIN, DIV_MAX)`. -/
def divider (f w : Nat) : Nat := clamp (1 + f / (1 + w)) divMin divMax

/-! ## Batches -/

/-- The leading batch of `n` units in batches of `b`: `((n - 1) mod b) + 1` (R153 to R155, R159). -/
def leadingBatch (n b : Nat) : Nat := (n - 1) % b + 1

/-- The pixels per chunk of `writePixels` (R167). -/
def pixLimit (bpp : Nat) : Nat := if bpp = 2 then pixLimit2 else pixLimit3

/-- The leading chunk of `length` pixels: `length mod limit`, or a full chunk (R167). -/
def leadingChunk (length limit : Nat) : Nat := if length % limit = 0 then limit else length % limit

/-- The pixels per batch of `readPixels` (R176). -/
def rdBatch (bpp : Nat) : Nat := if bpp = 2 then rdBatch2 else rdBatch3

/-! ## Raw GPIO words -/

/-- Bit `k` of a raw word: the input level of pad `k`, for `k < 32` (R81). -/
def rawBit (w : Word) (k : Nat) : Bool := w.getLsbD k

/-- `Unscramble(w) = Σ w[pinD[i]] << i` (R175). -/
def unscramble (pinD : Vector Nat 8) (w : Word) : Byte :=
  BitVec.ofNat 8 ((List.finRange 8).map fun i => (rawBit w pinD[i]).toNat * 2 ^ i.val).sum

/-- `w` with bit `k` set to `v`. -/
def putBit (w : Word) (k : Nat) (v : Bool) : Word :=
  if v then w ||| 1#32 <<< k else w &&& ~~~(1#32 <<< k)

/-- A raw word whose data-pin bits carry the byte `b` and whose other bits are those of `w` (R178). -/
def scramble (pinD : Vector Nat 8) (b : Byte) (w : Word) : Word :=
  (List.finRange 8).foldl (fun acc i => putBit acc pinD[i] (b.getLsbD i.val)) w

end Sys2Proof.Machine
end

