-- ==== Sys2Proof/Machine/Flags.lean ====
section
/-!
DEFINITION. The one status flag, `STATE.idle` (spec/10_state.md R26, R40; spec/40_peripheral_agents.md R93), and the
conditions on the peripheral and the pins that other rules test.
-/

namespace Sys2Proof.Machine

/-- `STATE.idle = ¬P.tx.running ∨ P.tx.latchPending` (R93). -/
def State.idleFlag (s : State) : Bool := !s.P.tx.running || s.P.tx.latchPending

/-- A poll of the idle flag does not hold (R94, R108). -/
def State.pollReady (s : State) : Bool := !(s.par.pStartLatch && s.P.tx.latchPending)

/-- `PollIdle` would return 1 (R109). -/
def State.waitReady (s : State) : Bool := s.pollReady && s.idleFlag

/-- `Spin(K_DMA)` does not hold (R98, R110). -/
def State.dmaSpinReady (s : State) : Bool := !s.par.pDmaLatch || s.P.dma.latched

/-- Host address `a` is in the admitted region (R47); an address of 2^32 or more never is. -/
def Params.admits (p : Params) (a : Nat) : Bool :=
  decide (a < 2 ^ 32) && p.adm.any fun r => decide (r.1 ≤ a) && decide (a < r.1 + r.2)

/-- The pins are in write routing (R90). -/
def Pads.writeRouting (g : Pads) : Bool :=
  (List.finRange 8).all (fun i => g.d[i].route == .parOut i.val) && g.rs.route == .parOut 8 &&
    g.wr.route == .wordClkInv

/-- The radio's clock-enable bits are not zero (R99, R121). -/
def State.radioOn (s : State) : Bool := s.E.radioClkEn != 0#32

end Sys2Proof.Machine
end

