-- ==== Sys2Proof/Machine/Ops.lean ====
section
/-!
DEFINITION. The named operations over the state: taking a fault, host memory, pads, buffers, traces and the
environment's answers.  Every reader and writer of a field goes through these.
-/

namespace Sys2Proof.Machine

/-! ## Host memory (R47) -/

/-- What a host-memory byte that nothing has written reads as.  DESIGN CHOICE (log entry 4), unsafe: R212 has the launch
supply the contents, which a launch lists; an unlisted byte is 0. -/
def Memory.unlisted : Byte := 0#8

/-- The byte at an address. -/
def Memory.read : Memory → Nat → Byte
  | [], _ => Memory.unlisted
  | (a', b) :: m, a => if a = a' then b else Memory.read m a

/-- Storing a byte; the canonical form is kept: storing what an unlisted address reads as removes the entry. -/
def Memory.write : Memory → Nat → Byte → Memory
  | [], a, b => if b = Memory.unlisted then [] else [(a, b)]
  | (a', b') :: m, a, b =>
    if a = a' then (if b = Memory.unlisted then m else (a, b) :: m)
    else if a < a' then (if b = Memory.unlisted then (a', b') :: m else (a, b) :: (a', b') :: m)
    else (a', b') :: Memory.write m a b

/-- Every address of the list is above `lo`, rising, and no entry is what an unlisted address reads as. -/
def Memory.wfFrom : Nat → Memory → Bool
  | _, [] => true
  | lo, (a, b) :: m => decide (lo ≤ a) && decide (b ≠ Memory.unlisted) && Memory.wfFrom (a + 1) m

/-- The canonical form of host memory. -/
def Memory.wf (m : Memory) : Bool := Memory.wfFrom 0 m

/-- Storing a list of bytes in order; addresses of 2^32 or more do not exist and are passed over (R47). -/
def Memory.writeAll (m : Memory) : List Host.Cell → Memory
  | [] => m
  | c :: cs => Memory.writeAll (if c.1 < 2 ^ 32 then m.write c.1 c.2 else m) cs

/-! ## Faults and the command pointer -/

/-- Taking a fault (R184, R190): `S.fault <- (code, S.pc)` and nothing else.  There is no handler, no vector and no
return (R191), so no operation returns from it. -/
def State.takeFault (s : State) (c : FaultCode) : State := { s with S := { s.S with fault := some (c, s.S.pc) } }

/-- The sequencer is held at a micro-operation that nothing will let go on (R208): no other effect. -/
def State.setHold (s : State) (h : Hold) : State := { s with S := { s.S with hold := some h } }

/-- A truncated packet (R80): `S.refused <- true` and nothing else. -/
def State.refuse (s : State) : State := { s with S := { s.S with refused := true } }

/-- `S.pc <- S.pc + n` (R16). -/
def State.advance (s : State) (n : Nat) : State := { s with S := { s.S with pc := s.S.pc + n } }

/-! ## Traces (R37): both only grow -/

/-- `emit(e)`: the event with the command pointer (R124). -/
def State.emit (s : State) (e : Event) : State := { s with hist := s.hist ++ [(s.S.pc, e)] }

/-- A bus event. -/
def State.pushBus (s : State) (e : BusEvent) : State := { s with bus := s.bus ++ [e] }

/-! ## Sequencer registers -/

def State.setLife (s : State) (v : Life) : State := { s with S := { s.S with life := v } }
def State.setCfg (s : State) (v : Cfg) : State := { s with S := { s.S with cfg := v } }
def State.setTxn (s : State) (v : Bool) : State := { s with S := { s.S with txn := v } }
def State.setRead (s : State) (v : Bool) : State := { s with S := { s.S with read := v } }
def State.setMode (s : State) (v : Mode) : State := { s with S := { s.S with mode := v } }
def State.setCache (s : State) (v : Cache) : State := { s with S := { s.S with cache := v } }
def State.setRes (s : State) (v : Word) : State := { s with S := { s.S with res := v } }
def State.setDesc (s : State) (v : DescBook) : State := { s with S := { s.S with desc := v } }
def State.setFlip (s : State) (v : Bool) : State := { s with S := { s.S with flip := v } }
def State.setPixbuf (s : State) (v : List Byte) : State := { s with S := { s.S with pixbuf := v } }
def State.setRdbuf (s : State) (v : List Byte) : State := { s with S := { s.S with rdbuf := v } }
def State.setHandles (s : State) (v : Option Nat) : State := { s with S := { s.S with handles := v } }

/-! ## Peripheral -/

def State.setRegs (s : State) (v : Regs) : State := { s with P := { s.P with regs := v } }
def State.setModeRegs (s : State) (v : List (Word × Word)) : State := { s with P := { s.P with modeRegs := v } }
def State.setGate (s : State) (v : Gate) : State := { s with P := { s.P with gate := v } }
def State.setFifo (s : State) (v : List Word) : State := { s with P := { s.P with fifo := v } }
def State.setTx (s : State) (v : Tx) : State := { s with P := { s.P with tx := v } }
def State.setDma (s : State) (v : Dma) : State := { s with P := { s.P with dma := v } }
def State.setDescriptor (s : State) (v : Descriptor) : State := { s with P := { s.P with desc := v } }

/-- Scratch copy `copy` (R35). -/
def Peripheral.scratch (p : Peripheral) (copy : Bool) : List Sample := if copy then p.scratch1 else p.scratch0

/-- Overwriting scratch copy `copy`. -/
def State.setScratch (s : State) (copy : Bool) (v : List Sample) : State :=
  if copy then { s with P := { s.P with scratch1 := v } } else { s with P := { s.P with scratch0 := v } }

/-- `image(r) <- v` (R105). -/
def Regs.put (r : Regs) : RegImage → Regs
  | .src w => { r with src := w }
  | .fconf f => { r with fconf := f }
  | .clkm c => { r with clkm := c }
  | .outlink o => { r with outlink := o }
  | .intEna v => { r with intEna := v }

/-! ## Pads (R36) -/

/-- `G[r]`. -/
def Pads.get (g : Pads) : Role → Pad
  | .d i => g.d[i]
  | .rd => g.rd
  | .wr => g.wr
  | .rs => g.rs

/-- `G[r] <- p`. -/
def Pads.put (g : Pads) (r : Role) (p : Pad) : Pads :=
  match r with
  | .d i => { g with d := g.d.set i p }
  | .rd => { g with rd := p }
  | .wr => { g with wr := p }
  | .rs => { g with rs := p }

def State.setPad (s : State) (r : Role) (p : Pad) : State := { s with G := s.G.put r p }

/-- The roles a running transmission drives: all but `RD` (R104). -/
def Role.driven : Role → Bool
  | .d _ => true
  | .rd => false
  | .wr => true
  | .rs => true

/-- The data lines in order. -/
def dataRoles : List Role := (List.finRange 8).map Role.d

/-! ## Environment -/

def State.setSched (s : State) (v : List Move) : State := { s with E := { s.E with sched := v } }
def State.setRadio (s : State) (v : Word) : State := { s with E := { s.E with radioClkEn := v } }
def State.setDevice (s : State) (v : Device) : State := { s with E := { s.E with device := v } }
def State.setBusClock (s : State) (v : List Word) : State := { s with E := { s.E with busClock := v } }
def State.setAllocs (s : State) (v : List (Option Word)) : State := { s with E := { s.E with allocs := v } }
def State.setProducers (s : State) (v : List Producer) : State := { s with E := { s.E with producers := v } }
def State.setHanded (s : State) (v : List Handover) : State := { s with E := { s.E with handed := v } }
def State.setMem (s : State) (v : Memory) : State := { s with M := v }

/-- One more free value has been drawn. -/
def State.drew (s : State) : State := { s with E := { s.E with drawn := s.E.drawn + 1 } }

/-- The loopback device queues the byte of a data cycle, and no other (R178). -/
def Device.onCycle (d : Device) : BusEvent → Device
  | .wr true b => { d with loopback := d.loopback.map (· ++ [b]) }
  | .wr false _ => d
  | .lvl _ _ => d

/-- The loopback device drops the head of its queue at a falling edge of `RD` (R178). -/
def Device.onFallingRD (d : Device) : Device := { d with loopback := d.loopback.map List.tail }

/-- The raw word the device presents (R114, R177): the next scripted word, else a free value; the loopback device fixes
the data-pin bits while its queue is not empty (R178). -/
def State.rawWord (s : State) : Word :=
  let base := s.E.device.script.headD (Config.freeRaw s.E.drawn)
  match s.E.device.loopback with
  | some (b :: _) => scramble s.S.cfg.pinD b base
  | some [] => base
  | none => base

/-- The device after a sample: one scripted word is used up, or one free value is drawn. -/
def State.afterRaw (s : State) : State :=
  match s.E.device.script with
  | [] => s.drew
  | _ :: ws => s.setDevice { s.E.device with script := ws }

/-- The bus-clock answer (R115): the next listed one, else a free value. -/
def State.clockAnswer (s : State) : Word := s.E.busClock.headD (Config.freeClock s.E.drawn)

def State.afterClock (s : State) : State :=
  match s.E.busClock with
  | [] => s.drew
  | _ :: fs => s.setBusClock fs

/-- The allocator's answer (R116): the next listed one, else a free value, which may be a failure. -/
def State.allocAnswer (s : State) : Option Word := s.E.allocs.headD (Config.freeAlloc s.E.drawn)

def State.afterAlloc (s : State) : State :=
  match s.E.allocs with
  | [] => s.drew
  | _ :: as => s.setAllocs as

/-- The answer of producer `p` to its next pull (R120): the next listed one, else one that reports a free next index and
lists no bytes. -/
def State.pullAnswer (s : State) (p : Nat) : PullAnswer :=
  match (s.E.producer p).bind fun q => q.answers.head? with
  | some a => a
  | none => ⟨Config.freeNext s.E.drawn, [], []⟩

/-- The producers after `p` (the first one listed under the handle) has answered once. -/
def dropAnswer (p : Nat) : List Producer → List Producer
  | [] => []
  | q :: qs => if q.handle == p then { q with answers := q.answers.tail } :: qs else q :: dropAnswer p qs

/-- The state after producer `p` has answered once. -/
def State.afterPull (s : State) (p : Nat) : State := (s.setProducers (dropAnswer p s.E.producers)).drew

/-- The first `n` bytes of an answer; a byte it does not list is a free value. -/
def State.answerBytes (s : State) (a : PullAnswer) (n : Nat) : List Byte :=
  (List.range n).map fun j => (a.bytes[j]?).getD (Config.freeByte s.E.drawn j)

end Sys2Proof.Machine
end

