-- ==== Sys2Proof/Machine/Agents.lean ====
section
/-!
DEFINITION. The agents beside the sequencer (spec/40_peripheral_agents.md): the transmitter, the DMA engine and the
environment, each one atomic step; and how their steps fall between the sequencer's micro-operations (R56, R100, R102).
-/

namespace Sys2Proof.Machine

/-! ## Transmitter -/

/-- A bus write cycle (R90): emitted while the pins are in write routing; the device sees it. -/
def State.cycle (s : State) (h : Sample) : State :=
  if s.G.writeRouting then (s.pushBus (cycleOf h)).setDevice (s.E.device.onCycle (cycleOf h)) else s

/-- The cycles of a list of samples, in order. -/
def State.cycles (s : State) : List Sample → State
  | [] => s
  | h :: hs => (s.cycle h).cycles hs

/-- The finish step's effect (R91). -/
def State.finish (s : State) : State :=
  let t := s.setTx { s.P.tx with running := false }
  if s.P.regs.fconf.dscrEn then
    (t.setDma { s.P.dma with loaded := false, latched := false }).setDescriptor { s.P.desc with owner := false }
  else t

/-- The transmitter's step, if one is enabled: latch (R87), FIFO drain (R88), DMA drain (R89, with the radio errata of
R99) or finish (R91).  At most one of them is enabled. -/
def txStep (s : State) : Option State :=
  if s.P.tx.latchPending then some (s.setTx { s.P.tx with latchPending := false })
  else if s.P.tx.running then
    if s.P.regs.fconf.dscrEn then
      if s.P.dma.latched then
        match s.P.dma.stream with
        | h :: hs =>
          some (if s.radioOn then s.takeFault .radioDma else (s.setDma { s.P.dma with stream := hs }).cycle h)
        | [] => some s.finish
      else if s.P.dma.loaded then none
      else some s.finish
    else
      match s.P.fifo with
      | w :: ws => some ((s.setFifo ws).cycles (samplesOf s.P.regs.src w))
      | [] => some s.finish
  else none

/-! ## DMA engine -/

/-- The DMA latch step, if enabled (R97, R99).  The engine fetches the descriptor only while `FCONF.dscrEn = 1` (R118). -/
def dmaStep (s : State) : Option State :=
  if s.P.dma.loaded && !s.P.dma.latched && s.P.regs.fconf.dscrEn then
    some (if s.radioOn then s.takeFault .radioDma
      else s.setDma { s.P.dma with
        latched := true, stream := (s.P.scratch s.P.dma.buf).take (s.P.desc.length / 2) })
  else none

/-- A peripheral step, if one is enabled: the transmitter's, else the DMA engine's. -/
def hwStep (s : State) : Option State :=
  match txStep s with
  | some t => some t
  | none => dmaStep s

/-- An upper bound on the peripheral steps enabled in a row. -/
def hwFuel (s : State) : Nat :=
  s.P.fifo.length + s.P.dma.stream.length + (s.P.scratch s.P.dma.buf).length + 4

/-! ## Interleaving -/

/-- The effect of a listed move; a move that is not enabled has none.  The environment overwrites `CLKM` only while no
transaction is open (R102). -/
def State.moved (s : State) : Move → State
  | .seq => s
  | .tx => (txStep s).getD s
  | .dma => (dmaStep s).getD s
  | .radio v => s.setRadio v
  | .clkm v => if s.S.txn then s else s.setRegs { s.P.regs with clkm := v }

/-- Why a sequence of micro-operations ended before its end. -/
inductive Stop where
  | faulted
  | held
  deriving DecidableEq, Repr

/-- A sequence of micro-operations: it runs to its end, or stops in the state where a fault or a hold stopped it. -/
abbrev Act (α : Type) := EStateM Stop State α

/-- With no move listed, a micro-operation that is not blocked is performed; one that is blocked waits, under
`HW_PROGRESS`, for as many peripheral steps as are enabled (R100), and is otherwise held for good (R208). -/
def settle (blocked : State → Option Hold) : Nat → Act Unit
  | 0, s =>
    match blocked s with
    | none => .ok () s
    | some h => .error .held (s.setHold h)
  | n + 1, s =>
    match blocked s with
    | none => .ok () s
    | some h =>
      if s.par.hwProgress then
        match hwStep s with
        | none => .error .held (s.setHold h)
        | some t => if t.S.fault.isSome then .error .faulted t else settle blocked n t
      else .error .held (s.setHold h)

/-- The sequencer's next micro-operation: the listed moves run until the sequencer's turn comes in a state where the
micro-operation is not blocked (R10, R102). -/
def await (blocked : State → Option Hold) : List Move → Act Unit
  | [], s => settle blocked (hwFuel s) s
  | m :: ms, s =>
    if m = .seq then
      match blocked (s.setSched ms) with
      | none => .ok () (s.setSched ms)
      | some _ => await blocked ms (s.setSched ms)
    else
      let t := (s.setSched ms).moved m
      if t.S.fault.isSome then .error .faulted t else await blocked ms t

end Sys2Proof.Machine
end

