-- ==== Sys2Proof/Machine/MicroOps.lean ====
section
/-!
DEFINITION. The sequencer's micro-operations (spec/41_micro_ops.md R105 to R124).  Each is one atomic step: it comes
after the moves of the other agents that precede it, tests its faults first and then has its whole effect, or takes the
fault and has none (R124).
-/

namespace Sys2Proof.Machine

/-- What a micro-operation does in the state it is performed in: it raises a fault, or answers a value in a next state. -/
inductive Effect (α : Type) where
  | raise (c : FaultCode)
  | done (a : α) (s : State)

/-- A micro-operation where its turn has come: its whole effect, or its fault and no effect (R124). -/
def perform {α : Type} (op : State → Effect α) : Act α := fun s =>
  match op s with
  | .raise c => .error .faulted (s.takeFault c)
  | .done a t => .ok a t

/-- A micro-operation that is blocked where `blocked` says so. -/
def micro {α : Type} (blocked : State → Option Hold) (op : State → Effect α) : Act α := fun s =>
  match await blocked s.E.sched s with
  | .ok _ t => perform op t
  | .error e t => .error e t

/-- Nothing blocks the micro-operation. -/
def unblocked : State → Option Hold := fun _ => none

/-- A micro-operation that never holds. -/
def atom {α : Type} (op : State → Effect α) : Act α := micro unblocked op

/-- A change of the sequencer's own registers between micro-operations.  It takes effect in the step of the micro-operation
before it, or of the fetch: no step of another agent falls between (DESIGN CHOICE, log entry 24; R124 is silent). -/
def update (f : State → State) : Act Unit := fun s => .ok () (f s)

/-- Raise a fault unless the condition holds, in the step of the micro-operation before it, or of the fetch (log entry 24). -/
def check (c : State → Bool) (f : FaultCode) : Act Unit := fun s =>
  if c s then .ok () s else .error .faulted (s.takeFault f)

/-! ## Peripheral register access -/

/-- The hazards of `RegWrite` (R105): every register but `INT_ENA` while the transmitter runs, `OUTLINK` while a load is
held. -/
def State.regHazard (s : State) (v : RegImage) : Bool :=
  (v.reg != .intEna && s.P.tx.running) || (v.reg == .outlink && s.P.dma.loaded)

/-- `RegWrite(r, v)` (R105). -/
def regWriteOp (v : RegImage) (s : State) : Effect Unit :=
  if s.regHazard v then .raise .hazard
  else .done () ((s.setRegs (s.P.regs.put v)).emit (.regWr v))

def regWrite (v : RegImage) : Act Unit := atom (regWriteOp v)

/-- One register write of `InitPeripheralMode` (D43): a register that no rule of the model reads. -/
def modeWriteOp (addr value : Word) (s : State) : Effect Unit :=
  .done () ((s.setModeRegs (s.P.modeRegs ++ [(addr, value)])).emit (.modeWr addr value))

def modeWrite (addr value : Word) : Act Unit := atom (modeWriteOp addr value)

/-- `FifoPush(w)` (R106). -/
def fifoPushOp (w : Word) (s : State) : Effect Unit :=
  if s.P.fifo.length = s.par.fifoDepth then .raise .fifoOverflow
  else .done () ((s.setFifo (s.P.fifo ++ [w])).emit (.push w))

def fifoPush (w : Word) : Act Unit := atom (fifoPushOp w)

/-- `TxStart()` (R92, R107). -/
def txStartOp (s : State) : Effect Unit :=
  if s.P.tx.running then .raise .hazard
  else if s.P.regs.fconf.dscrEn && s.P.dma.loaded && !s.P.dma.latched then .raise .dmaLatch
  else .done () (((s.setRegs { s.P.regs with txStart := true }).setTx ⟨true, true⟩).emit .start)

def txStart : Act Unit := atom txStartOp

/-- `PollIdle()` (R108). -/
def pollIdleOp (s : State) : Effect Bool := .done s.idleFlag (s.emit (.poll s.idleFlag))

def pollIdle : Act Bool := micro (fun s => if s.pollReady then none else some .pollIdle) pollIdleOp

/-- `WaitIdle()` (R109). -/
def waitIdleOp (s : State) : Effect Unit := .done () (s.emit .wait)

def waitIdle : Act Unit := micro (fun s => if s.waitReady then none else some .waitIdle) waitIdleOp

/-- `Spin(k)` (R110): no state change but the event. -/
def spinOp (k : State → Nat) (s : State) : Effect Unit := .done () (s.emit (.spin (k s)))

def spinRepeat : Act Unit := atom (spinOp fun s => s.par.kRepeat)

def spinBytes : Act Unit := atom (spinOp fun s => s.par.kBytes)

/-- `Spin(K_DMA)`: it holds until the descriptor is latched when `P_DMA_LATCH` (R98). -/
def spinDma : Act Unit :=
  micro (fun s => if s.dmaSpinReady then none else some .spinDma) (spinOp fun s => s.par.kDma)

/-! ## Pins -/

/-- The routing hazard (R104). -/
def State.padHazard (s : State) (r : Role) : Bool := r.driven && s.P.tx.running

/-- `GpioClaim(r)` (R111). -/
def gpioClaimOp (r : Role) (s : State) : Effect Unit :=
  if s.padHazard r then .raise .hazard
  else .done () ((s.setPad r { s.G.get r with claimed := true, route := .gpio }).emit (.claim r))

def gpioClaim (r : Role) : Act Unit := atom (gpioClaimOp r)

/-- The bus sees a level write on a GPIO-routed output pad, even to the level the pad has (R112); the device sees a
falling edge of `RD`. -/
def State.showLevel (s : State) (r : Role) (l : Bool) : State :=
  if (s.G.get r).route = .gpio ∧ (s.G.get r).dir = .output then
    let t := s.pushBus (.lvl r l)
    if r = .rd ∧ l = false ∧ (s.G.get r).level = true then t.setDevice s.E.device.onFallingRD else t
  else s

/-- `GpioLevel(r, l)` (R112). -/
def gpioLevelOp (r : Role) (l : Bool) (s : State) : Effect Unit :=
  if s.padHazard r then .raise .hazard
  else .done () (((s.showLevel r l).setPad r { s.G.get r with level := l }).emit (.level r l))

def gpioLevel (r : Role) (l : Bool) : Act Unit := atom (gpioLevelOp r l)

/-- `GpioDir(r, d)` (R112). -/
def gpioDirOp (r : Role) (d : Dir) (s : State) : Effect Unit :=
  if s.padHazard r then .raise .hazard
  else .done () ((s.setPad r { s.G.get r with dir := d }).emit (.dir r d))

def gpioDir (r : Role) (d : Dir) : Act Unit := atom (gpioDirOp r d)

/-- Routing to a peripheral slot makes the pad an output; routing to the GPIO level or to nothing leaves its direction
(R113). -/
def Pad.routed (p : Pad) : Route → Pad
  | .gpio => { p with route := .gpio }
  | .parOut k => { p with route := .parOut k, dir := .output }
  | .wordClkInv => { p with route := .wordClkInv, dir := .output }
  | .null => { p with route := .null }

/-- `Route(r, slot)` (R113). -/
def routeOp (r : Role) (slot : Route) (s : State) : Effect Unit :=
  if s.padHazard r then .raise .hazard
  else .done () ((s.setPad r ((s.G.get r).routed slot)).emit (.route r slot))

def route (r : Role) (slot : Route) : Act Unit := atom (routeOp r slot)

/-- `GpioReadRaw()` (R114). -/
def gpioReadRawOp (s : State) : Effect Word := .done s.rawWord (s.afterRaw.emit (.sample s.rawWord))

def gpioReadRaw : Act Word := atom gpioReadRawOp

/-! ## Environment queries -/

/-- `QueryBusClock()` (R115). -/
def queryBusClockOp (s : State) : Effect Word := .done s.clockAnswer (s.afterClock.emit (.clock s.clockAnswer))

def queryBusClock : Act Word := atom queryBusClockOp

/-- `Alloc(n)` for the descriptor record: `S.desc.addr <- Alloc(n)`, `S.desc.capacity <- n` (R116, R119). -/
def descAllocOp (n : Nat) (s : State) : Effect Unit :=
  if s.P.dma.loaded then .raise .hazard
  else
    match s.allocAnswer with
    | none => .raise .alloc
    | some a => .done () ((s.afterAlloc.setDesc { s.S.desc with capacity := n, addr := a }).emit (.alloc n a))

/-- `Free(S.desc.addr)` (R116, R119). -/
def descFreeOp (s : State) : Effect Unit :=
  if s.P.dma.loaded then .raise .hazard else .done () (s.emit (.free s.S.desc.addr))

/-- The free of `DescRealloc`, omitted when no record is allocated (R119). -/
def descRelease : Act Unit := do
  let s ← get
  if s.S.desc.allocated then atom descFreeOp else pure ()

/-- `DescRealloc(n)` (R119). -/
def descRealloc (n : Nat) : Act Unit := do
  descRelease
  atom (descAllocOp n)

/-- `BufWrite(k, samples)` (R117). -/
def bufWriteOp (copy : Bool) (v : List Sample) (s : State) : Effect Unit :=
  if s.P.dma.loaded && s.P.dma.buf == copy then .raise .hazard
  else .done () ((s.setScratch copy v).emit (.bufWr copy v.length))

def bufWrite (copy : Bool) (v : List Sample) : Act Unit := atom (bufWriteOp copy v)

/-- `DescWrite(d)` (R119). -/
def descWriteOp (d : Descriptor) (s : State) : Effect Unit :=
  if s.P.dma.loaded then .raise .hazard else .done () ((s.setDescriptor d).emit (.descWr d))

def descWrite (d : Descriptor) : Act Unit := atom (descWriteOp d)

/-- `OutLinkStart(physAddr(S.desc.addr))` (R118): the `OUTLINK` write and the load are one step. -/
def outLinkStartOp (s : State) : Effect Unit :=
  match regWriteOp (.outlink ⟨Config.physAddr s.S.desc.addr, true⟩) s with
  | .raise c => .raise c
  | .done _ t =>
    .done () (t.setDma { s.P.dma with loaded := true, latched := false, buf := s.par.copyAt s.P.desc.bufAddr })

def outLinkStart : Act Unit := atom outLinkStartOp

/-- `Pull(p, S.pixbuf, start, stop)`, write direction, `n` bytes (R120). -/
def pullWriteOp (p start stop n : Nat) (s : State) : Effect Nat :=
  let a := s.pullAnswer p
  .done a.next (((s.afterPull p).setPixbuf (s.answerBytes a n)).emit (.pull p start stop a.next))

def pullWrite (p start stop n : Nat) : Act Nat := atom (pullWriteOp p start stop n)

/-- `PullRd(p, dst, S.rdbuf, start, stop)`, read direction (R120): the producer takes the bytes of `S.rdbuf`; the bytes it
stores in host memory are its own. -/
def pullReadOp (p dst start stop : Nat) (s : State) : Effect Nat :=
  let a := s.pullAnswer p
  .done a.next ((((s.afterPull p).setHanded (s.E.handed ++ [⟨p, dst, start, stop, s.S.rdbuf⟩])).setMem
    (s.M.writeAll a.stores)).emit (.pull p start stop a.next))

def pullRead (p dst start stop : Nat) : Act Nat := atom (pullReadOp p dst start stop)

/-- `RadioPoll()` (R121). -/
def radioPollOp (s : State) : Effect Bool := .done s.radioOn (s.emit (.radio s.radioOn))

def radioPoll : Act Bool := atom radioPollOp

/-- The peripheral as it comes out of reset: FIFO empty, transmitter and DMA engine idle, every register image
unspecified, a free value (R122, D42). -/
def State.released (s : State) : State :=
  (((s.setFifo []).setTx ⟨false, false⟩).setDma { s.P.dma with loaded := false, latched := false, stream := [] }).setRegs
    (Config.freeRegs s.E.drawn) |>.drew

/-- `ClockGateOn()` (R122): only the first call, from `GATE = (0, 0)`, releases the reset. -/
def clockGateOnOp (s : State) : Effect Unit :=
  let t := if s.P.gate = ⟨false, false⟩ then s.released else s
  .done () ((t.setGate ⟨true, true⟩).emit .gate)

def clockGateOn : Act Unit := atom clockGateOnOp

/-! ## Host memory (R47, R123) -/

/-- `MemRead(a, 1)`: no step outside `Adm`. -/
def memReadOp (a : Nat) (s : State) : Effect Byte := .done (s.M.read a) (s.emit (.mRd a (s.M.read a)))

def memRead (a : Nat) : Act Byte := micro (fun s => if s.par.admits a then none else some (.memRead a)) (memReadOp a)

/-- `MemWrite(a, 1, v)`: no step outside `Adm`. -/
def memWriteOp (a : Nat) (v : Byte) (s : State) : Effect Unit := .done () ((s.setMem (s.M.write a v)).emit (.mWr a v))

def memWrite (a : Nat) (v : Byte) : Act Unit :=
  micro (fun s => if s.par.admits a then none else some (.memWrite a)) (memWriteOp a v)

/-! ## Sequences -/

/-- An action for each element of a list, in order. -/
def forEach {α : Type} (f : α → Act Unit) : List α → Act Unit
  | [] => pure ()
  | a :: as => do
    f a
    forEach f as

/-- `EnsureMode(m)` (R138). -/
def ensureMode (m : Mode) : Act Unit := do
  let s ← get
  if s.S.mode = m then pure ()
  else do
    regWrite (.src m.width)
    regWrite (.fconf m.fconf)
    update fun t => t.setMode m

/-! ## Commands (R125) -/

/-- A command: its checks and its pseudocode; if it completes, `S.pc` advances by the packet length (R16).  If a fault or a
hold stops it, the state is the one it stopped in, `S.pc` at its header.  The advance is part of the step of the last
micro-operation (DESIGN CHOICE, log entry 24). -/
def command (o : Opcode) (c : Act Unit) (s : State) : Host.Outcome State Fault Refusal :=
  match c s with
  | .ok _ t => .next (t.advance o.row.len)
  | .error _ t => .next t

/-- `S.life = Initialised` else `F_LIFECYCLE` (R185). -/
def needInitialised : Act Unit := check (fun s => s.S.life == .initialised) .lifecycle

/-- `S.txn` else `F_NO_TXN` (R185). -/
def needTxn : Act Unit := check (fun s => s.S.txn) .noTxn

/-- `¬S.read` else `F_READ_MODE` (R185). -/
def needNotReading : Act Unit := check (fun s => !s.S.read) .readMode

/-- `S.read` else `F_NOT_READ_MODE` (R185). -/
def needReading : Act Unit := check (fun s => s.S.read) .notReadMode

/-- An operand condition, else `F_OPERAND` (R185). -/
def needOperand (c : State → Bool) : Act Unit := check c .operand

/-- The first three checks of a write command and of `beginRead` (R185). -/
def writeChecks : Act Unit := do
  needInitialised
  needTxn
  needNotReading

/-- The first three checks of a read command and of `endRead` (R185). -/
def readChecks : Act Unit := do
  needInitialised
  needTxn
  needReading

/-- The operand checks of the pixel commands: the handle names a producer, then its pixels have 2 or 3 bytes (R185). -/
def producerChecks (p : Nat) : Act Unit := do
  needOperand fun s => (s.E.producer p).isSome
  needOperand fun s => s.E.bpp p == 2 || s.E.bpp p == 3

end Sys2Proof.Machine
end

