-- ==== Sys2Proof/Machine/Scalar.lean ====
section
/-!
DEFINITION. The scalar write path (spec/44_scalar_write.md): `writeCommand`, `writeData`.
-/

namespace Sys2Proof.Machine

/-- The transmit words of a scalar write, least-significant byte first (R147). -/
def scalarWords (t : Bool) (v : Word) (blen : Nat) : List Word :=
  (List.range (scalarBytes blen)).map fun i => WS t (byteOf v i)

/-- `ScalarWrite(t, v, b)` (R147). -/
def scalarWrite (t : Bool) (v : Word) (blen : Nat) : Act Unit := do
  waitIdle
  ensureMode .scalar32
  forEach fifoPush (scalarWords t v blen)
  txStart

/-- `writeCommand` (R148): register-select tag 0. -/
def execWriteCommand (value : Word) (bitLength : Nat) (s : State) : Host.Outcome State Fault Refusal :=
  command .writeCommand (do
    writeChecks
    needOperand fun _ => legalBitLength bitLength
    scalarWrite false value bitLength) s

/-- `writeData` (R149): register-select tag 1. -/
def execWriteData (value : Word) (bitLength : Nat) (s : State) : Host.Outcome State Fault Refusal :=
  command .writeData (do
    writeChecks
    needOperand fun _ => legalBitLength bitLength
    scalarWrite true value bitLength) s

end Sys2Proof.Machine
end

