-- ==== Sys2Proof/Machine/Bulk.lean ====
section
/-!
DEFINITION. The bulk and repeat write path (spec/45_bulk_write.md): `writeDataRepeat`, `writeBytes`.
Each loop carries a bound on its rounds as its first argument; every round does at least one unit, so the bound never
ends a loop before the rule's own test does.
-/

namespace Sys2Proof.Machine

/-! ## writeDataRepeat -/

/-- The loop of `Repeat2` and `Repeat3` (R153, R154): `unit` is the words pushed per unit, `full` the full batch, `rem` the
units left, `len` the next batch. -/
def repeatLoop (unit : List Word) (full : Nat) : Nat → Nat → Nat → Act Unit
  | 0, _, _ => pure ()
  | rounds + 1, rem, len => do
    waitIdle
    ensureMode .bulk16
    forEach fifoPush (List.replicate len unit).flatten
    txStart
    if rem - len = 0 then pure ()
    else do
      spinRepeat
      repeatLoop unit full rounds (rem - len) full

/-- `Repeat2(c, count)` (R153): one push per 2-byte pixel. -/
def repeat2 (c : Word) (count : Nat) : Act Unit :=
  repeatLoop [WR2 c] repBatch2 count count (leadingBatch count repBatch2)

/-- The leftover pixel of an odd count, by a scalar write (R154). -/
def leftoverPixel (c : Word) (blen count : Nat) : Act Unit :=
  if count % 2 = 1 then scalarWrite true c blen else pure ()

/-- The pairs of `Repeat3`, three pushes each (R154). -/
def repeatPairs (c : Word) (pairs : Nat) : Act Unit :=
  if pairs = 0 then pure () else repeatLoop (WR3 c) repBatch3 pairs pairs (leadingBatch pairs repBatch3)

/-- `Repeat3(c, blen, count)` (R154): an odd leftover pixel goes first, then the pairs. -/
def repeat3 (c : Word) (blen count : Nat) : Act Unit := do
  leftoverPixel c blen count
  repeatPairs c (count / 2)

/-- `writeDataRepeat` (R152). -/
def execWriteDataRepeat (value : Word) (bitLength count : Nat) (s : State) : Host.Outcome State Fault Refusal :=
  command .writeDataRepeat (do
    writeChecks
    needOperand fun _ => legalRepeatLength bitLength
    needOperand fun _ => decide (1 ≤ count)
    if ceil8 bitLength = 2 then repeat2 value count else repeat3 value bitLength count) s

/-! ## writeBytes.  `rd k` reads byte `k` of the buffer: host memory, or the pixel buffer (R167). -/

/-- `len` FIFO words from the byte pairs at `k` (R159). -/
def pushPairs (rd : Nat → Act Byte) : Nat → Nat → Act Unit
  | 0, _ => pure ()
  | len + 1, k => do
    let b0 ← rd k
    let b1 ← rd (k + 1)
    fifoPush (WB b0 b1)
    pushPairs rd len (k + 2)

/-- `n` buffer bytes from `k`, in buffer order (R160). -/
def readMany (rd : Nat → Act Byte) : Nat → Nat → Act (List Byte)
  | 0, _ => pure []
  | n + 1, k => do
    let b ← rd k
    let bs ← readMany rd n (k + 1)
    pure (b :: bs)

/-- The descriptor record for a load of `n` buffer bytes: reallocated when its length differs (R160, R164). -/
def ensureCapacity (n : Nat) : Act Unit := do
  let s ← get
  if n = s.S.desc.capacity then pure () else descRealloc n

/-- One load of the DMA phase: `n` bus bytes from `k` (R160). -/
def dmaLoad (rd : Nat → Act Byte) (k n : Nat) : Act Unit := do
  let bs ← readMany rd n k
  let s ← get
  bufWrite s.S.flip (bs.map SD)
  waitIdle
  ensureMode .bulk16Dma
  ensureCapacity (2 * n)
  descWrite (loadDescriptor (s.par.scratchAddr s.S.flip) n)
  outLinkStart
  spinDma
  txStart
  update fun u => u.setFlip (!u.S.flip)

/-- `DmaPhase(buffer, k, R)` (R160): `rem` bus bytes left, the next load at most `load`. -/
def dmaPhase (rd : Nat → Act Byte) : Nat → Nat → Nat → Nat → Act Unit
  | 0, _, _, _ => pure ()
  | rounds + 1, k, rem, load => do
    dmaLoad rd k (min load rem)
    if rem - min load rem = 0 then pure ()
    else dmaPhase rd rounds (k + min load rem) (rem - min load rem) (min (2 * load) dmaLoadMax)

/-- Whether the DMA phase is entered (R159, R161): the radio is polled only when the other two conditions hold. -/
def dmaEntry (useDma : Bool) (done : Nat) : Act Bool := do
  let s ← get
  if useDma = true ∧ s.par.tDma ≤ done then do
    let on ← radioPoll
    pure (!on)
  else pure false

/-- `FifoPhase(buffer, k, P, useDma)` (R159): `pairs` byte pairs left, `done` bus bytes sent, `len` pairs in the next
batch. -/
def fifoPhase (rd : Nat → Act Byte) (useDma : Bool) : Nat → Nat → Nat → Nat → Nat → Act Unit
  | 0, _, _, _, _ => pure ()
  | rounds + 1, k, pairs, done, len => do
    waitIdle
    ensureMode .bulk16
    pushPairs rd len k
    txStart
    if pairs - len = 0 then pure ()
    else do
      let go ← dmaEntry useDma (done + 2 * len)
      if go then dmaPhase rd (2 * (pairs - len)) (k + 2 * len) (2 * (pairs - len)) dmaLoadMin
      else do
        spinBytes
        fifoPhase rd useDma rounds (k + 2 * len) (pairs - len) (done + 2 * len) bytesBatch

/-- The byte pairs after the odd leading byte (R158). -/
def pairsBody (rd : Nat → Act Byte) (k pairs : Nat) (useDma : Bool) : Act Unit :=
  if pairs = 0 then pure () else fifoPhase rd useDma pairs k pairs 0 (leadingBatch pairs bytesBatch)

/-- The body of `writeBytes` (R158): an odd leading byte by a scalar write, then the byte pairs. -/
def bytesBody (rd : Nat → Act Byte) (length : Nat) (useDma : Bool) : Act Unit :=
  if length % 2 = 1 then do
    let b ← rd 0
    scalarWrite true (b.zeroExtend 32) 8
    pairsBody rd 1 ((length - 1) / 2) useDma
  else pairsBody rd 0 (length / 2) useDma

/-- `writeBytes` (R158). -/
def execWriteBytes (buffer length : Nat) (useDma : Bool) (s : State) : Host.Outcome State Fault Refusal :=
  command .writeBytes (do
    writeChecks
    needOperand fun _ => decide (1 ≤ length)
    bytesBody (fun k => memRead (buffer + k)) length useDma) s

end Sys2Proof.Machine
end

