-- ==== Sys2Proof/Machine/Pixel.lean ====
section
/-!
DEFINITION. The pixel write path (spec/46_pixel_write.md): `writePixels`.
-/

namespace Sys2Proof.Machine

/-- Byte `k` of `S.pixbuf`: private to the sequencer, no micro-operation (R167). -/
def readPixbuf (k : Nat) : Act Byte := fun s => .ok (s.S.pixbuf.getD k 0#8) s

/-- The chunk loop of `writePixels` (R167): `start` pixels sent, `chunk` the next chunk; at most `rounds` chunks. -/
def pixelLoop (p bpp limit length : Nat) : Nat → Nat → Nat → Act Unit
  | 0, _, _ => pure ()
  | rounds + 1, start, chunk =>
    if start < length then do
      let n ← pullWrite p start (start + chunk) (chunk * bpp)
      check (fun _ => n == start + chunk) .producer
      bytesBody readPixbuf (chunk * bpp) false
      pixelLoop p bpp limit length rounds (start + chunk) limit
    else pure ()

/-- `writePixels` (R167). -/
def execWritePixels (producer length : Nat) (s : State) : Host.Outcome State Fault Refusal :=
  command .writePixels (do
    writeChecks
    producerChecks producer
    let t ← get
    let bpp := t.E.bpp producer
    pixelLoop producer bpp (pixLimit bpp) length length 0 (leadingChunk length (pixLimit bpp))) s

end Sys2Proof.Machine
end

