-- ==== Sys2Proof/Machine/Lifecycle.lean ====
section
/-!
DEFINITION. The lifecycle commands `config`, `release`, `init` and the pin router (spec/42_lifecycle_pins_clock.md).
-/

namespace Sys2Proof.Machine

/-- `InitPins()` (R131), in the source's order. -/
def initPins : Act Unit := do
  forEach gpioClaim (dataRoles ++ [.rd, .wr, .rs])
  forEach (fun r => do
    gpioLevel r true
    gpioDir r .output) [.rd, .wr, .rs]
  forEach (fun i : Fin 8 => route (.d i) (.parOut i.val)) (List.finRange 8)
  route .rs (.parOut 8)
  route .wr .wordClkInv
  clockGateOn

/-- `config` (R126). -/
def execConfig (inst : Nat) (pinD : Vector Nat 8) (pinRD pinWR pinRS freqWrite : Nat) (s : State) :
    Host.Outcome State Fault Refusal :=
  let c : Cfg := ⟨inst, pinD, pinRD, pinWR, pinRS, freqWrite⟩
  command .config (do
    check (fun t => t.S.life == .reset || t.S.life == .configured) .lifecycle
    check (fun t => c.valid t.par) .config
    update fun t => (t.setCfg c).setLife .configured) s

/-- `release` (R127): no check, no effect. -/
def execRelease (s : State) : Host.Outcome State Fault Refusal := command .release (pure ()) s

/-- `init` (R128). -/
def execInit (s : State) : Host.Outcome State Fault Refusal :=
  command .init (do
    check (fun t => t.S.life == .configured) .lifecycle
    update fun t => t.setHandles (some t.S.cfg.inst)
    initPins
    let t ← get
    regWrite (.intEna t.par.intEnaValue)
    forEach (fun w => modeWrite w.1 w.2) t.par.initMode
    descRealloc 0
    update fun u => (u.setDesc { u.S.desc with allocated := true }).setLife .initialised) s

end Sys2Proof.Machine
end

