-- ==== Sys2Proof/Machine/Read.lean ====
section
/-!
DEFINITION. The read path (spec/47_read.md): `beginRead`, `endRead`, `readData`, `readBytes`, `readPixels`.
-/

namespace Sys2Proof.Machine

/-- The pins of read mode (R170), in the source's order. -/
def readPins : Act Unit := do
  gpioLevel .rd true
  gpioDir .rd .output
  forEach (fun r => do
    route r .gpio
    gpioDir r .output
    gpioLevel r true) [.wr, .rs]
  forEach (fun r => do
    route r .null
    gpioDir r .input) dataRoles

/-- `beginRead` (R170). -/
def execBeginRead (s : State) : Host.Outcome State Fault Refusal :=
  command .beginRead (do
    writeChecks
    waitIdle
    readPins
    update fun t => t.setRead true) s

/-- `endRead` (R171). -/
def execEndRead (s : State) : Host.Outcome State Fault Refusal :=
  command .endRead (do
    readChecks
    waitIdle
    initPins
    update fun t => t.setRead false) s

/-- `ReadByte()` (R173): two samples, the first discarded, then the read strobe high and low. -/
def readByte : Act Byte := do
  let _ ← gpioReadRaw
  let w ← gpioReadRaw
  gpioLevel .rd true
  gpioLevel .rd false
  let s ← get
  pure (unscramble s.S.cfg.pinD w)

/-- `n` bytes from byte index `i` on, the byte of index `i` at bits `[8i+7 : 8i]` (R172). -/
def readValue : Nat → Nat → Word → Act Word
  | 0, _, v => pure v
  | n + 1, i, v => do
    let b ← readByte
    readValue n (i + 1) (v ||| b.zeroExtend 32 <<< (8 * i))

/-- `readData` (R172). -/
def execReadData (bitLength : Nat) (s : State) : Host.Outcome State Fault Refusal :=
  command .readData (do
    readChecks
    needOperand fun _ => legalBitLength bitLength
    let v ← readValue (scalarBytes bitLength) 0 0#32
    update fun t => t.setRes v) s

/-- `n` bytes read and stored from address `a` on (R174). -/
def storeBytes : Nat → Nat → Act Unit
  | 0, _ => pure ()
  | n + 1, a => do
    let b ← readByte
    memWrite a b
    storeBytes n (a + 1)

/-- `readBytes` (R174): `allowDma` has no effect (R69). -/
def execReadBytes (dst length : Nat) (_allowDma : Bool) (s : State) : Host.Outcome State Fault Refusal :=
  command .readBytes (do
    readChecks
    needOperand fun _ => decide (1 ≤ length)
    storeBytes length dst) s

/-- `n` bytes read into `S.rdbuf` (R176). -/
def fillRdbuf : Nat → Act Unit
  | 0 => pure ()
  | n + 1 => do
    let b ← readByte
    update fun t => t.setRdbuf (t.S.rdbuf ++ [b])
    fillRdbuf n

/-- The batch loop of `readPixels` (R176): `start` pixels done; at most `rounds` batches. -/
def readLoop (p dst bpp batch length : Nat) : Nat → Nat → Act Unit
  | 0, _ => pure ()
  | rounds + 1, start =>
    if start < length then do
      let m := min batch (length - start)
      update fun t => t.setRdbuf []
      fillRdbuf (m * bpp)
      let n ← pullRead p dst start (start + m)
      check (fun _ => n == start + m) .producer
      readLoop p dst bpp batch length rounds (start + m)
    else pure ()

/-- `readPixels` (R176). -/
def execReadPixels (dst producer length : Nat) (s : State) : Host.Outcome State Fault Refusal :=
  command .readPixels (do
    readChecks
    producerChecks producer
    let t ← get
    let bpp := t.E.bpp producer
    readLoop producer dst bpp (rdBatch bpp) length length 0) s

end Sys2Proof.Machine
end

