-- ==== Sys2Proof/Machine/Transaction.lean ====
section
/-!
DEFINITION. Transactions (spec/43_transaction_mode.md): `beginTransaction` with the clock-divider cache,
`endTransaction`, `wait`, `busy`.
-/

namespace Sys2Proof.Machine

/-- The cache after the bus clock answers `f` (R133): recomputed when it is invalid or was computed for another clock. -/
def State.cacheFor (s : State) (f : Word) : Cache :=
  if s.S.cache.valid = false ∨ f ≠ s.S.cache.freq then
    ⟨true, f, clkmImage s.par (divider f.toNat s.S.cfg.freqWrite)⟩
  else s.S.cache

/-- `beginTransaction` (R139). -/
def execBeginTransaction (s : State) : Host.Outcome State Fault Refusal :=
  command .beginTransaction (do
    needInitialised
    check (fun t => !t.S.txn) .nested
    waitIdle
    let f ← queryBusClock
    update fun t => t.setCache (t.cacheFor f)
    let t ← get
    regWrite (.clkm t.S.cache.clkm)
    regWrite (.src Mode.scalar32.width)
    regWrite (.fconf Mode.scalar32.fconf)
    update fun u => (u.setMode .scalar32).setTxn true) s

/-- `endTransaction` (R140). -/
def execEndTransaction (s : State) : Host.Outcome State Fault Refusal :=
  command .endTransaction (do
    needInitialised
    needTxn
    needNotReading
    update fun t => t.setTxn false) s

/-- `wait` (R141). -/
def execWait (s : State) : Host.Outcome State Fault Refusal :=
  command .wait (do
    needInitialised
    waitIdle) s

/-- `busy` (R142): 1 for busy, 0 for idle. -/
def execBusy (s : State) : Host.Outcome State Fault Refusal :=
  command .busy (do
    needInitialised
    let b ← pollIdle
    update fun t => t.setRes (if b then 0#32 else 1#32)) s

end Sys2Proof.Machine
end

