-- ==== Sys2Proof/Machine/Dispatch.lean ====
section
/-!
DEFINITION. exec: one arm per instruction, each one call of its meaning.
-/

namespace Sys2Proof.Machine

def exec (i : Instr) (s : State) : Host.Outcome State Fault Refusal :=
  match i with
  | .config inst d rd wr rs freq => Sys2Proof.Machine.execConfig inst d rd wr rs freq s
  | .init => Sys2Proof.Machine.execInit s
  | .release => Sys2Proof.Machine.execRelease s
  | .beginTransaction => Sys2Proof.Machine.execBeginTransaction s
  | .endTransaction => Sys2Proof.Machine.execEndTransaction s
  | .wait => Sys2Proof.Machine.execWait s
  | .busy => Sys2Proof.Machine.execBusy s
  | .writeCommand value blen => Sys2Proof.Machine.execWriteCommand value blen s
  | .writeData value blen => Sys2Proof.Machine.execWriteData value blen s
  | .writeDataRepeat value blen count => Sys2Proof.Machine.execWriteDataRepeat value blen count s
  | .writeBytes buffer length useDma => Sys2Proof.Machine.execWriteBytes buffer length useDma s
  | .writePixels producer length => Sys2Proof.Machine.execWritePixels producer length s
  | .beginRead => Sys2Proof.Machine.execBeginRead s
  | .endRead => Sys2Proof.Machine.execEndRead s
  | .readData blen => Sys2Proof.Machine.execReadData blen s
  | .readBytes dst length allowDma => Sys2Proof.Machine.execReadBytes dst length allowDma s
  | .readPixels dst producer length => Sys2Proof.Machine.execReadPixels dst producer length s

end Sys2Proof.Machine
end

