-- ==== Sys2Proof/Machine/Fetch.lean ====
section
/-!
DEFINITION. Which agent moves next, and the fetch of the sequencer's next packet (spec/70_reset_and_hazards.md R207;
spec/30_encoding.md R70, R80).  Step.lean only calls these.
-/

namespace Sys2Proof.Machine

/-- What the next step is. -/
inductive Turn where
  /-- an agent other than the sequencer moves, or the sequencer takes a fault or a refusal at its fetch -/
  | moved (t : State)
  /-- the sequencer runs `i` from `t` -/
  | run (i : Instr) (t : State)
  /-- no step is taken any more -/
  | stop (f : Fault)
  /-- no agent has an enabled step, the last packet having been refused -/
  | refuse (r : Refusal)

/-- The sequencer has no step (R207): it is held, it has refused, or the stream has ended. -/
def State.sequencerDone (s : State) : Bool :=
  s.S.hold.isSome || s.S.refused || decide (s.stream.length ≤ s.S.pc)

/-- The words from the command pointer on (R46). -/
def State.fetchWords (s : State) : List Word := s.stream.drop s.S.pc

/-- The sequencer's turn (R125): the packet at `S.pc` runs; an illegal one raises `F_ILLEGAL` (R70); a truncated one is
refused (R80). -/
def State.fetchTurn (s : State) : Turn :=
  match decode s.fetchWords with
  | .ok (i, _) => .run i s
  | .error .truncated => .moved s.refuse
  | .error .empty => .stop .runComplete
  | .error .unknownOpcode => .moved (s.takeFault .illegal)
  | .error .reservedBits => .moved (s.takeFault .illegal)
  | .error .unusedBitLength => .moved (s.takeFault .illegal)
  | .error .unusedFlag => .moved (s.takeFault .illegal)
  | .error .configReserved => .moved (s.takeFault .illegal)

/-- No step is taken any more (log entry 19): the sequencer is held for good; or else, after a refusal or at the end of the
stream, an enabled peripheral step waits for ever without `HW_PROGRESS` (R100: no liveness is assumed); or else no agent
has an enabled step. -/
def State.endTurn (s : State) : Turn :=
  match s.S.hold with
  | some h => .stop (.held h)
  | none =>
    if (hwStep s).isSome then .stop .stalled
    else if s.S.refused then .refuse .truncatedPacket
    else .stop .runComplete

/-- The turn when no move is listed and the sequencer has none: under `HW_PROGRESS` the peripheral goes on (R100, R207). -/
def State.idleTurn (s : State) : Turn :=
  if s.par.hwProgress then
    match hwStep s with
    | some t => .moved t
    | none => s.endTurn
  else s.endTurn

/-- The next step: none after a fault (R184); else the next listed move; with none listed, the sequencer's, or the
peripheral's once the sequencer has none. -/
def State.nextTurn (s : State) : Turn :=
  match s.S.fault with
  | some (c, pc) => .stop (.stopped c pc)
  | none =>
    match s.E.sched with
    | [] => if s.sequencerDone then s.idleTurn else s.fetchTurn
    | m :: ms =>
      if m = .seq then
        if s.sequencerDone then .moved (s.setSched ms) else (s.setSched ms).fetchTurn
      else .moved ((s.setSched ms).moved m)

/-- A command stream with the words `ws` at index `pc`, the rest as it was (zero words below `pc` where there were none). -/
def placeWords (stream : List Word) (pc : Nat) (ws : List Word) : List Word :=
  (stream ++ List.replicate (pc - stream.length) 0#32).take pc ++ ws ++ stream.drop (pc + ws.length)

end Sys2Proof.Machine
end

