-- ==== Sys2Proof/Machine/Step.lean ====
section
/-!
DEFINITION. One step of the machine, and the placing of one instruction where step fetches.
-/

namespace Sys2Proof.Machine

/-- One step: a move of another agent, or one command of the sequencer with the other agents' moves between its
micro-operations; or no step. -/
def step (s : State) : Host.Outcome State Fault Refusal :=
  match s.nextTurn with
  | .moved t => .next t
  | .run i t => exec i t
  | .stop f => .fault f
  | .refuse r => .refused r

/-- `s` with the instruction whose table bits are `w` placed in the command stream at `S.pc`, and the sequencer the next
to move. -/
def State.withFetchWord (s : State) (nbits w : Nat) : State :=
  { s.setSched (.seq :: s.E.sched) with stream := placeWords s.stream s.S.pc (tableWords nbits w) }

end Sys2Proof.Machine
end

