-- ==== Sys2Proof/Safety.lean ====
section
/-!
DEFINITION. What counts as a safe run, and the words claims are stated in: the invariants, the calm states, the expected
results of a command as explicit states, the precondition table of R185 and the transmission still to come.
-/

namespace Sys2Proof.Machine

/-! ## Stopped or not -/

/-- The sequencer has neither taken a fault nor been held. -/
def State.live (s : State) : Prop := s.S.fault = none ∧ s.S.hold = none

/-! ## Invariants.  A step keeps each of them, from every state that has it. -/

/-- Storage (R31, R35, R47, R182): host memory is canonical, the FIFO holds no more than its depth, the buffers no more than
their caps. -/
structure StorageInv (s : State) : Prop where
  memory : s.M.wf = true
  fifo : s.P.fifo.length ≤ s.par.fifoDepth
  scratch0 : s.P.scratch0.length ≤ 256
  scratch1 : s.P.scratch1.length ≤ 256
  pixbuf : s.S.pixbuf.length ≤ 512
  rdbuf : s.S.rdbuf.length ≤ 32

/-- Control (R17 to R20, R30, R129, R130, R133): the lifecycle, transaction and read flags are nested; a mode is active in
every transaction and names what the mode registers hold; a valid cache holds the image of its own clock. -/
structure ControlInv (s : State) : Prop where
  txn_life : s.S.txn = true → s.S.life = .initialised
  read_txn : s.S.read = true → s.S.txn = true
  txn_mode : s.S.txn = true → s.S.mode ≠ .none
  mode_life : s.S.mode ≠ .none → s.S.life = .initialised
  cache_life : s.S.cache.valid = true → s.S.life = .initialised
  cache_image : s.S.cache.valid = true →
    s.S.cache.clkm = clkmImage s.par (divider s.S.cache.freq.toNat s.S.cfg.freqWrite)
  gate_on : s.S.life = .initialised → s.P.gate = ⟨true, true⟩
  handles : s.S.life = .initialised → s.S.handles = some s.S.cfg.inst
  allocated : s.S.life = .initialised → s.S.desc.allocated = true
  registers : s.S.fault = none → s.S.mode ≠ .none →
    s.P.regs.src = s.S.mode.width ∧ s.P.regs.fconf = s.S.mode.fconf

/-- `RD` is a GPIO output (R131, R170). -/
def Pads.rdOutput (g : Pads) : Prop := g.rd.route = .gpio ∧ g.rd.dir = .output

/-- The pins of read mode (R170, R180): `WR` and `RS` GPIO outputs at level 1, the data pads inputs driven by nothing. -/
def Pads.readRouting (g : Pads) : Prop :=
  g.rdOutput ∧
  g.wr.route = .gpio ∧ g.wr.dir = .output ∧ g.wr.level = true ∧
  g.rs.route = .gpio ∧ g.rs.dir = .output ∧ g.rs.level = true ∧
  ∀ i : Fin 8, g.d[i].route = .null ∧ g.d[i].dir = .input

/-- Pins and transmitter (R90, R104, R131, R170): transmission happens in write routing only, never in read mode; the pads
are in write routing outside read mode and in read routing inside it. -/
structure PinInv (s : State) : Prop where
  control : ControlInv s
  latch_running : s.P.tx.latchPending = true → s.P.tx.running = true
  latched_loaded : s.P.dma.latched = true → s.P.dma.loaded = true
  running_life : s.P.tx.running = true → s.S.life = .initialised
  running_write : s.P.tx.running = true → s.S.read = false
  running_pins : s.P.tx.running = true → s.G.writeRouting = true
  write_pins : s.S.fault = none → s.S.life = .initialised → s.S.read = false →
    s.G.writeRouting = true ∧ s.G.rdOutput
  read_pins : s.S.fault = none → s.S.read = true → s.G.readRouting

/-- Between commands (R31, R91): nothing is queued and no load is held unless it is being transmitted, and each in its own
mode only. -/
structure BoundaryInv (s : State) : Prop where
  pins : PinInv s
  idle_empty : s.live → s.P.tx.running = false → s.P.fifo = [] ∧ s.P.dma.loaded = false
  dma_fifo : s.live → s.S.mode = .bulk16Dma → s.P.fifo = []
  load_mode : s.live → s.P.dma.loaded = true → s.S.mode = .bulk16Dma
  running_mode : s.live → s.P.tx.running = true → s.S.mode ≠ .none

/-- In the history, a mode register write comes after a `Wait` with no `Start` between (R146). -/
def ModeWritesFollowWait (h : List (Nat × Event)) : Prop :=
  ∀ before after pc img, h = before ++ (pc, Event.regWr img) :: after → (img.reg = .src ∨ img.reg = .fconf) →
    ∃ a b pc', before = a ++ (pc', Event.wait) :: b ∧ ∀ e ∈ b, e.2 ≠ Event.start

/-! ## Still and calm states, and the environment's moves in them -/

/-- Nothing is transmitted and no load is held: the other agents can only switch the radio and, outside a transaction,
overwrite `CLKM` (R39, R102). -/
def Still (s : State) : Prop := s.S.fault = none ∧ s.P.tx = ⟨false, false⟩ ∧ s.P.dma.loaded = false

/-- Nothing is transmitted, no load is held and nobody overwrites `CLKM`: the other agents can only switch the radio. -/
def Calm (s : State) : Prop :=
  s.S.fault = none ∧ s.P.tx = ⟨false, false⟩ ∧ s.P.dma.loaded = false ∧
    (s.S.txn = true ∨ ∀ v, Move.clkm v ∉ s.E.sched)

/-- `s` after the interleaving was consumed to `ms` and the radio stands at `r`. -/
def passed (s : State) (ms : List Move) (r : Word) : State := (s.setSched ms).setRadio r

/-- The moves listed before the sequencer's next turn: all of them when no turn is listed. -/
def beforeTurn : List Move → List Move
  | [] => []
  | m :: ms => if m = .seq then [] else m :: beforeTurn ms

/-- The moves listed after the sequencer's next turn: none when no turn is listed. -/
def afterTurn : List Move → List Move
  | [] => []
  | m :: ms => if m = .seq then ms else afterTurn ms

/-- The moves listed after the sequencer's next `n` turns. -/
def turnsLeft : Nat → List Move → List Move
  | 0, ms => ms
  | n + 1, ms => turnsLeft n (afterTurn ms)

/-- The moves of the other agents listed before the sequencer's `n`-th turn. -/
def movesIn : Nat → List Move → List Move
  | 0, _ => []
  | n + 1, ms => beforeTurn ms ++ movesIn n (afterTurn ms)

/-- The radio's clock-enable bits after the moves of a list. -/
def radioAfter : List Move → Word → Word
  | [], r => r
  | .radio v :: ms, _ => radioAfter ms v
  | .clkm _ :: ms, r => radioAfter ms r
  | .seq :: ms, r => radioAfter ms r
  | .tx :: ms, r => radioAfter ms r
  | .dma :: ms, r => radioAfter ms r

/-- `CLKM` after the overwrites of a list (R39). -/
def clkmAfter : List Move → ClkmImage → ClkmImage
  | [], c => c
  | .clkm v :: ms, _ => clkmAfter ms v
  | .radio _ :: ms, c => clkmAfter ms c
  | .seq :: ms, c => clkmAfter ms c
  | .tx :: ms, c => clkmAfter ms c
  | .dma :: ms, c => clkmAfter ms c

/-- `s` when the sequencer's next turn comes, nothing being transmitted or loaded: the environment's moves before it have
happened. -/
def State.turned (s : State) : State :=
  { passed s (afterTurn s.E.sched) (radioAfter (beforeTurn s.E.sched) s.E.radioClkEn) with
    P := { s.P with regs := { s.P.regs with
      clkm := if s.S.txn then s.P.regs.clkm else clkmAfter (beforeTurn s.E.sched) s.P.regs.clkm } } }

/-- A state in which a write command passes its first three checks with the peripheral idle and its FIFO empty. -/
structure WriteReady (s : State) : Prop where
  calm : Calm s
  life : s.S.life = .initialised
  txn : s.S.txn = true
  write : s.S.read = false
  fifo : s.P.fifo = []

/-- A state in which a read command passes its first three checks, with the pins of read mode. -/
structure ReadReady (s : State) : Prop where
  calm : Calm s
  life : s.S.life = .initialised
  txn : s.S.txn = true
  reading : s.S.read = true
  pins : s.G.readRouting

/-- The launch premises of a correct run (R212) that concern every write: the FIFO holds a batch, polls are not stale, loads
are latched in time, the hardware makes progress, the scratch copies differ. -/
structure Params.sound (p : Params) : Prop where
  depth : 32 ≤ p.fifoDepth
  startLatch : p.pStartLatch = true
  dmaLatch : p.pDmaLatch = true
  progress : p.hwProgress = true
  scratch : p.scratchAddr0 ≠ p.scratchAddr1

/-! ## Expected results, written out from the rules -/

/-- The history after the events `es` of the command at `S.pc`. -/
def State.logged (s : State) (es : List Event) : State := { s with hist := s.hist ++ es.map (Prod.mk s.S.pc) }

/-- The register writes of a mode switch (R138). -/
def modeSwitch (m m' : Mode) (src : Width) (fconf : FconfImage) : List Event :=
  if m = m' then [] else [.regWr (.src src), .regWr (.fconf fconf)]

/-- The registers after a mode switch (R138). -/
def State.switched (s : State) (m : Mode) (src : Width) (fconf : FconfImage) : State :=
  if s.S.mode = m then s
  else { s with S := { s.S with mode := m }, P := { s.P with regs := { s.P.regs with src := src, fconf := fconf } } }

/-- The peripheral after `ws` were pushed and a transmission started (R106, R107). -/
def State.started (s : State) (ws : List Word) : State :=
  { s with P := { s.P with fifo := ws, tx := ⟨true, true⟩, regs := { s.P.regs with txStart := true } } }

/-- A transmit word carrying a tagged byte in its upper half: `((t << 8) | b) << 16` (R72). -/
def upperWord (t b : Nat) : Word := BitVec.ofNat 32 ((256 * t + b) * 65536)

/-- A transmit word carrying two data bytes (R74). -/
def pairWord (b0 b1 : Nat) : Word := BitVec.ofNat 32 ((256 + b0) * 65536 + (256 + b1))

/-- Byte `i` of a value: `value[8i+7 : 8i]` (R48). -/
def byteAt (v : Word) (i : Nat) : Nat := v.toNat / 256 ^ i % 256

/-- The bytes of `n` host addresses from `a` on. -/
def hostBytes (m : Memory) (a n : Nat) : List Byte := (List.range n).map fun k => m.read (a + k)

/-- Every one of the `n` addresses from `a` on is admitted (R47). -/
def admitsAll (p : Params) (a n : Nat) : Prop := ∀ k < n, p.admits (a + k) = true

/-- The bus events of data bytes. -/
def dataCycles (bs : List Byte) : List BusEvent := bs.map (BusEvent.wr true)

/-- The bytes of one repeated pixel in bus order (R50). -/
def pixelBytes (c : Word) (n : Nat) : List Byte := (List.range n).map fun i => BitVec.ofNat 8 (byteAt c i)

/-- The bus events the transmitter still has to emit: the samples of the queued words in FIFO mode, of the load in DMA
mode (R73, R74, R88, R89, R97). -/
def State.pending (s : State) : List BusEvent :=
  (if s.P.regs.fconf.dscrEn then
    (if s.P.dma.latched then s.P.dma.stream
     else if s.P.dma.loaded then (s.P.scratch s.P.dma.buf).take (s.P.desc.length / 2)
     else [])
   else s.P.fifo.flatMap (samplesOf s.P.regs.src)).map cycleOf

/-- The cache after the bus clock answers `f` (R78, R133, R134): kept when it is valid and was computed for `f`. -/
def State.cacheAt (s : State) (f : Word) : Cache :=
  if s.S.cache.valid = true ∧ f = s.S.cache.freq then s.S.cache
  else ⟨true, f, ⟨true, s.par.fracA, s.par.fracB, min (max (1 + f.toNat / (1 + s.S.cfg.freqWrite)) 4) 32⟩⟩

/-- `beginTransaction` once its wait is done in `s` (R139): the bus clock is queried, the cache updated, then `CLKM`, `SRC`
and `FCONF` written, each in a turn of its own; the environment may overwrite `CLKM` again in the two turns after its
write (R39, R102). -/
def State.begun (s : State) : State :=
  let f := s.clockAnswer
  let clkm := (s.cacheAt f).clkm
  passed { s.afterClock with
    S := { s.S with cache := s.cacheAt f, mode := .scalar32, txn := true, pc := s.S.pc + 1 }
    P := { s.P with regs := { s.P.regs with
      clkm := clkmAfter (movesIn 2 (turnsLeft 2 s.E.sched)) clkm, src := .w32, fconf := ⟨.scalar, false⟩ } }
    hist := (s.logged [.clock f, .regWr (.clkm clkm), .regWr (.src .w32), .regWr (.fconf ⟨.scalar, false⟩)]).hist }
    (turnsLeft 4 s.E.sched) (radioAfter (movesIn 4 s.E.sched) s.E.radioClkEn)

/-- The history events of `InitPins` (R131). -/
def initPinsEvents : List Event :=
  [.claim (.d 0), .claim (.d 1), .claim (.d 2), .claim (.d 3), .claim (.d 4), .claim (.d 5), .claim (.d 6), .claim (.d 7),
   .claim .rd, .claim .wr, .claim .rs,
   .level .rd true, .dir .rd .output, .level .wr true, .dir .wr .output, .level .rs true, .dir .rs .output,
   .route (.d 0) (.parOut 0), .route (.d 1) (.parOut 1), .route (.d 2) (.parOut 2), .route (.d 3) (.parOut 3),
   .route (.d 4) (.parOut 4), .route (.d 5) (.parOut 5), .route (.d 6) (.parOut 6), .route (.d 7) (.parOut 7),
   .route .rs (.parOut 8), .route .wr .wordClkInv, .gate]

/-- The history events of `init` (R128): the pins, the interrupt bits, the mode registers, the descriptor record. -/
def initEvents (s : State) (a : Word) : List Event :=
  let modes : List Event := s.par.initMode.map fun w => Event.modeWr w.1 w.2
  let freed : List Event := if s.S.desc.allocated then [.free s.S.desc.addr] else []
  initPinsEvents ++ [.regWr (.intEna s.par.intEnaValue)] ++ modes ++ freed ++ [.alloc 0 a]

/-- The level events of `InitPins` at `init` (R131): of those strobes whose pad is an output already. -/
def initLevels (g : Pads) : List BusEvent :=
  let shown (r : Role) (p : Pad) : List BusEvent := if p.dir = .output then [.lvl r true] else []
  shown .rd g.rd ++ shown .wr g.wr ++ shown .rs g.rs

/-- The history events of `beginRead` after its wait (R170). -/
def readPinsEvents : List Event :=
  [.level .rd true, .dir .rd .output,
   .route .wr .gpio, .dir .wr .output, .level .wr true, .route .rs .gpio, .dir .rs .output, .level .rs true,
   .route (.d 0) .null, .dir (.d 0) .input, .route (.d 1) .null, .dir (.d 1) .input,
   .route (.d 2) .null, .dir (.d 2) .input, .route (.d 3) .null, .dir (.d 3) .input,
   .route (.d 4) .null, .dir (.d 4) .input, .route (.d 5) .null, .dir (.d 5) .input,
   .route (.d 6) .null, .dir (.d 6) .input, .route (.d 7) .null, .dir (.d 7) .input]

/-- The pads after `InitPins` (R131): every pad a claimed output; the strobes at level 1; write routing. -/
def Pads.afterInitPins (g g' : Pads) : Prop :=
  (∀ i : Fin 8, g'.d[i] = ⟨true, .output, g.d[i].level, .parOut i.val⟩) ∧
  g'.rd = ⟨true, .output, true, .gpio⟩ ∧ g'.wr = ⟨true, .output, true, .wordClkInv⟩ ∧
  g'.rs = ⟨true, .output, true, .parOut 8⟩

/-- The history and bus events of `n` bytes read, given the raw words of the samples (R173). -/
def readEvents (ws : List Word) : List Event :=
  match ws with
  | w0 :: w1 :: rest => [.sample w0, .sample w1, .level .rd true, .level .rd false] ++ readEvents rest
  | [_] => []
  | [] => []

/-- The strobe pulses of `n` bytes read (R173). -/
def readPulses (n : Nat) : List BusEvent := (List.replicate n [BusEvent.lvl .rd true, .lvl .rd false]).flatten

/-- The bytes read from the raw words of the samples: the second of each pair, unscrambled (R173). -/
def sampledBytes (pinD : Vector Nat 8) (ws : List Word) : List Byte :=
  match ws with
  | _ :: w1 :: rest => unscramble pinD w1 :: sampledBytes pinD rest
  | [_] => []
  | [] => []

/-- Bytes assembled least-significant first (R51). -/
def assembled : List Byte → Nat
  | [] => 0
  | b :: bs => b.toNat + 256 * assembled bs

/-- The pull ranges of `length` pixels in chunks of `limit`, the short chunk first (R168). -/
def chunkRanges (length limit : Nat) : List (Nat × Nat) :=
  (if length % limit = 0 then [] else [(0, length % limit)]) ++
    (List.range (length / limit)).map fun j => (length % limit + j * limit, length % limit + (j + 1) * limit)

/-- The pull ranges of `length` pixels in batches of `batch`, the short batch last (R176). -/
def batchRanges (length batch : Nat) : List (Nat × Nat) :=
  (List.range (length / batch)).map (fun j => (j * batch, (j + 1) * batch)) ++
    (if length % batch = 0 then [] else [(length / batch * batch, length)])

/-- The pull ranges of a history, as (producer, start, stop). -/
def pullsOf (h : List (Nat × Event)) : List (Nat × Nat × Nat) :=
  h.filterMap fun e =>
    match e.2 with
    | .pull p a b _ => some (p, a, b)
    | _ => none

/-- Ranges that start at `a`, each where the one before ended, none empty, none longer than `limit`, and end at `b`. -/
def Tiles (limit : Nat) : Nat → Nat → List (Nat × Nat) → Prop
  | a, b, [] => a = b
  | a, b, r :: rs => r.1 = a ∧ a < r.2 ∧ r.2 ≤ a + limit ∧ Tiles limit r.2 b rs

/-! ## Whose turn it is, and legal packets, in the spec's numbers -/

/-- The sequencer fetches next in `s`, from `t`: `s` itself, or `s` with its listed turn consumed. -/
def SequencerTurn (s t : State) : Prop :=
  s.S.fault = none ∧ s.S.hold = none ∧ s.S.refused = false ∧ s.S.pc < s.stream.length ∧
    (s.E.sched = [] ∧ t = s ∨ ∃ ms, s.E.sched = .seq :: ms ∧ t = s.setSched ms)

/-- The opcodes of R65. -/
def opcodeBytes : List Nat :=
  [0x01, 0x02, 0x03, 0x04, 0x05, 0x06, 0x07, 0x10, 0x11, 0x12, 0x13, 0x14, 0x20, 0x21, 0x22, 0x23, 0x24]

/-- Bits `[7:0]` of a header (R64). -/
def opOf (h : Word) : Nat := h.toNat % 256

/-- A legal header (R64, R65, R70). -/
abbrev LegalHeader (h : Word) : Prop :=
  opOf h ∈ opcodeBytes ∧ h.toNat / 2 ^ 17 = 0 ∧
    (opOf h ∉ [0x10, 0x11, 0x12, 0x22] → h.toNat / 2 ^ 8 % 2 ^ 8 = 0) ∧
    (opOf h ∉ [0x13, 0x23] → h.toNat / 2 ^ 16 % 2 = 0)

/-- `len(op)`, header included (R64). -/
def packetLength (op : Nat) : Nat :=
  if op = 0x01 then 6
  else if op ∈ [0x10, 0x11] then 2
  else if op ∈ [0x12, 0x13, 0x14, 0x23] then 3
  else if op = 0x24 then 4
  else 1

/-- A legal `config` header followed by five words of which the fourth has a non-zero reserved byte (R66, R70). -/
abbrev BadConfigWord (h : Word) (ws : List Word) : Prop :=
  opOf h = 0x01 ∧ 5 ≤ ws.length ∧ (ws.getD 3 0#32).toNat / 2 ^ 24 ≠ 0

/-! ## Expected histories of the burst commands (R153, R154, R158 to R160) -/

/-- The sizes of the batches of `n` units in batches of at most `b` (R155). -/
def batchSizes (n b : Nat) : List Nat := ((n - 1) % b + 1) :: List.replicate ((n - 1) / b) b

/-- Batches of pushes: each after a wait, the mode registers written in the first only, a spin between two batches. -/
def burstEvents (spin : Nat) : List Event → List (List Event) → List Event
  | _, [] => []
  | sw, [b] => .wait :: (sw ++ b ++ [.start])
  | sw, b :: b' :: bs => .wait :: (sw ++ b ++ [.start, .spin spin]) ++ burstEvents spin [] (b' :: bs)

/-- The mode registers written on entering a mode from `m`. -/
def toScalar32 (m : Mode) : List Event := modeSwitch m .scalar32 .w32 ⟨.scalar, false⟩
def toBulk16 (m : Mode) : List Event := modeSwitch m .bulk16 .w16 ⟨.bulk, false⟩
def toBulk16Dma : List Event := [.regWr (.src .w16), .regWr (.fconf ⟨.dma, true⟩)]

/-- The events of a scalar write of the bytes `bs` with tag `t` (R147). -/
def scalarEvents (m : Mode) (t : Nat) (bs : List Nat) : List Event :=
  .wait :: (toScalar32 m ++ bs.map (fun b => .push (upperWord t b)) ++ [.start])

/-- `Repeat2` (R153). -/
def repeat2Events (m : Mode) (spin : Nat) (c : Word) (count : Nat) : List Event :=
  burstEvents spin (toBulk16 m)
    ((batchSizes count 32).map fun n => List.replicate n (.push (pairWord (byteAt c 0) (byteAt c 1))))

/-- The three pushes of a pair of 3-byte pixels (R75). -/
def pairPushes (c : Word) : List Event :=
  [.push (pairWord (byteAt c 0) (byteAt c 1)), .push (pairWord (byteAt c 2) (byteAt c 0)),
    .push (pairWord (byteAt c 1) (byteAt c 2))]

/-- `Repeat3` (R154). -/
def repeat3Events (m : Mode) (spin : Nat) (c : Word) (count : Nat) : List Event :=
  (if count % 2 = 1 then scalarEvents m 1 [byteAt c 0, byteAt c 1, byteAt c 2] else []) ++
    (if count / 2 = 0 then []
     else burstEvents spin (toBulk16 (if count % 2 = 1 then .scalar32 else m))
      ((batchSizes (count / 2) 10).map fun n => (List.replicate n (pairPushes c)).flatten))

/-- `n` host bytes read from `a` on. -/
def readEventsAt (m : Memory) (a n : Nat) : List Event := (List.range n).map fun j => .mRd (a + j) (m.read (a + j))

/-- `n` byte pairs read from `a` on and pushed (R159). -/
def pairEvents (m : Memory) (a n : Nat) : List Event :=
  (List.range n).flatMap fun j =>
    readEventsAt m (a + 2 * j) 2 ++ [.push (pairWord (m.read (a + 2 * j)).toNat (m.read (a + 2 * j + 1)).toNat)]

/-- The load sizes of a DMA phase of `r` bus bytes: 64, 128, then 256 each, the last what remains (R162). -/
def loadSizes (r : Nat) : List Nat :=
  if r ≤ 64 then [r]
  else if r ≤ 192 then [64, r - 64]
  else [64, 128] ++ List.replicate ((r - 192) / 256) 256 ++ (if (r - 192) % 256 = 0 then [] else [(r - 192) % 256])

/-- The loads of a DMA phase, bytes from `a` on: `sw` the mode registers written in the first, `flip` the copy the first
fills, `cap` and `addr` the descriptor record, `as` the allocator's answers (R160, R163, R164). -/
def dmaEvents (p : Params) (m : Memory) : List Event → Nat → Bool → Nat → Word → List Word → List Nat → List Event
  | _, _, _, _, _, _, [] => []
  | sw, a, flip, cap, addr, as, n :: ns =>
    readEventsAt m a n ++ [.bufWr flip n, .wait] ++ sw ++
      (if 2 * n = cap then [] else [.free addr, .alloc (2 * n) (as.headD 0#32)]) ++
      [.descWr ⟨if flip then p.scratchAddr1 else p.scratchAddr0, 2 * n, 2 * n, true, true, 0#32⟩,
        .regWr (.outlink ⟨Config.physAddr (if 2 * n = cap then addr else as.headD 0#32), true⟩),
        .spin p.kDma, .start] ++
      dmaEvents p m [] (a + n) (!flip) (2 * n) (if 2 * n = cap then addr else as.headD 0#32)
        (if 2 * n = cap then as else as.tail) ns

/-- The FIFO phase, bytes from `a` on, `sent` bus bytes sent before: one batch after another, or, at the first batch
boundary with at least `T_DMA` bytes sent, a quiet radio and then the events `dma` of the loads (R159). -/
def fifoEvents (p : Params) (m : Memory) (useDma : Bool) (dma : Nat → Nat → List Event) :
    List Event → Nat → Nat → List Nat → List Event
  | _, _, _, [] => []
  | sw, a, sent, n :: ns =>
    .wait :: (sw ++ pairEvents m a n ++ [.start]) ++
      (if ns = [] then []
       else if useDma = true ∧ p.tDma ≤ sent + 2 * n then .radio false :: dma (a + 2 * n) (2 * ns.sum)
       else .spin p.kBytes :: fifoEvents p m useDma dma [] (a + 2 * n) (sent + 2 * n) ns)

/-- `writeBytes` with the radio off (R158 to R160). -/
def bytesEvents (s : State) (buffer length : Nat) (useDma : Bool) (as : List Word) : List Event :=
  let body (m : Mode) (a pairs : Nat) : List Event :=
    if pairs = 0 then []
    else fifoEvents s.par s.M useDma
      (fun a r => dmaEvents s.par s.M toBulk16Dma a s.S.flip s.S.desc.capacity s.S.desc.addr as (loadSizes r))
      (toBulk16 m) a 0 (batchSizes pairs 32)
  if length % 2 = 1 then
    .mRd buffer (s.M.read buffer) :: scalarEvents s.S.mode 1 [(s.M.read buffer).toNat] ++
      body .scalar32 (buffer + 1) (length / 2)
  else body s.S.mode buffer (length / 2)

/-! ## Bursts: the peripheral may still be transmitting -/

/-- The radio is off and stays off. -/
def RadioOff (s : State) : Prop := s.E.radioClkEn = 0#32 ∧ ∀ v, Move.radio v ∈ s.E.sched → v = 0#32

/-- A state between two commands in which a write command passes its first three checks and nothing can stop its writes
but its own operands (R212). -/
structure BurstReady (s : State) : Prop where
  sound : s.par.sound
  boundary : BoundaryInv s
  live : s.live
  life : s.S.life = .initialised
  txn : s.S.txn = true
  write : s.S.read = false
  radio : RadioOff s

/-- The bus events so far and those still to come. -/
def State.output (s : State) : List BusEvent := s.bus ++ s.pending

/-! ## Mode transitions (R143) -/

/-- The modes a history enters: the `FCONF` writes, by their FIFO mode (R79). -/
def modesOf (h : List (Nat × Event)) : List Mode :=
  h.filterMap fun e =>
    match e.2 with
    | .regWr (.fconf ⟨.scalar, _⟩) => some .scalar32
    | .regWr (.fconf ⟨.bulk, _⟩) => some .bulk16
    | .regWr (.fconf ⟨.dma, _⟩) => some .bulk16Dma
    | _ => none

/-- From `m` through the modes of the list to `m'`, each transition allowed. -/
def ModePath (allowed : Mode → Mode → Bool) : Mode → List Mode → Mode → Prop
  | m, [], m' => m = m'
  | m, x :: xs, m' => allowed m x = true ∧ ModePath allowed x xs m'

/-- `Bulk16` or `Bulk16Dma` to `Scalar32`. -/
def bulkToScalar (m m' : Mode) : Bool := (m == .bulk16 || m == .bulk16Dma) && m' == .scalar32

/-- `Scalar32` or `Bulk16Dma` to `Bulk16`. -/
def anyToBulk (m m' : Mode) : Bool := (m == .scalar32 || m == .bulk16Dma) && m' == .bulk16

/-- The transitions each command takes (R143).  `writePixels` takes those of `writeBytes` without the DMA phase (R167). -/
def transitionsOf : Instr → Mode → Mode → Bool
  | .config .. => fun _ _ => false
  | .init => fun _ _ => false
  | .release => fun _ _ => false
  | .beginTransaction => fun _ m' => m' == .scalar32
  | .endTransaction => fun _ _ => false
  | .wait => fun _ _ => false
  | .busy => fun _ _ => false
  | .writeCommand .. => bulkToScalar
  | .writeData .. => bulkToScalar
  | .writeDataRepeat .. => fun m m' => bulkToScalar m m' || anyToBulk m m'
  | .writeBytes .. => fun m m' => bulkToScalar m m' || anyToBulk m m' || (m == .bulk16 && m' == .bulk16Dma)
  | .writePixels .. => fun m m' => bulkToScalar m m' || anyToBulk m m'
  | .beginRead => fun _ _ => false
  | .endRead => fun _ _ => false
  | .readData .. => fun _ _ => false
  | .readBytes .. => fun _ _ => false
  | .readPixels .. => fun _ _ => false

/-! ## Raw samples -/

/-- The next `n` raw words: the scripted ones, then free values (R177). -/
def rawWords (s : State) (n : Nat) : List Word :=
  (List.range n).map fun k => (s.E.device.script[k]?).getD (Config.freeRaw (s.E.drawn + (k - s.E.device.script.length)))

/-- The environment after `n` samples. -/
def Env.sampled (e : Env) (n : Nat) : Env :=
  { e with device := { e.device with script := e.device.script.drop n }, drawn := e.drawn + (n - e.device.script.length) }

/-- The history events of bytes read and stored from `a` on (R173, R174). -/
def storeEvents (pinD : Vector Nat 8) (a : Nat) : List Word → List Event
  | w0 :: w1 :: rest =>
    [.sample w0, .sample w1, .level .rd true, .level .rd false, .mWr a (unscramble pinD w1)] ++
      storeEvents pinD (a + 1) rest
  | [_] => []
  | [] => []

/-! ## The precondition checks of R185, as its table gives them: a condition and the fault unless it holds -/

/-- `S.life = Initialised`, then `S.txn`, then not in read mode: the first three columns of a write command. -/
def writeRow (s : State) : List (Bool × FaultCode) :=
  [(s.S.life == .initialised, .lifecycle), (s.S.txn, .noTxn), (!s.S.read, .readMode)]

/-- The first three columns of a read command. -/
def readRow (s : State) : List (Bool × FaultCode) :=
  [(s.S.life == .initialised, .lifecycle), (s.S.txn, .noTxn), (s.S.read, .notReadMode)]

/-- The producer handle is known, then its pixels have 2 or 3 bytes. -/
def producerRow (s : State) (p : Nat) : List (Bool × FaultCode) :=
  [((s.E.producer p).isSome, .operand), (s.E.bpp p == 2 || s.E.bpp p == 3, .operand)]

/-- The rows of R185. -/
def checksOf (s : State) : Instr → List (Bool × FaultCode)
  | .config inst pinD pinRD pinWR pinRS freqWrite =>
    [(s.S.life == .reset || s.S.life == .configured, .lifecycle),
     (Cfg.valid ⟨inst, pinD, pinRD, pinWR, pinRS, freqWrite⟩ s.par, .config)]
  | .init => [(s.S.life == .configured, .lifecycle)]
  | .release => []
  | .beginTransaction => [(s.S.life == .initialised, .lifecycle), (!s.S.txn, .nested)]
  | .endTransaction => writeRow s
  | .wait => [(s.S.life == .initialised, .lifecycle)]
  | .busy => [(s.S.life == .initialised, .lifecycle)]
  | .writeCommand _ blen => writeRow s ++ [(decide (blen ≤ 32), .operand)]
  | .writeData _ blen => writeRow s ++ [(decide (blen ≤ 32), .operand)]
  | .writeDataRepeat _ blen count =>
    writeRow s ++ [(decide (9 ≤ blen ∧ blen ≤ 24), .operand), (decide (1 ≤ count), .operand)]
  | .writeBytes _ length _ => writeRow s ++ [(decide (1 ≤ length), .operand)]
  | .writePixels p _ => writeRow s ++ producerRow s p
  | .beginRead => writeRow s
  | .endRead => readRow s
  | .readData blen => readRow s ++ [(decide (blen ≤ 32), .operand)]
  | .readBytes _ length _ => readRow s ++ [(decide (1 ≤ length), .operand)]
  | .readPixels _ p _ => readRow s ++ producerRow s p

/-- The fault of the first check that fails, if one does. -/
def firstFailing (checks : List (Bool × FaultCode)) : Option FaultCode :=
  (checks.find? fun c => !c.1).map Prod.snd

end Sys2Proof.Machine
end

