-- ==== Sys2Proof/Certificates/Slice0/Obligations.lean ====
section
/-!
DEFINITION. The statements for the provers.  Each docstring names the rules of spec/ it formalises.
-/

section
open Sys2Proof Sys2Proof.Machine

/-! ## Encoding -/

/-- R63 to R67, R86: decoding the words of a well-formed instruction gives it back, with every operand at every value its
field admits, and leaves the words after the packet. -/
def Obligations.DecodeEncodeRoundTrip : Prop :=
  ∀ (i : Instr) (rest : List Word), i.wellFormed = true → decode (encode i ++ rest) = .ok (i, rest)

/-- R64, R66, R70: a packet that decodes is the encoding of the one well-formed instruction it decodes to: no bit of it is
ignored. -/
def Obligations.DecodedPacketIsTheEncoding : Prop :=
  ∀ (ws rest : List Word) (i : Instr), decode ws = .ok (i, rest) → i.wellFormed = true ∧ ws = encode i ++ rest

/-- R64, R70, R80, R125: at the sequencer's turn every header either is illegal and faults, or heads a packet that runs past
the end of the stream and is refused, after which the sequencer has no step, or heads a packet of its opcode and table
length that runs.  Where R70 and R80 both speak, of a truncated `config` packet with a non-zero reserved byte, that it is
refused and does not fault is the model's reading, not a rule's (log entry 16). -/
def Obligations.FetchFaultsRefusesOrRuns : Prop :=
  ∀ (s t : State) (h : Word) (ws : List Word), SequencerTurn s t → s.stream.drop s.S.pc = h :: ws →
    (¬ LegalHeader h ∨ BadConfigWord h ws →
      step s = .next { t with S := { t.S with fault := some (.illegal, s.S.pc) } }) ∧
    (LegalHeader h → ws.length + 1 < packetLength (opOf h) →
      step s = .next { t with S := { t.S with refused := true } } ∧
        ∀ ms, ({ t with S := { t.S with refused := true } }.setSched ms).sequencerDone = true) ∧
    (LegalHeader h → packetLength (opOf h) ≤ ws.length + 1 → ¬ BadConfigWord h ws →
      ∃ i, decode (h :: ws) = .ok (i, ws.drop (packetLength (opOf h) - 1)) ∧ i.wellFormed = true ∧
        h :: ws = encode i ++ ws.drop (packetLength (opOf h) - 1) ∧
        i.opcode.row.byte = opOf h ∧ i.len = packetLength (opOf h) ∧ step s = exec i t)

/-- R84: the spec's example packets decode to the commands it names. -/
def Obligations.ExamplePacketsDecode : Prop :=
  decode [0x00000002#32] = .ok (.init, []) ∧
  decode [0x00000004#32] = .ok (.beginTransaction, []) ∧
  decode [0x00000810#32, 0x0000002A#32] = .ok (.writeCommand 0x2A#32 8, []) ∧
  decode [0x00001011#32, 0x00001234#32] = .ok (.writeData 0x1234#32 16, []) ∧
  decode [0x00001012#32, 0x0000FFFF#32, 0x00000005#32] = .ok (.writeDataRepeat 0xFFFF#32 16 5, []) ∧
  decode [0x00010013#32, 0x00001000#32, 0x00000005#32] = .ok (.writeBytes 0x1000 5 true, []) ∧
  decode [0x00000822#32] = .ok (.readData 8, [])

/-- R85: the spec's example transmit words. -/
def Obligations.ExampleTransmitWords : Prop :=
  WS true 0x34#8 = 0x01340000#32 ∧ WS false 0x2A#8 = 0x002A0000#32 ∧ WB 0xAB#8 0xCD#8 = 0x01AB01CD#32 ∧
  WR2 0xFFFF#32 = 0x01FF01FF#32 ∧ WR3 0x563412#32 = [0x01120134#32, 0x01560112#32, 0x01340156#32] ∧
  SD 0x7F#8 = 0x017F#16

/-! ## The step -/

/-- R16, R46, R125: at the sequencer's turn a packet that decodes runs: the step is exec of its instruction, in the state
with at most the listed turn consumed; nothing else is added (exec itself moves the command pointer). -/
def Obligations.StepRunsTheDecodedCommand : Prop :=
  ∀ (s t : State) (i : Instr) (rest : List Word), SequencerTurn s t → decode (s.stream.drop s.S.pc) = .ok (i, rest) →
    step s = exec i t

/-- R184: once a fault is set no step exists; and a fault raised by a micro-operation, a check or another agent's step is
all the effect it has. -/
def Obligations.FaultFreezesTheMachine : Prop :=
  (∀ (s : State) (c : FaultCode) (pc : Nat), s.S.fault = some (c, pc) → step s = .fault (.stopped c pc)) ∧
  (∀ (op : State → Effect Unit) (s : State) (c : FaultCode), op s = .raise c →
    perform op s = .error .faulted { s with S := { s.S with fault := some (c, s.S.pc) } }) ∧
  (∀ (cond : State → Bool) (s : State) (c : FaultCode), cond s = false →
    check cond c s = .error .faulted { s with S := { s.S with fault := some (c, s.S.pc) } }) ∧
  ∀ (s : State) (m : Move), s.S.fault = none → (s.moved m).S.fault ≠ none →
    s.moved m = { s with S := { s.S with fault := some (.radioDma, s.S.pc) } }

/-- R87, R88, R89, R91: the effects of the transmitter's four steps, as listed moves, in write routing (R90): latch, FIFO
drain, DMA drain with the radio errata, finish.  (A drain outside write routing is log entry 23, and no part of this.) -/
def Obligations.TransmitterSteps : Prop :=
  ∀ (s u : State) (ms : List Move), s.S.fault = none → s.E.sched = .tx :: ms → s.G.writeRouting = true → u = s.setSched ms →
    (s.P.tx.latchPending = true →
      step s = .next { u with P := { u.P with tx := { u.P.tx with latchPending := false } } }) ∧
    (s.P.tx.running = true → s.P.tx.latchPending = false →
      (∀ w ws, s.P.regs.fconf.dscrEn = false → s.P.fifo = w :: ws →
        ∃ t, step s = .next t ∧ t.S = s.S ∧ t.P = { s.P with fifo := ws } ∧ t.G = s.G ∧ t.M = s.M ∧ t.hist = s.hist ∧
          t.bus = s.bus ++ match s.P.regs.src with
            | .w32 => [.wr (w.getLsbD 24) (w.extractLsb' 16 8)]
            | .w16 => [.wr (w.getLsbD 24) (w.extractLsb' 16 8), .wr (w.getLsbD 8) (w.extractLsb' 0 8)]) ∧
      (∀ h hs, s.P.regs.fconf.dscrEn = true → s.P.dma.latched = true → s.P.dma.stream = h :: hs →
        (s.E.radioClkEn ≠ 0#32 → step s = .next { u with S := { u.S with fault := some (.radioDma, s.S.pc) } }) ∧
        (s.E.radioClkEn = 0#32 →
          ∃ t, step s = .next t ∧ t.S = s.S ∧ t.P = { s.P with dma := { s.P.dma with stream := hs } } ∧ t.G = s.G ∧
            t.M = s.M ∧ t.hist = s.hist ∧ t.bus = s.bus ++ [.wr (h.getLsbD 8) (h.extractLsb' 0 8)])) ∧
      (s.P.regs.fconf.dscrEn = false → s.P.fifo = [] →
        step s = .next { u with P := { u.P with tx := { u.P.tx with running := false } } }) ∧
      (s.P.regs.fconf.dscrEn = true →
        s.P.dma.loaded = false ∧ s.P.dma.latched = false ∨ s.P.dma.latched = true ∧ s.P.dma.stream = [] →
        step s = .next { u with P := { u.P with
          tx := { u.P.tx with running := false }, dma := { u.P.dma with loaded := false, latched := false },
          desc := { u.P.desc with owner := false } } }))

/-- R97, R99: the DMA engine's step, as a listed move, while descriptor fetch is enabled (R118; that it is part of the
enabling condition is the model's reading, log entry 9): it latches the first samples of the copy the load references, or
faults while the radio is on. -/
def Obligations.DmaEngineStep : Prop :=
  ∀ (s u : State) (ms : List Move), s.S.fault = none → s.E.sched = .dma :: ms → u = s.setSched ms →
    s.P.dma.loaded = true → s.P.dma.latched = false → s.P.regs.fconf.dscrEn = true →
    (s.E.radioClkEn ≠ 0#32 → step s = .next { u with S := { u.S with fault := some (.radioDma, s.S.pc) } }) ∧
    (s.E.radioClkEn = 0#32 → step s = .next { u with P := { u.P with dma := { u.P.dma with
      latched := true
      stream := (if s.P.dma.buf then s.P.scratch1 else s.P.scratch0).take (s.P.desc.length / 2) } } })

/-- R207: at the end of the stream, with no move listed, the peripheral goes on under `HW_PROGRESS` until no agent has an
enabled step, and then the run is complete. -/
def Obligations.RunGoesOnToItsEnd : Prop :=
  ∀ s : State, s.S.fault = none → s.S.hold = none → s.S.refused = false → s.E.sched = [] → s.par.hwProgress = true →
    s.stream.length ≤ s.S.pc →
    (∀ t, hwStep s = some t → step s = .next t) ∧ (hwStep s = none → step s = .fault .runComplete)

/-- R92, R104 to R123: which faults each micro-operation raises, and exactly when: a register write, the
output link, a pad operation, a buffer or descriptor write and a free `F_HAZARD` and no other, a push `F_FIFO_OVERFLOW`
only, a start `F_HAZARD` or `F_DMA_LATCH`, an allocation `F_HAZARD` or `F_ALLOC`; and that every other micro-operation
raises none.
Two parts are the model's choice, no rule's: that the free and the allocation of R119's `DescRealloc` are two
micro-operations, each with the hazard check (log entry 14), and that a register write of `InitPeripheralMode` (R128, left
open) raises no fault (log entry 13). -/
def Obligations.HazardsFault : Prop :=
  ∀ (s : State) (c : FaultCode),
    (∀ v, regWriteOp v s = .raise c ↔ c = .hazard ∧
      (v.reg ∈ [.src, .fconf, .clkm, .outlink] ∧ s.P.tx.running = true ∨ v.reg = .outlink ∧ s.P.dma.loaded = true)) ∧
    (outLinkStartOp s = .raise c ↔ c = .hazard ∧ (s.P.tx.running = true ∨ s.P.dma.loaded = true)) ∧
    (∀ w, fifoPushOp w s = .raise c ↔ c = .fifoOverflow ∧ s.P.fifo.length = s.par.fifoDepth) ∧
    (txStartOp s = .raise c ↔ c = .hazard ∧ s.P.tx.running = true ∨ c = .dmaLatch ∧ s.P.tx.running = false ∧
      s.P.regs.fconf.dscrEn = true ∧ s.P.dma.loaded = true ∧ s.P.dma.latched = false) ∧
    (∀ r slot, routeOp r slot s = .raise c ↔ c = .hazard ∧ r ≠ .rd ∧ s.P.tx.running = true) ∧
    (∀ r l, gpioLevelOp r l s = .raise c ↔ c = .hazard ∧ r ≠ .rd ∧ s.P.tx.running = true) ∧
    (∀ r d, gpioDirOp r d s = .raise c ↔ c = .hazard ∧ r ≠ .rd ∧ s.P.tx.running = true) ∧
    (∀ r, gpioClaimOp r s = .raise c ↔ c = .hazard ∧ r ≠ .rd ∧ s.P.tx.running = true) ∧
    (∀ copy v, bufWriteOp copy v s = .raise c ↔ c = .hazard ∧ s.P.dma.loaded = true ∧ s.P.dma.buf = copy) ∧
    (∀ d, descWriteOp d s = .raise c ↔ c = .hazard ∧ s.P.dma.loaded = true) ∧
    (descFreeOp s = .raise c ↔ c = .hazard ∧ s.P.dma.loaded = true) ∧
    (∀ n, descAllocOp n s = .raise c ↔ c = .hazard ∧ s.P.dma.loaded = true ∨
      c = .alloc ∧ s.P.dma.loaded = false ∧ s.allocAnswer = none) ∧
    pollIdleOp s ≠ .raise c ∧ waitIdleOp s ≠ .raise c ∧ (∀ k, spinOp k s ≠ .raise c) ∧ gpioReadRawOp s ≠ .raise c ∧
    queryBusClockOp s ≠ .raise c ∧ radioPollOp s ≠ .raise c ∧ clockGateOnOp s ≠ .raise c ∧
    (∀ a v, modeWriteOp a v s ≠ .raise c) ∧ (∀ a, memReadOp a s ≠ .raise c) ∧ (∀ a v, memWriteOp a v s ≠ .raise c) ∧
    (∀ p i j n, pullWriteOp p i j n s ≠ .raise c) ∧ (∀ p dst i j, pullReadOp p dst i j s ≠ .raise c)

/-! ## wait, busy and the holds -/

/-- R142: `busy` polls once and waits for nothing but a pending start latch: with the peripheral idle it answers 0 whatever
the other agents do; with no move listed (the sequencer then goes first: log entry 1, the model's choice) it answers 1
exactly when a transmission runs that the flag already shows. -/
def Obligations.BusyCommand : Prop :=
  (∀ s : State, Still s → s.S.life = .initialised → exec .busy s = .next { s.turned with
    S := { s.S with res := 0#32, pc := s.S.pc + 1 }, hist := s.hist ++ [(s.S.pc, .poll true)] }) ∧
  ∀ s : State, s.S.fault = none → s.S.life = .initialised → s.E.sched = [] →
    (s.par.pStartLatch = true → s.P.tx.latchPending = true → s.par.hwProgress = true) →
    let running := s.P.tx.running && (s.par.pStartLatch || !s.P.tx.latchPending)
    exec .busy s = .next { s with
      S := { s.S with res := if running then 1#32 else 0#32, pc := s.S.pc + 1 }
      P := { s.P with tx := { s.P.tx with latchPending := s.P.tx.latchPending && !s.par.pStartLatch } }
      hist := s.hist ++ [(s.S.pc, .poll (!running))] }

/-- R141: with the peripheral idle `wait` only records its wait, whatever the other agents do; while a transmission runs
under `HW_PROGRESS` (its start latched, or latched before the poll: R94) it completes once everything queued has been
sent and the transmitter has finished. -/
def Obligations.WaitCommand : Prop :=
  (∀ s : State, Still s → s.S.life = .initialised → exec .wait s = .next { s.turned with
    S := { s.S with pc := s.S.pc + 1 }, hist := s.hist ++ [(s.S.pc, .wait)] }) ∧
  ∀ s : State, s.S.fault = none → s.S.life = .initialised → s.par.hwProgress = true → s.P.tx.running = true →
    (s.par.pStartLatch = true ∨ s.P.tx.latchPending = false) → s.G.writeRouting = true →
    (s.P.regs.fconf.dscrEn = true → RadioOff s) →
    ∃ t, exec .wait s = .next t ∧ t.bus = s.bus ++ s.pending ∧ t.pending = [] ∧ t.P.tx = ⟨false, false⟩ ∧
      t.S = { s.S with pc := s.S.pc + 1 } ∧ t.hist = s.hist ++ [(s.S.pc, .wait)] ∧ t.G = s.G ∧ t.M = s.M

/-- R100, R208: without `HW_PROGRESS` a `wait` on a running transmission, and with `P_START_LATCH` a `busy` on a start never
latched, hold for good; a host-memory read outside the admitted region holds for good.  Nothing but the model's mark
(log entry 7) changes, and `S.fault` stays as it is.  That step then answers the host fault `held` is the model's choice
(log entry 19): in the `wait` and `busy` clauses a transmitter step is enabled, which R100 lets never be taken, and with no
move listed the model takes none (log entry 1); in the memory clause no step is enabled. -/
def Obligations.HoldsForGood : Prop :=
  ∀ s : State, s.S.fault = none → s.S.life = .initialised → s.E.sched = [] →
    (s.par.hwProgress = false → s.P.tx.running = true → s.P.tx.latchPending = false →
      exec .wait s = .next { s with S := { s.S with hold := some .waitIdle } } ∧
      step { s with S := { s.S with hold := some .waitIdle } } = .fault (.held .waitIdle)) ∧
    (s.par.hwProgress = false → s.par.pStartLatch = true → s.P.tx.latchPending = true →
      exec .busy s = .next { s with S := { s.S with hold := some .pollIdle } } ∧
      step { s with S := { s.S with hold := some .pollIdle } } = .fault (.held .pollIdle)) ∧
    (∀ buffer length useDma, s.S.txn = true → s.S.read = false → s.par.admits buffer = false → length % 2 = 1 →
      hwStep s = none →
      exec (.writeBytes buffer length useDma) s = .next { s with S := { s.S with hold := some (.memRead buffer) } } ∧
      step { s with S := { s.S with hold := some (.memRead buffer) } } = .fault (.held (.memRead buffer)))

/-- R208: under `HW_PROGRESS` every peripheral hold lifts: a command can be held for good only at a host-memory access
outside the admitted region. -/
def Obligations.ProgressLiftsPeripheralHolds : Prop :=
  ∀ (i : Instr) (s t : State), ControlInv s → s.S.fault = none → s.par.hwProgress = true → exec i s = .next t →
    t.S.hold = s.S.hold ∨ (∃ a, t.S.hold = some (.memRead a) ∧ s.par.admits a = false) ∨
      ∃ a, t.S.hold = some (.memWrite a) ∧ s.par.admits a = false

/-! ## Lifecycle and clock -/

/-- R126, with the validity check of R14: `config` in every state and for every operand. -/
def Obligations.ConfigCommand : Prop :=
  ∀ (s : State) (inst : Nat) (d : Vector Nat 8) (rd wr rs freq : Nat),
    let valid := (d.toList ++ [rd, wr, rs]).Nodup ∧ (∀ p ∈ d.toList ++ [rd, wr, rs], p < s.par.numGpio) ∧
      (∀ p ∈ d.toList, p < 32) ∧ inst ∈ s.par.instances ∧ 1 ≤ freq ∧ freq ≤ 2 ^ 32 - 2
    (s.S.life = .initialised →
      exec (.config inst d rd wr rs freq) s = .next { s with S := { s.S with fault := some (.lifecycle, s.S.pc) } }) ∧
    (s.S.life ≠ .initialised → ¬ valid →
      exec (.config inst d rd wr rs freq) s = .next { s with S := { s.S with fault := some (.config, s.S.pc) } }) ∧
    (s.S.life ≠ .initialised → valid →
      exec (.config inst d rd wr rs freq) s = .next { s with S := { s.S with
        cfg := ⟨inst, d, rd, wr, rs, freq⟩, life := .configured, pc := s.S.pc + 6 } })

/-- R127: `release` in every state only advances the command pointer. -/
def Obligations.ReleaseCommand : Prop :=
  ∀ s : State, exec .release s = .next { s with S := { s.S with pc := s.S.pc + 1 } }

/-- R128, with R122, R129, R130, R131: `init` after `config`, with the peripheral idle, whatever the other agents do, binds the handles, routes the pins,
opens the clock gate, enables the interrupt bits, writes the mode registers and allocates the descriptor; when the
allocator fails it faults `F_ALLOC` and stays configured. -/
def Obligations.InitCommand : Prop :=
  ∀ (s : State) (as : List (Option Word)), Still s → s.S.life = .configured →
    (∀ a, s.E.allocs = some a :: as →
      ∃ t, exec .init s = .next t ∧
        t.S = { s.S with life := .initialised, handles := some s.S.cfg.inst, desc := ⟨true, 0, a⟩, pc := s.S.pc + 1 } ∧
        Pads.afterInitPins s.G t.G ∧ t.G.writeRouting = true ∧ t.P.gate = ⟨true, true⟩ ∧
        t.P.regs.intEna = s.par.intEnaValue ∧ t.P.modeRegs = s.P.modeRegs ++ s.par.initMode ∧ t.P.tx = ⟨false, false⟩ ∧
        t.P.dma.loaded = false ∧ (s.P.gate = ⟨false, false⟩ → t.P.fifo = [] ∧ t.P.dma.latched = false ∧ t.P.dma.stream = []) ∧
        t.E.allocs = as ∧ t.M = s.M ∧
        t.bus = s.bus ++ initLevels s.G ∧ t.hist = (s.logged (initEvents s a)).hist) ∧
    (s.E.allocs = none :: as →
      ∃ t, exec .init s = .next t ∧ t.S.fault = some (.alloc, s.S.pc) ∧ t.S.life = .configured ∧ t.S.pc = s.S.pc)

/-- R136: the divider laws. -/
def Obligations.DividerLaws : Prop :=
  ∀ f w : Nat,
    (divider f w = 4 ↔ f < 4 * (1 + w)) ∧ (divider f w = 32 ↔ 31 * (1 + w) ≤ f) ∧
    (4 * (1 + w) ≤ f → f < 31 * (1 + w) → divider f w = 1 + f / (1 + w)) ∧
    (∀ f', f ≤ f' → divider f w ≤ divider f' w) ∧ (∀ w', w ≤ w' → divider f w' ≤ divider f w)

/-! ## Transactions and modes -/

/-- R139, with R133, R134, R135: `beginTransaction` outside a transaction, whatever the other agents do, their overwrites of
`CLKM` (R39) included.
With nothing transmitted it completes, in exactly the state of the rules.
Otherwise it waits first, as `wait` does, and stops where `wait` is stopped; once everything sent before is done (R140), it
goes on from there to the state of the rules, and under `HW_PROGRESS` it gets there.
After a stale idle reading (R94), with no move listed (the sequencer then goes first: log entry 1, the model's choice), its
first register write faults `F_HAZARD`.
That `S.txn` is set with the `FCONF` write, no move between, is the model's choice (log entry 24). -/
def Obligations.BeginTransactionCommand : Prop :=
  ∀ s : State, s.live → s.S.life = .initialised → s.S.txn = false →
    (Still s → exec .beginTransaction s = .next ({ s.turned with hist := s.hist ++ [(s.S.pc, .wait)] } : State).begun) ∧
    (∀ u, exec .wait s = .next u →
      (u.live → Still u → exec .beginTransaction s = .next ({ u with S := { u.S with pc := s.S.pc } } : State).begun) ∧
      (¬ u.live → exec .beginTransaction s = .next u)) ∧
    (BoundaryInv s → s.par.hwProgress = true → s.P.tx.running = true →
      (s.par.pStartLatch = true ∨ s.P.tx.latchPending = false) → (s.P.regs.fconf.dscrEn = true → RadioOff s) →
      ∃ u, exec .wait s = .next u ∧ u.live ∧ Still u ∧ u.bus = s.bus ++ s.pending ∧
        exec .beginTransaction s = .next ({ u with S := { u.S with pc := s.S.pc } } : State).begun) ∧
    (s.E.sched = [] → s.par.pStartLatch = false → s.P.tx = ⟨true, true⟩ →
      exec .beginTransaction s = .next { s.afterClock with
        S := { s.S with cache := s.cacheAt s.clockAnswer, fault := some (.hazard, s.S.pc) }
        hist := (s.logged [.wait, .clock s.clockAnswer]).hist })

/-- R140: `endTransaction` in every state. -/
def Obligations.EndTransactionCommand : Prop :=
  ∀ s : State, exec .endTransaction s = .next
    (if s.S.life ≠ .initialised then { s with S := { s.S with fault := some (.lifecycle, s.S.pc) } }
     else if s.S.txn = false then { s with S := { s.S with fault := some (.noTxn, s.S.pc) } }
     else if s.S.read = true then { s with S := { s.S with fault := some (.readMode, s.S.pc) } }
     else { s with S := { s.S with txn := false, pc := s.S.pc + 1 } })

/-- R143, with R167 for `writePixels`: the transfer mode moves only along the transitions of the table, each taken by the
commands it names, each after a wait with no start between, and always names the last mode entered (that `S.mode` changes
with the `FCONF` write is the model's choice, log entry 24). -/
def Obligations.ModeTransitions : Prop :=
  ∀ (i : Instr) (s t : State), ControlInv s → exec i s = .next t →
    ∃ es, t.hist = s.hist ++ es ∧ ModePath (transitionsOf i) s.S.mode (modesOf es) t.S.mode ∧ ModeWritesFollowWait es

/-- R146: along every run, from every state, a mode register write follows a wait with no start between; and one attempted
while the transmitter runs faults. -/
def Obligations.ModeWritesFollowIdleWait : Prop :=
  (∀ s t : State, ModeWritesFollowWait s.hist → step s = .next t → ModeWritesFollowWait t.hist) ∧
  ∀ (s : State) (v : RegImage), v.reg = .src ∨ v.reg = .fconf → s.P.tx.running = true →
    perform (regWriteOp v) s = .error .faulted { s with S := { s.S with fault := some (.hazard, s.S.pc) } }

/-- R145: after `writeCommand` or `writeData` completes, from any state and under any interleaving, the mode is
scalar-32. -/
def Obligations.ScalarCommandsLeaveScalarMode : Prop :=
  ∀ (s t : State) (v : Word) (b : Nat),
    (exec (.writeCommand v b) s = .next t → t.S.pc ≠ s.S.pc → t.S.mode = .scalar32) ∧
    (exec (.writeData v b) s = .next t → t.S.pc ≠ s.S.pc → t.S.mode = .scalar32)

/-! ## Scalar writes -/

/-- R147, R148: `writeCommand` with the peripheral idle: the mode is switched if it is not scalar-32, the bytes are pushed
least-significant first with tag 0, and the peripheral is started, whatever the other agents do meanwhile. -/
def Obligations.WriteCommandEffect : Prop :=
  ∀ (s : State) (v : Word) (b : Nat), WriteReady s → b ≤ 32 → 4 ≤ s.par.fifoDepth →
    let n := max 1 ((b + 7) / 8)
    let ws : List Word := (List.range n).map fun i => upperWord 0 (byteAt v i)
    ∃ ms r, ms <:+ s.E.sched ∧
      exec (.writeCommand v b) s = .next (passed
        (((s.switched .scalar32 .w32 ⟨.scalar, false⟩).started ws).logged
          (.wait :: modeSwitch s.S.mode .scalar32 .w32 ⟨.scalar, false⟩ ++ ws.map Event.push ++ [.start]) |>.advance 2) ms r)

/-- R147, R149: `writeData` likewise, with tag 1. -/
def Obligations.WriteDataEffect : Prop :=
  ∀ (s : State) (v : Word) (b : Nat), WriteReady s → b ≤ 32 → 4 ≤ s.par.fifoDepth →
    let n := max 1 ((b + 7) / 8)
    let ws : List Word := (List.range n).map fun i => upperWord 1 (byteAt v i)
    ∃ ms r, ms <:+ s.E.sched ∧
      exec (.writeData v b) s = .next (passed
        (((s.switched .scalar32 .w32 ⟨.scalar, false⟩).started ws).logged
          (.wait :: modeSwitch s.S.mode .scalar32 .w32 ⟨.scalar, false⟩ ++ ws.map Event.push ++ [.start]) |>.advance 2) ms r)

/-- R48, R151: from every state between commands, whatever is still being sent and whatever the other agents do, a scalar
write that is not stopped adds to the bus exactly its bytes, least-significant first, with the register-select line 0
for a command and 1 for data. -/
def Obligations.ScalarWriteSendsItsBytes : Prop :=
  ∀ (s t : State) (v : Word) (b : Nat), BoundaryInv s → s.live → t.live →
    let bytes := pixelBytes v (max 1 ((b + 7) / 8))
    (exec (.writeCommand v b) s = .next t → t.output = s.output ++ bytes.map (BusEvent.wr false)) ∧
    (exec (.writeData v b) s = .next t → t.output = s.output ++ bytes.map (BusEvent.wr true))

/-- R92, R93, R94: without `P_START_LATCH`, with no move listed, a scalar write right after a start reads the stale idle
flag, queues its words behind the running ones and faults `F_HAZARD` at its start.  That the sequencer goes first where no
move is listed is the model's choice (log entry 1), no rule's: R102 and R156 allow interleavings in which the transmitter
finishes before the start, and then the write completes. -/
def Obligations.StaleIdleRestartFaults : Prop :=
  ∀ (s : State) (v : Word) (b : Nat), s.S.fault = none → s.S.life = .initialised → s.S.txn = true → s.S.read = false →
    s.E.sched = [] → s.par.pStartLatch = false → s.P.tx = ⟨true, true⟩ → s.S.mode = .scalar32 → b ≤ 32 →
    s.P.fifo.length + 4 ≤ s.par.fifoDepth →
    let ws := (List.range (max 1 ((b + 7) / 8))).map fun i => upperWord 1 (byteAt v i)
    exec (.writeData v b) s = .next { s with
      S := { s.S with fault := some (.hazard, s.S.pc) }
      P := { s.P with fifo := s.P.fifo ++ ws }
      hist := (s.logged (.wait :: ws.map .push)).hist }

/-! ## Bulk writes -/

/-- R152, R153, R50, R155: `writeDataRepeat` of 2-byte pixels completes, performs exactly the batches of the rule, and puts
exactly `count` copies of the pixel on the bus after what was still to be sent. -/
def Obligations.RepeatTwoBytePixels : Prop :=
  ∀ (s : State) (c : Word) (b count : Nat), BurstReady s → 9 ≤ b → b ≤ 16 → 1 ≤ count →
    ∃ t, exec (.writeDataRepeat c b count) s = .next t ∧ t.live ∧ t.S.pc = s.S.pc + 3 ∧ t.S.mode = .bulk16 ∧ t.M = s.M ∧
      t.hist = (s.logged (repeat2Events s.S.mode s.par.kRepeat c count)).hist ∧
      t.output = s.output ++ dataCycles (List.replicate count (pixelBytes c 2)).flatten

/-- R152, R154, R50, R155: `writeDataRepeat` of 3-byte pixels: an odd leftover pixel by a scalar write first, then pairs. -/
def Obligations.RepeatThreeBytePixels : Prop :=
  ∀ (s : State) (c : Word) (b count : Nat), BurstReady s → 17 ≤ b → b ≤ 24 → 1 ≤ count →
    ∃ t, exec (.writeDataRepeat c b count) s = .next t ∧ t.live ∧ t.S.pc = s.S.pc + 3 ∧ t.M = s.M ∧
      t.S.mode = (if count = 1 then .scalar32 else .bulk16) ∧
      t.hist = (s.logged (repeat3Events s.S.mode s.par.kRepeat c count)).hist ∧
      t.output = s.output ++ dataCycles (List.replicate count (pixelBytes c 3)).flatten

/-- R155: the batches of `n` units sum to `n`, there are `ceil(n / b)` of them, and none is empty or larger than `b`; the
leading one is the batch the model sends first. -/
def Obligations.BatchLaw : Prop :=
  ∀ n b : Nat, 1 ≤ n → 1 ≤ b →
    (batchSizes n b).sum = n ∧ (batchSizes n b).length = (n + b - 1) / b ∧
    (∀ x ∈ batchSizes n b, 1 ≤ x ∧ x ≤ b) ∧ (batchSizes n b).head? = some (leadingBatch n b)

/-- R166: from every state between commands, whatever is still being sent, whatever `T_DMA`, `useDma`, the radio and the
other agents do, a `writeBytes` that is not stopped adds to the bus exactly the buffer's bytes, in order, with the
register-select line 1. -/
def Obligations.WriteBytesSendsTheBuffer : Prop :=
  ∀ (s t : State) (buffer length : Nat) (useDma : Bool), BoundaryInv s → s.live →
    s.par.scratchAddr0 ≠ s.par.scratchAddr1 → exec (.writeBytes buffer length useDma) s = .next t → t.live →
    t.output = s.output ++ dataCycles (hostBytes s.M buffer length)

/-- R158, R159, R160, R162, R163, R164: with the launch premises met and the radio off, `writeBytes` completes, with exactly
the history of the rules: the odd byte, the FIFO batches, and, once `T_DMA` bytes are sent and bytes remain, the loads of
64, 128, 256, … bytes with their copies, reallocations and descriptors. -/
def Obligations.WriteBytesCommand : Prop :=
  ∀ (s : State) (buffer length : Nat) (useDma : Bool) (as : List Word) (more : List (Option Word)), BurstReady s →
    1 ≤ length → admitsAll s.par buffer length →
    (useDma = true → s.E.allocs = as.map some ++ more ∧ length ≤ as.length) →
    ∃ t, exec (.writeBytes buffer length useDma) s = .next t ∧ t.live ∧ t.S.pc = s.S.pc + 3 ∧ t.M = s.M ∧
      t.hist = (s.logged (bytesEvents s buffer length useDma as)).hist ∧
      t.output = s.output ++ dataCycles (hostBytes s.M buffer length)

/-- R159, R161: while the radio stays on, the FIFO loop goes on to the end of the buffer: no DMA mode and no load. -/
def Obligations.RadioOnKeepsTheFifoPath : Prop :=
  ∀ (s : State) (buffer length : Nat) (useDma : Bool), s.par.sound → BoundaryInv s → s.live → s.S.life = .initialised →
    s.S.txn = true → s.S.read = false → s.P.tx.running = false → s.E.radioClkEn ≠ 0#32 →
    (∀ v, Move.radio v ∉ s.E.sched) → 2 ≤ length → admitsAll s.par buffer length →
    ∃ t es, exec (.writeBytes buffer length useDma) s = .next t ∧ t.live ∧ t.S.pc = s.S.pc + 3 ∧ t.S.mode = .bulk16 ∧
      t.hist = s.hist ++ es ∧ (∀ e ∈ es, ∀ o, e.2 ≠ .regWr (.outlink o)) ∧
      t.output = s.output ++ dataCycles (hostBytes s.M buffer length)

/-! ## Pixel writes -/

/-- R167, R168: `writePixels` from a producer that honours its contract completes, pulls exactly the ranges of the rule,
increasing, gap-free and summing to `length`, sends the producer's bytes in pull order with the register-select line 1,
and starts no output link. -/
def Obligations.WritePixelsCommand : Prop :=
  ∀ (s : State) (p length : Nat) (q : Producer) (as more : List PullAnswer), BurstReady s → s.E.producer p = some q →
    q.answers = as ++ more →
    (∃ bpp limit, (bpp = 2 ∧ limit = 256 ∨ bpp = 3 ∧ limit = 170) ∧ (q.depth + 7) / 8 = bpp ∧
      List.Forall₂ (fun r a => a.next = r.2 ∧ a.bytes.length = (r.2 - r.1) * bpp) (chunkRanges length limit) as) →
    ∃ t es limit, exec (.writePixels p length) s = .next t ∧ t.live ∧ t.S.pc = s.S.pc + 3 ∧ t.M = s.M ∧
      t.hist = s.hist ++ es ∧ (limit = 256 ∧ (q.depth + 7) / 8 = 2 ∨ limit = 170 ∧ (q.depth + 7) / 8 = 3) ∧
      pullsOf es = (chunkRanges length limit).map (fun r => (p, r.1, r.2)) ∧
      Tiles limit 0 length (chunkRanges length limit) ∧
      (∀ e ∈ es, ∀ o, e.2 ≠ .regWr (.outlink o)) ∧ t.output = s.output ++ dataCycles (as.map (·.bytes)).flatten

/-- R167: with the peripheral idle, the first pull, if it does not report the end of its range, faults `F_PRODUCER`, and
nothing is sent. -/
def Obligations.WritePixelsProducerFault : Prop :=
  ∀ (s : State) (p length : Nat) (q : Producer) (a : PullAnswer) (more : List PullAnswer), WriteReady s →
    s.E.producer p = some q → q.answers = a :: more → 1 ≤ length → 9 ≤ q.depth → q.depth ≤ 24 →
    let limit := if q.depth ≤ 16 then 256 else 170
    let stop := if length % limit = 0 then limit else length % limit
    a.next ≠ stop →
    ∃ t, exec (.writePixels p length) s = .next t ∧ t.S.fault = some (.producer, s.S.pc) ∧ t.S.pc = s.S.pc ∧
      t.S.mode = s.S.mode ∧ t.P = s.P ∧ t.G = s.G ∧ t.M = s.M ∧ t.bus = s.bus ∧
      t.hist = s.hist ++ [(s.S.pc, .pull p 0 stop a.next)]

/-- R167: the pull of any chunk, the first or a later one, that does not report the end of its range faults `F_PRODUCER`
before any byte of that chunk is sent: the pulls before it are those of the chunks before, and exactly their bytes are
added to what is sent and pending. -/
def Obligations.WritePixelsPullFault : Prop :=
  ∀ (s : State) (p length : Nat) (q : Producer) (as more : List PullAnswer) (a : PullAnswer)
    (before after : List (Nat × Nat)) (r : Nat × Nat), BurstReady s → s.E.producer p = some q →
    q.answers = as ++ a :: more →
    ∀ bpp limit, (bpp = 2 ∧ limit = 256 ∨ bpp = 3 ∧ limit = 170) → (q.depth + 7) / 8 = bpp →
    chunkRanges length limit = before ++ r :: after →
    List.Forall₂ (fun r a => a.next = r.2 ∧ a.bytes.length = (r.2 - r.1) * bpp) before as → a.next ≠ r.2 →
    ∃ t es, exec (.writePixels p length) s = .next t ∧ t.S.fault = some (.producer, s.S.pc) ∧ t.S.pc = s.S.pc ∧ t.M = s.M ∧
      t.hist = s.hist ++ es ++ [(s.S.pc, .pull p r.1 r.2 a.next)] ∧
      pullsOf es = before.map (fun r => (p, r.1, r.2)) ∧ t.output = s.output ++ dataCycles (as.map (·.bytes)).flatten

/-! ## Read path -/

/-- R170: `beginRead` with the peripheral idle, from the pins of write mode. -/
def Obligations.BeginReadCommand : Prop :=
  ∀ s : State, WriteReady s → s.G.rdOutput →
    ∃ ms r, ms <:+ s.E.sched ∧
      exec .beginRead s = .next (passed { s with
        S := { s.S with read := true, pc := s.S.pc + 1 }
        G := { d := s.G.d.map fun p => { p with route := .null, dir := .input }
               rd := { s.G.rd with level := true }
               wr := { s.G.wr with route := .gpio, dir := .output, level := true }
               rs := { s.G.rs with route := .gpio, dir := .output, level := true } }
        bus := s.bus ++ [.lvl .rd true, .lvl .wr true, .lvl .rs true]
        hist := (s.logged (.wait :: readPinsEvents)).hist } ms r)

/-- R171, R132: `endRead` re-applies the pin routing of `init`, from the pins of read mode, and changes no mode and no
cache. -/
def Obligations.EndReadCommand : Prop :=
  ∀ s : State, ReadReady s → s.P.gate = ⟨true, true⟩ →
    ∃ ms r, ms <:+ s.E.sched ∧
      exec .endRead s = .next (passed { s with
        S := { s.S with read := false, pc := s.S.pc + 1 }
        G := { d := Vector.ofFn fun i => ⟨true, .output, s.G.d[i].level, .parOut i.val⟩
               rd := ⟨true, .output, true, .gpio⟩
               wr := ⟨true, .output, true, .wordClkInv⟩
               rs := ⟨true, .output, true, .parOut 8⟩ }
        bus := s.bus ++ [.lvl .rd true, .lvl .wr true, .lvl .rs true]
        hist := (s.logged (.wait :: initPinsEvents)).hist } ms r)

/-- R172, R173, R51: `readData` samples twice per byte, keeps the second, pulses the read strobe, and assembles the bytes
least-significant first. -/
def Obligations.ReadDataCommand : Prop :=
  ∀ (s : State) (b : Nat), ReadReady s → b ≤ 32 → s.E.device.loopback = none →
    let n := max 1 ((b + 7) / 8)
    let raw := rawWords s (2 * n)
    ∃ ms r, ms <:+ s.E.sched ∧
      exec (.readData b) s = .next (passed { s with
        S := { s.S with res := BitVec.ofNat 32 (assembled (sampledBytes s.S.cfg.pinD raw)), pc := s.S.pc + 1 }
        G := { s.G with rd := { s.G.rd with level := false } }
        E := s.E.sampled (2 * n)
        bus := s.bus ++ readPulses n
        hist := (s.logged (readEvents raw)).hist } ms r)

/-- R178, R179: from a loopback device with enough bytes queued `readData` reads and pops the first ones. -/
def Obligations.ReadDataFromLoopback : Prop :=
  ∀ (s : State) (b : Nat) (q : List Byte), ReadReady s → b ≤ 32 → s.S.cfg.valid s.par = true →
    s.E.device.loopback = some q → max 1 ((b + 7) / 8) ≤ q.length →
    let n := max 1 ((b + 7) / 8)
    ∃ t, exec (.readData b) s = .next t ∧
      t.S = { s.S with res := BitVec.ofNat 32 (assembled (q.take n)), pc := s.S.pc + 1 } ∧
      t.E.device.loopback = some (q.drop n) ∧ t.P = s.P ∧ t.M = s.M ∧ t.bus = s.bus ++ readPulses n

/-- R174, R69: `readBytes` stores the bytes it reads at `dst` on, in order, and nothing else; `allowDma` has no effect. -/
def Obligations.ReadBytesCommand : Prop :=
  ∀ (s : State) (dst length : Nat) (allowDma : Bool), ReadReady s → s.M.wf = true → 1 ≤ length →
    admitsAll s.par dst length → s.E.device.loopback = none →
    let raw := rawWords s (2 * length)
    ∃ t, exec (.readBytes dst length allowDma) s = .next t ∧ t.S = { s.S with pc := s.S.pc + 3 } ∧ t.P = s.P ∧
      (∀ k < length, (sampledBytes s.S.cfg.pinD raw)[k]? = some (t.M.read (dst + k))) ∧
      (∀ a, a < dst ∨ dst + length ≤ a → t.M.read a = s.M.read a) ∧
      t.G = { s.G with rd := { s.G.rd with level := false } } ∧ t.bus = s.bus ++ readPulses length ∧
      t.hist = (s.logged (storeEvents s.S.cfg.pinD dst raw)).hist

/-- R176: `readPixels` reads every pixel's bytes in bus order, in batches of 16 or 10 pixels with the short batch last, and
hands each batch to the producer; the only host bytes that change are those the producer stores itself (log entry 12). -/
def Obligations.ReadPixelsCommand : Prop :=
  ∀ (s : State) (dst p length : Nat) (q : Producer) (as more : List PullAnswer), ReadReady s →
    s.E.producer p = some q → q.answers = as ++ more → s.E.device.loopback = none →
    ∀ bpp batch, (bpp = 2 ∧ batch = 16 ∨ bpp = 3 ∧ batch = 10) → (q.depth + 7) / 8 = bpp →
    as.map (·.next) = (batchRanges length batch).map Prod.snd → 2 * (length * bpp) ≤ s.E.device.script.length →
    ∃ t hs es, exec (.readPixels dst p length) s = .next t ∧ t.S.fault = none ∧ t.S.hold = s.S.hold ∧ t.S.pc = s.S.pc + 4 ∧ t.S.res = s.S.res ∧
      t.P = s.P ∧ t.E.handed = s.E.handed ++ hs ∧
      hs.map (fun h => (h.producer, h.dst, h.start, h.stop)) = (batchRanges length batch).map (fun r => (p, dst, r.1, r.2)) ∧
      (∀ h ∈ hs, h.bytes.length = (h.stop - h.start) * bpp) ∧
      (hs.map (·.bytes)).flatten = sampledBytes s.S.cfg.pinD (s.E.device.script.take (2 * (length * bpp))) ∧
      t.M = s.M.writeAll (as.map (·.stores)).flatten ∧ t.bus = s.bus ++ readPulses (length * bpp) ∧
      t.hist = s.hist ++ es ∧ pullsOf es = (batchRanges length batch).map (fun r => (p, r.1, r.2)) ∧
      Tiles batch 0 length (batchRanges length batch)

/-- R176: the pull of any batch of `readPixels`, the first or a later one, that does not report the end of its range faults
`F_PRODUCER` after that batch was read and handed over: the batches before it and that one are read, and no more; the
only host bytes that change are those the producer's answers store (log entry 12). -/
def Obligations.ReadPixelsPullFault : Prop :=
  ∀ (s : State) (dst p length : Nat) (q : Producer) (as more : List PullAnswer) (a : PullAnswer)
    (before after : List (Nat × Nat)) (r : Nat × Nat), ReadReady s → s.E.producer p = some q →
    q.answers = as ++ a :: more → s.E.device.loopback = none →
    ∀ bpp batch, (bpp = 2 ∧ batch = 16 ∨ bpp = 3 ∧ batch = 10) → (q.depth + 7) / 8 = bpp →
    batchRanges length batch = before ++ r :: after → as.map (·.next) = before.map Prod.snd → a.next ≠ r.2 →
    2 * (r.2 * bpp) ≤ s.E.device.script.length →
    ∃ t hs es, exec (.readPixels dst p length) s = .next t ∧ t.S.fault = some (.producer, s.S.pc) ∧ t.S.pc = s.S.pc ∧
      t.S.res = s.S.res ∧ t.P = s.P ∧ t.E.handed = s.E.handed ++ hs ∧
      hs.map (fun h => (h.producer, h.dst, h.start, h.stop)) = (before ++ [r]).map (fun r => (p, dst, r.1, r.2)) ∧
      (∀ h ∈ hs, h.bytes.length = (h.stop - h.start) * bpp) ∧
      (hs.map (·.bytes)).flatten = sampledBytes s.S.cfg.pinD (s.E.device.script.take (2 * (r.2 * bpp))) ∧
      t.M = s.M.writeAll ((as ++ [a]).map (·.stores)).flatten ∧ t.bus = s.bus ++ readPulses (r.2 * bpp) ∧
      t.hist = s.hist ++ es ++ [(s.S.pc, .pull p r.1 r.2 a.next)] ∧ pullsOf es = before.map (fun r => (p, r.1, r.2))

/-- R175: bit `i` of the unscrambled byte is the raw word's bit at data pin `i`; no other bit matters. -/
def Obligations.UnscrambleSelectsTheDataPins : Prop :=
  ∀ (d : Vector Nat 8) (w : Word),
    (∀ i : Fin 8, (unscramble d w).getLsbD i.val = w.getLsbD d[i]) ∧
    ∀ w' : Word, (∀ i : Fin 8, w'.getLsbD d[i] = w.getLsbD d[i]) → unscramble d w' = unscramble d w

/-- R178: with distinct data pins below 32, the loopback device's word unscrambles to its byte and leaves the other bits as
they were. -/
def Obligations.UnscrambleInvertsScramble : Prop :=
  ∀ (d : Vector Nat 8) (b : Byte) (w : Word), d.toList.Nodup → (∀ p ∈ d.toList, p < 32) →
    unscramble d (scramble d b w) = b ∧ ∀ k, k ∉ d.toList → (scramble d b w).getLsbD k = w.getLsbD k

/-- R180: in read mode no step puts a write cycle on the bus, and until `endRead` the pins stay as `beginRead` set them. -/
def Obligations.ReadModeIsSilent : Prop :=
  ∀ s t : State, PinInv s → s.live → s.S.read = true → step s = .next t →
    (∃ es, t.bus = s.bus ++ es ∧ ∀ rs b, BusEvent.wr rs b ∉ es) ∧ (t.S.fault = none → t.S.read = true → t.G.readRouting)

/-- R178: the loopback device (it queues the byte of a data cycle and of no other, presents the head of its queue on the
data pins, and drops it at a falling edge of `RD`), and the round trip.  In one transaction, with the transmitter idle and
a loopback device whose queue is empty, `writeBytes`, `beginRead` and `readBytes`, none of them stopped, reproduce the
buffer at the destination, for every length, with and without DMA, whatever the other agents do. -/
def Obligations.LoopbackRoundTrip : Prop :=
  (∀ (script : List Word) (q : List Byte) (d : Byte),
    (Device.mk script (some q)).onCycle (.wr true d) = ⟨script, some (q ++ [d])⟩ ∧
    (Device.mk script (some q)).onCycle (.wr false d) = ⟨script, some q⟩ ∧
    (Device.mk script (some (d :: q))).onFallingRD = ⟨script, some q⟩) ∧
  (∀ (s : State) (b : Byte) (q : List Byte), s.S.cfg.valid s.par = true → s.E.device.loopback = some (b :: q) →
    ∀ i : Fin 8, s.rawWord.getLsbD s.S.cfg.pinD[i] = b.getLsbD i.val) ∧
  (∀ (s : State) (l : Bool), s.G.rdOutput →
    (s.showLevel .rd l).E.device =
      if l = false ∧ s.G.rd.level = true then s.E.device.onFallingRD else s.E.device) ∧
  ∀ (s t u v : State) (buffer dst length : Nat) (useDma allowDma : Bool),
    StorageInv s → BoundaryInv s → s.live → s.P.tx.running = false → s.S.cfg.valid s.par = true →
    s.par.scratchAddr0 ≠ s.par.scratchAddr1 → s.E.device.loopback = some [] →
    exec (.writeBytes buffer length useDma) s = .next t → t.live → exec .beginRead t = .next u → u.live →
    exec (.readBytes dst length allowDma) u = .next v → v.live →
    (∀ k < length, v.M.read (dst + k) = s.M.read (buffer + k)) ∧ v.E.device.loopback = some []

/-! ## The whole machine -/

/-- R185, R189: the precondition checks: the first check of the command's row that fails raises its fault, before any
micro-operation, and nothing else changes. -/
def Obligations.PreconditionChecks : Prop :=
  ∀ (i : Instr) (s : State) (c : FaultCode), firstFailing (checksOf s i) = some c →
    exec i s = .next { s with S := { s.S with fault := some (c, s.S.pc) } }

/-- R16, R187: the command pointer holds the command's header for the whole of its execution (every event records it, and so
does a fault), and advances by the packet length exactly when the command completes. -/
def Obligations.CommandPointer : Prop :=
  ∀ (i : Instr) (s t : State), s.live → exec i s = .next t →
    (∃ es, t.hist = s.hist ++ es ∧ ∀ e ∈ es, e.1 = s.S.pc) ∧
    (t.live ∧ t.S.pc = s.S.pc + packetLength i.opcode.row.byte ∨
      t.S.pc = s.S.pc ∧
        ((∃ c, t.S.fault = some (c, s.S.pc) ∧ t.S.hold = none) ∨ (t.S.fault = none ∧ t.S.hold ≠ none)))

/-- R37: no step shortens a trace. -/
def Obligations.TracesOnlyGrow : Prop := ∀ s t : State, step s = .next t → s.hist <+: t.hist ∧ s.bus <+: t.bus

/-- The invariants hold at power-on, for every launch and every contents of the unspecified fields, and so at
`State.reset`. -/
def Obligations.PowerOnHasTheInvariants : Prop :=
  (∀ (l : Launch) (u : Residue), l.mem.wf = true → u.scratch0.length ≤ 256 → u.scratch1.length ≤ 256 →
    StorageInv (State.powerOn l u) ∧ BoundaryInv (State.powerOn l u)) ∧
  StorageInv State.reset ∧ BoundaryInv State.reset

/-- R31, R35, R47, R182: every step keeps the storage invariant. -/
def Obligations.StepKeepsStorage : Prop := ∀ s t : State, StorageInv s → step s = .next t → StorageInv t

/-- R17 to R20, R30, R129, R133: every step keeps the control invariant. -/
def Obligations.StepKeepsControl : Prop := ∀ s t : State, ControlInv s → step s = .next t → ControlInv t

/-- R90, R104, R131, R170: every step keeps the pin invariant: transmission in write routing only, never in read mode. -/
def Obligations.StepKeepsPins : Prop := ∀ s t : State, PinInv s → step s = .next t → PinInv t

/-- R31, R91: every step keeps the boundary invariant: between commands nothing is queued or loaded unless it is being
transmitted. -/
def Obligations.StepKeepsBoundary : Prop := ∀ s t : State, BoundaryInv s → step s = .next t → BoundaryInv t

/-- R46: no step writes the command stream or the launch parameters. -/
def Obligations.StepKeepsTheLaunch : Prop := ∀ s t : State, step s = .next t → t.stream = s.stream ∧ t.par = s.par

/-- R38, R59: host memory: no command but `readBytes` and `readPixels` changes a byte of it, stopped or not; `readBytes`
changes none outside its destination; `readPixels` none but those its producer's answers store (log entry 12); and no
other agent changes any. -/
def Obligations.HostMemoryFrame : Prop :=
  (∀ (i : Instr) (s t : State), exec i s = .next t → i.opcode ≠ .readBytes → i.opcode ≠ .readPixels → t.M = s.M) ∧
  (∀ (s t : State) (dst length : Nat) (f : Bool), exec (.readBytes dst length f) s = .next t →
    ∀ a, a < dst ∨ dst + length ≤ a → t.M.read a = s.M.read a) ∧
  (∀ (s t : State) (dst p length : Nat), exec (.readPixels dst p length) s = .next t →
    ∀ a, (∀ q, s.E.producer p = some q → ∀ x ∈ q.answers, ∀ c ∈ x.stores, c.1 ≠ a) → t.M.read a = s.M.read a) ∧
  ∀ (s : State) (m : Move), (s.moved m).M = s.M

/-- R13: each register of the sequencer is written only by the commands its row of the table names, and by no other agent;
`S.fault` only by raising. -/
def Obligations.SequencerFrame : Prop :=
  (∀ (i : Instr) (s t : State), exec i s = .next t →
    (i.opcode ∉ [.config, .init] → t.S.life = s.S.life) ∧
    (i.opcode ≠ .config → t.S.cfg = s.S.cfg) ∧
    (i.opcode ∉ [.beginTransaction, .endTransaction] → t.S.txn = s.S.txn) ∧
    (i.opcode ∉ [.beginRead, .endRead] → t.S.read = s.S.read) ∧
    (i.opcode ∉ [.beginTransaction, .writeCommand, .writeData, .writeDataRepeat, .writeBytes, .writePixels] →
      t.S.mode = s.S.mode) ∧
    (i.opcode ≠ .beginTransaction → t.S.cache = s.S.cache) ∧
    (i.opcode ∉ [.busy, .readData] → t.S.res = s.S.res) ∧
    (i.opcode ∉ [.init, .writeBytes] → t.S.desc = s.S.desc) ∧
    (i.opcode ≠ .writeBytes → t.S.flip = s.S.flip) ∧
    (i.opcode ≠ .writePixels → t.S.pixbuf = s.S.pixbuf) ∧
    (i.opcode ≠ .readPixels → t.S.rdbuf = s.S.rdbuf) ∧
    (i.opcode ≠ .init → t.S.handles = s.S.handles) ∧
    t.S.refused = s.S.refused) ∧
  ∀ (s : State) (m : Move), (s.moved m).S = { s.S with fault := (s.moved m).S.fault }

/-- R22 to R30, R34, R35, R36, R39: the peripheral's registers, the descriptor, the scratch copies, the pads and the
environment change only under the commands whose rules write them, stopped or not; `GpioReadRaw` and the level of `RD`
aside, a read touches no pad. -/
def Obligations.PeripheralAndPinsFrame : Prop :=
  ∀ (i : Instr) (s t : State), exec i s = .next t →
    (i.opcode ∉ [.init, .endRead] → t.P.gate = s.P.gate ∧ t.P.regs.intEna = s.P.regs.intEna) ∧
    (i.opcode ≠ .init → t.P.modeRegs = s.P.modeRegs) ∧
    (i.opcode ∉ [.init, .endRead, .writeBytes] → t.P.regs.outlink = s.P.regs.outlink) ∧
    (i.opcode ∉ [.init, .endRead, .beginTransaction] → s.S.txn = true → t.P.regs.clkm = s.P.regs.clkm) ∧
    (i.opcode ≠ .writeBytes → { t.P.desc with owner := s.P.desc.owner } = s.P.desc ∧
      t.P.scratch0 = s.P.scratch0 ∧ t.P.scratch1 = s.P.scratch1) ∧
    (i.opcode ∉ [.init, .beginRead, .endRead] → t.G.d = s.G.d ∧ t.G.wr = s.G.wr ∧ t.G.rs = s.G.rs ∧
      { t.G.rd with level := s.G.rd.level } = s.G.rd) ∧
    (i.opcode ∉ [.init, .beginRead, .endRead, .readData, .readBytes, .readPixels] → t.G.rd = s.G.rd) ∧
    (i.opcode ∉ [.writePixels, .readPixels] → t.E.producers = s.E.producers) ∧
    (i.opcode ≠ .readPixels → t.E.handed = s.E.handed) ∧
    (i.opcode ≠ .beginTransaction → t.E.busClock = s.E.busClock) ∧
    (i.opcode ∉ [.init, .writeBytes] → t.E.allocs = s.E.allocs)

end
end

