-- ==== Sys2Proof/Laws/State.lean ====
section
/-!
SUPPORT. One lemma per field per update of the state, each true by rfl; scratch copies and pads read back.
-/

namespace Sys2Proof.Machine

variable (s : State)

/-! ## setLife -/
@[simp] theorem setLife_S_life (v : Life) : (s.setLife v).S.life = v := rfl
@[simp] theorem setLife_S_cfg (v : Life) : (s.setLife v).S.cfg = s.S.cfg := rfl
@[simp] theorem setLife_S_txn (v : Life) : (s.setLife v).S.txn = s.S.txn := rfl
@[simp] theorem setLife_S_read (v : Life) : (s.setLife v).S.read = s.S.read := rfl
@[simp] theorem setLife_S_mode (v : Life) : (s.setLife v).S.mode = s.S.mode := rfl
@[simp] theorem setLife_S_cache (v : Life) : (s.setLife v).S.cache = s.S.cache := rfl
@[simp] theorem setLife_S_res (v : Life) : (s.setLife v).S.res = s.S.res := rfl
@[simp] theorem setLife_S_pc (v : Life) : (s.setLife v).S.pc = s.S.pc := rfl
@[simp] theorem setLife_S_desc (v : Life) : (s.setLife v).S.desc = s.S.desc := rfl
@[simp] theorem setLife_S_flip (v : Life) : (s.setLife v).S.flip = s.S.flip := rfl
@[simp] theorem setLife_S_fault (v : Life) : (s.setLife v).S.fault = s.S.fault := rfl
@[simp] theorem setLife_S_refused (v : Life) : (s.setLife v).S.refused = s.S.refused := rfl
@[simp] theorem setLife_S_pixbuf (v : Life) : (s.setLife v).S.pixbuf = s.S.pixbuf := rfl
@[simp] theorem setLife_S_rdbuf (v : Life) : (s.setLife v).S.rdbuf = s.S.rdbuf := rfl
@[simp] theorem setLife_S_handles (v : Life) : (s.setLife v).S.handles = s.S.handles := rfl
@[simp] theorem setLife_S_hold (v : Life) : (s.setLife v).S.hold = s.S.hold := rfl
@[simp] theorem setLife_P (v : Life) : (s.setLife v).P = s.P := rfl
@[simp] theorem setLife_G (v : Life) : (s.setLife v).G = s.G := rfl
@[simp] theorem setLife_E (v : Life) : (s.setLife v).E = s.E := rfl
@[simp] theorem setLife_M (v : Life) : (s.setLife v).M = s.M := rfl
@[simp] theorem setLife_bus (v : Life) : (s.setLife v).bus = s.bus := rfl
@[simp] theorem setLife_hist (v : Life) : (s.setLife v).hist = s.hist := rfl
@[simp] theorem setLife_stream (v : Life) : (s.setLife v).stream = s.stream := rfl
@[simp] theorem setLife_par (v : Life) : (s.setLife v).par = s.par := rfl

/-! ## setCfg -/
@[simp] theorem setCfg_S_life (v : Cfg) : (s.setCfg v).S.life = s.S.life := rfl
@[simp] theorem setCfg_S_cfg (v : Cfg) : (s.setCfg v).S.cfg = v := rfl
@[simp] theorem setCfg_S_txn (v : Cfg) : (s.setCfg v).S.txn = s.S.txn := rfl
@[simp] theorem setCfg_S_read (v : Cfg) : (s.setCfg v).S.read = s.S.read := rfl
@[simp] theorem setCfg_S_mode (v : Cfg) : (s.setCfg v).S.mode = s.S.mode := rfl
@[simp] theorem setCfg_S_cache (v : Cfg) : (s.setCfg v).S.cache = s.S.cache := rfl
@[simp] theorem setCfg_S_res (v : Cfg) : (s.setCfg v).S.res = s.S.res := rfl
@[simp] theorem setCfg_S_pc (v : Cfg) : (s.setCfg v).S.pc = s.S.pc := rfl
@[simp] theorem setCfg_S_desc (v : Cfg) : (s.setCfg v).S.desc = s.S.desc := rfl
@[simp] theorem setCfg_S_flip (v : Cfg) : (s.setCfg v).S.flip = s.S.flip := rfl
@[simp] theorem setCfg_S_fault (v : Cfg) : (s.setCfg v).S.fault = s.S.fault := rfl
@[simp] theorem setCfg_S_refused (v : Cfg) : (s.setCfg v).S.refused = s.S.refused := rfl
@[simp] theorem setCfg_S_pixbuf (v : Cfg) : (s.setCfg v).S.pixbuf = s.S.pixbuf := rfl
@[simp] theorem setCfg_S_rdbuf (v : Cfg) : (s.setCfg v).S.rdbuf = s.S.rdbuf := rfl
@[simp] theorem setCfg_S_handles (v : Cfg) : (s.setCfg v).S.handles = s.S.handles := rfl
@[simp] theorem setCfg_S_hold (v : Cfg) : (s.setCfg v).S.hold = s.S.hold := rfl
@[simp] theorem setCfg_P (v : Cfg) : (s.setCfg v).P = s.P := rfl
@[simp] theorem setCfg_G (v : Cfg) : (s.setCfg v).G = s.G := rfl
@[simp] theorem setCfg_E (v : Cfg) : (s.setCfg v).E = s.E := rfl
@[simp] theorem setCfg_M (v : Cfg) : (s.setCfg v).M = s.M := rfl
@[simp] theorem setCfg_bus (v : Cfg) : (s.setCfg v).bus = s.bus := rfl
@[simp] theorem setCfg_hist (v : Cfg) : (s.setCfg v).hist = s.hist := rfl
@[simp] theorem setCfg_stream (v : Cfg) : (s.setCfg v).stream = s.stream := rfl
@[simp] theorem setCfg_par (v : Cfg) : (s.setCfg v).par = s.par := rfl

/-! ## setTxn -/
@[simp] theorem setTxn_S_life (v : Bool) : (s.setTxn v).S.life = s.S.life := rfl
@[simp] theorem setTxn_S_cfg (v : Bool) : (s.setTxn v).S.cfg = s.S.cfg := rfl
@[simp] theorem setTxn_S_txn (v : Bool) : (s.setTxn v).S.txn = v := rfl
@[simp] theorem setTxn_S_read (v : Bool) : (s.setTxn v).S.read = s.S.read := rfl
@[simp] theorem setTxn_S_mode (v : Bool) : (s.setTxn v).S.mode = s.S.mode := rfl
@[simp] theorem setTxn_S_cache (v : Bool) : (s.setTxn v).S.cache = s.S.cache := rfl
@[simp] theorem setTxn_S_res (v : Bool) : (s.setTxn v).S.res = s.S.res := rfl
@[simp] theorem setTxn_S_pc (v : Bool) : (s.setTxn v).S.pc = s.S.pc := rfl
@[simp] theorem setTxn_S_desc (v : Bool) : (s.setTxn v).S.desc = s.S.desc := rfl
@[simp] theorem setTxn_S_flip (v : Bool) : (s.setTxn v).S.flip = s.S.flip := rfl
@[simp] theorem setTxn_S_fault (v : Bool) : (s.setTxn v).S.fault = s.S.fault := rfl
@[simp] theorem setTxn_S_refused (v : Bool) : (s.setTxn v).S.refused = s.S.refused := rfl
@[simp] theorem setTxn_S_pixbuf (v : Bool) : (s.setTxn v).S.pixbuf = s.S.pixbuf := rfl
@[simp] theorem setTxn_S_rdbuf (v : Bool) : (s.setTxn v).S.rdbuf = s.S.rdbuf := rfl
@[simp] theorem setTxn_S_handles (v : Bool) : (s.setTxn v).S.handles = s.S.handles := rfl
@[simp] theorem setTxn_S_hold (v : Bool) : (s.setTxn v).S.hold = s.S.hold := rfl
@[simp] theorem setTxn_P (v : Bool) : (s.setTxn v).P = s.P := rfl
@[simp] theorem setTxn_G (v : Bool) : (s.setTxn v).G = s.G := rfl
@[simp] theorem setTxn_E (v : Bool) : (s.setTxn v).E = s.E := rfl
@[simp] theorem setTxn_M (v : Bool) : (s.setTxn v).M = s.M := rfl
@[simp] theorem setTxn_bus (v : Bool) : (s.setTxn v).bus = s.bus := rfl
@[simp] theorem setTxn_hist (v : Bool) : (s.setTxn v).hist = s.hist := rfl
@[simp] theorem setTxn_stream (v : Bool) : (s.setTxn v).stream = s.stream := rfl
@[simp] theorem setTxn_par (v : Bool) : (s.setTxn v).par = s.par := rfl

/-! ## setRead -/
@[simp] theorem setRead_S_life (v : Bool) : (s.setRead v).S.life = s.S.life := rfl
@[simp] theorem setRead_S_cfg (v : Bool) : (s.setRead v).S.cfg = s.S.cfg := rfl
@[simp] theorem setRead_S_txn (v : Bool) : (s.setRead v).S.txn = s.S.txn := rfl
@[simp] theorem setRead_S_read (v : Bool) : (s.setRead v).S.read = v := rfl
@[simp] theorem setRead_S_mode (v : Bool) : (s.setRead v).S.mode = s.S.mode := rfl
@[simp] theorem setRead_S_cache (v : Bool) : (s.setRead v).S.cache = s.S.cache := rfl
@[simp] theorem setRead_S_res (v : Bool) : (s.setRead v).S.res = s.S.res := rfl
@[simp] theorem setRead_S_pc (v : Bool) : (s.setRead v).S.pc = s.S.pc := rfl
@[simp] theorem setRead_S_desc (v : Bool) : (s.setRead v).S.desc = s.S.desc := rfl
@[simp] theorem setRead_S_flip (v : Bool) : (s.setRead v).S.flip = s.S.flip := rfl
@[simp] theorem setRead_S_fault (v : Bool) : (s.setRead v).S.fault = s.S.fault := rfl
@[simp] theorem setRead_S_refused (v : Bool) : (s.setRead v).S.refused = s.S.refused := rfl
@[simp] theorem setRead_S_pixbuf (v : Bool) : (s.setRead v).S.pixbuf = s.S.pixbuf := rfl
@[simp] theorem setRead_S_rdbuf (v : Bool) : (s.setRead v).S.rdbuf = s.S.rdbuf := rfl
@[simp] theorem setRead_S_handles (v : Bool) : (s.setRead v).S.handles = s.S.handles := rfl
@[simp] theorem setRead_S_hold (v : Bool) : (s.setRead v).S.hold = s.S.hold := rfl
@[simp] theorem setRead_P (v : Bool) : (s.setRead v).P = s.P := rfl
@[simp] theorem setRead_G (v : Bool) : (s.setRead v).G = s.G := rfl
@[simp] theorem setRead_E (v : Bool) : (s.setRead v).E = s.E := rfl
@[simp] theorem setRead_M (v : Bool) : (s.setRead v).M = s.M := rfl
@[simp] theorem setRead_bus (v : Bool) : (s.setRead v).bus = s.bus := rfl
@[simp] theorem setRead_hist (v : Bool) : (s.setRead v).hist = s.hist := rfl
@[simp] theorem setRead_stream (v : Bool) : (s.setRead v).stream = s.stream := rfl
@[simp] theorem setRead_par (v : Bool) : (s.setRead v).par = s.par := rfl

/-! ## setMode -/
@[simp] theorem setMode_S_life (v : Mode) : (s.setMode v).S.life = s.S.life := rfl
@[simp] theorem setMode_S_cfg (v : Mode) : (s.setMode v).S.cfg = s.S.cfg := rfl
@[simp] theorem setMode_S_txn (v : Mode) : (s.setMode v).S.txn = s.S.txn := rfl
@[simp] theorem setMode_S_read (v : Mode) : (s.setMode v).S.read = s.S.read := rfl
@[simp] theorem setMode_S_mode (v : Mode) : (s.setMode v).S.mode = v := rfl
@[simp] theorem setMode_S_cache (v : Mode) : (s.setMode v).S.cache = s.S.cache := rfl
@[simp] theorem setMode_S_res (v : Mode) : (s.setMode v).S.res = s.S.res := rfl
@[simp] theorem setMode_S_pc (v : Mode) : (s.setMode v).S.pc = s.S.pc := rfl
@[simp] theorem setMode_S_desc (v : Mode) : (s.setMode v).S.desc = s.S.desc := rfl
@[simp] theorem setMode_S_flip (v : Mode) : (s.setMode v).S.flip = s.S.flip := rfl
@[simp] theorem setMode_S_fault (v : Mode) : (s.setMode v).S.fault = s.S.fault := rfl
@[simp] theorem setMode_S_refused (v : Mode) : (s.setMode v).S.refused = s.S.refused := rfl
@[simp] theorem setMode_S_pixbuf (v : Mode) : (s.setMode v).S.pixbuf = s.S.pixbuf := rfl
@[simp] theorem setMode_S_rdbuf (v : Mode) : (s.setMode v).S.rdbuf = s.S.rdbuf := rfl
@[simp] theorem setMode_S_handles (v : Mode) : (s.setMode v).S.handles = s.S.handles := rfl
@[simp] theorem setMode_S_hold (v : Mode) : (s.setMode v).S.hold = s.S.hold := rfl
@[simp] theorem setMode_P (v : Mode) : (s.setMode v).P = s.P := rfl
@[simp] theorem setMode_G (v : Mode) : (s.setMode v).G = s.G := rfl
@[simp] theorem setMode_E (v : Mode) : (s.setMode v).E = s.E := rfl
@[simp] theorem setMode_M (v : Mode) : (s.setMode v).M = s.M := rfl
@[simp] theorem setMode_bus (v : Mode) : (s.setMode v).bus = s.bus := rfl
@[simp] theorem setMode_hist (v : Mode) : (s.setMode v).hist = s.hist := rfl
@[simp] theorem setMode_stream (v : Mode) : (s.setMode v).stream = s.stream := rfl
@[simp] theorem setMode_par (v : Mode) : (s.setMode v).par = s.par := rfl

/-! ## setCache -/
@[simp] theorem setCache_S_life (v : Cache) : (s.setCache v).S.life = s.S.life := rfl
@[simp] theorem setCache_S_cfg (v : Cache) : (s.setCache v).S.cfg = s.S.cfg := rfl
@[simp] theorem setCache_S_txn (v : Cache) : (s.setCache v).S.txn = s.S.txn := rfl
@[simp] theorem setCache_S_read (v : Cache) : (s.setCache v).S.read = s.S.read := rfl
@[simp] theorem setCache_S_mode (v : Cache) : (s.setCache v).S.mode = s.S.mode := rfl
@[simp] theorem setCache_S_cache (v : Cache) : (s.setCache v).S.cache = v := rfl
@[simp] theorem setCache_S_res (v : Cache) : (s.setCache v).S.res = s.S.res := rfl
@[simp] theorem setCache_S_pc (v : Cache) : (s.setCache v).S.pc = s.S.pc := rfl
@[simp] theorem setCache_S_desc (v : Cache) : (s.setCache v).S.desc = s.S.desc := rfl
@[simp] theorem setCache_S_flip (v : Cache) : (s.setCache v).S.flip = s.S.flip := rfl
@[simp] theorem setCache_S_fault (v : Cache) : (s.setCache v).S.fault = s.S.fault := rfl
@[simp] theorem setCache_S_refused (v : Cache) : (s.setCache v).S.refused = s.S.refused := rfl
@[simp] theorem setCache_S_pixbuf (v : Cache) : (s.setCache v).S.pixbuf = s.S.pixbuf := rfl
@[simp] theorem setCache_S_rdbuf (v : Cache) : (s.setCache v).S.rdbuf = s.S.rdbuf := rfl
@[simp] theorem setCache_S_handles (v : Cache) : (s.setCache v).S.handles = s.S.handles := rfl
@[simp] theorem setCache_S_hold (v : Cache) : (s.setCache v).S.hold = s.S.hold := rfl
@[simp] theorem setCache_P (v : Cache) : (s.setCache v).P = s.P := rfl
@[simp] theorem setCache_G (v : Cache) : (s.setCache v).G = s.G := rfl
@[simp] theorem setCache_E (v : Cache) : (s.setCache v).E = s.E := rfl
@[simp] theorem setCache_M (v : Cache) : (s.setCache v).M = s.M := rfl
@[simp] theorem setCache_bus (v : Cache) : (s.setCache v).bus = s.bus := rfl
@[simp] theorem setCache_hist (v : Cache) : (s.setCache v).hist = s.hist := rfl
@[simp] theorem setCache_stream (v : Cache) : (s.setCache v).stream = s.stream := rfl
@[simp] theorem setCache_par (v : Cache) : (s.setCache v).par = s.par := rfl

/-! ## setRes -/
@[simp] theorem setRes_S_life (v : Word) : (s.setRes v).S.life = s.S.life := rfl
@[simp] theorem setRes_S_cfg (v : Word) : (s.setRes v).S.cfg = s.S.cfg := rfl
@[simp] theorem setRes_S_txn (v : Word) : (s.setRes v).S.txn = s.S.txn := rfl
@[simp] theorem setRes_S_read (v : Word) : (s.setRes v).S.read = s.S.read := rfl
@[simp] theorem setRes_S_mode (v : Word) : (s.setRes v).S.mode = s.S.mode := rfl
@[simp] theorem setRes_S_cache (v : Word) : (s.setRes v).S.cache = s.S.cache := rfl
@[simp] theorem setRes_S_res (v : Word) : (s.setRes v).S.res = v := rfl
@[simp] theorem setRes_S_pc (v : Word) : (s.setRes v).S.pc = s.S.pc := rfl
@[simp] theorem setRes_S_desc (v : Word) : (s.setRes v).S.desc = s.S.desc := rfl
@[simp] theorem setRes_S_flip (v : Word) : (s.setRes v).S.flip = s.S.flip := rfl
@[simp] theorem setRes_S_fault (v : Word) : (s.setRes v).S.fault = s.S.fault := rfl
@[simp] theorem setRes_S_refused (v : Word) : (s.setRes v).S.refused = s.S.refused := rfl
@[simp] theorem setRes_S_pixbuf (v : Word) : (s.setRes v).S.pixbuf = s.S.pixbuf := rfl
@[simp] theorem setRes_S_rdbuf (v : Word) : (s.setRes v).S.rdbuf = s.S.rdbuf := rfl
@[simp] theorem setRes_S_handles (v : Word) : (s.setRes v).S.handles = s.S.handles := rfl
@[simp] theorem setRes_S_hold (v : Word) : (s.setRes v).S.hold = s.S.hold := rfl
@[simp] theorem setRes_P (v : Word) : (s.setRes v).P = s.P := rfl
@[simp] theorem setRes_G (v : Word) : (s.setRes v).G = s.G := rfl
@[simp] theorem setRes_E (v : Word) : (s.setRes v).E = s.E := rfl
@[simp] theorem setRes_M (v : Word) : (s.setRes v).M = s.M := rfl
@[simp] theorem setRes_bus (v : Word) : (s.setRes v).bus = s.bus := rfl
@[simp] theorem setRes_hist (v : Word) : (s.setRes v).hist = s.hist := rfl
@[simp] theorem setRes_stream (v : Word) : (s.setRes v).stream = s.stream := rfl
@[simp] theorem setRes_par (v : Word) : (s.setRes v).par = s.par := rfl

/-! ## setDesc -/
@[simp] theorem setDesc_S_life (v : DescBook) : (s.setDesc v).S.life = s.S.life := rfl
@[simp] theorem setDesc_S_cfg (v : DescBook) : (s.setDesc v).S.cfg = s.S.cfg := rfl
@[simp] theorem setDesc_S_txn (v : DescBook) : (s.setDesc v).S.txn = s.S.txn := rfl
@[simp] theorem setDesc_S_read (v : DescBook) : (s.setDesc v).S.read = s.S.read := rfl
@[simp] theorem setDesc_S_mode (v : DescBook) : (s.setDesc v).S.mode = s.S.mode := rfl
@[simp] theorem setDesc_S_cache (v : DescBook) : (s.setDesc v).S.cache = s.S.cache := rfl
@[simp] theorem setDesc_S_res (v : DescBook) : (s.setDesc v).S.res = s.S.res := rfl
@[simp] theorem setDesc_S_pc (v : DescBook) : (s.setDesc v).S.pc = s.S.pc := rfl
@[simp] theorem setDesc_S_desc (v : DescBook) : (s.setDesc v).S.desc = v := rfl
@[simp] theorem setDesc_S_flip (v : DescBook) : (s.setDesc v).S.flip = s.S.flip := rfl
@[simp] theorem setDesc_S_fault (v : DescBook) : (s.setDesc v).S.fault = s.S.fault := rfl
@[simp] theorem setDesc_S_refused (v : DescBook) : (s.setDesc v).S.refused = s.S.refused := rfl
@[simp] theorem setDesc_S_pixbuf (v : DescBook) : (s.setDesc v).S.pixbuf = s.S.pixbuf := rfl
@[simp] theorem setDesc_S_rdbuf (v : DescBook) : (s.setDesc v).S.rdbuf = s.S.rdbuf := rfl
@[simp] theorem setDesc_S_handles (v : DescBook) : (s.setDesc v).S.handles = s.S.handles := rfl
@[simp] theorem setDesc_S_hold (v : DescBook) : (s.setDesc v).S.hold = s.S.hold := rfl
@[simp] theorem setDesc_P (v : DescBook) : (s.setDesc v).P = s.P := rfl
@[simp] theorem setDesc_G (v : DescBook) : (s.setDesc v).G = s.G := rfl
@[simp] theorem setDesc_E (v : DescBook) : (s.setDesc v).E = s.E := rfl
@[simp] theorem setDesc_M (v : DescBook) : (s.setDesc v).M = s.M := rfl
@[simp] theorem setDesc_bus (v : DescBook) : (s.setDesc v).bus = s.bus := rfl
@[simp] theorem setDesc_hist (v : DescBook) : (s.setDesc v).hist = s.hist := rfl
@[simp] theorem setDesc_stream (v : DescBook) : (s.setDesc v).stream = s.stream := rfl
@[simp] theorem setDesc_par (v : DescBook) : (s.setDesc v).par = s.par := rfl

/-! ## setFlip -/
@[simp] theorem setFlip_S_life (v : Bool) : (s.setFlip v).S.life = s.S.life := rfl
@[simp] theorem setFlip_S_cfg (v : Bool) : (s.setFlip v).S.cfg = s.S.cfg := rfl
@[simp] theorem setFlip_S_txn (v : Bool) : (s.setFlip v).S.txn = s.S.txn := rfl
@[simp] theorem setFlip_S_read (v : Bool) : (s.setFlip v).S.read = s.S.read := rfl
@[simp] theorem setFlip_S_mode (v : Bool) : (s.setFlip v).S.mode = s.S.mode := rfl
@[simp] theorem setFlip_S_cache (v : Bool) : (s.setFlip v).S.cache = s.S.cache := rfl
@[simp] theorem setFlip_S_res (v : Bool) : (s.setFlip v).S.res = s.S.res := rfl
@[simp] theorem setFlip_S_pc (v : Bool) : (s.setFlip v).S.pc = s.S.pc := rfl
@[simp] theorem setFlip_S_desc (v : Bool) : (s.setFlip v).S.desc = s.S.desc := rfl
@[simp] theorem setFlip_S_flip (v : Bool) : (s.setFlip v).S.flip = v := rfl
@[simp] theorem setFlip_S_fault (v : Bool) : (s.setFlip v).S.fault = s.S.fault := rfl
@[simp] theorem setFlip_S_refused (v : Bool) : (s.setFlip v).S.refused = s.S.refused := rfl
@[simp] theorem setFlip_S_pixbuf (v : Bool) : (s.setFlip v).S.pixbuf = s.S.pixbuf := rfl
@[simp] theorem setFlip_S_rdbuf (v : Bool) : (s.setFlip v).S.rdbuf = s.S.rdbuf := rfl
@[simp] theorem setFlip_S_handles (v : Bool) : (s.setFlip v).S.handles = s.S.handles := rfl
@[simp] theorem setFlip_S_hold (v : Bool) : (s.setFlip v).S.hold = s.S.hold := rfl
@[simp] theorem setFlip_P (v : Bool) : (s.setFlip v).P = s.P := rfl
@[simp] theorem setFlip_G (v : Bool) : (s.setFlip v).G = s.G := rfl
@[simp] theorem setFlip_E (v : Bool) : (s.setFlip v).E = s.E := rfl
@[simp] theorem setFlip_M (v : Bool) : (s.setFlip v).M = s.M := rfl
@[simp] theorem setFlip_bus (v : Bool) : (s.setFlip v).bus = s.bus := rfl
@[simp] theorem setFlip_hist (v : Bool) : (s.setFlip v).hist = s.hist := rfl
@[simp] theorem setFlip_stream (v : Bool) : (s.setFlip v).stream = s.stream := rfl
@[simp] theorem setFlip_par (v : Bool) : (s.setFlip v).par = s.par := rfl

/-! ## setPixbuf -/
@[simp] theorem setPixbuf_S_life (v : List Byte) : (s.setPixbuf v).S.life = s.S.life := rfl
@[simp] theorem setPixbuf_S_cfg (v : List Byte) : (s.setPixbuf v).S.cfg = s.S.cfg := rfl
@[simp] theorem setPixbuf_S_txn (v : List Byte) : (s.setPixbuf v).S.txn = s.S.txn := rfl
@[simp] theorem setPixbuf_S_read (v : List Byte) : (s.setPixbuf v).S.read = s.S.read := rfl
@[simp] theorem setPixbuf_S_mode (v : List Byte) : (s.setPixbuf v).S.mode = s.S.mode := rfl
@[simp] theorem setPixbuf_S_cache (v : List Byte) : (s.setPixbuf v).S.cache = s.S.cache := rfl
@[simp] theorem setPixbuf_S_res (v : List Byte) : (s.setPixbuf v).S.res = s.S.res := rfl
@[simp] theorem setPixbuf_S_pc (v : List Byte) : (s.setPixbuf v).S.pc = s.S.pc := rfl
@[simp] theorem setPixbuf_S_desc (v : List Byte) : (s.setPixbuf v).S.desc = s.S.desc := rfl
@[simp] theorem setPixbuf_S_flip (v : List Byte) : (s.setPixbuf v).S.flip = s.S.flip := rfl
@[simp] theorem setPixbuf_S_fault (v : List Byte) : (s.setPixbuf v).S.fault = s.S.fault := rfl
@[simp] theorem setPixbuf_S_refused (v : List Byte) : (s.setPixbuf v).S.refused = s.S.refused := rfl
@[simp] theorem setPixbuf_S_pixbuf (v : List Byte) : (s.setPixbuf v).S.pixbuf = v := rfl
@[simp] theorem setPixbuf_S_rdbuf (v : List Byte) : (s.setPixbuf v).S.rdbuf = s.S.rdbuf := rfl
@[simp] theorem setPixbuf_S_handles (v : List Byte) : (s.setPixbuf v).S.handles = s.S.handles := rfl
@[simp] theorem setPixbuf_S_hold (v : List Byte) : (s.setPixbuf v).S.hold = s.S.hold := rfl
@[simp] theorem setPixbuf_P (v : List Byte) : (s.setPixbuf v).P = s.P := rfl
@[simp] theorem setPixbuf_G (v : List Byte) : (s.setPixbuf v).G = s.G := rfl
@[simp] theorem setPixbuf_E (v : List Byte) : (s.setPixbuf v).E = s.E := rfl
@[simp] theorem setPixbuf_M (v : List Byte) : (s.setPixbuf v).M = s.M := rfl
@[simp] theorem setPixbuf_bus (v : List Byte) : (s.setPixbuf v).bus = s.bus := rfl
@[simp] theorem setPixbuf_hist (v : List Byte) : (s.setPixbuf v).hist = s.hist := rfl
@[simp] theorem setPixbuf_stream (v : List Byte) : (s.setPixbuf v).stream = s.stream := rfl
@[simp] theorem setPixbuf_par (v : List Byte) : (s.setPixbuf v).par = s.par := rfl

/-! ## setRdbuf -/
@[simp] theorem setRdbuf_S_life (v : List Byte) : (s.setRdbuf v).S.life = s.S.life := rfl
@[simp] theorem setRdbuf_S_cfg (v : List Byte) : (s.setRdbuf v).S.cfg = s.S.cfg := rfl
@[simp] theorem setRdbuf_S_txn (v : List Byte) : (s.setRdbuf v).S.txn = s.S.txn := rfl
@[simp] theorem setRdbuf_S_read (v : List Byte) : (s.setRdbuf v).S.read = s.S.read := rfl
@[simp] theorem setRdbuf_S_mode (v : List Byte) : (s.setRdbuf v).S.mode = s.S.mode := rfl
@[simp] theorem setRdbuf_S_cache (v : List Byte) : (s.setRdbuf v).S.cache = s.S.cache := rfl
@[simp] theorem setRdbuf_S_res (v : List Byte) : (s.setRdbuf v).S.res = s.S.res := rfl
@[simp] theorem setRdbuf_S_pc (v : List Byte) : (s.setRdbuf v).S.pc = s.S.pc := rfl
@[simp] theorem setRdbuf_S_desc (v : List Byte) : (s.setRdbuf v).S.desc = s.S.desc := rfl
@[simp] theorem setRdbuf_S_flip (v : List Byte) : (s.setRdbuf v).S.flip = s.S.flip := rfl
@[simp] theorem setRdbuf_S_fault (v : List Byte) : (s.setRdbuf v).S.fault = s.S.fault := rfl
@[simp] theorem setRdbuf_S_refused (v : List Byte) : (s.setRdbuf v).S.refused = s.S.refused := rfl
@[simp] theorem setRdbuf_S_pixbuf (v : List Byte) : (s.setRdbuf v).S.pixbuf = s.S.pixbuf := rfl
@[simp] theorem setRdbuf_S_rdbuf (v : List Byte) : (s.setRdbuf v).S.rdbuf = v := rfl
@[simp] theorem setRdbuf_S_handles (v : List Byte) : (s.setRdbuf v).S.handles = s.S.handles := rfl
@[simp] theorem setRdbuf_S_hold (v : List Byte) : (s.setRdbuf v).S.hold = s.S.hold := rfl
@[simp] theorem setRdbuf_P (v : List Byte) : (s.setRdbuf v).P = s.P := rfl
@[simp] theorem setRdbuf_G (v : List Byte) : (s.setRdbuf v).G = s.G := rfl
@[simp] theorem setRdbuf_E (v : List Byte) : (s.setRdbuf v).E = s.E := rfl
@[simp] theorem setRdbuf_M (v : List Byte) : (s.setRdbuf v).M = s.M := rfl
@[simp] theorem setRdbuf_bus (v : List Byte) : (s.setRdbuf v).bus = s.bus := rfl
@[simp] theorem setRdbuf_hist (v : List Byte) : (s.setRdbuf v).hist = s.hist := rfl
@[simp] theorem setRdbuf_stream (v : List Byte) : (s.setRdbuf v).stream = s.stream := rfl
@[simp] theorem setRdbuf_par (v : List Byte) : (s.setRdbuf v).par = s.par := rfl

/-! ## setHandles -/
@[simp] theorem setHandles_S_life (v : Option Nat) : (s.setHandles v).S.life = s.S.life := rfl
@[simp] theorem setHandles_S_cfg (v : Option Nat) : (s.setHandles v).S.cfg = s.S.cfg := rfl
@[simp] theorem setHandles_S_txn (v : Option Nat) : (s.setHandles v).S.txn = s.S.txn := rfl
@[simp] theorem setHandles_S_read (v : Option Nat) : (s.setHandles v).S.read = s.S.read := rfl
@[simp] theorem setHandles_S_mode (v : Option Nat) : (s.setHandles v).S.mode = s.S.mode := rfl
@[simp] theorem setHandles_S_cache (v : Option Nat) : (s.setHandles v).S.cache = s.S.cache := rfl
@[simp] theorem setHandles_S_res (v : Option Nat) : (s.setHandles v).S.res = s.S.res := rfl
@[simp] theorem setHandles_S_pc (v : Option Nat) : (s.setHandles v).S.pc = s.S.pc := rfl
@[simp] theorem setHandles_S_desc (v : Option Nat) : (s.setHandles v).S.desc = s.S.desc := rfl
@[simp] theorem setHandles_S_flip (v : Option Nat) : (s.setHandles v).S.flip = s.S.flip := rfl
@[simp] theorem setHandles_S_fault (v : Option Nat) : (s.setHandles v).S.fault = s.S.fault := rfl
@[simp] theorem setHandles_S_refused (v : Option Nat) : (s.setHandles v).S.refused = s.S.refused := rfl
@[simp] theorem setHandles_S_pixbuf (v : Option Nat) : (s.setHandles v).S.pixbuf = s.S.pixbuf := rfl
@[simp] theorem setHandles_S_rdbuf (v : Option Nat) : (s.setHandles v).S.rdbuf = s.S.rdbuf := rfl
@[simp] theorem setHandles_S_handles (v : Option Nat) : (s.setHandles v).S.handles = v := rfl
@[simp] theorem setHandles_S_hold (v : Option Nat) : (s.setHandles v).S.hold = s.S.hold := rfl
@[simp] theorem setHandles_P (v : Option Nat) : (s.setHandles v).P = s.P := rfl
@[simp] theorem setHandles_G (v : Option Nat) : (s.setHandles v).G = s.G := rfl
@[simp] theorem setHandles_E (v : Option Nat) : (s.setHandles v).E = s.E := rfl
@[simp] theorem setHandles_M (v : Option Nat) : (s.setHandles v).M = s.M := rfl
@[simp] theorem setHandles_bus (v : Option Nat) : (s.setHandles v).bus = s.bus := rfl
@[simp] theorem setHandles_hist (v : Option Nat) : (s.setHandles v).hist = s.hist := rfl
@[simp] theorem setHandles_stream (v : Option Nat) : (s.setHandles v).stream = s.stream := rfl
@[simp] theorem setHandles_par (v : Option Nat) : (s.setHandles v).par = s.par := rfl

/-! ## takeFault -/
@[simp] theorem takeFault_S_life (v : FaultCode) : (s.takeFault v).S.life = s.S.life := rfl
@[simp] theorem takeFault_S_cfg (v : FaultCode) : (s.takeFault v).S.cfg = s.S.cfg := rfl
@[simp] theorem takeFault_S_txn (v : FaultCode) : (s.takeFault v).S.txn = s.S.txn := rfl
@[simp] theorem takeFault_S_read (v : FaultCode) : (s.takeFault v).S.read = s.S.read := rfl
@[simp] theorem takeFault_S_mode (v : FaultCode) : (s.takeFault v).S.mode = s.S.mode := rfl
@[simp] theorem takeFault_S_cache (v : FaultCode) : (s.takeFault v).S.cache = s.S.cache := rfl
@[simp] theorem takeFault_S_res (v : FaultCode) : (s.takeFault v).S.res = s.S.res := rfl
@[simp] theorem takeFault_S_pc (v : FaultCode) : (s.takeFault v).S.pc = s.S.pc := rfl
@[simp] theorem takeFault_S_desc (v : FaultCode) : (s.takeFault v).S.desc = s.S.desc := rfl
@[simp] theorem takeFault_S_flip (v : FaultCode) : (s.takeFault v).S.flip = s.S.flip := rfl
@[simp] theorem takeFault_S_fault (v : FaultCode) : (s.takeFault v).S.fault = some (v, s.S.pc) := rfl
@[simp] theorem takeFault_S_refused (v : FaultCode) : (s.takeFault v).S.refused = s.S.refused := rfl
@[simp] theorem takeFault_S_pixbuf (v : FaultCode) : (s.takeFault v).S.pixbuf = s.S.pixbuf := rfl
@[simp] theorem takeFault_S_rdbuf (v : FaultCode) : (s.takeFault v).S.rdbuf = s.S.rdbuf := rfl
@[simp] theorem takeFault_S_handles (v : FaultCode) : (s.takeFault v).S.handles = s.S.handles := rfl
@[simp] theorem takeFault_S_hold (v : FaultCode) : (s.takeFault v).S.hold = s.S.hold := rfl
@[simp] theorem takeFault_P (v : FaultCode) : (s.takeFault v).P = s.P := rfl
@[simp] theorem takeFault_G (v : FaultCode) : (s.takeFault v).G = s.G := rfl
@[simp] theorem takeFault_E (v : FaultCode) : (s.takeFault v).E = s.E := rfl
@[simp] theorem takeFault_M (v : FaultCode) : (s.takeFault v).M = s.M := rfl
@[simp] theorem takeFault_bus (v : FaultCode) : (s.takeFault v).bus = s.bus := rfl
@[simp] theorem takeFault_hist (v : FaultCode) : (s.takeFault v).hist = s.hist := rfl
@[simp] theorem takeFault_stream (v : FaultCode) : (s.takeFault v).stream = s.stream := rfl
@[simp] theorem takeFault_par (v : FaultCode) : (s.takeFault v).par = s.par := rfl

/-! ## setHold -/
@[simp] theorem setHold_S_life (v : Hold) : (s.setHold v).S.life = s.S.life := rfl
@[simp] theorem setHold_S_cfg (v : Hold) : (s.setHold v).S.cfg = s.S.cfg := rfl
@[simp] theorem setHold_S_txn (v : Hold) : (s.setHold v).S.txn = s.S.txn := rfl
@[simp] theorem setHold_S_read (v : Hold) : (s.setHold v).S.read = s.S.read := rfl
@[simp] theorem setHold_S_mode (v : Hold) : (s.setHold v).S.mode = s.S.mode := rfl
@[simp] theorem setHold_S_cache (v : Hold) : (s.setHold v).S.cache = s.S.cache := rfl
@[simp] theorem setHold_S_res (v : Hold) : (s.setHold v).S.res = s.S.res := rfl
@[simp] theorem setHold_S_pc (v : Hold) : (s.setHold v).S.pc = s.S.pc := rfl
@[simp] theorem setHold_S_desc (v : Hold) : (s.setHold v).S.desc = s.S.desc := rfl
@[simp] theorem setHold_S_flip (v : Hold) : (s.setHold v).S.flip = s.S.flip := rfl
@[simp] theorem setHold_S_fault (v : Hold) : (s.setHold v).S.fault = s.S.fault := rfl
@[simp] theorem setHold_S_refused (v : Hold) : (s.setHold v).S.refused = s.S.refused := rfl
@[simp] theorem setHold_S_pixbuf (v : Hold) : (s.setHold v).S.pixbuf = s.S.pixbuf := rfl
@[simp] theorem setHold_S_rdbuf (v : Hold) : (s.setHold v).S.rdbuf = s.S.rdbuf := rfl
@[simp] theorem setHold_S_handles (v : Hold) : (s.setHold v).S.handles = s.S.handles := rfl
@[simp] theorem setHold_S_hold (v : Hold) : (s.setHold v).S.hold = some v := rfl
@[simp] theorem setHold_P (v : Hold) : (s.setHold v).P = s.P := rfl
@[simp] theorem setHold_G (v : Hold) : (s.setHold v).G = s.G := rfl
@[simp] theorem setHold_E (v : Hold) : (s.setHold v).E = s.E := rfl
@[simp] theorem setHold_M (v : Hold) : (s.setHold v).M = s.M := rfl
@[simp] theorem setHold_bus (v : Hold) : (s.setHold v).bus = s.bus := rfl
@[simp] theorem setHold_hist (v : Hold) : (s.setHold v).hist = s.hist := rfl
@[simp] theorem setHold_stream (v : Hold) : (s.setHold v).stream = s.stream := rfl
@[simp] theorem setHold_par (v : Hold) : (s.setHold v).par = s.par := rfl

/-! ## refuse -/
@[simp] theorem refuse_S_life : (s.refuse).S.life = s.S.life := rfl
@[simp] theorem refuse_S_cfg : (s.refuse).S.cfg = s.S.cfg := rfl
@[simp] theorem refuse_S_txn : (s.refuse).S.txn = s.S.txn := rfl
@[simp] theorem refuse_S_read : (s.refuse).S.read = s.S.read := rfl
@[simp] theorem refuse_S_mode : (s.refuse).S.mode = s.S.mode := rfl
@[simp] theorem refuse_S_cache : (s.refuse).S.cache = s.S.cache := rfl
@[simp] theorem refuse_S_res : (s.refuse).S.res = s.S.res := rfl
@[simp] theorem refuse_S_pc : (s.refuse).S.pc = s.S.pc := rfl
@[simp] theorem refuse_S_desc : (s.refuse).S.desc = s.S.desc := rfl
@[simp] theorem refuse_S_flip : (s.refuse).S.flip = s.S.flip := rfl
@[simp] theorem refuse_S_fault : (s.refuse).S.fault = s.S.fault := rfl
@[simp] theorem refuse_S_refused : (s.refuse).S.refused = true := rfl
@[simp] theorem refuse_S_pixbuf : (s.refuse).S.pixbuf = s.S.pixbuf := rfl
@[simp] theorem refuse_S_rdbuf : (s.refuse).S.rdbuf = s.S.rdbuf := rfl
@[simp] theorem refuse_S_handles : (s.refuse).S.handles = s.S.handles := rfl
@[simp] theorem refuse_S_hold : (s.refuse).S.hold = s.S.hold := rfl
@[simp] theorem refuse_P : (s.refuse).P = s.P := rfl
@[simp] theorem refuse_G : (s.refuse).G = s.G := rfl
@[simp] theorem refuse_E : (s.refuse).E = s.E := rfl
@[simp] theorem refuse_M : (s.refuse).M = s.M := rfl
@[simp] theorem refuse_bus : (s.refuse).bus = s.bus := rfl
@[simp] theorem refuse_hist : (s.refuse).hist = s.hist := rfl
@[simp] theorem refuse_stream : (s.refuse).stream = s.stream := rfl
@[simp] theorem refuse_par : (s.refuse).par = s.par := rfl

/-! ## advance -/
@[simp] theorem advance_S_life (v : Nat) : (s.advance v).S.life = s.S.life := rfl
@[simp] theorem advance_S_cfg (v : Nat) : (s.advance v).S.cfg = s.S.cfg := rfl
@[simp] theorem advance_S_txn (v : Nat) : (s.advance v).S.txn = s.S.txn := rfl
@[simp] theorem advance_S_read (v : Nat) : (s.advance v).S.read = s.S.read := rfl
@[simp] theorem advance_S_mode (v : Nat) : (s.advance v).S.mode = s.S.mode := rfl
@[simp] theorem advance_S_cache (v : Nat) : (s.advance v).S.cache = s.S.cache := rfl
@[simp] theorem advance_S_res (v : Nat) : (s.advance v).S.res = s.S.res := rfl
@[simp] theorem advance_S_pc (v : Nat) : (s.advance v).S.pc = s.S.pc + v := rfl
@[simp] theorem advance_S_desc (v : Nat) : (s.advance v).S.desc = s.S.desc := rfl
@[simp] theorem advance_S_flip (v : Nat) : (s.advance v).S.flip = s.S.flip := rfl
@[simp] theorem advance_S_fault (v : Nat) : (s.advance v).S.fault = s.S.fault := rfl
@[simp] theorem advance_S_refused (v : Nat) : (s.advance v).S.refused = s.S.refused := rfl
@[simp] theorem advance_S_pixbuf (v : Nat) : (s.advance v).S.pixbuf = s.S.pixbuf := rfl
@[simp] theorem advance_S_rdbuf (v : Nat) : (s.advance v).S.rdbuf = s.S.rdbuf := rfl
@[simp] theorem advance_S_handles (v : Nat) : (s.advance v).S.handles = s.S.handles := rfl
@[simp] theorem advance_S_hold (v : Nat) : (s.advance v).S.hold = s.S.hold := rfl
@[simp] theorem advance_P (v : Nat) : (s.advance v).P = s.P := rfl
@[simp] theorem advance_G (v : Nat) : (s.advance v).G = s.G := rfl
@[simp] theorem advance_E (v : Nat) : (s.advance v).E = s.E := rfl
@[simp] theorem advance_M (v : Nat) : (s.advance v).M = s.M := rfl
@[simp] theorem advance_bus (v : Nat) : (s.advance v).bus = s.bus := rfl
@[simp] theorem advance_hist (v : Nat) : (s.advance v).hist = s.hist := rfl
@[simp] theorem advance_stream (v : Nat) : (s.advance v).stream = s.stream := rfl
@[simp] theorem advance_par (v : Nat) : (s.advance v).par = s.par := rfl

/-! ## setRegs -/
@[simp] theorem setRegs_P_regs (v : Regs) : (s.setRegs v).P.regs = v := rfl
@[simp] theorem setRegs_P_modeRegs (v : Regs) : (s.setRegs v).P.modeRegs = s.P.modeRegs := rfl
@[simp] theorem setRegs_P_gate (v : Regs) : (s.setRegs v).P.gate = s.P.gate := rfl
@[simp] theorem setRegs_P_fifo (v : Regs) : (s.setRegs v).P.fifo = s.P.fifo := rfl
@[simp] theorem setRegs_P_tx (v : Regs) : (s.setRegs v).P.tx = s.P.tx := rfl
@[simp] theorem setRegs_P_dma (v : Regs) : (s.setRegs v).P.dma = s.P.dma := rfl
@[simp] theorem setRegs_P_desc (v : Regs) : (s.setRegs v).P.desc = s.P.desc := rfl
@[simp] theorem setRegs_P_scratch0 (v : Regs) : (s.setRegs v).P.scratch0 = s.P.scratch0 := rfl
@[simp] theorem setRegs_P_scratch1 (v : Regs) : (s.setRegs v).P.scratch1 = s.P.scratch1 := rfl
@[simp] theorem setRegs_S (v : Regs) : (s.setRegs v).S = s.S := rfl
@[simp] theorem setRegs_G (v : Regs) : (s.setRegs v).G = s.G := rfl
@[simp] theorem setRegs_E (v : Regs) : (s.setRegs v).E = s.E := rfl
@[simp] theorem setRegs_M (v : Regs) : (s.setRegs v).M = s.M := rfl
@[simp] theorem setRegs_bus (v : Regs) : (s.setRegs v).bus = s.bus := rfl
@[simp] theorem setRegs_hist (v : Regs) : (s.setRegs v).hist = s.hist := rfl
@[simp] theorem setRegs_stream (v : Regs) : (s.setRegs v).stream = s.stream := rfl
@[simp] theorem setRegs_par (v : Regs) : (s.setRegs v).par = s.par := rfl

/-! ## setModeRegs -/
@[simp] theorem setModeRegs_P_regs (v : List (Word × Word)) : (s.setModeRegs v).P.regs = s.P.regs := rfl
@[simp] theorem setModeRegs_P_modeRegs (v : List (Word × Word)) : (s.setModeRegs v).P.modeRegs = v := rfl
@[simp] theorem setModeRegs_P_gate (v : List (Word × Word)) : (s.setModeRegs v).P.gate = s.P.gate := rfl
@[simp] theorem setModeRegs_P_fifo (v : List (Word × Word)) : (s.setModeRegs v).P.fifo = s.P.fifo := rfl
@[simp] theorem setModeRegs_P_tx (v : List (Word × Word)) : (s.setModeRegs v).P.tx = s.P.tx := rfl
@[simp] theorem setModeRegs_P_dma (v : List (Word × Word)) : (s.setModeRegs v).P.dma = s.P.dma := rfl
@[simp] theorem setModeRegs_P_desc (v : List (Word × Word)) : (s.setModeRegs v).P.desc = s.P.desc := rfl
@[simp] theorem setModeRegs_P_scratch0 (v : List (Word × Word)) : (s.setModeRegs v).P.scratch0 = s.P.scratch0 := rfl
@[simp] theorem setModeRegs_P_scratch1 (v : List (Word × Word)) : (s.setModeRegs v).P.scratch1 = s.P.scratch1 := rfl
@[simp] theorem setModeRegs_S (v : List (Word × Word)) : (s.setModeRegs v).S = s.S := rfl
@[simp] theorem setModeRegs_G (v : List (Word × Word)) : (s.setModeRegs v).G = s.G := rfl
@[simp] theorem setModeRegs_E (v : List (Word × Word)) : (s.setModeRegs v).E = s.E := rfl
@[simp] theorem setModeRegs_M (v : List (Word × Word)) : (s.setModeRegs v).M = s.M := rfl
@[simp] theorem setModeRegs_bus (v : List (Word × Word)) : (s.setModeRegs v).bus = s.bus := rfl
@[simp] theorem setModeRegs_hist (v : List (Word × Word)) : (s.setModeRegs v).hist = s.hist := rfl
@[simp] theorem setModeRegs_stream (v : List (Word × Word)) : (s.setModeRegs v).stream = s.stream := rfl
@[simp] theorem setModeRegs_par (v : List (Word × Word)) : (s.setModeRegs v).par = s.par := rfl

/-! ## setGate -/
@[simp] theorem setGate_P_regs (v : Gate) : (s.setGate v).P.regs = s.P.regs := rfl
@[simp] theorem setGate_P_modeRegs (v : Gate) : (s.setGate v).P.modeRegs = s.P.modeRegs := rfl
@[simp] theorem setGate_P_gate (v : Gate) : (s.setGate v).P.gate = v := rfl
@[simp] theorem setGate_P_fifo (v : Gate) : (s.setGate v).P.fifo = s.P.fifo := rfl
@[simp] theorem setGate_P_tx (v : Gate) : (s.setGate v).P.tx = s.P.tx := rfl
@[simp] theorem setGate_P_dma (v : Gate) : (s.setGate v).P.dma = s.P.dma := rfl
@[simp] theorem setGate_P_desc (v : Gate) : (s.setGate v).P.desc = s.P.desc := rfl
@[simp] theorem setGate_P_scratch0 (v : Gate) : (s.setGate v).P.scratch0 = s.P.scratch0 := rfl
@[simp] theorem setGate_P_scratch1 (v : Gate) : (s.setGate v).P.scratch1 = s.P.scratch1 := rfl
@[simp] theorem setGate_S (v : Gate) : (s.setGate v).S = s.S := rfl
@[simp] theorem setGate_G (v : Gate) : (s.setGate v).G = s.G := rfl
@[simp] theorem setGate_E (v : Gate) : (s.setGate v).E = s.E := rfl
@[simp] theorem setGate_M (v : Gate) : (s.setGate v).M = s.M := rfl
@[simp] theorem setGate_bus (v : Gate) : (s.setGate v).bus = s.bus := rfl
@[simp] theorem setGate_hist (v : Gate) : (s.setGate v).hist = s.hist := rfl
@[simp] theorem setGate_stream (v : Gate) : (s.setGate v).stream = s.stream := rfl
@[simp] theorem setGate_par (v : Gate) : (s.setGate v).par = s.par := rfl

/-! ## setFifo -/
@[simp] theorem setFifo_P_regs (v : List Word) : (s.setFifo v).P.regs = s.P.regs := rfl
@[simp] theorem setFifo_P_modeRegs (v : List Word) : (s.setFifo v).P.modeRegs = s.P.modeRegs := rfl
@[simp] theorem setFifo_P_gate (v : List Word) : (s.setFifo v).P.gate = s.P.gate := rfl
@[simp] theorem setFifo_P_fifo (v : List Word) : (s.setFifo v).P.fifo = v := rfl
@[simp] theorem setFifo_P_tx (v : List Word) : (s.setFifo v).P.tx = s.P.tx := rfl
@[simp] theorem setFifo_P_dma (v : List Word) : (s.setFifo v).P.dma = s.P.dma := rfl
@[simp] theorem setFifo_P_desc (v : List Word) : (s.setFifo v).P.desc = s.P.desc := rfl
@[simp] theorem setFifo_P_scratch0 (v : List Word) : (s.setFifo v).P.scratch0 = s.P.scratch0 := rfl
@[simp] theorem setFifo_P_scratch1 (v : List Word) : (s.setFifo v).P.scratch1 = s.P.scratch1 := rfl
@[simp] theorem setFifo_S (v : List Word) : (s.setFifo v).S = s.S := rfl
@[simp] theorem setFifo_G (v : List Word) : (s.setFifo v).G = s.G := rfl
@[simp] theorem setFifo_E (v : List Word) : (s.setFifo v).E = s.E := rfl
@[simp] theorem setFifo_M (v : List Word) : (s.setFifo v).M = s.M := rfl
@[simp] theorem setFifo_bus (v : List Word) : (s.setFifo v).bus = s.bus := rfl
@[simp] theorem setFifo_hist (v : List Word) : (s.setFifo v).hist = s.hist := rfl
@[simp] theorem setFifo_stream (v : List Word) : (s.setFifo v).stream = s.stream := rfl
@[simp] theorem setFifo_par (v : List Word) : (s.setFifo v).par = s.par := rfl

/-! ## setTx -/
@[simp] theorem setTx_P_regs (v : Tx) : (s.setTx v).P.regs = s.P.regs := rfl
@[simp] theorem setTx_P_modeRegs (v : Tx) : (s.setTx v).P.modeRegs = s.P.modeRegs := rfl
@[simp] theorem setTx_P_gate (v : Tx) : (s.setTx v).P.gate = s.P.gate := rfl
@[simp] theorem setTx_P_fifo (v : Tx) : (s.setTx v).P.fifo = s.P.fifo := rfl
@[simp] theorem setTx_P_tx (v : Tx) : (s.setTx v).P.tx = v := rfl
@[simp] theorem setTx_P_dma (v : Tx) : (s.setTx v).P.dma = s.P.dma := rfl
@[simp] theorem setTx_P_desc (v : Tx) : (s.setTx v).P.desc = s.P.desc := rfl
@[simp] theorem setTx_P_scratch0 (v : Tx) : (s.setTx v).P.scratch0 = s.P.scratch0 := rfl
@[simp] theorem setTx_P_scratch1 (v : Tx) : (s.setTx v).P.scratch1 = s.P.scratch1 := rfl
@[simp] theorem setTx_S (v : Tx) : (s.setTx v).S = s.S := rfl
@[simp] theorem setTx_G (v : Tx) : (s.setTx v).G = s.G := rfl
@[simp] theorem setTx_E (v : Tx) : (s.setTx v).E = s.E := rfl
@[simp] theorem setTx_M (v : Tx) : (s.setTx v).M = s.M := rfl
@[simp] theorem setTx_bus (v : Tx) : (s.setTx v).bus = s.bus := rfl
@[simp] theorem setTx_hist (v : Tx) : (s.setTx v).hist = s.hist := rfl
@[simp] theorem setTx_stream (v : Tx) : (s.setTx v).stream = s.stream := rfl
@[simp] theorem setTx_par (v : Tx) : (s.setTx v).par = s.par := rfl

/-! ## setDma -/
@[simp] theorem setDma_P_regs (v : Dma) : (s.setDma v).P.regs = s.P.regs := rfl
@[simp] theorem setDma_P_modeRegs (v : Dma) : (s.setDma v).P.modeRegs = s.P.modeRegs := rfl
@[simp] theorem setDma_P_gate (v : Dma) : (s.setDma v).P.gate = s.P.gate := rfl
@[simp] theorem setDma_P_fifo (v : Dma) : (s.setDma v).P.fifo = s.P.fifo := rfl
@[simp] theorem setDma_P_tx (v : Dma) : (s.setDma v).P.tx = s.P.tx := rfl
@[simp] theorem setDma_P_dma (v : Dma) : (s.setDma v).P.dma = v := rfl
@[simp] theorem setDma_P_desc (v : Dma) : (s.setDma v).P.desc = s.P.desc := rfl
@[simp] theorem setDma_P_scratch0 (v : Dma) : (s.setDma v).P.scratch0 = s.P.scratch0 := rfl
@[simp] theorem setDma_P_scratch1 (v : Dma) : (s.setDma v).P.scratch1 = s.P.scratch1 := rfl
@[simp] theorem setDma_S (v : Dma) : (s.setDma v).S = s.S := rfl
@[simp] theorem setDma_G (v : Dma) : (s.setDma v).G = s.G := rfl
@[simp] theorem setDma_E (v : Dma) : (s.setDma v).E = s.E := rfl
@[simp] theorem setDma_M (v : Dma) : (s.setDma v).M = s.M := rfl
@[simp] theorem setDma_bus (v : Dma) : (s.setDma v).bus = s.bus := rfl
@[simp] theorem setDma_hist (v : Dma) : (s.setDma v).hist = s.hist := rfl
@[simp] theorem setDma_stream (v : Dma) : (s.setDma v).stream = s.stream := rfl
@[simp] theorem setDma_par (v : Dma) : (s.setDma v).par = s.par := rfl

/-! ## setDescriptor -/
@[simp] theorem setDescriptor_P_regs (v : Descriptor) : (s.setDescriptor v).P.regs = s.P.regs := rfl
@[simp] theorem setDescriptor_P_modeRegs (v : Descriptor) : (s.setDescriptor v).P.modeRegs = s.P.modeRegs := rfl
@[simp] theorem setDescriptor_P_gate (v : Descriptor) : (s.setDescriptor v).P.gate = s.P.gate := rfl
@[simp] theorem setDescriptor_P_fifo (v : Descriptor) : (s.setDescriptor v).P.fifo = s.P.fifo := rfl
@[simp] theorem setDescriptor_P_tx (v : Descriptor) : (s.setDescriptor v).P.tx = s.P.tx := rfl
@[simp] theorem setDescriptor_P_dma (v : Descriptor) : (s.setDescriptor v).P.dma = s.P.dma := rfl
@[simp] theorem setDescriptor_P_desc (v : Descriptor) : (s.setDescriptor v).P.desc = v := rfl
@[simp] theorem setDescriptor_P_scratch0 (v : Descriptor) : (s.setDescriptor v).P.scratch0 = s.P.scratch0 := rfl
@[simp] theorem setDescriptor_P_scratch1 (v : Descriptor) : (s.setDescriptor v).P.scratch1 = s.P.scratch1 := rfl
@[simp] theorem setDescriptor_S (v : Descriptor) : (s.setDescriptor v).S = s.S := rfl
@[simp] theorem setDescriptor_G (v : Descriptor) : (s.setDescriptor v).G = s.G := rfl
@[simp] theorem setDescriptor_E (v : Descriptor) : (s.setDescriptor v).E = s.E := rfl
@[simp] theorem setDescriptor_M (v : Descriptor) : (s.setDescriptor v).M = s.M := rfl
@[simp] theorem setDescriptor_bus (v : Descriptor) : (s.setDescriptor v).bus = s.bus := rfl
@[simp] theorem setDescriptor_hist (v : Descriptor) : (s.setDescriptor v).hist = s.hist := rfl
@[simp] theorem setDescriptor_stream (v : Descriptor) : (s.setDescriptor v).stream = s.stream := rfl
@[simp] theorem setDescriptor_par (v : Descriptor) : (s.setDescriptor v).par = s.par := rfl

/-! ## setSched -/
@[simp] theorem setSched_E_busClock (v : List Move) : (s.setSched v).E.busClock = s.E.busClock := rfl
@[simp] theorem setSched_E_radioClkEn (v : List Move) : (s.setSched v).E.radioClkEn = s.E.radioClkEn := rfl
@[simp] theorem setSched_E_device (v : List Move) : (s.setSched v).E.device = s.E.device := rfl
@[simp] theorem setSched_E_producers (v : List Move) : (s.setSched v).E.producers = s.E.producers := rfl
@[simp] theorem setSched_E_allocs (v : List Move) : (s.setSched v).E.allocs = s.E.allocs := rfl
@[simp] theorem setSched_E_handed (v : List Move) : (s.setSched v).E.handed = s.E.handed := rfl
@[simp] theorem setSched_E_sched (v : List Move) : (s.setSched v).E.sched = v := rfl
@[simp] theorem setSched_E_drawn (v : List Move) : (s.setSched v).E.drawn = s.E.drawn := rfl
@[simp] theorem setSched_S (v : List Move) : (s.setSched v).S = s.S := rfl
@[simp] theorem setSched_P (v : List Move) : (s.setSched v).P = s.P := rfl
@[simp] theorem setSched_G (v : List Move) : (s.setSched v).G = s.G := rfl
@[simp] theorem setSched_M (v : List Move) : (s.setSched v).M = s.M := rfl
@[simp] theorem setSched_bus (v : List Move) : (s.setSched v).bus = s.bus := rfl
@[simp] theorem setSched_hist (v : List Move) : (s.setSched v).hist = s.hist := rfl
@[simp] theorem setSched_stream (v : List Move) : (s.setSched v).stream = s.stream := rfl
@[simp] theorem setSched_par (v : List Move) : (s.setSched v).par = s.par := rfl

/-! ## setRadio -/
@[simp] theorem setRadio_E_busClock (v : Word) : (s.setRadio v).E.busClock = s.E.busClock := rfl
@[simp] theorem setRadio_E_radioClkEn (v : Word) : (s.setRadio v).E.radioClkEn = v := rfl
@[simp] theorem setRadio_E_device (v : Word) : (s.setRadio v).E.device = s.E.device := rfl
@[simp] theorem setRadio_E_producers (v : Word) : (s.setRadio v).E.producers = s.E.producers := rfl
@[simp] theorem setRadio_E_allocs (v : Word) : (s.setRadio v).E.allocs = s.E.allocs := rfl
@[simp] theorem setRadio_E_handed (v : Word) : (s.setRadio v).E.handed = s.E.handed := rfl
@[simp] theorem setRadio_E_sched (v : Word) : (s.setRadio v).E.sched = s.E.sched := rfl
@[simp] theorem setRadio_E_drawn (v : Word) : (s.setRadio v).E.drawn = s.E.drawn := rfl
@[simp] theorem setRadio_S (v : Word) : (s.setRadio v).S = s.S := rfl
@[simp] theorem setRadio_P (v : Word) : (s.setRadio v).P = s.P := rfl
@[simp] theorem setRadio_G (v : Word) : (s.setRadio v).G = s.G := rfl
@[simp] theorem setRadio_M (v : Word) : (s.setRadio v).M = s.M := rfl
@[simp] theorem setRadio_bus (v : Word) : (s.setRadio v).bus = s.bus := rfl
@[simp] theorem setRadio_hist (v : Word) : (s.setRadio v).hist = s.hist := rfl
@[simp] theorem setRadio_stream (v : Word) : (s.setRadio v).stream = s.stream := rfl
@[simp] theorem setRadio_par (v : Word) : (s.setRadio v).par = s.par := rfl

/-! ## setDevice -/
@[simp] theorem setDevice_E_busClock (v : Device) : (s.setDevice v).E.busClock = s.E.busClock := rfl
@[simp] theorem setDevice_E_radioClkEn (v : Device) : (s.setDevice v).E.radioClkEn = s.E.radioClkEn := rfl
@[simp] theorem setDevice_E_device (v : Device) : (s.setDevice v).E.device = v := rfl
@[simp] theorem setDevice_E_producers (v : Device) : (s.setDevice v).E.producers = s.E.producers := rfl
@[simp] theorem setDevice_E_allocs (v : Device) : (s.setDevice v).E.allocs = s.E.allocs := rfl
@[simp] theorem setDevice_E_handed (v : Device) : (s.setDevice v).E.handed = s.E.handed := rfl
@[simp] theorem setDevice_E_sched (v : Device) : (s.setDevice v).E.sched = s.E.sched := rfl
@[simp] theorem setDevice_E_drawn (v : Device) : (s.setDevice v).E.drawn = s.E.drawn := rfl
@[simp] theorem setDevice_S (v : Device) : (s.setDevice v).S = s.S := rfl
@[simp] theorem setDevice_P (v : Device) : (s.setDevice v).P = s.P := rfl
@[simp] theorem setDevice_G (v : Device) : (s.setDevice v).G = s.G := rfl
@[simp] theorem setDevice_M (v : Device) : (s.setDevice v).M = s.M := rfl
@[simp] theorem setDevice_bus (v : Device) : (s.setDevice v).bus = s.bus := rfl
@[simp] theorem setDevice_hist (v : Device) : (s.setDevice v).hist = s.hist := rfl
@[simp] theorem setDevice_stream (v : Device) : (s.setDevice v).stream = s.stream := rfl
@[simp] theorem setDevice_par (v : Device) : (s.setDevice v).par = s.par := rfl

/-! ## setBusClock -/
@[simp] theorem setBusClock_E_busClock (v : List Word) : (s.setBusClock v).E.busClock = v := rfl
@[simp] theorem setBusClock_E_radioClkEn (v : List Word) : (s.setBusClock v).E.radioClkEn = s.E.radioClkEn := rfl
@[simp] theorem setBusClock_E_device (v : List Word) : (s.setBusClock v).E.device = s.E.device := rfl
@[simp] theorem setBusClock_E_producers (v : List Word) : (s.setBusClock v).E.producers = s.E.producers := rfl
@[simp] theorem setBusClock_E_allocs (v : List Word) : (s.setBusClock v).E.allocs = s.E.allocs := rfl
@[simp] theorem setBusClock_E_handed (v : List Word) : (s.setBusClock v).E.handed = s.E.handed := rfl
@[simp] theorem setBusClock_E_sched (v : List Word) : (s.setBusClock v).E.sched = s.E.sched := rfl
@[simp] theorem setBusClock_E_drawn (v : List Word) : (s.setBusClock v).E.drawn = s.E.drawn := rfl
@[simp] theorem setBusClock_S (v : List Word) : (s.setBusClock v).S = s.S := rfl
@[simp] theorem setBusClock_P (v : List Word) : (s.setBusClock v).P = s.P := rfl
@[simp] theorem setBusClock_G (v : List Word) : (s.setBusClock v).G = s.G := rfl
@[simp] theorem setBusClock_M (v : List Word) : (s.setBusClock v).M = s.M := rfl
@[simp] theorem setBusClock_bus (v : List Word) : (s.setBusClock v).bus = s.bus := rfl
@[simp] theorem setBusClock_hist (v : List Word) : (s.setBusClock v).hist = s.hist := rfl
@[simp] theorem setBusClock_stream (v : List Word) : (s.setBusClock v).stream = s.stream := rfl
@[simp] theorem setBusClock_par (v : List Word) : (s.setBusClock v).par = s.par := rfl

/-! ## setAllocs -/
@[simp] theorem setAllocs_E_busClock (v : List (Option Word)) : (s.setAllocs v).E.busClock = s.E.busClock := rfl
@[simp] theorem setAllocs_E_radioClkEn (v : List (Option Word)) : (s.setAllocs v).E.radioClkEn = s.E.radioClkEn := rfl
@[simp] theorem setAllocs_E_device (v : List (Option Word)) : (s.setAllocs v).E.device = s.E.device := rfl
@[simp] theorem setAllocs_E_producers (v : List (Option Word)) : (s.setAllocs v).E.producers = s.E.producers := rfl
@[simp] theorem setAllocs_E_allocs (v : List (Option Word)) : (s.setAllocs v).E.allocs = v := rfl
@[simp] theorem setAllocs_E_handed (v : List (Option Word)) : (s.setAllocs v).E.handed = s.E.handed := rfl
@[simp] theorem setAllocs_E_sched (v : List (Option Word)) : (s.setAllocs v).E.sched = s.E.sched := rfl
@[simp] theorem setAllocs_E_drawn (v : List (Option Word)) : (s.setAllocs v).E.drawn = s.E.drawn := rfl
@[simp] theorem setAllocs_S (v : List (Option Word)) : (s.setAllocs v).S = s.S := rfl
@[simp] theorem setAllocs_P (v : List (Option Word)) : (s.setAllocs v).P = s.P := rfl
@[simp] theorem setAllocs_G (v : List (Option Word)) : (s.setAllocs v).G = s.G := rfl
@[simp] theorem setAllocs_M (v : List (Option Word)) : (s.setAllocs v).M = s.M := rfl
@[simp] theorem setAllocs_bus (v : List (Option Word)) : (s.setAllocs v).bus = s.bus := rfl
@[simp] theorem setAllocs_hist (v : List (Option Word)) : (s.setAllocs v).hist = s.hist := rfl
@[simp] theorem setAllocs_stream (v : List (Option Word)) : (s.setAllocs v).stream = s.stream := rfl
@[simp] theorem setAllocs_par (v : List (Option Word)) : (s.setAllocs v).par = s.par := rfl

/-! ## setProducers -/
@[simp] theorem setProducers_E_busClock (v : List Producer) : (s.setProducers v).E.busClock = s.E.busClock := rfl
@[simp] theorem setProducers_E_radioClkEn (v : List Producer) : (s.setProducers v).E.radioClkEn = s.E.radioClkEn := rfl
@[simp] theorem setProducers_E_device (v : List Producer) : (s.setProducers v).E.device = s.E.device := rfl
@[simp] theorem setProducers_E_producers (v : List Producer) : (s.setProducers v).E.producers = v := rfl
@[simp] theorem setProducers_E_allocs (v : List Producer) : (s.setProducers v).E.allocs = s.E.allocs := rfl
@[simp] theorem setProducers_E_handed (v : List Producer) : (s.setProducers v).E.handed = s.E.handed := rfl
@[simp] theorem setProducers_E_sched (v : List Producer) : (s.setProducers v).E.sched = s.E.sched := rfl
@[simp] theorem setProducers_E_drawn (v : List Producer) : (s.setProducers v).E.drawn = s.E.drawn := rfl
@[simp] theorem setProducers_S (v : List Producer) : (s.setProducers v).S = s.S := rfl
@[simp] theorem setProducers_P (v : List Producer) : (s.setProducers v).P = s.P := rfl
@[simp] theorem setProducers_G (v : List Producer) : (s.setProducers v).G = s.G := rfl
@[simp] theorem setProducers_M (v : List Producer) : (s.setProducers v).M = s.M := rfl
@[simp] theorem setProducers_bus (v : List Producer) : (s.setProducers v).bus = s.bus := rfl
@[simp] theorem setProducers_hist (v : List Producer) : (s.setProducers v).hist = s.hist := rfl
@[simp] theorem setProducers_stream (v : List Producer) : (s.setProducers v).stream = s.stream := rfl
@[simp] theorem setProducers_par (v : List Producer) : (s.setProducers v).par = s.par := rfl

/-! ## setHanded -/
@[simp] theorem setHanded_E_busClock (v : List Handover) : (s.setHanded v).E.busClock = s.E.busClock := rfl
@[simp] theorem setHanded_E_radioClkEn (v : List Handover) : (s.setHanded v).E.radioClkEn = s.E.radioClkEn := rfl
@[simp] theorem setHanded_E_device (v : List Handover) : (s.setHanded v).E.device = s.E.device := rfl
@[simp] theorem setHanded_E_producers (v : List Handover) : (s.setHanded v).E.producers = s.E.producers := rfl
@[simp] theorem setHanded_E_allocs (v : List Handover) : (s.setHanded v).E.allocs = s.E.allocs := rfl
@[simp] theorem setHanded_E_handed (v : List Handover) : (s.setHanded v).E.handed = v := rfl
@[simp] theorem setHanded_E_sched (v : List Handover) : (s.setHanded v).E.sched = s.E.sched := rfl
@[simp] theorem setHanded_E_drawn (v : List Handover) : (s.setHanded v).E.drawn = s.E.drawn := rfl
@[simp] theorem setHanded_S (v : List Handover) : (s.setHanded v).S = s.S := rfl
@[simp] theorem setHanded_P (v : List Handover) : (s.setHanded v).P = s.P := rfl
@[simp] theorem setHanded_G (v : List Handover) : (s.setHanded v).G = s.G := rfl
@[simp] theorem setHanded_M (v : List Handover) : (s.setHanded v).M = s.M := rfl
@[simp] theorem setHanded_bus (v : List Handover) : (s.setHanded v).bus = s.bus := rfl
@[simp] theorem setHanded_hist (v : List Handover) : (s.setHanded v).hist = s.hist := rfl
@[simp] theorem setHanded_stream (v : List Handover) : (s.setHanded v).stream = s.stream := rfl
@[simp] theorem setHanded_par (v : List Handover) : (s.setHanded v).par = s.par := rfl

/-! ## drew -/
@[simp] theorem drew_E_busClock : (s.drew).E.busClock = s.E.busClock := rfl
@[simp] theorem drew_E_radioClkEn : (s.drew).E.radioClkEn = s.E.radioClkEn := rfl
@[simp] theorem drew_E_device : (s.drew).E.device = s.E.device := rfl
@[simp] theorem drew_E_producers : (s.drew).E.producers = s.E.producers := rfl
@[simp] theorem drew_E_allocs : (s.drew).E.allocs = s.E.allocs := rfl
@[simp] theorem drew_E_handed : (s.drew).E.handed = s.E.handed := rfl
@[simp] theorem drew_E_sched : (s.drew).E.sched = s.E.sched := rfl
@[simp] theorem drew_E_drawn : (s.drew).E.drawn = s.E.drawn + 1 := rfl
@[simp] theorem drew_S : (s.drew).S = s.S := rfl
@[simp] theorem drew_P : (s.drew).P = s.P := rfl
@[simp] theorem drew_G : (s.drew).G = s.G := rfl
@[simp] theorem drew_M : (s.drew).M = s.M := rfl
@[simp] theorem drew_bus : (s.drew).bus = s.bus := rfl
@[simp] theorem drew_hist : (s.drew).hist = s.hist := rfl
@[simp] theorem drew_stream : (s.drew).stream = s.stream := rfl
@[simp] theorem drew_par : (s.drew).par = s.par := rfl

/-! ## emit -/
@[simp] theorem emit_hist (v : Event) : (s.emit v).hist = s.hist ++ [(s.S.pc, v)] := rfl
@[simp] theorem emit_S (v : Event) : (s.emit v).S = s.S := rfl
@[simp] theorem emit_P (v : Event) : (s.emit v).P = s.P := rfl
@[simp] theorem emit_G (v : Event) : (s.emit v).G = s.G := rfl
@[simp] theorem emit_E (v : Event) : (s.emit v).E = s.E := rfl
@[simp] theorem emit_M (v : Event) : (s.emit v).M = s.M := rfl
@[simp] theorem emit_bus (v : Event) : (s.emit v).bus = s.bus := rfl
@[simp] theorem emit_stream (v : Event) : (s.emit v).stream = s.stream := rfl
@[simp] theorem emit_par (v : Event) : (s.emit v).par = s.par := rfl

/-! ## pushBus -/
@[simp] theorem pushBus_bus (v : BusEvent) : (s.pushBus v).bus = s.bus ++ [v] := rfl
@[simp] theorem pushBus_S (v : BusEvent) : (s.pushBus v).S = s.S := rfl
@[simp] theorem pushBus_P (v : BusEvent) : (s.pushBus v).P = s.P := rfl
@[simp] theorem pushBus_G (v : BusEvent) : (s.pushBus v).G = s.G := rfl
@[simp] theorem pushBus_E (v : BusEvent) : (s.pushBus v).E = s.E := rfl
@[simp] theorem pushBus_M (v : BusEvent) : (s.pushBus v).M = s.M := rfl
@[simp] theorem pushBus_hist (v : BusEvent) : (s.pushBus v).hist = s.hist := rfl
@[simp] theorem pushBus_stream (v : BusEvent) : (s.pushBus v).stream = s.stream := rfl
@[simp] theorem pushBus_par (v : BusEvent) : (s.pushBus v).par = s.par := rfl

/-! ## setMem -/
@[simp] theorem setMem_M (v : Memory) : (s.setMem v).M = v := rfl
@[simp] theorem setMem_S (v : Memory) : (s.setMem v).S = s.S := rfl
@[simp] theorem setMem_P (v : Memory) : (s.setMem v).P = s.P := rfl
@[simp] theorem setMem_G (v : Memory) : (s.setMem v).G = s.G := rfl
@[simp] theorem setMem_E (v : Memory) : (s.setMem v).E = s.E := rfl
@[simp] theorem setMem_bus (v : Memory) : (s.setMem v).bus = s.bus := rfl
@[simp] theorem setMem_hist (v : Memory) : (s.setMem v).hist = s.hist := rfl
@[simp] theorem setMem_stream (v : Memory) : (s.setMem v).stream = s.stream := rfl
@[simp] theorem setMem_par (v : Memory) : (s.setMem v).par = s.par := rfl

/-! ## setPad -/
@[simp] theorem setPad_G (r : Role) (v : Pad) : (s.setPad r v).G = s.G.put r v := rfl
@[simp] theorem setPad_S (r : Role) (v : Pad) : (s.setPad r v).S = s.S := rfl
@[simp] theorem setPad_P (r : Role) (v : Pad) : (s.setPad r v).P = s.P := rfl
@[simp] theorem setPad_E (r : Role) (v : Pad) : (s.setPad r v).E = s.E := rfl
@[simp] theorem setPad_M (r : Role) (v : Pad) : (s.setPad r v).M = s.M := rfl
@[simp] theorem setPad_bus (r : Role) (v : Pad) : (s.setPad r v).bus = s.bus := rfl
@[simp] theorem setPad_hist (r : Role) (v : Pad) : (s.setPad r v).hist = s.hist := rfl
@[simp] theorem setPad_stream (r : Role) (v : Pad) : (s.setPad r v).stream = s.stream := rfl
@[simp] theorem setPad_par (r : Role) (v : Pad) : (s.setPad r v).par = s.par := rfl

/-! ## Scratch copies -/
@[simp] theorem scratch_setScratch_same (copy : Bool) (v : List Sample) :
    (s.setScratch copy v).P.scratch copy = v := by cases copy <;> rfl
@[simp] theorem scratch_setScratch_other (copy : Bool) (v : List Sample) :
    (s.setScratch copy v).P.scratch (!copy) = s.P.scratch (!copy) := by cases copy <;> rfl
@[simp] theorem setScratch_P_regs (copy : Bool) (v : List Sample) : (s.setScratch copy v).P.regs = s.P.regs := by
  cases copy <;> rfl
@[simp] theorem setScratch_P_modeRegs (copy : Bool) (v : List Sample) : (s.setScratch copy v).P.modeRegs = s.P.modeRegs := by
  cases copy <;> rfl
@[simp] theorem setScratch_P_gate (copy : Bool) (v : List Sample) : (s.setScratch copy v).P.gate = s.P.gate := by
  cases copy <;> rfl
@[simp] theorem setScratch_P_fifo (copy : Bool) (v : List Sample) : (s.setScratch copy v).P.fifo = s.P.fifo := by
  cases copy <;> rfl
@[simp] theorem setScratch_P_tx (copy : Bool) (v : List Sample) : (s.setScratch copy v).P.tx = s.P.tx := by
  cases copy <;> rfl
@[simp] theorem setScratch_P_dma (copy : Bool) (v : List Sample) : (s.setScratch copy v).P.dma = s.P.dma := by
  cases copy <;> rfl
@[simp] theorem setScratch_P_desc (copy : Bool) (v : List Sample) : (s.setScratch copy v).P.desc = s.P.desc := by
  cases copy <;> rfl
@[simp] theorem setScratch_S (copy : Bool) (v : List Sample) : (s.setScratch copy v).S = s.S := by
  cases copy <;> rfl
@[simp] theorem setScratch_G (copy : Bool) (v : List Sample) : (s.setScratch copy v).G = s.G := by
  cases copy <;> rfl
@[simp] theorem setScratch_E (copy : Bool) (v : List Sample) : (s.setScratch copy v).E = s.E := by
  cases copy <;> rfl
@[simp] theorem setScratch_M (copy : Bool) (v : List Sample) : (s.setScratch copy v).M = s.M := by
  cases copy <;> rfl
@[simp] theorem setScratch_bus (copy : Bool) (v : List Sample) : (s.setScratch copy v).bus = s.bus := by
  cases copy <;> rfl
@[simp] theorem setScratch_hist (copy : Bool) (v : List Sample) : (s.setScratch copy v).hist = s.hist := by
  cases copy <;> rfl
@[simp] theorem setScratch_stream (copy : Bool) (v : List Sample) : (s.setScratch copy v).stream = s.stream := by
  cases copy <;> rfl
@[simp] theorem setScratch_par (copy : Bool) (v : List Sample) : (s.setScratch copy v).par = s.par := by
  cases copy <;> rfl

/-! ## Pads -/
@[simp] theorem get_put_same (g : Pads) (r : Role) (p : Pad) : (g.put r p).get r = p := by
  cases r <;> simp [Pads.put, Pads.get]

theorem get_put_other (g : Pads) {r r' : Role} (p : Pad) (h : r' ≠ r) : (g.put r p).get r' = g.get r' := by
  cases r <;> cases r' <;> simp_all [Pads.put, Pads.get]
  rename_i i j
  exact Vector.getElem_set_ne _ _ (fun e => h (Fin.ext e.symm))

/-! ## Register images -/
@[simp] theorem put_src_src (r : Regs) (w : Width) : (r.put (.src w)).src = w := rfl
@[simp] theorem put_fconf_fconf (r : Regs) (f : FconfImage) : (r.put (.fconf f)).fconf = f := rfl
@[simp] theorem put_clkm_clkm (r : Regs) (c : ClkmImage) : (r.put (.clkm c)).clkm = c := rfl
@[simp] theorem put_outlink_outlink (r : Regs) (o : OutlinkImage) : (r.put (.outlink o)).outlink = o := rfl
@[simp] theorem put_intEna_intEna (r : Regs) (v : Word) : (r.put (.intEna v)).intEna = v := rfl

end Sys2Proof.Machine
end

