-- ==== Sys2Proof/Laws/Act.lean ====
section
/-!
SUPPORT. Sequences of micro-operations.
* `Runs P m Q E`: from every state with P, m ends with Q if it runs to its end, and with E if it stops.  One rule per way
  of building a sequence.
* `Reaches s t`: the other agents' moves lead from s to t.
* `await_cases`, `micro_cases`: everything a micro-operation can do, once.
* `await_calm`, `micro_calm`: while nothing is transmitted and no load is held, the other agents change nothing a
  micro-operation of a transaction depends on.
-/

namespace Sys2Proof.Machine

variable {α β : Type}

/-! ## Running a sequence -/

@[simp] theorem Act_pure_run (a : α) (s : State) : (pure a : Act α) s = .ok a s := rfl

@[simp] theorem Act_get_run (s : State) : (get : Act State) s = .ok s s := rfl

@[simp] theorem update_run (f : State → State) (s : State) : update f s = .ok () (f s) := rfl

theorem Act_bind_run (m : Act α) (f : α → Act β) (s : State) :
    (m >>= f) s = match m s with
      | .ok a t => f a t
      | .error e t => .error e t := by
  show EStateM.bind m f s = _
  unfold EStateM.bind
  cases m s <;> rfl

@[simp] theorem perform_done {op : State → Effect α} {s t : State} {a : α} (h : op s = .done a t) :
    perform op s = .ok a t := by simp [perform, h]

@[simp] theorem perform_raise {op : State → Effect α} {s : State} {c : FaultCode} (h : op s = .raise c) :
    perform op s = .error .faulted (s.takeFault c) := by simp [perform, h]

theorem Act_bind_ok {m : Act α} {f : α → Act β} {s t : State} {a : α} (h : m s = .ok a t) : (m >>= f) s = f a t := by
  simp [Act_bind_run, h]

theorem Act_bind_error {m : Act α} {f : α → Act β} {s t : State} {e : Stop} (h : m s = .error e t) :
    (m >>= f) s = .error e t := by
  simp [Act_bind_run, h]

theorem check_true {c : State → Bool} {f : FaultCode} {s : State} (h : c s = true) : check c f s = .ok () s := by
  simp [check, h]

theorem check_false {c : State → Bool} {f : FaultCode} {s : State} (h : c s = false) :
    check c f s = .error .faulted (s.takeFault f) := by
  simp [check, h]

/-- A command answers the state its sequence ends or stops in. -/
theorem command_next (o : Opcode) (c : Act Unit) (s : State) :
    (∃ t, c s = .ok () t ∧ command o c s = .next (t.advance o.row.len)) ∨
      ∃ e t, c s = .error e t ∧ command o c s = .next t := by
  unfold command
  cases h : c s with
  | ok a t => exact .inl ⟨t, rfl, rfl⟩
  | error e t => exact .inr ⟨e, t, rfl, rfl⟩

theorem command_is_next (o : Opcode) (c : Act Unit) (s : State) : ∃ t, command o c s = .next t := by
  rcases command_next o c s with ⟨t, -, h⟩ | ⟨e, t, -, h⟩
  · exact ⟨_, h⟩
  · exact ⟨_, h⟩

/-- A command's first check: it goes on, or takes the fault and nothing else. -/
theorem command_check (o : Opcode) (c : State → Bool) (f : FaultCode) (m : Unit → Act Unit) (s : State) :
    command o (check c f >>= m) s = if c s = true then command o (m ()) s else .next (s.takeFault f) := by
  unfold command
  rw [Act_bind_run]
  cases hc : c s with
  | true => rw [check_true hc]; rfl
  | false => rw [check_false hc]; rfl

theorem command_check_last (o : Opcode) (c : State → Bool) (f : FaultCode) (s : State) :
    command o (check c f) s = if c s = true then .next (s.advance o.row.len) else .next (s.takeFault f) := by
  unfold command
  cases hc : c s with
  | true => rw [check_true hc]; rfl
  | false => rw [check_false hc]; rfl

theorem command_update (o : Opcode) (f : State → State) (s : State) :
    command o (update f) s = .next ((f s).advance o.row.len) := rfl

theorem command_pure (o : Opcode) (s : State) : command o (pure ()) s = .next (s.advance o.row.len) := rfl

/-- The checks of a write command are three checks in order (R185). -/
theorem writeChecks_bind (m : Unit → Act Unit) : (writeChecks >>= m) =
    (needInitialised >>= fun _ => needTxn >>= fun _ => needNotReading >>= m) := by
  simp only [writeChecks, bind_assoc]

theorem readChecks_bind (m : Unit → Act Unit) : (readChecks >>= m) =
    (needInitialised >>= fun _ => needTxn >>= fun _ => needReading >>= m) := by
  simp only [readChecks, bind_assoc]

theorem producerChecks_bind (p : Nat) (m : Unit → Act Unit) : (producerChecks p >>= m) =
    (needOperand (fun s => (s.E.producer p).isSome) >>= fun _ =>
      needOperand (fun s => s.E.bpp p == 2 || s.E.bpp p == 3) >>= m) := by
  simp only [producerChecks, bind_assoc]

/-- No command ends in a host fault or a refusal. -/
theorem exec_next (i : Instr) (s : State) : ∃ t, exec i s = .next t := by
  cases i with
  | release => exact command_is_next .release (pure ()) s
  | _ => exact command_is_next _ _ s

/-! ## Partial correctness of a sequence -/

/-- From a state with `P`, `m` ends in a state with `Q` or stops in one with `E`. -/
def Runs (P : State → Prop) (m : Act α) (Q : α → State → Prop) (E : State → Prop) : Prop :=
  ∀ s, P s → match m s with
    | .ok a t => Q a t
    | .error _ t => E t

theorem Runs_pure {Q : α → State → Prop} {E : State → Prop} (a : α) : Runs (Q a) (pure a : Act α) Q E := fun _ h => h

theorem Runs_get {Q : State → State → Prop} {E : State → Prop} : Runs (fun s => Q s s) (get : Act State) Q E :=
  fun _ h => h

theorem Runs_update {Q : Unit → State → Prop} {E : State → Prop} (f : State → State) :
    Runs (fun s => Q () (f s)) (update f) Q E := fun _ h => h

theorem Runs_bind {P : State → Prop} {R : α → State → Prop} {Q : β → State → Prop} {E : State → Prop} {m : Act α}
    {f : α → Act β} (hm : Runs P m R E) (hf : ∀ a, Runs (R a) (f a) Q E) : Runs P (m >>= f) Q E := by
  intro s hs
  have h := hm s hs
  rw [Act_bind_run]
  cases hr : m s with
  | ok a t => simp only [hr] at h; exact hf a t h
  | error e t => simpa only [hr] using h

theorem Runs_weaken {P P' : State → Prop} {Q Q' : α → State → Prop} {E E' : State → Prop} {m : Act α}
    (h : Runs P m Q E) (hP : ∀ s, P' s → P s) (hQ : ∀ a s, Q a s → Q' a s) (hE : ∀ s, E s → E' s) : Runs P' m Q' E' := by
  intro s hs
  have h := h s (hP s hs)
  cases hr : m s with
  | ok a t => simp only [hr] at h ⊢; exact hQ a t h
  | error e t => simp only [hr] at h ⊢; exact hE t h

theorem Runs_check {P Q : State → Prop} {E : State → Prop} {c : State → Bool} {f : FaultCode}
    (hQ : ∀ s, P s → c s = true → Q s) (hE : ∀ s, P s → c s = false → E (s.takeFault f)) :
    Runs P (check c f) (fun _ s => Q s) E := by
  intro s hs
  cases hc : c s with
  | true => rw [check_true hc]; exact hQ s hs hc
  | false => rw [check_false hc]; exact hE s hs hc

theorem Runs_forEach {I : State → Prop} {E : State → Prop} {f : α → Act Unit} {as : List α}
    (h : ∀ a ∈ as, Runs I (f a) (fun _ => I) E) : Runs I (forEach f as) (fun _ => I) E := by
  induction as with
  | nil => exact fun _ hs => hs
  | cons a as ih =>
    exact Runs_bind (h a (by simp)) fun _ => ih fun b hb => h b (by simp [hb])

/-! ## The other agents' moves -/

/-- The moves of the agents other than the sequencer, none of them into a fault, and the consumption of the interleaving,
lead from `s` to `t`. -/
inductive Reaches (s : State) : State → Prop where
  | here : Reaches s s
  | took {t : State} (h : Reaches s t) (ms : List Move) : Reaches s (t.setSched ms)
  | moved {t : State} (h : Reaches s t) (m : Move) (hf : (t.moved m).S.fault = none) : Reaches s (t.moved m)

theorem Reaches_trans {s t u : State} (h : Reaches s t) (k : Reaches t u) : Reaches s u := by
  induction k with
  | here => exact h
  | took _ ms ih => exact .took ih ms
  | moved _ m hf ih => exact .moved ih m hf

/-- A peripheral step is a move of the transmitter or of the DMA engine. -/
theorem hwStep_moved {s t : State} (h : hwStep s = some t) : ∃ m, t = s.moved m := by
  unfold hwStep at h
  cases hx : txStep s with
  | some u => simp only [hx, Option.some.injEq] at h; exact ⟨.tx, by simp [State.moved, hx, h]⟩
  | none => simp only [hx] at h; exact ⟨.dma, by simp [State.moved, h]⟩

/-- What keeps a property through every move keeps it through the agents' moves. -/
theorem Reaches_keeps {I : State → Prop} (hm : ∀ s m, I s → I (s.moved m)) (hs : ∀ s ms, I s → I (s.setSched ms))
    {s t : State} (h : Reaches s t) (hI : I s) : I t := by
  induction h with
  | here => exact hI
  | took _ ms ih => exact hs _ ms ih
  | moved _ m _ ih => exact hm _ m ih

/-- Everything waiting with no move listed can do. -/
theorem settle_cases (blocked : State → Option Hold) (n : Nat) (s : State) :
    (∃ t, settle blocked n s = .ok () t ∧ Reaches s t ∧ blocked t = none) ∨
    (∃ t m, settle blocked n s = .error .faulted (t.moved m) ∧ Reaches s t ∧ (t.moved m).S.fault ≠ none) ∨
    ∃ t h, settle blocked n s = .error .held (t.setHold h) ∧ Reaches s t ∧ blocked t = some h := by
  induction n generalizing s with
  | zero =>
    cases hb : blocked s with
    | none => exact .inl ⟨s, by simp [settle, hb], .here, hb⟩
    | some h => exact .inr (.inr ⟨s, h, by simp [settle, hb], .here, hb⟩)
  | succ n ih =>
    cases hb : blocked s with
    | none => exact .inl ⟨s, by simp [settle, hb], .here, hb⟩
    | some h =>
      by_cases hp : s.par.hwProgress = true
      · cases hw : hwStep s with
        | none => exact .inr (.inr ⟨s, h, by simp [settle, hb, hp, hw], .here, hb⟩)
        | some u =>
          obtain ⟨m, rfl⟩ := hwStep_moved hw
          by_cases hf : (s.moved m).S.fault = none
          · have e : settle blocked (n + 1) s = settle blocked n (s.moved m) := by simp [settle, hb, hp, hw, hf]
            have r : Reaches s (s.moved m) := .moved .here m hf
            rw [e]
            rcases ih (s.moved m) with ⟨t, h1, h2, h3⟩ | ⟨t, m', h1, h2, h3⟩ | ⟨t, h', h1, h2, h3⟩
            · exact .inl ⟨t, h1, Reaches_trans r h2, h3⟩
            · exact .inr (.inl ⟨t, m', h1, Reaches_trans r h2, h3⟩)
            · exact .inr (.inr ⟨t, h', h1, Reaches_trans r h2, h3⟩)
          · have hf' : (s.moved m).S.fault.isSome = true := Option.isSome_iff_ne_none.mpr hf
            exact .inr (.inl ⟨s, m, by simp [settle, hb, hp, hw, hf'], .here, hf⟩)
      · exact .inr (.inr ⟨s, h, by simp [settle, hb, hp], .here, hb⟩)

/-- Everything awaiting a micro-operation's turn can do: the turn comes in a state where nothing blocks it; an agent takes
a fault; or it is held. -/
theorem await_cases (blocked : State → Option Hold) (ms : List Move) (s : State) :
    (∃ t, await blocked ms s = .ok () t ∧ Reaches s t ∧ blocked t = none) ∨
    (∃ t m, await blocked ms s = .error .faulted (t.moved m) ∧ Reaches s t ∧ (t.moved m).S.fault ≠ none) ∨
    ∃ t h, await blocked ms s = .error .held (t.setHold h) ∧ Reaches s t ∧ blocked t = some h := by
  induction ms generalizing s with
  | nil => exact settle_cases blocked (hwFuel s) s
  | cons m ms ih =>
    have r0 : Reaches s (s.setSched ms) := .took .here ms
    by_cases hm : m = .seq
    · cases hb : blocked (s.setSched ms) with
      | none => exact .inl ⟨s.setSched ms, by simp [await, hm, hb], r0, hb⟩
      | some h =>
        have e : await blocked (m :: ms) s = await blocked ms (s.setSched ms) := by simp [await, hm, hb]
        rw [e]
        rcases ih (s.setSched ms) with ⟨t, h1, h2, h3⟩ | ⟨t, m', h1, h2, h3⟩ | ⟨t, h', h1, h2, h3⟩
        · exact .inl ⟨t, h1, Reaches_trans r0 h2, h3⟩
        · exact .inr (.inl ⟨t, m', h1, Reaches_trans r0 h2, h3⟩)
        · exact .inr (.inr ⟨t, h', h1, Reaches_trans r0 h2, h3⟩)
    · by_cases hf : ((s.setSched ms).moved m).S.fault = none
      · have r : Reaches s ((s.setSched ms).moved m) := .moved r0 m hf
        have e : await blocked (m :: ms) s = await blocked ms ((s.setSched ms).moved m) := by simp [await, hm, hf]
        rw [e]
        rcases ih ((s.setSched ms).moved m) with ⟨t, h1, h2, h3⟩ | ⟨t, m', h1, h2, h3⟩ | ⟨t, h', h1, h2, h3⟩
        · exact .inl ⟨t, h1, Reaches_trans r h2, h3⟩
        · exact .inr (.inl ⟨t, m', h1, Reaches_trans r h2, h3⟩)
        · exact .inr (.inr ⟨t, h', h1, Reaches_trans r h2, h3⟩)
      · have hf' : ((s.setSched ms).moved m).S.fault.isSome = true := Option.isSome_iff_ne_none.mpr hf
        exact .inr (.inl ⟨s.setSched ms, m, by simp [await, hm, hf'], r0, hf⟩)

/-- Everything a micro-operation can do. -/
theorem micro_cases (blocked : State → Option Hold) (op : State → Effect α) (s : State) :
    (∃ t a u, micro blocked op s = .ok a u ∧ Reaches s t ∧ blocked t = none ∧ op t = .done a u) ∨
    (∃ t c, micro blocked op s = .error .faulted (t.takeFault c) ∧ Reaches s t ∧ blocked t = none ∧ op t = .raise c) ∨
    (∃ t m, micro blocked op s = .error .faulted (t.moved m) ∧ Reaches s t ∧ (t.moved m).S.fault ≠ none) ∨
    ∃ t h, micro blocked op s = .error .held (t.setHold h) ∧ Reaches s t ∧ blocked t = some h := by
  rcases await_cases blocked s.E.sched s with ⟨t, h1, h2, h3⟩ | ⟨t, m, h1, h2, h3⟩ | ⟨t, h', h1, h2, h3⟩
  · cases ho : op t with
    | raise c => exact .inr (.inl ⟨t, c, by simp [micro, h1, perform, ho], h2, h3, ho⟩)
    | done a u => exact .inl ⟨t, a, u, by simp [micro, h1, perform, ho], h2, h3, ho⟩
  · exact .inr (.inr (.inl ⟨t, m, by simp [micro, h1], h2, h3⟩))
  · exact .inr (.inr (.inr ⟨t, h', by simp [micro, h1], h2, h3⟩))

/-- A micro-operation keeps a property that every move, a fault, a hold and its own effect keep. -/
theorem micro_keeps {I : State → Prop} (hm : ∀ s m, I s → I (s.moved m)) (hs : ∀ s ms, I s → I (s.setSched ms))
    (hf : ∀ s c, I s → I (s.takeFault c)) (hh : ∀ s h, I s → I (s.setHold h)) {blocked : State → Option Hold}
    {op : State → Effect α} (ho : ∀ s a t, I s → op s = .done a t → I t) :
    Runs I (micro blocked op) (fun _ => I) I := by
  intro s hI
  rcases micro_cases blocked op s with ⟨t, a, u, e, r, -, o⟩ | ⟨t, c, e, r, -, -⟩ | ⟨t, m, e, r, -⟩ | ⟨t, h, e, r, -⟩
  · rw [e]; exact ho t a u (Reaches_keeps hm hs r hI) o
  · rw [e]; exact hf t c (Reaches_keeps hm hs r hI)
  · rw [e]; exact hm t m (Reaches_keeps hm hs r hI)
  · rw [e]; exact hh t h (Reaches_keeps hm hs r hI)

/-! ## Calm: nothing is transmitted, no load is held, and nobody overwrites `CLKM` -/

theorem passed_self (s : State) : passed s s.E.sched s.E.radioClkEn = s := rfl

theorem passed_passed (s : State) (ms ms' : List Move) (r r' : Word) :
    passed (passed s ms r) ms' r' = passed s ms' r' := rfl

/-- In a calm state a move changes at most the radio. -/
theorem moved_calm {s : State} {m : Move} {ms : List Move} (h : Calm s) (hs : s.E.sched = m :: ms) :
    ∃ r, (s.setSched ms).moved m = passed s ms r := by
  obtain ⟨-, htx, hd, hc⟩ := h
  cases m with
  | seq => exact ⟨s.E.radioClkEn, rfl⟩
  | tx => exact ⟨s.E.radioClkEn, by simp [State.moved, txStep, htx, passed]; rfl⟩
  | dma => exact ⟨s.E.radioClkEn, by simp [State.moved, dmaStep, hd, passed]; rfl⟩
  | radio v => exact ⟨v, rfl⟩
  | clkm v =>
    rcases hc with hc | hc
    · exact ⟨s.E.radioClkEn, by simp [State.moved, hc]; rfl⟩
    · exact absurd (by simp [hs]) (hc v)

theorem Calm_passed {s : State} {ms : List Move} (h : Calm s) (hs : ms <:+ s.E.sched) (r : Word) :
    Calm (passed s ms r) := by
  refine ⟨h.1, h.2.1, h.2.2.1, h.2.2.2.imp_right fun hc v hv => hc v (hs.subset hv)⟩

/-- Awaiting a turn in a calm state, for a micro-operation that nothing blocks whatever the radio. -/
theorem await_calm {blocked : State → Option Hold} {s : State} (h : Calm s)
    (hb : ∀ ms r, blocked (passed s ms r) = none) :
    ∃ ms r, ms <:+ s.E.sched ∧ await blocked s.E.sched s = .ok () (passed s ms r) := by
  generalize hq : s.E.sched = q
  induction q generalizing s with
  | nil =>
    refine ⟨[], s.E.radioClkEn, List.suffix_refl _, ?_⟩
    have e : passed s [] s.E.radioClkEn = s := by rw [← hq]; rfl
    have hb0 := hb [] s.E.radioClkEn
    rw [e] at hb0 ⊢
    simp [await, hwFuel, settle, hb0]
  | cons m ms ih =>
    by_cases hm : m = .seq
    · exact ⟨ms, s.E.radioClkEn, List.suffix_cons _ _, by
        have := hb ms s.E.radioClkEn
        simp only [passed] at this
        have e : (s.setSched ms).setRadio s.E.radioClkEn = s.setSched ms := rfl
        rw [e] at this
        simp [await, hm, this, passed, e]⟩
    · obtain ⟨r, hr⟩ := moved_calm h hq
      have hc : Calm (passed s ms r) := Calm_passed h (by rw [hq]; exact List.suffix_cons _ _) r
      obtain ⟨ms', r', h1, h2⟩ := ih (s := passed s ms r) hc (fun a b => hb a b) rfl
      refine ⟨ms', r', h1.trans (List.suffix_cons _ _), ?_⟩
      have hf : (passed s ms r).S.fault = none := h.1
      simp only [await, hm, if_false, hr, hf, Option.isSome_none, Bool.false_eq_true]
      exact h2

/-- A micro-operation in a calm state is performed, after the interleaving is consumed to some suffix. -/
theorem micro_calm {blocked : State → Option Hold} {op : State → Effect α} {s : State} (h : Calm s)
    (hb : ∀ ms r, blocked (passed s ms r) = none) :
    ∃ ms r, ms <:+ s.E.sched ∧ micro blocked op s = perform op (passed s ms r) := by
  obtain ⟨ms, r, hs, e⟩ := await_calm h hb
  exact ⟨ms, r, hs, by simp only [micro, e]⟩

end Sys2Proof.Machine
end

