-- ==== Sys2Proof/Laws/Moves.lean ====
section
/-!
SUPPORT. Everything one move of another agent can do: the transmitter's four steps, the DMA engine's step, and what no
move changes.
-/

namespace Sys2Proof.Machine

/-! ## Bus cycles -/

@[simp] theorem cycle_S (s : State) (h : Sample) : (s.cycle h).S = s.S := by unfold State.cycle; split <;> rfl
@[simp] theorem cycle_P (s : State) (h : Sample) : (s.cycle h).P = s.P := by unfold State.cycle; split <;> rfl
@[simp] theorem cycle_G (s : State) (h : Sample) : (s.cycle h).G = s.G := by unfold State.cycle; split <;> rfl
@[simp] theorem cycle_M (s : State) (h : Sample) : (s.cycle h).M = s.M := by unfold State.cycle; split <;> rfl
@[simp] theorem cycle_hist (s : State) (h : Sample) : (s.cycle h).hist = s.hist := by unfold State.cycle; split <;> rfl
@[simp] theorem cycle_stream (s : State) (h : Sample) : (s.cycle h).stream = s.stream := by
  unfold State.cycle; split <;> rfl
@[simp] theorem cycle_par (s : State) (h : Sample) : (s.cycle h).par = s.par := by unfold State.cycle; split <;> rfl
theorem cycle_E (s : State) (h : Sample) : (s.cycle h).E = { s.E with device := (s.cycle h).E.device } := by
  unfold State.cycle; split <;> rfl
theorem cycle_script (s : State) (h : Sample) : (s.cycle h).E.device.script = s.E.device.script := by
  unfold State.cycle
  split
  · unfold cycleOf Device.onCycle
    cases h.getLsbD 8 <;> rfl
  · rfl
theorem cycle_bus (s : State) (h : Sample) : (s.cycle h).bus = s.bus ++ if s.G.writeRouting then [cycleOf h] else [] := by
  unfold State.cycle; split <;> simp_all

@[simp] theorem cycles_S (s : State) (hs : List Sample) : (s.cycles hs).S = s.S := by
  induction hs generalizing s with
  | nil => rfl
  | cons h hs ih => simp [State.cycles, ih]
@[simp] theorem cycles_P (s : State) (hs : List Sample) : (s.cycles hs).P = s.P := by
  induction hs generalizing s with
  | nil => rfl
  | cons h hs ih => simp [State.cycles, ih]
@[simp] theorem cycles_G (s : State) (hs : List Sample) : (s.cycles hs).G = s.G := by
  induction hs generalizing s with
  | nil => rfl
  | cons h hs ih => simp [State.cycles, ih]
@[simp] theorem cycles_M (s : State) (hs : List Sample) : (s.cycles hs).M = s.M := by
  induction hs generalizing s with
  | nil => rfl
  | cons h hs ih => simp [State.cycles, ih]
@[simp] theorem cycles_hist (s : State) (hs : List Sample) : (s.cycles hs).hist = s.hist := by
  induction hs generalizing s with
  | nil => rfl
  | cons h hs ih => simp [State.cycles, ih]
@[simp] theorem cycles_stream (s : State) (hs : List Sample) : (s.cycles hs).stream = s.stream := by
  induction hs generalizing s with
  | nil => rfl
  | cons h hs ih => simp [State.cycles, ih]
@[simp] theorem cycles_par (s : State) (hs : List Sample) : (s.cycles hs).par = s.par := by
  induction hs generalizing s with
  | nil => rfl
  | cons h hs ih => simp [State.cycles, ih]
theorem cycles_E (s : State) (hs : List Sample) : (s.cycles hs).E = { s.E with device := (s.cycles hs).E.device } := by
  induction hs generalizing s with
  | nil => rfl
  | cons h hs ih =>
    show ((s.cycle h).cycles hs).E = { s.E with device := ((s.cycle h).cycles hs).E.device }
    rw [ih (s.cycle h), cycle_E s h]
theorem cycles_script (s : State) (hs : List Sample) : (s.cycles hs).E.device.script = s.E.device.script := by
  induction hs generalizing s with
  | nil => rfl
  | cons h hs ih => simp [State.cycles, ih, cycle_script]

/-- In write routing each sample puts its cycle on the bus (R90). -/
theorem cycles_bus {s : State} (hw : s.G.writeRouting = true) (hs : List Sample) :
    (s.cycles hs).bus = s.bus ++ hs.map cycleOf := by
  induction hs generalizing s with
  | nil => simp [State.cycles]
  | cons h hs ih => simp [State.cycles, ih (s := s.cycle h) (by simpa using hw), cycle_bus, hw]

theorem cycles_bus_off {s : State} (hw : s.G.writeRouting = false) (hs : List Sample) : (s.cycles hs).bus = s.bus := by
  induction hs generalizing s with
  | nil => simp [State.cycles]
  | cons h hs ih => simp [State.cycles, ih (s := s.cycle h) (by simpa using hw), cycle_bus, hw]

theorem cycles_bus_grows (s : State) (hs : List Sample) : s.bus <+: (s.cycles hs).bus := by
  cases hw : s.G.writeRouting with
  | true => rw [cycles_bus hw]; exact List.prefix_append _ _
  | false => rw [cycles_bus_off hw]

/-! ## The transmitter and the DMA engine -/

/-- Nothing is left to send (R91). -/
def State.drained (s : State) : Prop :=
  s.P.regs.fconf.dscrEn = false ∧ s.P.fifo = [] ∨
    s.P.regs.fconf.dscrEn = true ∧ (s.P.dma.latched = true ∧ s.P.dma.stream = [] ∨
      s.P.dma.latched = false ∧ s.P.dma.loaded = false)

/-- Everything the transmitter's step can do (R87 to R91). -/
theorem txStep_cases {s t : State} (h : txStep s = some t) :
    (s.P.tx.latchPending = true ∧ t = s.setTx { s.P.tx with latchPending := false }) ∨
    (s.P.tx.latchPending = false ∧ s.P.tx.running = true ∧
      ((s.P.regs.fconf.dscrEn = false ∧
          ∃ w ws, s.P.fifo = w :: ws ∧ t = (s.setFifo ws).cycles (samplesOf s.P.regs.src w)) ∨
        (s.P.regs.fconf.dscrEn = true ∧ s.P.dma.latched = true ∧ ∃ x xs, s.P.dma.stream = x :: xs ∧
          (s.radioOn = true ∧ t = s.takeFault .radioDma ∨
            s.radioOn = false ∧ t = (s.setDma { s.P.dma with stream := xs }).cycle x)) ∨
        (s.drained ∧ t = s.finish))) := by
  unfold txStep at h
  cases hp : s.P.tx.latchPending
  · cases hr : s.P.tx.running
    · simp [hp, hr] at h
    · right
      refine ⟨rfl, rfl, ?_⟩
      cases hd : s.P.regs.fconf.dscrEn
      · cases hf : s.P.fifo with
        | nil => simp [hp, hr, hd, hf] at h; exact .inr (.inr ⟨.inl ⟨hd, hf⟩, h.symm⟩)
        | cons w ws => simp [hp, hr, hd, hf] at h; exact .inl ⟨rfl, w, ws, rfl, h.symm⟩
      · cases hl : s.P.dma.latched
        · cases ho : s.P.dma.loaded
          · simp [hp, hr, hd, hl, ho] at h; exact .inr (.inr ⟨.inr ⟨hd, .inr ⟨hl, ho⟩⟩, h.symm⟩)
          · simp [hp, hr, hd, hl, ho] at h
        · cases hq : s.P.dma.stream with
          | nil => simp [hp, hr, hd, hl, hq] at h; exact .inr (.inr ⟨.inr ⟨hd, .inl ⟨hl, hq⟩⟩, h.symm⟩)
          | cons x xs =>
            refine .inr (.inl ⟨rfl, rfl, x, xs, rfl, ?_⟩)
            simp only [hp, hr, hd, hl, hq, if_true, Bool.false_eq_true, if_false, Option.some.injEq] at h
            cases ho : s.radioOn <;> simp only [ho, Bool.false_eq_true, if_false, if_true] at h
            · exact .inr ⟨rfl, by simp [← h, hl]⟩
            · exact .inl ⟨rfl, h.symm⟩
  · simp [hp] at h; exact .inl ⟨rfl, h.symm⟩

/-- Everything the DMA engine's step can do (R97). -/
theorem dmaStep_cases {s t : State} (h : dmaStep s = some t) :
    s.P.dma.loaded = true ∧ s.P.dma.latched = false ∧ s.P.regs.fconf.dscrEn = true ∧
      (s.radioOn = true ∧ t = s.takeFault .radioDma ∨
        s.radioOn = false ∧ t = s.setDma { s.P.dma with
          latched := true, stream := (s.P.scratch s.P.dma.buf).take (s.P.desc.length / 2) }) := by
  unfold dmaStep at h
  split at h
  · rename_i hc
    simp only [Bool.and_eq_true, Bool.not_eq_true'] at hc
    refine ⟨hc.1.1, hc.1.2, hc.2, ?_⟩
    cases ho : s.radioOn <;> simp [ho] at h <;> simp [h]
  · simp at h

@[simp] theorem finish_S (s : State) : s.finish.S = s.S := by unfold State.finish; dsimp only; split <;> rfl
@[simp] theorem finish_G (s : State) : s.finish.G = s.G := by unfold State.finish; dsimp only; split <;> rfl
@[simp] theorem finish_E (s : State) : s.finish.E = s.E := by unfold State.finish; dsimp only; split <;> rfl
@[simp] theorem finish_M (s : State) : s.finish.M = s.M := by unfold State.finish; dsimp only; split <;> rfl
@[simp] theorem finish_bus (s : State) : s.finish.bus = s.bus := by unfold State.finish; dsimp only; split <;> rfl
@[simp] theorem finish_hist (s : State) : s.finish.hist = s.hist := by unfold State.finish; dsimp only; split <;> rfl
@[simp] theorem finish_stream (s : State) : s.finish.stream = s.stream := by unfold State.finish; dsimp only; split <;> rfl
@[simp] theorem finish_par (s : State) : s.finish.par = s.par := by unfold State.finish; dsimp only; split <;> rfl
@[simp] theorem finish_tx (s : State) : s.finish.P.tx = { s.P.tx with running := false } := by
  unfold State.finish; dsimp only; split <;> rfl
@[simp] theorem finish_regs (s : State) : s.finish.P.regs = s.P.regs := by unfold State.finish; dsimp only; split <;> rfl
@[simp] theorem finish_fifo (s : State) : s.finish.P.fifo = s.P.fifo := by unfold State.finish; dsimp only; split <;> rfl
@[simp] theorem finish_gate (s : State) : s.finish.P.gate = s.P.gate := by unfold State.finish; dsimp only; split <;> rfl
@[simp] theorem finish_modeRegs (s : State) : s.finish.P.modeRegs = s.P.modeRegs := by
  unfold State.finish; dsimp only; split <;> rfl
@[simp] theorem finish_scratch0 (s : State) : s.finish.P.scratch0 = s.P.scratch0 := by
  unfold State.finish; dsimp only; split <;> rfl
@[simp] theorem finish_scratch1 (s : State) : s.finish.P.scratch1 = s.P.scratch1 := by
  unfold State.finish; dsimp only; split <;> rfl
theorem finish_dma (s : State) : s.finish.P.dma =
    if s.P.regs.fconf.dscrEn then { s.P.dma with loaded := false, latched := false } else s.P.dma := by
  unfold State.finish; dsimp only; split <;> rfl
theorem finish_desc (s : State) : s.finish.P.desc =
    if s.P.regs.fconf.dscrEn then { s.P.desc with owner := false } else s.P.desc := by
  unfold State.finish; dsimp only; split <;> rfl

/-! ## What no move changes -/

/-- `t` differs from `s` only in what other agents' moves can change. -/
structure Beside (s t : State) : Prop where
  S : t.S = { s.S with fault := t.S.fault }
  G : t.G = s.G
  M : t.M = s.M
  hist : t.hist = s.hist
  stream : t.stream = s.stream
  par : t.par = s.par
  regs : t.P.regs = { s.P.regs with clkm := t.P.regs.clkm }
  clkm : s.S.txn = true → t.P.regs.clkm = s.P.regs.clkm
  gate : t.P.gate = s.P.gate
  modeRegs : t.P.modeRegs = s.P.modeRegs
  scratch0 : t.P.scratch0 = s.P.scratch0
  scratch1 : t.P.scratch1 = s.P.scratch1
  desc : t.P.desc = { s.P.desc with owner := t.P.desc.owner }
  fifo : t.P.fifo <:+ s.P.fifo
  env : t.E = { s.E with radioClkEn := t.E.radioClkEn, device := t.E.device, sched := t.E.sched }
  script : t.E.device.script = s.E.device.script
  bus : s.bus <+: t.bus

theorem Beside.refl (s : State) : Beside s s := by
  constructor <;> first | rfl | exact fun _ => rfl

theorem Beside.trans {s t u : State} (h : Beside s t) (k : Beside t u) : Beside s u where
  S := by rw [k.S, h.S]
  G := k.G.trans h.G
  M := k.M.trans h.M
  hist := k.hist.trans h.hist
  stream := k.stream.trans h.stream
  par := k.par.trans h.par
  regs := by rw [k.regs, h.regs]
  clkm := fun ht => (k.clkm (by rw [h.S]; exact ht)).trans (h.clkm ht)
  gate := k.gate.trans h.gate
  modeRegs := k.modeRegs.trans h.modeRegs
  scratch0 := k.scratch0.trans h.scratch0
  scratch1 := k.scratch1.trans h.scratch1
  desc := by rw [k.desc, h.desc]
  fifo := k.fifo.trans h.fifo
  env := by rw [k.env, h.env]
  script := k.script.trans h.script
  bus := h.bus.trans k.bus

theorem setSched_beside (s : State) (ms : List Move) : Beside s (s.setSched ms) := by
  constructor <;> first | rfl | exact fun _ => rfl

theorem takeFault_beside (s : State) (c : FaultCode) : Beside s (s.takeFault c) := by
  constructor <;> first | rfl | exact fun _ => rfl

theorem txStep_beside {s t : State} (h : txStep s = some t) : Beside s t := by
  rcases txStep_cases h with ⟨-, rfl⟩ | ⟨-, -, ⟨-, w, ws, hf, rfl⟩ | ⟨-, -, x, xs, -, ⟨-, rfl⟩ | ⟨-, rfl⟩⟩ | ⟨-, rfl⟩⟩
  · constructor <;> first | rfl | exact fun _ => rfl
  · constructor
    case fifo => simp [hf]
    case env => rw [cycles_E]; rfl
    case script => simp [cycles_script]
    case bus => exact cycles_bus_grows (s.setFifo ws) _
    all_goals simp
  · exact takeFault_beside s _
  · constructor
    case env => rw [cycle_E]; rfl
    case script => simp [cycle_script]
    case bus => rw [cycle_bus]; exact List.prefix_append _ _
    all_goals simp
  · constructor
    case desc => rw [finish_desc]; split <;> rfl
    all_goals simp

theorem dmaStep_beside {s t : State} (h : dmaStep s = some t) : Beside s t := by
  rcases dmaStep_cases h with ⟨-, -, -, ⟨-, rfl⟩ | ⟨-, rfl⟩⟩
  · exact takeFault_beside s _
  · constructor <;> first | rfl | exact fun _ => rfl

theorem moved_beside (s : State) (m : Move) : Beside s (s.moved m) := by
  cases m with
  | seq => exact .refl s
  | tx =>
    cases h : txStep s with
    | none => simpa [State.moved, h] using Beside.refl s
    | some t => simpa [State.moved, h] using txStep_beside h
  | dma =>
    cases h : dmaStep s with
    | none => simpa [State.moved, h] using Beside.refl s
    | some t => simpa [State.moved, h] using dmaStep_beside h
  | radio v => constructor <;> first | rfl | exact fun _ => rfl
  | clkm v =>
    cases h : s.S.txn with
    | true => simpa [State.moved, h] using Beside.refl s
    | false =>
      have e : s.moved (.clkm v) = s.setRegs { s.P.regs with clkm := v } := by simp [State.moved, h]
      rw [e]
      constructor
      case clkm => simp [h]
      all_goals rfl

theorem Reaches_beside {s t : State} (h : Reaches s t) : Beside s t := by
  induction h with
  | here => exact .refl s
  | took _ ms ih => exact ih.trans (setSched_beside _ ms)
  | moved _ m _ ih => exact ih.trans (moved_beside _ m)

/-- A move leaves the sequencer's registers alone, or it raises the radio errata's fault (R99) and has no other effect
(R184). -/
theorem moved_S (s : State) (m : Move) : (s.moved m).S = s.S ∨ s.moved m = s.takeFault .radioDma := by
  cases m with
  | seq => exact .inl rfl
  | tx =>
    cases hx : txStep s with
    | none => exact .inl (by simp [State.moved, hx])
    | some t =>
      simp only [State.moved, hx, Option.getD_some]
      rcases txStep_cases hx with ⟨-, rfl⟩ | ⟨-, -, ⟨-, w, ws, -, rfl⟩ | ⟨-, -, x, xs, -, ⟨-, rfl⟩ | ⟨-, rfl⟩⟩ | ⟨-, rfl⟩⟩
      all_goals first | exact .inr rfl | exact .inl (by simp)
  | dma =>
    cases hx : dmaStep s with
    | none => exact .inl (by simp [State.moved, hx])
    | some t =>
      simp only [State.moved, hx, Option.getD_some]
      rcases dmaStep_cases hx with ⟨-, -, -, ⟨-, rfl⟩ | ⟨-, rfl⟩⟩
      all_goals first | exact .inr rfl | exact .inl (by simp)
  | radio v => exact .inl rfl
  | clkm v => left; cases ht : s.S.txn <;> simp [State.moved, ht]

theorem moved_fault {s : State} {m : Move} (hs : s.S.fault = none) (h : (s.moved m).S.fault ≠ none) :
    s.moved m = s.takeFault .radioDma := by
  rcases moved_S s m with e | e
  · exact absurd (by rw [e, hs]) h
  · exact e

theorem moved_S_of_fault {s : State} {m : Move} (h : (s.moved m).S.fault = none) : (s.moved m).S = s.S := by
  rcases moved_S s m with e | e
  · exact e
  · simp [e] at h

/-- The moves before a micro-operation leave the sequencer's registers alone. -/
theorem Reaches_S {s t : State} (h : Reaches s t) : t.S = s.S := by
  induction h with
  | here => rfl
  | took _ _ ih => exact ih
  | moved _ _ hf ih => rw [moved_S_of_fault hf, ih]

end Sys2Proof.Machine
end

