-- ==== Sys2Proof/Laws/Effects.lean ====
section
/-!
SUPPORT. Everything a command can do, once.
* One lemma per micro-operation: the state it answers and the conditions it tests.
* `Did i s t`: the micro-operations of the instruction `i` and the other agents' moves lead from s to t.
* `exec_did`: exec is a `Did`, followed by the advance of the command pointer, or by what stopped it.
Every frame and every invariant of a step is an induction over `Did`.
-/

namespace Sys2Proof.Machine

variable {α β : Type}

/-! ## The micro-operations -/

theorem regWriteOp_done {v : RegImage} {s t : State} {a : Unit} (h : regWriteOp v s = .done a t) :
    s.regHazard v = false ∧ t = (s.setRegs (s.P.regs.put v)).emit (.regWr v) := by
  unfold regWriteOp at h
  cases hz : s.regHazard v <;> simp [hz] at h
  exact ⟨rfl, h.symm⟩

theorem regWriteOp_raise {v : RegImage} {s : State} {c : FaultCode} (h : regWriteOp v s = .raise c) :
    c = .hazard ∧ s.regHazard v = true := by
  unfold regWriteOp at h
  cases hz : s.regHazard v <;> simp [hz] at h
  exact ⟨h.symm, rfl⟩

theorem regWriteOp_ok {v : RegImage} {s : State} (h : s.regHazard v = false) :
    regWriteOp v s = .done () ((s.setRegs (s.P.regs.put v)).emit (.regWr v)) := by simp [regWriteOp, h]

theorem fifoPushOp_done {w : Word} {s t : State} {a : Unit} (h : fifoPushOp w s = .done a t) :
    s.P.fifo.length ≠ s.par.fifoDepth ∧ t = (s.setFifo (s.P.fifo ++ [w])).emit (.push w) := by
  unfold fifoPushOp at h
  split at h
  · cases h
  · rename_i hz; cases h; exact ⟨hz, rfl⟩

theorem txStartOp_done {s t : State} {a : Unit} (h : txStartOp s = .done a t) :
    s.P.tx.running = false ∧
      (s.P.regs.fconf.dscrEn = true → s.P.dma.loaded = true → s.P.dma.latched = true) ∧
      t = ((s.setRegs { s.P.regs with txStart := true }).setTx ⟨true, true⟩).emit .start := by
  unfold txStartOp at h
  cases hr : s.P.tx.running <;> simp only [hr, Bool.false_eq_true, if_true, if_false] at h
  · split at h
    · cases h
    · rename_i hz
      cases h
      refine ⟨rfl, fun h1 h2 => ?_, rfl⟩
      simpa [h1, h2] using hz
  · cases h

theorem gpioClaimOp_done {r : Role} {s t : State} {a : Unit} (h : gpioClaimOp r s = .done a t) :
    s.padHazard r = false ∧ t = (s.setPad r { s.G.get r with claimed := true, route := .gpio }).emit (.claim r) := by
  unfold gpioClaimOp at h
  cases hz : s.padHazard r <;> simp only [hz, Bool.false_eq_true, if_true, if_false] at h
  · cases h; exact ⟨rfl, rfl⟩
  · cases h

theorem gpioLevelOp_done {r : Role} {l : Bool} {s t : State} {a : Unit} (h : gpioLevelOp r l s = .done a t) :
    s.padHazard r = false ∧ t = ((s.showLevel r l).setPad r { s.G.get r with level := l }).emit (.level r l) := by
  unfold gpioLevelOp at h
  cases hz : s.padHazard r <;> simp only [hz, Bool.false_eq_true, if_true, if_false] at h
  · cases h; exact ⟨rfl, rfl⟩
  · cases h

theorem gpioDirOp_done {r : Role} {d : Dir} {s t : State} {a : Unit} (h : gpioDirOp r d s = .done a t) :
    s.padHazard r = false ∧ t = (s.setPad r { s.G.get r with dir := d }).emit (.dir r d) := by
  unfold gpioDirOp at h
  cases hz : s.padHazard r <;> simp only [hz, Bool.false_eq_true, if_true, if_false] at h
  · cases h; exact ⟨rfl, rfl⟩
  · cases h

theorem routeOp_done {r : Role} {x : Route} {s t : State} {a : Unit} (h : routeOp r x s = .done a t) :
    s.padHazard r = false ∧ t = (s.setPad r ((s.G.get r).routed x)).emit (.route r x) := by
  unfold routeOp at h
  cases hz : s.padHazard r <;> simp only [hz, Bool.false_eq_true, if_true, if_false] at h
  · cases h; exact ⟨rfl, rfl⟩
  · cases h

theorem descAllocOp_done {n : Nat} {s t : State} {a : Unit} (h : descAllocOp n s = .done a t) :
    s.P.dma.loaded = false ∧ ∃ addr, s.allocAnswer = some addr ∧
      t = (s.afterAlloc.setDesc { s.S.desc with capacity := n, addr := addr }).emit (.alloc n addr) := by
  unfold descAllocOp at h
  cases hz : s.P.dma.loaded <;> simp only [hz, Bool.false_eq_true, if_true, if_false] at h
  · cases ha : s.allocAnswer with
    | none => simp only [ha] at h; cases h
    | some x => simp only [ha] at h; cases h; exact ⟨rfl, x, rfl, rfl⟩
  · cases h

theorem descFreeOp_done {s t : State} {a : Unit} (h : descFreeOp s = .done a t) :
    s.P.dma.loaded = false ∧ t = s.emit (.free s.S.desc.addr) := by
  unfold descFreeOp at h
  cases hz : s.P.dma.loaded <;> simp only [hz, Bool.false_eq_true, if_true, if_false] at h
  · cases h; exact ⟨rfl, rfl⟩
  · cases h

theorem bufWriteOp_done {copy : Bool} {v : List Sample} {s t : State} {a : Unit} (h : bufWriteOp copy v s = .done a t) :
    (s.P.dma.loaded = true → s.P.dma.buf ≠ copy) ∧ t = (s.setScratch copy v).emit (.bufWr copy v.length) := by
  unfold bufWriteOp at h
  split at h
  · cases h
  · rename_i hz; cases h; refine ⟨fun hl hb => hz (by simp [hl, hb]), rfl⟩

theorem descWriteOp_done {d : Descriptor} {s t : State} {a : Unit} (h : descWriteOp d s = .done a t) :
    s.P.dma.loaded = false ∧ t = (s.setDescriptor d).emit (.descWr d) := by
  unfold descWriteOp at h
  cases hz : s.P.dma.loaded <;> simp only [hz, Bool.false_eq_true, if_true, if_false] at h
  · cases h; exact ⟨rfl, rfl⟩
  · cases h

/-- The load an `OutLinkStart` makes (R118). -/
def State.linked (s : State) : State :=
  ((s.setRegs { s.P.regs with outlink := ⟨Config.physAddr s.S.desc.addr, true⟩ }).emit
    (.regWr (.outlink ⟨Config.physAddr s.S.desc.addr, true⟩))).setDma
      { s.P.dma with loaded := true, latched := false, buf := s.par.copyAt s.P.desc.bufAddr }

theorem outLinkStartOp_done {s t : State} {a : Unit} (h : outLinkStartOp s = .done a t) :
    s.P.tx.running = false ∧ s.P.dma.loaded = false ∧ t = s.linked := by
  unfold outLinkStartOp at h
  cases hr : regWriteOp (.outlink ⟨Config.physAddr s.S.desc.addr, true⟩) s with
  | raise c => simp only [hr] at h; cases h
  | done b u =>
    simp only [hr] at h
    cases h
    obtain ⟨hz, rfl⟩ := regWriteOp_done hr
    simp only [State.regHazard, RegImage.reg, Bool.or_eq_false_iff, Bool.and_eq_false_iff] at hz
    refine ⟨by simpa using hz.1, by simpa using hz.2, rfl⟩

/-! ## What the instructions do -/

/-- The opcodes that wait for the idle flag. -/
def waiters : List Opcode :=
  [.beginTransaction, .wait, .writeCommand, .writeData, .writeDataRepeat, .writeBytes, .writePixels, .beginRead, .endRead]

/-- The opcodes that write to the bus. -/
def writers : List Opcode := [.writeCommand, .writeData, .writeDataRepeat, .writeBytes, .writePixels]

/-- The opcodes that sample the pads. -/
def readers : List Opcode := [.readData, .readBytes, .readPixels]

/-- The opcodes that route pads. -/
def routers : List Opcode := [.init, .beginRead, .endRead]

/-- One micro-operation, or one change of the sequencer's own registers, of the instruction `i`. -/
inductive Performs (i : Instr) (s : State) : State → Prop where
  | wait (h : i.opcode ∈ waiters) (hw : s.waitReady = true) : Performs i s (s.emit .wait)
  | poll (h : i.opcode = .busy) (hw : s.pollReady = true) : Performs i s (s.emit (.poll s.idleFlag))
  | spin (h : i.opcode ∈ [Opcode.writeDataRepeat, .writeBytes, .writePixels]) (k : Nat) : Performs i s (s.emit (.spin k))
  | modeReg (h : i.opcode ∈ .beginTransaction :: writers) (v : RegImage) (hv : v.reg = .src ∨ v.reg = .fconf)
      (hz : s.P.tx.running = false) : Performs i s ((s.setRegs (s.P.regs.put v)).emit (.regWr v))
  | clkm (h : i.opcode = .beginTransaction) (v : ClkmImage) (hz : s.P.tx.running = false) :
      Performs i s ((s.setRegs { s.P.regs with clkm := v }).emit (.regWr (.clkm v)))
  | intEna (h : i.opcode = .init) (v : Word) : Performs i s ((s.setRegs { s.P.regs with intEna := v }).emit (.regWr (.intEna v)))
  | modeWr (h : i.opcode = .init) (a v : Word) : Performs i s ((s.setModeRegs (s.P.modeRegs ++ [(a, v)])).emit (.modeWr a v))
  | push (h : i.opcode ∈ writers) (w : Word) (hz : s.P.fifo.length ≠ s.par.fifoDepth) :
      Performs i s ((s.setFifo (s.P.fifo ++ [w])).emit (.push w))
  | start (h : i.opcode ∈ writers) (hz : s.P.tx.running = false)
      (hl : s.P.regs.fconf.dscrEn = true → s.P.dma.loaded = true → s.P.dma.latched = true) :
      Performs i s (((s.setRegs { s.P.regs with txStart := true }).setTx ⟨true, true⟩).emit .start)
  | claim (h : i.opcode ∈ [Opcode.init, .endRead]) (r : Role) (hz : s.padHazard r = false) :
      Performs i s ((s.setPad r { s.G.get r with claimed := true, route := .gpio }).emit (.claim r))
  | level (r : Role) (l : Bool) (h : i.opcode ∈ routers ∨ i.opcode ∈ readers ∧ r = .rd) (hz : s.padHazard r = false) :
      Performs i s (((s.showLevel r l).setPad r { s.G.get r with level := l }).emit (.level r l))
  | dir (h : i.opcode ∈ routers) (r : Role) (d : Dir) (hz : s.padHazard r = false) :
      Performs i s ((s.setPad r { s.G.get r with dir := d }).emit (.dir r d))
  | route (h : i.opcode ∈ routers) (r : Role) (x : Route) (hz : s.padHazard r = false) :
      Performs i s ((s.setPad r ((s.G.get r).routed x)).emit (.route r x))
  | sample (h : i.opcode ∈ readers) : Performs i s (s.afterRaw.emit (.sample s.rawWord))
  | clock (h : i.opcode = .beginTransaction) : Performs i s (s.afterClock.emit (.clock s.clockAnswer))
  | alloc (h : i.opcode ∈ [Opcode.init, .writeBytes]) (n : Nat) (a : Word) (hz : s.P.dma.loaded = false)
      (ha : s.allocAnswer = some a) :
      Performs i s ((s.afterAlloc.setDesc { s.S.desc with capacity := n, addr := a }).emit (.alloc n a))
  | free (h : i.opcode ∈ [Opcode.init, .writeBytes]) (hz : s.P.dma.loaded = false) :
      Performs i s (s.emit (.free s.S.desc.addr))
  | bufWr (h : i.opcode = .writeBytes) (copy : Bool) (v : List Sample) (hv : v.length ≤ 256)
      (hz : s.P.dma.loaded = true → s.P.dma.buf ≠ copy) : Performs i s ((s.setScratch copy v).emit (.bufWr copy v.length))
  | descWr (h : i.opcode = .writeBytes) (d : Descriptor) (hz : s.P.dma.loaded = false) :
      Performs i s ((s.setDescriptor d).emit (.descWr d))
  | link (h : i.opcode = .writeBytes) (hz : s.P.tx.running = false) (hl : s.P.dma.loaded = false) : Performs i s s.linked
  | pullWrite (p a b n : Nat) (len : Nat) (h : i = .writePixels p len) (hn : n ≤ 512) :
      Performs i s (((s.afterPull p).setPixbuf (s.answerBytes (s.pullAnswer p) n)).emit (.pull p a b (s.pullAnswer p).next))
  | pullRead (p dst a b len : Nat) (h : i = .readPixels dst p len) :
      Performs i s ((((s.afterPull p).setHanded (s.E.handed ++ [⟨p, dst, a, b, s.S.rdbuf⟩])).setMem
        (s.M.writeAll (s.pullAnswer p).stores)).emit (.pull p a b (s.pullAnswer p).next))
  | radio (h : i.opcode = .writeBytes) : Performs i s (s.emit (.radio s.radioOn))
  | gate (h : i.opcode ∈ [Opcode.init, .endRead]) :
      Performs i s (((if s.P.gate = ⟨false, false⟩ then s.released else s).setGate ⟨true, true⟩).emit .gate)
  | memRead (buffer len : Nat) (dma : Bool) (h : i = .writeBytes buffer len dma) (a : Nat) (ha : s.par.admits a = true) :
      Performs i s (s.emit (.mRd a (s.M.read a)))
  | memWrite (dst len : Nat) (dma : Bool) (h : i = .readBytes dst len dma) (a : Nat) (v : Byte) (ha : s.par.admits a = true)
      (h1 : dst ≤ a) (h2 : a < dst + len) : Performs i s ((s.setMem (s.M.write a v)).emit (.mWr a v))
  | setMode (h : i.opcode ∈ writers) (m : Mode) : Performs i s (s.setMode m)
  | beginTxn (h : i.opcode = .beginTransaction) : Performs i s ((s.setMode .scalar32).setTxn true)
  | endTxn (h : i.opcode = .endTransaction) : Performs i s (s.setTxn false)
  | setCache (h : i.opcode = .beginTransaction) (c : Cache) : Performs i s (s.setCache c)
  | setCfg (h : i.opcode = .config) (c : Cfg) : Performs i s ((s.setCfg c).setLife .configured)
  | setHandles (h : i.opcode = .init) : Performs i s (s.setHandles (some s.S.cfg.inst))
  | initialised (h : i.opcode = .init) : Performs i s ((s.setDesc { s.S.desc with allocated := true }).setLife .initialised)
  | setRead (v : Bool) (h : i.opcode = .beginRead ∧ v = true ∨ i.opcode = .endRead ∧ v = false) : Performs i s (s.setRead v)
  | setRes (h : i.opcode = .busy ∨ i.opcode = .readData) (v : Word) : Performs i s (s.setRes v)
  | setFlip (h : i.opcode = .writeBytes) : Performs i s (s.setFlip (!s.S.flip))
  | setRdbuf (h : i.opcode = .readPixels) (v : List Byte) (hv : v.length ≤ 32) : Performs i s (s.setRdbuf v)

/-- The micro-operations of `i` and the other agents' moves, none of them into a fault, lead from `s` to `t`. -/
inductive Did (i : Instr) (s : State) : State → Prop where
  | here : Did i s s
  | took {t : State} (h : Did i s t) (ms : List Move) : Did i s (t.setSched ms)
  | moved {t : State} (h : Did i s t) (m : Move) (hf : (t.moved m).S.fault = none) : Did i s (t.moved m)
  | performed {t u : State} (h : Did i s t) (p : Performs i t u) : Did i s u

/-- What stops an instruction after what it did: a fault it raises, a move into a fault, a hold. -/
inductive Halted (i : Instr) (s : State) : State → Prop where
  | raised {t : State} (h : Did i s t) (c : FaultCode) : Halted i s (t.takeFault c)
  | moved {t : State} (h : Did i s t) (m : Move) (hf : (t.moved m).S.fault ≠ none) : Halted i s (t.moved m)
  | held {t : State} (h : Did i s t) (x : Hold) : Halted i s (t.setHold x)

theorem Did.reaches {i : Instr} {s t u : State} (h : Did i s t) (r : Reaches t u) : Did i s u := by
  induction r with
  | here => exact h
  | took _ ms ih => exact .took ih ms
  | moved _ m hf ih => exact .moved ih m hf

theorem Did.trans {i : Instr} {s t u : State} (h : Did i s t) (k : Did i t u) : Did i s u := by
  induction k with
  | here => exact h
  | took _ ms ih => exact .took ih ms
  | moved _ m hf ih => exact .moved ih m hf
  | performed _ p ih => exact .performed ih p

theorem Did.halted {i : Instr} {s t u : State} (h : Did i s t) (k : Halted i t u) : Halted i s u := by
  cases k with
  | raised k c => exact .raised (h.trans k) c
  | moved k m hf => exact .moved (h.trans k) m hf
  | held k x => exact .held (h.trans k) x

/-- What each micro-operation and each move keeps, everything an instruction did keeps. -/
theorem Did.keeps {i : Instr} {s t : State} {I : State → Prop} (h : Did i s t) (hI : I s)
    (hs : ∀ u ms, I u → I (u.setSched ms)) (hm : ∀ u m, I u → (u.moved m).S.fault = none → I (u.moved m))
    (hp : ∀ u v, I u → Performs i u v → I v) : I t := by
  induction h with
  | here => exact hI
  | took _ ms ih => exact hs _ ms ih
  | moved _ m hf ih => exact hm _ m ih hf
  | performed _ p ih => exact hp _ _ ih p

/-! ## Sequences -/

/-- From a state with `P`, `m` does what `i` may do and ends in a state with `Q`, or is stopped. -/
def Does (i : Instr) (P : State → Prop) (m : Act α) (Q : α → State → Prop) : Prop :=
  ∀ s, P s → match m s with
    | .ok a t => Did i s t ∧ Q a t
    | .error _ t => Halted i s t

theorem Does_pure {i : Instr} {P : State → Prop} {Q : α → State → Prop} (a : α) (h : ∀ s, P s → Q a s) :
    Does i P (pure a : Act α) Q := fun s hs => ⟨.here, h s hs⟩

theorem Does_bind {i : Instr} {P : State → Prop} {R : α → State → Prop} {Q : β → State → Prop} {m : Act α} {f : α → Act β}
    (hm : Does i P m R) (hf : ∀ a, Does i (R a) (f a) Q) : Does i P (m >>= f) Q := by
  intro s hs
  have h := hm s hs
  rw [Act_bind_run]
  cases hr : m s with
  | error e t => simpa only [hr] using h
  | ok a t =>
    simp only [hr] at h
    have k := hf a t h.2
    cases hr' : f a t with
    | ok b u => simp only [hr'] at k ⊢; exact ⟨h.1.trans k.1, k.2⟩
    | error e u => simp only [hr'] at k ⊢; exact h.1.halted k

theorem Does_get {i : Instr} {P : State → Prop} : Does i P (get : Act State) (fun a s => a = s ∧ P s) :=
  fun _ hs => ⟨.here, rfl, hs⟩

theorem Does_weaken {i : Instr} {P P' : State → Prop} {Q Q' : α → State → Prop} {m : Act α} (h : Does i P m Q)
    (hP : ∀ s, P' s → P s) (hQ : ∀ a s, Q a s → Q' a s) : Does i P' m Q' := by
  intro s hs
  have h := h s (hP s hs)
  cases hr : m s with
  | ok a t => simp only [hr] at h ⊢; exact ⟨h.1, hQ a t h.2⟩
  | error e t => simpa only [hr] using h

/-- A fact about the end of a sequence, known otherwise. -/
theorem Does_also {i : Instr} {P : State → Prop} {Q : α → State → Prop} {m : Act α}
    (h : Does i P m fun _ _ => True) (hq : ∀ s a t, P s → m s = .ok a t → Q a t) : Does i P m Q := by
  intro s hs
  have h := h s hs
  cases hr : m s with
  | ok a t => simp only [hr] at h ⊢; exact ⟨h.1, hq s a t hs hr⟩
  | error e t => simpa only [hr] using h

theorem Does_check {i : Instr} {P : State → Prop} (c : State → Bool) (f : FaultCode) :
    Does i P (check c f) (fun _ s => P s ∧ c s = true) := by
  intro s hs
  cases hc : c s with
  | true => rw [check_true hc]; exact ⟨.here, hs, hc⟩
  | false => rw [check_false hc]; exact .raised .here f

theorem Does_update {i : Instr} {P : State → Prop} {Q : State → Prop} {f : State → State}
    (h : ∀ s, P s → Performs i s (f s)) (hQ : ∀ s, P s → Q (f s)) : Does i P (update f) (fun _ => Q) :=
  fun s hs => ⟨.performed .here (h s hs), hQ s hs⟩

theorem Does_forEach {i : Instr} {I : State → Prop} {f : α → Act Unit} {as : List α}
    (h : ∀ a ∈ as, Does i I (f a) (fun _ => I)) : Does i I (forEach f as) (fun _ => I) := by
  induction as with
  | nil => exact fun _ hs => ⟨.here, hs⟩
  | cons a as ih => exact Does_bind (h a (by simp)) fun _ => ih fun b hb => h b (by simp [hb])

/-- A micro-operation: what it does where nothing blocks it, and what the moves before it keep. -/
theorem Does_micro {i : Instr} {P : State → Prop} {Q : α → State → Prop} {blocked : State → Option Hold}
    {op : State → Effect α} (hp : ∀ s a t, blocked s = none → op s = .done a t → Performs i s t)
    (hq : ∀ s t a u, P s → Reaches s t → op t = .done a u → Q a u) : Does i P (micro blocked op) Q := by
  intro s hs
  rcases micro_cases blocked op s with ⟨t, a, u, e, r, b, o⟩ | ⟨t, c, e, r, -, -⟩ | ⟨t, m, e, r, hf⟩ | ⟨t, h, e, r, -⟩
  · rw [e]; exact ⟨.performed (Did.here.reaches r) (hp t a u b o), hq s t a u hs r o⟩
  · rw [e]; exact .raised (Did.here.reaches r) c
  · rw [e]; exact .moved (Did.here.reaches r) m hf
  · rw [e]; exact .held (Did.here.reaches r) h

/-! ## The sequences of the rules -/

/-- `m` does what `i` may do, from every state. -/
def Doing (i : Instr) (m : Act α) : Prop := Does i (fun _ => True) m fun _ _ => True

theorem Doing_pure {i : Instr} (a : α) : Doing i (pure a : Act α) := Does_pure a fun _ h => h
theorem Doing_get {i : Instr} : Doing i (get : Act State) := fun _ _ => ⟨.here, trivial⟩
theorem Doing_check {i : Instr} (c : State → Bool) (f : FaultCode) : Doing i (check c f) :=
  Does_weaken (Does_check c f) (fun _ h => h) fun _ _ _ => trivial
theorem Doing_bind {i : Instr} {m : Act α} {f : α → Act β} (hm : Doing i m) (hf : ∀ a, Doing i (f a)) :
    Doing i (m >>= f) := Does_bind hm hf
theorem Doing_forEach {i : Instr} {f : α → Act Unit} {as : List α} (h : ∀ a ∈ as, Doing i (f a)) :
    Doing i (forEach f as) := Does_forEach h
theorem Doing_micro {i : Instr} {blocked : State → Option Hold} {op : State → Effect α}
    (hp : ∀ s a t, blocked s = none → op s = .done a t → Performs i s t) : Doing i (micro blocked op) :=
  Does_micro hp fun _ _ _ _ _ _ _ => trivial
theorem Doing_update {i : Instr} {f : State → State} (h : ∀ s, Performs i s (f s)) : Doing i (update f) :=
  Does_update (fun s _ => h s) fun _ _ => trivial

theorem Doing_waitIdle {i : Instr} (h : i.opcode ∈ waiters) : Doing i waitIdle :=
  Doing_micro fun s _ t hb ho => by
    cases hw : s.waitReady <;> simp [hw] at hb
    cases ho; exact .wait h hw

theorem Doing_regWrite {i : Instr} (h : i.opcode ∈ .beginTransaction :: writers) {v : RegImage}
    (hv : v.reg = .src ∨ v.reg = .fconf) : Doing i (regWrite v) :=
  Doing_micro fun s _ t _ ho => by
    obtain ⟨hz, rfl⟩ := regWriteOp_done ho
    refine .modeReg h v hv ?_
    simp only [State.regHazard, Bool.or_eq_false_iff, Bool.and_eq_false_iff] at hz
    rcases hv with hv | hv <;> simpa [hv] using hz.1

theorem writers_wait {i : Instr} (h : i.opcode ∈ writers) : i.opcode ∈ waiters := by
  simp only [writers, waiters, List.mem_cons, List.not_mem_nil, or_false] at *
  rcases h with h | h | h | h | h <;> simp [h]

theorem Doing_ensureMode {i : Instr} (h : i.opcode ∈ writers) (m : Mode) : Doing i (ensureMode m) := by
  refine Doing_bind Doing_get fun s => ?_
  split
  · exact Doing_pure ()
  · exact Doing_bind (Doing_regWrite (.tail _ h) (.inl rfl)) fun _ =>
      Doing_bind (Doing_regWrite (.tail _ h) (.inr rfl)) fun _ => Doing_update fun _ => .setMode h m

theorem Doing_fifoPush {i : Instr} (h : i.opcode ∈ writers) (w : Word) : Doing i (fifoPush w) :=
  Doing_micro fun s _ t _ ho => by
    obtain ⟨hz, rfl⟩ := fifoPushOp_done ho
    exact .push h w hz

theorem Doing_txStart {i : Instr} (h : i.opcode ∈ writers) : Doing i txStart :=
  Doing_micro fun s _ t _ ho => by
    obtain ⟨hz, hl, rfl⟩ := txStartOp_done ho
    exact .start h hz hl

theorem Doing_scalarWrite {i : Instr} (h : i.opcode ∈ writers) (t : Bool) (v : Word) (b : Nat) :
    Doing i (scalarWrite t v b) :=
  Doing_bind (Doing_waitIdle (writers_wait h)) fun _ => Doing_bind (Doing_ensureMode h _) fun _ =>
    Doing_bind (Doing_forEach fun w _ => Doing_fifoPush h w) fun _ => Doing_txStart h

theorem Doing_spin {i : Instr} (h : i.opcode ∈ [Opcode.writeDataRepeat, .writeBytes, .writePixels])
    (blocked : State → Option Hold) (k : State → Nat) : Doing i (micro blocked (spinOp k)) :=
  Doing_micro fun s _ t _ ho => by cases ho; exact .spin h _

theorem Doing_repeatLoop {i : Instr} (h : i.opcode = .writeDataRepeat) (unit : List Word) (full rounds rem len : Nat) :
    Doing i (repeatLoop unit full rounds rem len) := by
  have hw : i.opcode ∈ writers := by simp [h, writers]
  induction rounds generalizing rem len with
  | zero => exact Doing_pure ()
  | succ n ih =>
    refine Doing_bind (Doing_waitIdle (writers_wait hw)) fun _ => Doing_bind (Doing_ensureMode hw _) fun _ =>
      Doing_bind (Doing_forEach fun w _ => Doing_fifoPush hw w) fun _ => Doing_bind (Doing_txStart hw) fun _ => ?_
    split
    · exact Doing_pure ()
    · exact Doing_bind (Doing_spin (by simp [h]) _ _) fun _ => ih _ _

theorem Doing_pushPairs {i : Instr} (h : i.opcode ∈ writers) {rd : Nat → Act Byte} (hr : ∀ k, Doing i (rd k)) (len k : Nat) :
    Doing i (pushPairs rd len k) := by
  induction len generalizing k with
  | zero => exact Doing_pure ()
  | succ n ih =>
    exact Doing_bind (hr _) fun _ => Doing_bind (hr _) fun _ => Doing_bind (Doing_fifoPush h _) fun _ => ih _

theorem Does_readMany {i : Instr} {rd : Nat → Act Byte} (hr : ∀ k, Doing i (rd k)) (n k : Nat) :
    Does i (fun _ => True) (readMany rd n k) fun bs _ => bs.length = n := by
  induction n generalizing k with
  | zero => exact Does_pure _ fun _ _ => rfl
  | succ n ih =>
    exact Does_bind (hr k) fun _ => Does_bind (ih (k + 1)) fun _ => Does_pure _ fun _ h => by simp [h]

theorem Doing_descRealloc {i : Instr} (h : i.opcode ∈ [Opcode.init, .writeBytes]) (n : Nat) : Doing i (descRealloc n) := by
  refine Doing_bind (Doing_bind Doing_get fun s => ?_) fun _ => Doing_micro fun s _ t _ ho => by
    obtain ⟨hz, x, ha, rfl⟩ := descAllocOp_done ho
    exact .alloc h n x hz ha
  split
  · exact Doing_micro fun s _ t _ ho => by
      obtain ⟨hz, rfl⟩ := descFreeOp_done ho
      exact .free h hz
  · exact Doing_pure ()

theorem Doing_ensureCapacity {i : Instr} (h : i.opcode = .writeBytes) (n : Nat) : Doing i (ensureCapacity n) := by
  refine Doing_bind Doing_get fun s => ?_
  split
  · exact Doing_pure ()
  · exact Doing_descRealloc (by simp [h]) _

theorem Doing_bufWrite {i : Instr} (h : i.opcode = .writeBytes) (copy : Bool) {v : List Sample} (hv : v.length ≤ 256) :
    Doing i (bufWrite copy v) :=
  Doing_micro fun s _ t _ ho => by
    obtain ⟨hz, rfl⟩ := bufWriteOp_done ho
    exact .bufWr h copy v hv hz

theorem Doing_descWrite {i : Instr} (h : i.opcode = .writeBytes) (d : Descriptor) : Doing i (descWrite d) :=
  Doing_micro fun s _ t _ ho => by
    obtain ⟨hz, rfl⟩ := descWriteOp_done ho
    exact .descWr h _ hz

theorem Doing_outLinkStart {i : Instr} (h : i.opcode = .writeBytes) : Doing i outLinkStart :=
  Doing_micro fun s _ t _ ho => by
    obtain ⟨hz, hl, rfl⟩ := outLinkStartOp_done ho
    exact .link h hz hl

theorem Doing_dmaLoad {i : Instr} (h : i.opcode = .writeBytes) {rd : Nat → Act Byte} (hr : ∀ k, Doing i (rd k)) (k : Nat)
    {n : Nat} (hn : n ≤ 256) : Doing i (dmaLoad rd k n) := by
  have hw : i.opcode ∈ writers := by simp [h, writers]
  refine Does_bind (Does_readMany hr n k) fun bs => ?_
  refine Does_bind (R := fun _ _ => bs.length = n) (Does_weaken Does_get (fun _ h => h) fun _ _ h => h.2) fun s => ?_
  refine Does_bind (R := fun _ _ => True) (fun u hu => Doing_bufWrite h _ (by simpa [hu] using hn) u trivial) fun _ => ?_
  exact Doing_bind (Doing_waitIdle (writers_wait hw)) fun _ => Doing_bind (Doing_ensureMode hw _) fun _ =>
    Doing_bind (Doing_ensureCapacity h _) fun _ => Doing_bind (Doing_descWrite h _) fun _ =>
    Doing_bind (Doing_outLinkStart h) fun _ => Doing_bind (Doing_spin (by simp [h]) _ _) fun _ =>
    Doing_bind (Doing_txStart hw) fun _ => Doing_update fun u => .setFlip h

theorem Doing_dmaPhase {i : Instr} (h : i.opcode = .writeBytes) {rd : Nat → Act Byte} (hr : ∀ k, Doing i (rd k))
    (rounds k rem : Nat) {load : Nat} (hl : load ≤ 256) : Doing i (dmaPhase rd rounds k rem load) := by
  induction rounds generalizing k rem load with
  | zero => exact Doing_pure ()
  | succ n ih =>
    refine Doing_bind (Doing_dmaLoad h hr k (by omega)) fun _ => ?_
    split
    · exact Doing_pure ()
    · exact ih _ _ (by simp only [dmaLoadMax]; omega)

/-- The FIFO phase; the DMA phase is entered with `useDma` only (R161). -/
theorem Doing_fifoPhase {i : Instr} (h : i.opcode ∈ [Opcode.writeBytes, .writePixels]) {rd : Nat → Act Byte}
    (hr : ∀ k, Doing i (rd k)) {useDma : Bool} (hd : useDma = true → i.opcode = .writeBytes)
    (rounds k pairs done len : Nat) : Doing i (fifoPhase rd useDma rounds k pairs done len) := by
  have hw : i.opcode ∈ writers := by
    simp only [List.mem_cons, List.not_mem_nil, or_false, writers] at h ⊢; tauto
  induction rounds generalizing k pairs done len with
  | zero => exact Doing_pure ()
  | succ n ih =>
    refine Doing_bind (Doing_waitIdle (writers_wait hw)) fun _ => Doing_bind (Doing_ensureMode hw _) fun _ =>
      Doing_bind (Doing_pushPairs hw hr len k) fun _ => Doing_bind (Doing_txStart hw) fun _ => ?_
    split
    · exact Doing_pure ()
    · cases hu : useDma with
      | false =>
        refine Does_bind (R := fun go _ => go = false) ?_ fun go => ?_
        · refine Does_bind Does_get fun s => ?_
          simp only [Bool.false_eq_true, false_and, if_false]
          exact Does_pure _ fun _ _ => rfl
        · rintro s (rfl : go = false)
          revert s
          simp only [Bool.false_eq_true, if_false]
          refine fun s => Doing_bind (Doing_spin ?_ _ _) (fun _ => hu ▸ ih _ _ _ _) s trivial
          simp only [List.mem_cons, List.not_mem_nil, or_false] at h ⊢; tauto
      | true =>
        have hb := hd hu
        refine Doing_bind (Doing_bind Doing_get fun s => ?_) fun go => ?_
        · split
          · exact Doing_bind (Doing_micro fun s _ t _ ho => by cases ho; exact .radio hb) fun _ => Doing_pure _
          · exact Doing_pure _
        · split
          · exact Doing_dmaPhase hb hr _ _ _ (by decide)
          · exact Doing_bind (Doing_spin (by simp [hb]) _ _) fun _ => hu ▸ ih _ _ _ _

theorem Doing_bytesBody {i : Instr} (h : i.opcode ∈ [Opcode.writeBytes, .writePixels]) {rd : Nat → Act Byte}
    (hr : ∀ k, Doing i (rd k)) {useDma : Bool} (hd : useDma = true → i.opcode = .writeBytes) (length : Nat) :
    Doing i (bytesBody rd length useDma) := by
  have hw : i.opcode ∈ writers := by
    simp only [List.mem_cons, List.not_mem_nil, or_false, writers] at h ⊢; tauto
  have hp : ∀ k pairs, Doing i (pairsBody rd k pairs useDma) := fun k pairs => by
    unfold pairsBody
    split
    · exact Doing_pure ()
    · exact Doing_fifoPhase h hr hd _ _ _ _ _
  unfold bytesBody
  split
  · exact Doing_bind (hr 0) fun _ => Doing_bind (Doing_scalarWrite hw _ _ _) fun _ => hp _ _
  · exact hp _ _

theorem Doing_gpioClaim {i : Instr} (h : i.opcode ∈ [Opcode.init, .endRead]) (r : Role) : Doing i (gpioClaim r) :=
  Doing_micro fun s _ t _ ho => by
    obtain ⟨hz, rfl⟩ := gpioClaimOp_done ho
    exact .claim h r hz

theorem Doing_gpioLevel {i : Instr} {r : Role} (l : Bool) (h : i.opcode ∈ routers ∨ i.opcode ∈ readers ∧ r = .rd) :
    Doing i (gpioLevel r l) :=
  Doing_micro fun s _ t _ ho => by
    obtain ⟨hz, rfl⟩ := gpioLevelOp_done ho
    exact .level r l h hz

theorem Doing_gpioDir {i : Instr} (h : i.opcode ∈ routers) (r : Role) (d : Dir) : Doing i (gpioDir r d) :=
  Doing_micro fun s _ t _ ho => by
    obtain ⟨hz, rfl⟩ := gpioDirOp_done ho
    exact .dir h r d hz

theorem Doing_route {i : Instr} (h : i.opcode ∈ routers) (r : Role) (x : Route) : Doing i (route r x) :=
  Doing_micro fun s _ t _ ho => by
    obtain ⟨hz, rfl⟩ := routeOp_done ho
    exact .route h r x hz

theorem Doing_initPins {i : Instr} (h : i.opcode ∈ [Opcode.init, .endRead]) : Doing i initPins := by
  have hr : i.opcode ∈ routers := by
    simp only [List.mem_cons, List.not_mem_nil, or_false, routers] at h ⊢; tauto
  exact Doing_bind (Doing_forEach fun r _ => Doing_gpioClaim h r) fun _ =>
    Doing_bind (Doing_forEach fun r _ => Doing_bind (Doing_gpioLevel _ (.inl hr)) fun _ => Doing_gpioDir hr _ _) fun _ =>
    Doing_bind (Doing_forEach fun _ _ => Doing_route hr _ _) fun _ => Doing_bind (Doing_route hr _ _) fun _ =>
    Doing_bind (Doing_route hr _ _) fun _ => Doing_micro fun s _ t _ ho => by cases ho; exact .gate h

theorem Doing_readPins {i : Instr} (hr : i.opcode ∈ routers) : Doing i readPins :=
  Doing_bind (Doing_gpioLevel _ (.inl hr)) fun _ => Doing_bind (Doing_gpioDir hr _ _) fun _ =>
    Doing_bind (Doing_forEach fun _ _ => Doing_bind (Doing_route hr _ _) fun _ => Doing_bind (Doing_gpioDir hr _ _) fun _ =>
      Doing_gpioLevel _ (.inl hr)) fun _ =>
    Doing_forEach fun _ _ => Doing_bind (Doing_route hr _ _) fun _ => Doing_gpioDir hr _ _

theorem Doing_readByte {i : Instr} (h : i.opcode ∈ readers) : Doing i readByte :=
  Doing_bind (Doing_micro fun s _ t _ ho => by cases ho; exact .sample h) fun _ =>
    Doing_bind (Doing_micro fun s _ t _ ho => by cases ho; exact .sample h) fun _ =>
    Doing_bind (Doing_gpioLevel _ (.inr ⟨h, rfl⟩)) fun _ => Doing_bind (Doing_gpioLevel _ (.inr ⟨h, rfl⟩)) fun _ =>
    Doing_bind Doing_get fun _ => Doing_pure _

@[simp] theorem showLevel_S (s : State) (r : Role) (l : Bool) : (s.showLevel r l).S = s.S := by
  unfold State.showLevel; dsimp only; split <;> [split; skip] <;> rfl
@[simp] theorem showLevel_P (s : State) (r : Role) (l : Bool) : (s.showLevel r l).P = s.P := by
  unfold State.showLevel; dsimp only; split <;> [split; skip] <;> rfl
@[simp] theorem showLevel_G (s : State) (r : Role) (l : Bool) : (s.showLevel r l).G = s.G := by
  unfold State.showLevel; dsimp only; split <;> [split; skip] <;> rfl
@[simp] theorem showLevel_M (s : State) (r : Role) (l : Bool) : (s.showLevel r l).M = s.M := by
  unfold State.showLevel; dsimp only; split <;> [split; skip] <;> rfl
@[simp] theorem showLevel_hist (s : State) (r : Role) (l : Bool) : (s.showLevel r l).hist = s.hist := by
  unfold State.showLevel; dsimp only; split <;> [split; skip] <;> rfl
@[simp] theorem showLevel_stream (s : State) (r : Role) (l : Bool) : (s.showLevel r l).stream = s.stream := by
  unfold State.showLevel; dsimp only; split <;> [split; skip] <;> rfl
@[simp] theorem showLevel_par (s : State) (r : Role) (l : Bool) : (s.showLevel r l).par = s.par := by
  unfold State.showLevel; dsimp only; split <;> [split; skip] <;> rfl
theorem showLevel_E (s : State) (r : Role) (l : Bool) :
    (s.showLevel r l).E = { s.E with device := (s.showLevel r l).E.device } := by
  unfold State.showLevel; dsimp only; split <;> [split; skip] <;> rfl
theorem showLevel_bus (s : State) (r : Role) (l : Bool) :
    (s.showLevel r l).bus = s.bus ++ if (s.G.get r).route = .gpio ∧ (s.G.get r).dir = .output then [.lvl r l] else [] := by
  unfold State.showLevel; dsimp only; split <;> [split; skip] <;> simp

@[simp] theorem afterRaw_S (s : State) : s.afterRaw.S = s.S := by unfold State.afterRaw; split <;> rfl
@[simp] theorem afterRaw_P (s : State) : s.afterRaw.P = s.P := by unfold State.afterRaw; split <;> rfl
@[simp] theorem afterRaw_G (s : State) : s.afterRaw.G = s.G := by unfold State.afterRaw; split <;> rfl
@[simp] theorem afterRaw_M (s : State) : s.afterRaw.M = s.M := by unfold State.afterRaw; split <;> rfl
@[simp] theorem afterRaw_bus (s : State) : s.afterRaw.bus = s.bus := by unfold State.afterRaw; split <;> rfl
@[simp] theorem afterRaw_hist (s : State) : s.afterRaw.hist = s.hist := by unfold State.afterRaw; split <;> rfl
@[simp] theorem afterRaw_stream (s : State) : s.afterRaw.stream = s.stream := by unfold State.afterRaw; split <;> rfl
@[simp] theorem afterRaw_par (s : State) : s.afterRaw.par = s.par := by unfold State.afterRaw; split <;> rfl

@[simp] theorem afterClock_S (s : State) : s.afterClock.S = s.S := by unfold State.afterClock; split <;> rfl
@[simp] theorem afterClock_P (s : State) : s.afterClock.P = s.P := by unfold State.afterClock; split <;> rfl
@[simp] theorem afterClock_G (s : State) : s.afterClock.G = s.G := by unfold State.afterClock; split <;> rfl
@[simp] theorem afterClock_M (s : State) : s.afterClock.M = s.M := by unfold State.afterClock; split <;> rfl
@[simp] theorem afterClock_bus (s : State) : s.afterClock.bus = s.bus := by unfold State.afterClock; split <;> rfl
@[simp] theorem afterClock_hist (s : State) : s.afterClock.hist = s.hist := by unfold State.afterClock; split <;> rfl
@[simp] theorem afterClock_stream (s : State) : s.afterClock.stream = s.stream := by unfold State.afterClock; split <;> rfl
@[simp] theorem afterClock_par (s : State) : s.afterClock.par = s.par := by unfold State.afterClock; split <;> rfl
@[simp] theorem afterAlloc_S (s : State) : s.afterAlloc.S = s.S := by unfold State.afterAlloc; split <;> rfl
@[simp] theorem afterAlloc_P (s : State) : s.afterAlloc.P = s.P := by unfold State.afterAlloc; split <;> rfl
@[simp] theorem afterAlloc_G (s : State) : s.afterAlloc.G = s.G := by unfold State.afterAlloc; split <;> rfl
@[simp] theorem afterAlloc_M (s : State) : s.afterAlloc.M = s.M := by unfold State.afterAlloc; split <;> rfl
@[simp] theorem afterAlloc_bus (s : State) : s.afterAlloc.bus = s.bus := by unfold State.afterAlloc; split <;> rfl
@[simp] theorem afterAlloc_hist (s : State) : s.afterAlloc.hist = s.hist := by unfold State.afterAlloc; split <;> rfl
@[simp] theorem afterAlloc_stream (s : State) : s.afterAlloc.stream = s.stream := by unfold State.afterAlloc; split <;> rfl
@[simp] theorem afterAlloc_par (s : State) : s.afterAlloc.par = s.par := by unfold State.afterAlloc; split <;> rfl
@[simp] theorem afterPull_S (s : State) (p : Nat) : (s.afterPull p).S = s.S := rfl
@[simp] theorem afterPull_P (s : State) (p : Nat) : (s.afterPull p).P = s.P := rfl
@[simp] theorem afterPull_G (s : State) (p : Nat) : (s.afterPull p).G = s.G := rfl
@[simp] theorem afterPull_M (s : State) (p : Nat) : (s.afterPull p).M = s.M := rfl
@[simp] theorem afterPull_bus (s : State) (p : Nat) : (s.afterPull p).bus = s.bus := rfl
@[simp] theorem afterPull_hist (s : State) (p : Nat) : (s.afterPull p).hist = s.hist := rfl
@[simp] theorem afterPull_stream (s : State) (p : Nat) : (s.afterPull p).stream = s.stream := rfl
@[simp] theorem afterPull_par (s : State) (p : Nat) : (s.afterPull p).par = s.par := rfl
@[simp] theorem released_S (s : State) : s.released.S = s.S := rfl
@[simp] theorem released_G (s : State) : s.released.G = s.G := rfl
@[simp] theorem released_M (s : State) : s.released.M = s.M := rfl
@[simp] theorem released_bus (s : State) : s.released.bus = s.bus := rfl
@[simp] theorem released_hist (s : State) : s.released.hist = s.hist := rfl
@[simp] theorem released_stream (s : State) : s.released.stream = s.stream := rfl
@[simp] theorem released_par (s : State) : s.released.par = s.par := rfl
@[simp] theorem linked_S (s : State) : s.linked.S = s.S := rfl
@[simp] theorem linked_G (s : State) : s.linked.G = s.G := rfl
@[simp] theorem linked_M (s : State) : s.linked.M = s.M := rfl
@[simp] theorem linked_E (s : State) : s.linked.E = s.E := rfl
@[simp] theorem linked_bus (s : State) : s.linked.bus = s.bus := rfl
@[simp] theorem linked_stream (s : State) : s.linked.stream = s.stream := rfl
@[simp] theorem linked_par (s : State) : s.linked.par = s.par := rfl
@[simp] theorem afterClock_E_radioClkEn (s : State) : s.afterClock.E.radioClkEn = s.E.radioClkEn := by unfold State.afterClock; split <;> rfl
@[simp] theorem afterClock_E_device (s : State) : s.afterClock.E.device = s.E.device := by unfold State.afterClock; split <;> rfl
@[simp] theorem afterClock_E_producers (s : State) : s.afterClock.E.producers = s.E.producers := by unfold State.afterClock; split <;> rfl
@[simp] theorem afterClock_E_allocs (s : State) : s.afterClock.E.allocs = s.E.allocs := by unfold State.afterClock; split <;> rfl
@[simp] theorem afterClock_E_handed (s : State) : s.afterClock.E.handed = s.E.handed := by unfold State.afterClock; split <;> rfl
@[simp] theorem afterClock_E_sched (s : State) : s.afterClock.E.sched = s.E.sched := by unfold State.afterClock; split <;> rfl
@[simp] theorem afterAlloc_E_busClock (s : State) : s.afterAlloc.E.busClock = s.E.busClock := by unfold State.afterAlloc; split <;> rfl
@[simp] theorem afterAlloc_E_radioClkEn (s : State) : s.afterAlloc.E.radioClkEn = s.E.radioClkEn := by unfold State.afterAlloc; split <;> rfl
@[simp] theorem afterAlloc_E_device (s : State) : s.afterAlloc.E.device = s.E.device := by unfold State.afterAlloc; split <;> rfl
@[simp] theorem afterAlloc_E_producers (s : State) : s.afterAlloc.E.producers = s.E.producers := by unfold State.afterAlloc; split <;> rfl
@[simp] theorem afterAlloc_E_handed (s : State) : s.afterAlloc.E.handed = s.E.handed := by unfold State.afterAlloc; split <;> rfl
@[simp] theorem afterAlloc_E_sched (s : State) : s.afterAlloc.E.sched = s.E.sched := by unfold State.afterAlloc; split <;> rfl
@[simp] theorem afterRaw_E_busClock (s : State) : s.afterRaw.E.busClock = s.E.busClock := by unfold State.afterRaw; split <;> rfl
@[simp] theorem afterRaw_E_radioClkEn (s : State) : s.afterRaw.E.radioClkEn = s.E.radioClkEn := by unfold State.afterRaw; split <;> rfl
@[simp] theorem afterRaw_E_producers (s : State) : s.afterRaw.E.producers = s.E.producers := by unfold State.afterRaw; split <;> rfl
@[simp] theorem afterRaw_E_allocs (s : State) : s.afterRaw.E.allocs = s.E.allocs := by unfold State.afterRaw; split <;> rfl
@[simp] theorem afterRaw_E_handed (s : State) : s.afterRaw.E.handed = s.E.handed := by unfold State.afterRaw; split <;> rfl
@[simp] theorem afterRaw_E_sched (s : State) : s.afterRaw.E.sched = s.E.sched := by unfold State.afterRaw; split <;> rfl
@[simp] theorem showLevel_E_busClock (s : State) (r : Role) (l : Bool) : (s.showLevel r l).E.busClock = s.E.busClock := by
  rw [showLevel_E]
@[simp] theorem showLevel_E_radioClkEn (s : State) (r : Role) (l : Bool) : (s.showLevel r l).E.radioClkEn = s.E.radioClkEn := by
  rw [showLevel_E]
@[simp] theorem showLevel_E_producers (s : State) (r : Role) (l : Bool) : (s.showLevel r l).E.producers = s.E.producers := by
  rw [showLevel_E]
@[simp] theorem showLevel_E_allocs (s : State) (r : Role) (l : Bool) : (s.showLevel r l).E.allocs = s.E.allocs := by
  rw [showLevel_E]
@[simp] theorem showLevel_E_handed (s : State) (r : Role) (l : Bool) : (s.showLevel r l).E.handed = s.E.handed := by
  rw [showLevel_E]
@[simp] theorem showLevel_E_sched (s : State) (r : Role) (l : Bool) : (s.showLevel r l).E.sched = s.E.sched := by
  rw [showLevel_E]
@[simp] theorem showLevel_E_drawn (s : State) (r : Role) (l : Bool) : (s.showLevel r l).E.drawn = s.E.drawn := by
  rw [showLevel_E]

/-- A micro-operation whose effect leaves the sequencer's registers alone leaves them alone. -/
theorem micro_S {blocked : State → Option Hold} {op : State → Effect α} (ho : ∀ s a t, op s = .done a t → t.S = s.S)
    {s t : State} {a : α} (h : micro blocked op s = .ok a t) : t.S = s.S := by
  rcases micro_cases blocked op s with ⟨u, b, v, e, r, -, o⟩ | ⟨u, c, e, -⟩ | ⟨u, m, e, -⟩ | ⟨u, x, e, -⟩
  · rw [h] at e; cases e; rw [ho u a t o, Reaches_S r]
  all_goals rw [h] at e; cases e

theorem bind_ok {m : Act α} {f : α → Act β} {s u : State} {b : β} (h : (m >>= f) s = .ok b u) :
    ∃ a t, m s = .ok a t ∧ f a t = .ok b u := by
  rw [Act_bind_run] at h
  cases hm : m s with
  | ok a t => exact ⟨a, t, rfl, by simpa [hm] using h⟩
  | error e t => simp [hm] at h

/-- Reading a byte leaves the sequencer's registers alone (R173). -/
theorem readByte_S {s t : State} {b : Byte} (h : readByte s = .ok b t) : t.S = s.S := by
  unfold readByte at h
  obtain ⟨_, s1, h1, h⟩ := bind_ok h
  obtain ⟨_, s2, h2, h⟩ := bind_ok h
  obtain ⟨_, s3, h3, h⟩ := bind_ok h
  obtain ⟨_, s4, h4, h⟩ := bind_ok h
  obtain ⟨_, s5, h5, h⟩ := bind_ok h
  cases h5
  cases h
  have hs : ∀ s a t, gpioReadRawOp s = .done a t → t.S = s.S := fun s a t e => by cases e; simp
  have hl : ∀ r l s a t, gpioLevelOp r l s = .done a t → t.S = s.S := fun r l s a t e => by
    obtain ⟨-, rfl⟩ := gpioLevelOp_done e; simp
  rw [micro_S (hl _ _) h4, micro_S (hl _ _) h3, micro_S hs h2, micro_S hs h1]

theorem Doing_readValue {i : Instr} (h : i.opcode ∈ readers) (n k : Nat) (v : Word) : Doing i (readValue n k v) := by
  induction n generalizing k v with
  | zero => exact Doing_pure _
  | succ n ih => exact Doing_bind (Doing_readByte h) fun _ => ih _ _

theorem Doing_storeBytes {i : Instr} {dst len : Nat} {f : Bool} (h : i = .readBytes dst len f) (n a : Nat) (h1 : dst ≤ a)
    (h2 : a + n ≤ dst + len) : Doing i (storeBytes n a) := by
  induction n generalizing a with
  | zero => exact Doing_pure ()
  | succ n ih =>
    refine Doing_bind (Doing_readByte (by simp [h, Instr.opcode, readers])) fun b => Doing_bind ?_ fun _ =>
      ih (a + 1) (by omega) (by omega)
    exact Doing_micro fun s _ t hb ho => by
      cases ha : s.par.admits a <;> simp [ha] at hb
      cases ho
      exact .memWrite dst len f h a b ha h1 (by omega)

theorem Does_fillRdbuf {i : Instr} (h : i.opcode = .readPixels) (n : Nat) :
    Does i (fun s => s.S.rdbuf.length + n ≤ 32) (fillRdbuf n) fun _ _ => True := by
  induction n with
  | zero => exact Does_pure () fun _ _ => trivial
  | succ n ih =>
    refine Does_bind (R := fun _ s => s.S.rdbuf.length + (n + 1) ≤ 32) ?_ fun b => Does_bind ?_ fun _ => ih
    · refine Does_also (Does_weaken (Doing_readByte (by simp [h, readers])) (fun _ _ => trivial) fun _ _ h => h)
        fun s a t hs e => ?_
      rw [readByte_S e]; exact hs
    · exact Does_update (fun s hs => .setRdbuf h _ (by simp only [List.length_append, List.length_singleton]; omega))
        fun s hs => by simp only [setRdbuf_S_rdbuf, List.length_append, List.length_singleton]; omega

theorem Doing_readLoop {i : Instr} {dst p len : Nat} (h : i = .readPixels dst p len) {bpp batch : Nat}
    (hb : batch * bpp ≤ 32) (length rounds start : Nat) : Doing i (readLoop p dst bpp batch length rounds start) := by
  have ho : i.opcode = .readPixels := by simp [h, Instr.opcode]
  induction rounds generalizing start with
  | zero => exact Doing_pure ()
  | succ n ih =>
    unfold readLoop
    split
    · have hm : min batch (length - start) * bpp ≤ 32 := (Nat.mul_le_mul_right _ (Nat.min_le_left _ _)).trans hb
      refine Does_bind (R := fun _ s => s.S.rdbuf.length + min batch (length - start) * bpp ≤ 32)
        (Does_update (fun s _ => .setRdbuf ho [] (by simp)) fun s _ => by simpa using hm) fun _ =>
        Does_bind (Does_fillRdbuf ho _) fun _ => Doing_bind ?_ fun _ => Doing_bind (Doing_check _ _) fun _ => ih _
      exact Doing_micro fun s _ t _ e => by cases e; exact .pullRead p dst _ _ len h
    · exact Doing_pure ()

theorem Doing_readPixbuf {i : Instr} (k : Nat) : Doing i (readPixbuf k) := fun s _ => by
  show Did i s s ∧ True
  exact ⟨.here, trivial⟩

theorem Doing_pixelLoop {i : Instr} {p len : Nat} (h : i = .writePixels p len) {bpp limit : Nat}
    (hb : limit * bpp ≤ 512) (length rounds start chunk : Nat) (hc : chunk ≤ limit) :
    Doing i (pixelLoop p bpp limit length rounds start chunk) := by
  have ho : i.opcode = .writePixels := by simp [h, Instr.opcode]
  induction rounds generalizing start chunk with
  | zero => exact Doing_pure ()
  | succ n ih =>
    unfold pixelLoop
    split
    · refine Doing_bind ?_ fun _ => Doing_bind (Doing_check _ _) fun _ => Doing_bind ?_ fun _ => ih _ _ (Nat.le_refl _)
      · exact Doing_micro fun s _ t _ e => by
          cases e; exact .pullWrite p _ _ _ len h ((Nat.mul_le_mul_right _ hc).trans hb)
      · exact Doing_bytesBody (by simp [ho]) Doing_readPixbuf (by simp) _
    · exact Doing_pure ()

theorem Doing_writeChecks {i : Instr} : Doing i writeChecks :=
  Doing_bind (Doing_check _ _) fun _ => Doing_bind (Doing_check _ _) fun _ => Doing_check _ _

theorem Doing_readChecks {i : Instr} : Doing i readChecks :=
  Doing_bind (Doing_check _ _) fun _ => Doing_bind (Doing_check _ _) fun _ => Doing_check _ _

/-- After the producer checks the pixels have 2 or 3 bytes. -/
theorem Does_producerChecks {i : Instr} (p : Nat) :
    Does i (fun _ => True) (producerChecks p) fun _ s => s.E.bpp p = 2 ∨ s.E.bpp p = 3 :=
  Does_bind (Does_check _ _) fun _ => Does_weaken (Does_check _ _) (fun _ _ => trivial) fun _ s h => by
    simpa using h.2

/-! ## exec -/

/-- Everything exec can do: the instruction did what it may do and the command pointer advances by its packet length, or
it was stopped. -/
theorem exec_did {i : Instr} {s t : State} (h : exec i s = .next t) :
    (∃ u, Did i s u ∧ t = u.advance i.opcode.row.len) ∨ Halted i s t := by
  have hc : ∀ {m : Act Unit} {o : Opcode}, o = i.opcode → Doing i m → command o m s = .next t →
      (∃ u, Did i s u ∧ t = u.advance i.opcode.row.len) ∨ Halted i s t := by
    intro m o ho hd he
    have hd := hd s trivial
    unfold command at he
    cases hm : m s with
    | ok a u =>
      simp only [hm, Host.Outcome.next.injEq] at he hd
      exact .inl ⟨u, hd.1, by rw [← he, ho]⟩
    | error e u =>
      simp only [hm, Host.Outcome.next.injEq] at he hd
      exact .inr (he ▸ hd)
  have hpix : ∀ {f : Nat → Act Unit} (p : Nat), (∀ b, b = 2 ∨ b = 3 → Doing i (f b)) →
      Doing i (producerChecks p >>= fun _ => (get : Act State) >>= fun t => f (t.E.bpp p)) := fun p hf =>
    Does_bind (Does_producerChecks p) fun _ => Does_bind Does_get fun t s hs => by
      obtain ⟨rfl, hs⟩ := hs
      exact hf _ hs t trivial
  cases i with
  | config inst d rd wr rs freq =>
    exact hc (o := .config) rfl (Doing_bind (Doing_check _ _) fun _ => Doing_bind (Doing_check _ _) fun _ =>
      Doing_update fun _ => .setCfg rfl _) h
  | init =>
    refine hc (o := .init) rfl (Doing_bind (Doing_check _ _) fun _ => Doing_bind (Doing_update fun _ => .setHandles rfl)
      fun _ => Doing_bind (Doing_initPins (by simp [Instr.opcode])) fun _ => Doing_bind Doing_get fun t => Doing_bind ?_
      fun _ => Doing_bind (Doing_forEach fun w _ => ?_) fun _ => Doing_bind (Doing_descRealloc (by simp [Instr.opcode]) _)
      fun _ => Doing_update fun _ => .initialised rfl) h
    · exact Doing_micro fun s _ t _ ho => by
        obtain ⟨-, rfl⟩ := regWriteOp_done ho
        exact .intEna rfl _
    · exact Doing_micro fun s _ t _ ho => by cases ho; exact .modeWr rfl _ _
  | release => exact hc (o := .release) rfl (Doing_pure ()) h
  | beginTransaction =>
    refine hc (o := .beginTransaction) rfl (Doing_bind (Doing_check _ _) fun _ => Doing_bind (Doing_check _ _) fun _ =>
      Doing_bind (Doing_waitIdle (by simp [Instr.opcode, waiters])) fun _ => Doing_bind ?_ fun _ =>
      Doing_bind (Doing_update fun _ => .setCache rfl _) fun _ => Doing_bind Doing_get fun t => Doing_bind ?_ fun _ =>
      Doing_bind (Doing_regWrite (by simp [Instr.opcode]) (.inl rfl)) fun _ =>
      Doing_bind (Doing_regWrite (by simp [Instr.opcode]) (.inr rfl)) fun _ => Doing_update fun _ => .beginTxn rfl) h
    · exact Doing_micro fun s _ t _ ho => by cases ho; exact .clock rfl
    · exact Doing_micro fun s _ t _ ho => by
        obtain ⟨hz, rfl⟩ := regWriteOp_done ho
        refine .clkm rfl _ ?_
        simpa [State.regHazard, RegImage.reg] using hz
  | endTransaction =>
    exact hc (o := .endTransaction) rfl (Doing_bind (Doing_check _ _) fun _ => Doing_bind (Doing_check _ _) fun _ =>
      Doing_bind (Doing_check _ _) fun _ => Doing_update fun _ => .endTxn rfl) h
  | wait =>
    exact hc (o := .wait) rfl (Doing_bind (Doing_check _ _) fun _ => Doing_waitIdle (by simp [Instr.opcode, waiters])) h
  | busy =>
    refine hc (o := .busy) rfl (Doing_bind (Doing_check _ _) fun _ => Doing_bind ?_ fun b =>
      Doing_update fun _ => .setRes (.inl rfl) _) h
    exact Doing_micro fun s _ t hb ho => by
      cases hw : s.pollReady <;> simp [hw] at hb
      cases ho; exact .poll rfl hw
  | writeCommand v b =>
    exact hc (o := .writeCommand) rfl (Doing_bind Doing_writeChecks fun _ => Doing_bind (Doing_check _ _) fun _ =>
      Doing_scalarWrite (by simp [Instr.opcode, writers]) _ _ _) h
  | writeData v b =>
    exact hc (o := .writeData) rfl (Doing_bind Doing_writeChecks fun _ => Doing_bind (Doing_check _ _) fun _ =>
      Doing_scalarWrite (by simp [Instr.opcode, writers]) _ _ _) h
  | writeDataRepeat v b n =>
    refine hc (o := .writeDataRepeat) rfl (Doing_bind Doing_writeChecks fun _ => Doing_bind (Doing_check _ _) fun _ =>
      Doing_bind (Doing_check _ _) fun _ => ?_) h
    split
    · exact Doing_repeatLoop rfl _ _ _ _ _
    · refine Doing_bind (m := leftoverPixel v b n) ?_ fun _ => ?_
      · unfold leftoverPixel
        split
        · exact Doing_scalarWrite (by simp [Instr.opcode, writers]) _ _ _
        · exact Doing_pure ()
      · unfold repeatPairs
        split
        · exact Doing_pure ()
        · exact Doing_repeatLoop rfl _ _ _ _ _
  | writeBytes buffer len dma =>
    refine hc (o := .writeBytes) rfl (Doing_bind Doing_writeChecks fun _ => Doing_bind (Doing_check _ _) fun _ =>
      Doing_bytesBody (by simp [Instr.opcode]) (fun k => ?_) (fun _ => rfl) _) h
    exact Doing_micro fun s _ t hb ho => by
      cases ha : s.par.admits (buffer + k) <;> simp [ha] at hb
      cases ho; exact .memRead buffer len dma rfl _ ha
  | writePixels p len =>
    refine hc (o := .writePixels) rfl (Doing_bind Doing_writeChecks fun _ =>
      hpix (f := fun b => pixelLoop p b (pixLimit b) len len 0 (leadingChunk len (pixLimit b))) p fun b hb => ?_) h
    have hl : pixLimit b * b ≤ 512 := by rcases hb with rfl | rfl <;> decide
    refine Doing_pixelLoop rfl hl _ _ _ _ ?_
    unfold leadingChunk
    split
    · exact Nat.le_refl _
    · exact (Nat.mod_lt _ (by rcases hb with rfl | rfl <;> decide)).le
  | beginRead =>
    exact hc (o := .beginRead) rfl (Doing_bind Doing_writeChecks fun _ =>
      Doing_bind (Doing_waitIdle (by simp [Instr.opcode, waiters])) fun _ =>
      Doing_bind (Doing_readPins (by simp [Instr.opcode, routers])) fun _ =>
      Doing_update fun _ => .setRead true (.inl ⟨rfl, rfl⟩)) h
  | endRead =>
    exact hc (o := .endRead) rfl (Doing_bind Doing_readChecks fun _ =>
      Doing_bind (Doing_waitIdle (by simp [Instr.opcode, waiters])) fun _ =>
      Doing_bind (Doing_initPins (by simp [Instr.opcode])) fun _ =>
      Doing_update fun _ => .setRead false (.inr ⟨rfl, rfl⟩)) h
  | readData b =>
    exact hc (o := .readData) rfl (Doing_bind Doing_readChecks fun _ => Doing_bind (Doing_check _ _) fun _ =>
      Doing_bind (Doing_readValue (by simp [Instr.opcode, readers]) _ _ _) fun _ =>
      Doing_update fun _ => .setRes (.inr rfl) _) h
  | readBytes dst len f =>
    exact hc (o := .readBytes) rfl (Doing_bind Doing_readChecks fun _ => Doing_bind (Doing_check _ _) fun _ =>
      Doing_storeBytes rfl len dst (Nat.le_refl _) (Nat.le_refl _)) h
  | readPixels dst p len =>
    refine hc (o := .readPixels) rfl (Doing_bind Doing_readChecks fun _ =>
      hpix (f := fun b => readLoop p dst b (rdBatch b) len len 0) p fun b hb => ?_) h
    exact Doing_readLoop rfl (by rcases hb with rfl | rfl <;> decide) _ _ _

end Sys2Proof.Machine
end

