-- ==== Sys2Proof/Laws/Turns.lean ====
section
/-!
SUPPORT. What can happen before a micro-operation's turn, exactly:
* `Waits s t`: listed moves, and peripheral steps with no move listed, lead from `s` to `t`.
* `micro_waits`: everything a micro-operation can do; a hold for good leaves no peripheral step that would be taken.
* `Runs_micro`, `Runs_atom`: the rules for one micro-operation.
-/

namespace Sys2Proof.Machine

/-- The interleaving as listed, and with none listed the peripheral's steps under `HW_PROGRESS`, lead from `s` to `t`. -/
inductive Waits (s : State) : State → Prop where
  | here : Waits s s
  | took {t : State} {ms : List Move} (h : Waits s t) (e : t.E.sched = .seq :: ms) : Waits s (t.setSched ms)
  | listed {t : State} {m : Move} {ms : List Move} (h : Waits s t) (e : t.E.sched = m :: ms)
      (hf : ((t.setSched ms).moved m).S.fault = none) : Waits s ((t.setSched ms).moved m)
  | settled {t u : State} (h : Waits s t) (e : t.E.sched = []) (hp : t.par.hwProgress = true) (hw : hwStep t = some u)
      (hf : u.S.fault = none) : Waits s u

/-- A move, listed or not, takes a fault after `t`. -/
inductive Fails (t : State) : State → Prop where
  | listed {m : Move} {ms : List Move} (e : t.E.sched = m :: ms) (hf : ((t.setSched ms).moved m).S.fault ≠ none) :
      Fails t ((t.setSched ms).moved m)
  | settled {u : State} (e : t.E.sched = []) (hp : t.par.hwProgress = true) (hw : hwStep t = some u)
      (hf : u.S.fault ≠ none) : Fails t u

theorem Waits.trans {s t u : State} (h : Waits s t) (k : Waits t u) : Waits s u := by
  induction k with
  | here => exact h
  | took _ e ih => exact .took ih e
  | listed _ e hf ih => exact .listed ih e hf
  | settled _ e hp hw hf ih => exact .settled ih e hp hw hf

theorem Waits.reaches {s t : State} (h : Waits s t) : Reaches s t := by
  induction h with
  | here => exact .here
  | took _ _ ih => exact .took ih _
  | listed _ _ hf ih => exact .moved (.took ih _) _ hf
  | settled _ _ _ hw hf ih => obtain ⟨m, rfl⟩ := hwStep_moved hw; exact .moved ih m hf

theorem Waits.keeps {I : State → Prop} {s t : State} (h : Waits s t) (hI : I s)
    (ht : ∀ u ms, I u → u.E.sched = .seq :: ms → I (u.setSched ms))
    (hm : ∀ u m ms, I u → u.E.sched = m :: ms → ((u.setSched ms).moved m).S.fault = none → I ((u.setSched ms).moved m))
    (hw : ∀ u v, I u → u.E.sched = [] → u.par.hwProgress = true → hwStep u = some v → v.S.fault = none → I v) : I t := by
  induction h with
  | here => exact hI
  | took _ e ih => exact ht _ _ ih e
  | listed _ e hf ih => exact hm _ _ _ ih e hf
  | settled _ e hp h hf ih => exact hw _ _ ih e hp h hf

theorem moved_sched (u : State) (m : Move) : (u.moved m).E.sched = u.E.sched := by
  cases m with
  | seq => rfl
  | tx =>
    cases hx : txStep u with
    | none => simp [State.moved, hx]
    | some v =>
      simp only [State.moved, hx, Option.getD_some]
      rcases txStep_cases hx with ⟨-, rfl⟩ | ⟨-, -, ⟨-, w, ws, -, rfl⟩ | ⟨-, -, x, xs, -, ⟨-, rfl⟩ | ⟨-, rfl⟩⟩ | ⟨-, rfl⟩⟩
      · rfl
      · rw [cycles_E]; rfl
      · rfl
      · rw [cycle_E]; rfl
      · simp
  | dma =>
    cases hx : dmaStep u with
    | none => simp [State.moved, hx]
    | some v =>
      simp only [State.moved, hx, Option.getD_some]
      rcases dmaStep_cases hx with ⟨-, -, -, ⟨-, rfl⟩ | ⟨-, rfl⟩⟩ <;> rfl
  | radio v => rfl
  | clkm v => simp only [State.moved]; split <;> rfl

/-- A suffix of the interleaving remains. -/
theorem Waits.sched {s t : State} (h : Waits s t) : t.E.sched <:+ s.E.sched := by
  induction h with
  | here => exact List.suffix_refl _
  | took _ e ih => rw [e] at ih; exact (List.suffix_cons _ _).trans ih
  | listed _ e _ ih => rw [e] at ih; rw [moved_sched]; exact (List.suffix_cons _ _).trans ih
  | settled _ _ _ hw _ ih => obtain ⟨m, rfl⟩ := hwStep_moved hw; rw [moved_sched]; exact ih

/-! ## How many peripheral steps are left -/

/-- The peripheral steps left, at most. -/
def State.hwLeft (s : State) : Nat :=
  (if s.P.tx.latchPending then 1 else 0) +
    if s.P.tx.running then
      1 + if s.P.regs.fconf.dscrEn then
        (if s.P.dma.latched then s.P.dma.stream.length else (s.P.scratch s.P.dma.buf).length + 1)
      else s.P.fifo.length
    else if s.P.dma.loaded && !s.P.dma.latched && s.P.regs.fconf.dscrEn then 1 else 0

theorem hwLeft_le (s : State) : s.hwLeft ≤ hwFuel s := by
  unfold State.hwLeft hwFuel
  split <;> split <;> (try split) <;> (try split) <;> omega

/-- A peripheral step that is no fault leaves fewer. -/
theorem hwStep_left {s t : State} (h : hwStep s = some t) (hf : t.S.fault = none) :
    t.hwLeft < s.hwLeft := by
  unfold hwStep at h
  cases hx : txStep s with
  | some u =>
    simp only [hx, Option.some.injEq] at h
    subst h
    rcases txStep_cases hx with ⟨hp, rfl⟩ | ⟨hp, hr, ⟨hd, w, ws, hq, rfl⟩ | ⟨hd, hl, x, xs, hq, ⟨-, rfl⟩ | ⟨-, rfl⟩⟩ |
      ⟨hd, rfl⟩⟩
    · cases hr : s.P.tx.running
      · cases hd : (s.P.dma.loaded && !s.P.dma.latched && s.P.regs.fconf.dscrEn) <;>
          simp [State.hwLeft, hp, hr, hd, State.setTx]
      · cases hd : s.P.regs.fconf.dscrEn <;> cases hl : s.P.dma.latched <;>
          simp [State.hwLeft, hp, hr, hd, hl, State.setTx, Peripheral.scratch]
    · simp [State.hwLeft, hp, hr, hd, hq]
    · simp at hf
    · simp [State.hwLeft, hp, hr, hd, hl, hq]
    · cases hd' : s.P.regs.fconf.dscrEn <;> simp [State.hwLeft, finish_dma, hp, hr, hd']
  | none =>
    simp only [hx] at h
    rcases dmaStep_cases h with ⟨hl, ha, hd, ⟨-, rfl⟩ | ⟨-, rfl⟩⟩
    · simp at hf
    · unfold State.hwLeft
      cases hr : s.P.tx.running
      · simp [hl, ha, hd, hr]
      · simp [hl, ha, hd, hr]

/-! ## A micro-operation -/

theorem settle_waits {blocked : State → Option Hold} {n : Nat} {s : State} (hq : s.E.sched = []) (hs : s.S.fault = none)
    (hn : s.hwLeft ≤ n) :
    (∃ t, settle blocked n s = .ok () t ∧ Waits s t ∧ blocked t = none) ∨
    (∃ t u, settle blocked n s = .error .faulted u ∧ Waits s t ∧ Fails t u) ∨
    ∃ t h, settle blocked n s = .error .held (t.setHold h) ∧ Waits s t ∧ blocked t = some h ∧
      (t.par.hwProgress = true → hwStep t = none) := by
  induction n generalizing s with
  | zero =>
    cases hb : blocked s with
    | none => exact .inl ⟨s, by simp [settle, hb], .here, hb⟩
    | some h =>
      refine .inr (.inr ⟨s, h, by simp [settle, hb], .here, hb, fun _ => ?_⟩)
      cases hw : hwStep s with
      | none => rfl
      | some u =>
        exfalso
        have hz : s.hwLeft = 0 := by omega
        unfold hwStep at hw
        cases hx : txStep s with
        | some v =>
          unfold State.hwLeft at hz
          rcases txStep_cases hx with ⟨hp, -⟩ | ⟨-, hr, -⟩
          · simp [hp] at hz
          · simp [hr] at hz
        | none =>
          simp only [hx] at hw
          obtain ⟨hl, ha, hd, -⟩ := dmaStep_cases hw
          unfold State.hwLeft at hz
          simp only [hl, ha, hd] at hz
          split at hz <;> split at hz <;> simp at hz
  | succ n ih =>
    cases hb : blocked s with
    | none => exact .inl ⟨s, by simp [settle, hb], .here, hb⟩
    | some h =>
      by_cases hp : s.par.hwProgress = true
      · cases hw : hwStep s with
        | none => exact .inr (.inr ⟨s, h, by simp [settle, hb, hp, hw], .here, hb, fun _ => hw⟩)
        | some u =>
          by_cases hf : u.S.fault = none
          · have e : settle blocked (n + 1) s = settle blocked n u := by simp [settle, hb, hp, hw, hf]
            have r : Waits s u := .settled .here hq hp hw hf
            have hq' : u.E.sched = [] := by simpa [hq] using r.sched
            have hl := hwStep_left hw hf
            rw [e]
            rcases ih hq' hf (by omega) with ⟨t, h1, h2, h3⟩ | ⟨t, v, h1, h2, h3⟩ | ⟨t, h', h1, h2, h3⟩
            · exact .inl ⟨t, h1, r.trans h2, h3⟩
            · exact .inr (.inl ⟨t, v, h1, r.trans h2, h3⟩)
            · exact .inr (.inr ⟨t, h', h1, r.trans h2, h3⟩)
          · have hf' : u.S.fault.isSome = true := Option.isSome_iff_ne_none.mpr hf
            exact .inr (.inl ⟨s, u, by simp [settle, hb, hp, hw, hf'], .here, .settled hq hp hw hf⟩)
      · exact .inr (.inr ⟨s, h, by simp [settle, hb, hp], .here, hb, fun h => absurd h hp⟩)

theorem await_waits {blocked : State → Option Hold} {s : State} (hs : s.S.fault = none) :
    (∃ t, await blocked s.E.sched s = .ok () t ∧ Waits s t ∧ blocked t = none) ∨
    (∃ t u, await blocked s.E.sched s = .error .faulted u ∧ Waits s t ∧ Fails t u) ∨
    ∃ t h, await blocked s.E.sched s = .error .held (t.setHold h) ∧ Waits s t ∧ blocked t = some h ∧ t.E.sched = [] ∧
      (t.par.hwProgress = true → hwStep t = none) := by
  generalize hq : s.E.sched = q
  induction q generalizing s with
  | nil =>
    rcases settle_waits (blocked := blocked) hq hs (hwLeft_le s) with h | h | ⟨t, h', h1, h2, h3, h4⟩
    · exact .inl h
    · exact .inr (.inl h)
    · exact .inr (.inr ⟨t, h', h1, h2, h3, by simpa [hq] using h2.sched, h4⟩)
  | cons m ms ih =>
    by_cases hm : m = .seq
    · subst hm
      have r : Waits s (s.setSched ms) := .took .here hq
      cases hb : blocked (s.setSched ms) with
      | none => exact .inl ⟨_, by simp [await, hb], r, hb⟩
      | some h =>
        have e : await blocked (.seq :: ms) s = await blocked ms (s.setSched ms) := by simp [await, hb]
        rw [e]
        rcases ih (s := s.setSched ms) hs rfl with ⟨t, h1, h2, h3⟩ | ⟨t, v, h1, h2, h3⟩ | ⟨t, h', h1, h2, h3⟩
        · exact .inl ⟨t, h1, r.trans h2, h3⟩
        · exact .inr (.inl ⟨t, v, h1, r.trans h2, h3⟩)
        · exact .inr (.inr ⟨t, h', h1, r.trans h2, h3⟩)
    · by_cases hf : ((s.setSched ms).moved m).S.fault = none
      · have r : Waits s ((s.setSched ms).moved m) := .listed .here hq hf
        have hq' : ((s.setSched ms).moved m).E.sched = ms := moved_sched _ m
        have e : await blocked (m :: ms) s = await blocked ms ((s.setSched ms).moved m) := by simp [await, hm, hf]
        rw [e]
        rcases ih hf hq' with ⟨t, h1, h2, h3⟩ | ⟨t, v, h1, h2, h3⟩ | ⟨t, h', h1, h2, h3⟩
        · exact .inl ⟨t, h1, r.trans h2, h3⟩
        · exact .inr (.inl ⟨t, v, h1, r.trans h2, h3⟩)
        · exact .inr (.inr ⟨t, h', h1, r.trans h2, h3⟩)
      · have hf' : ((s.setSched ms).moved m).S.fault.isSome = true := Option.isSome_iff_ne_none.mpr hf
        exact .inr (.inl ⟨s, _, by simp [await, hm, hf'], .here, .listed hq hf⟩)

/-- Everything a micro-operation can do. -/
theorem micro_waits {blocked : State → Option Hold} {op : State → Effect α} {s : State} (hs : s.S.fault = none) :
    (∃ t a u, micro blocked op s = .ok a u ∧ Waits s t ∧ blocked t = none ∧ op t = .done a u) ∨
    (∃ t c, micro blocked op s = .error .faulted (t.takeFault c) ∧ Waits s t ∧ blocked t = none ∧ op t = .raise c) ∨
    (∃ t u, micro blocked op s = .error .faulted u ∧ Waits s t ∧ Fails t u) ∨
    ∃ t h, micro blocked op s = .error .held (t.setHold h) ∧ Waits s t ∧ blocked t = some h ∧ t.E.sched = [] ∧
      (t.par.hwProgress = true → hwStep t = none) := by
  rcases await_waits (blocked := blocked) hs with ⟨t, h1, h2, h3⟩ | ⟨t, u, h1, h2, h3⟩ | ⟨t, h', h1, h2, h3⟩
  · cases ho : op t with
    | raise c => exact .inr (.inl ⟨t, c, by simp [micro, h1, perform, ho], h2, h3, ho⟩)
    | done a u => exact .inl ⟨t, a, u, by simp [micro, h1, perform, ho], h2, h3, ho⟩
  · exact .inr (.inr (.inl ⟨t, u, by simp [micro, h1], h2, h3⟩))
  · exact .inr (.inr (.inr ⟨t, h', by simp [micro, h1], h2, h3⟩))

/-- What the moves before a micro-operation keep. -/
structure Stable (P : State → Prop) : Prop where
  took : ∀ {u ms}, P u → u.E.sched = .seq :: ms → P (u.setSched ms)
  listed : ∀ {u m ms}, P u → u.E.sched = m :: ms → ((u.setSched ms).moved m).S.fault = none → P ((u.setSched ms).moved m)
  settled : ∀ {u v}, P u → u.E.sched = [] → u.par.hwProgress = true → hwStep u = some v → v.S.fault = none → P v

theorem Stable.of_moves {P : State → Prop} (hs : ∀ u ms, P u → P (u.setSched ms))
    (hm : ∀ u m, P u → (u.moved m).S.fault = none → P (u.moved m)) : Stable P where
  took h _ := hs _ _ h
  listed h _ hf := hm _ _ (hs _ _ h) hf
  settled h _ _ hw hf := by obtain ⟨m, rfl⟩ := hwStep_moved hw; exact hm _ _ h hf

theorem Stable.and {P Q : State → Prop} (hP : Stable P) (hQ : Stable Q) : Stable fun s => P s ∧ Q s where
  took h e := ⟨hP.took h.1 e, hQ.took h.2 e⟩
  listed h e hf := ⟨hP.listed h.1 e hf, hQ.listed h.2 e hf⟩
  settled h e hp hw hf := ⟨hP.settled h.1 e hp hw hf, hQ.settled h.2 e hp hw hf⟩

theorem Stable.waits {P : State → Prop} (hP : Stable P) {s t : State} (h : Waits s t) (hs : P s) : P t :=
  h.keeps hs (fun _ _ => hP.took) (fun _ _ _ => hP.listed) fun _ _ => hP.settled

/-- A micro-operation from a state with a property that the moves before it keep. -/
theorem Runs_micro {P : State → Prop} {Q : α → State → Prop} {E : State → Prop} {blocked : State → Option Hold}
    {op : State → Effect α} (hP : Stable P) (hl : ∀ s, P s → s.S.fault = none)
    (done : ∀ s a t, P s → blocked s = none → op s = .done a t → Q a t)
    (raise : ∀ s c, P s → blocked s = none → op s = .raise c → E (s.takeFault c))
    (fail : ∀ s t, P s → Fails s t → E t)
    (held : ∀ s h, P s → blocked s = some h → s.E.sched = [] → (s.par.hwProgress = true → hwStep s = none) →
      E (s.setHold h)) : Runs P (micro blocked op) Q E := by
  intro s hs
  rcases micro_waits (blocked := blocked) (op := op) (hl s hs) with ⟨t, a, u, e, w, b, o⟩ | ⟨t, c, e, w, b, o⟩ |
    ⟨t, u, e, w, f⟩ | ⟨t, h, e, w, b, q, n⟩
  · rw [e]; exact done t a u (hP.waits w hs) b o
  · rw [e]; exact raise t c (hP.waits w hs) b o
  · rw [e]; exact fail t u (hP.waits w hs) f
  · rw [e]; exact held t h (hP.waits w hs) b q n

end Sys2Proof.Machine
end

