-- ==== Sys2Proof/Laws/Sending.lean ====
section
/-!
SUPPORT. Writing to the bus, whatever is still being sent and whatever the other agents do.
* `State.view`: what no move changes: the bus events sent and still to come among them (`moved_view`).
* `Sending`, `Quiet`, `Filling`, `Loading`: where a write command stands; the moves keep each of them.
* One rule per micro-operation of the write path, and per shared sequence of them: what it adds to the view.
`g` says that the launch is sound, and the radio stays off (`r`) or stays on (`¬ r`): then nothing stops a write but its
operands; without `g` a write may be stopped.
-/

namespace Sys2Proof.Machine

/-! ## What no move changes -/

/-- The data bytes of bus events. -/
def dataOf (es : List BusEvent) : List Byte := es.filterMap fun e =>
  match e with
  | .wr true b => some b
  | .wr false _ => none
  | .lvl _ _ => none

@[simp] theorem dataOf_append (es fs : List BusEvent) : dataOf (es ++ fs) = dataOf es ++ dataOf fs := by
  simp [dataOf]

/-- The fields no move changes, the bus events sent and still to come, and the bytes a loopback device will have queued. -/
structure View where
  S : Sequencer
  M : Memory
  par : Params
  G : Pads
  producers : List Producer
  allocs : List (Option Word)
  hist : List (Nat × Event)
  output : List BusEvent
  echo : Option (List Byte)

def State.view (s : State) : View :=
  ⟨s.S, s.M, s.par, s.G, s.E.producers, s.E.allocs, s.hist, s.output, s.E.device.loopback.map (· ++ dataOf s.pending)⟩

theorem onCycle_loopback (d : Device) (e : BusEvent) : (d.onCycle e).loopback = d.loopback.map (· ++ dataOf [e]) := by
  cases e with
  | wr rs b => cases rs <;> cases h : d.loopback <;> simp [Device.onCycle, dataOf, h]
  | lvl r l => cases h : d.loopback <;> simp [Device.onCycle, dataOf, h]

theorem cycle_loopback {s : State} (hw : s.G.writeRouting = true) (h : Sample) :
    (s.cycle h).E.device.loopback = s.E.device.loopback.map (· ++ dataOf [cycleOf h]) := by
  simp [State.cycle, hw, onCycle_loopback]

theorem cycles_loopback {s : State} (hw : s.G.writeRouting = true) (hs : List Sample) :
    (s.cycles hs).E.device.loopback = s.E.device.loopback.map (· ++ dataOf (hs.map cycleOf)) := by
  induction hs generalizing s with
  | nil => cases h : s.E.device.loopback <;> simp [State.cycles, dataOf, h]
  | cons h hs ih =>
    rw [State.cycles, ih (by simpa using hw), cycle_loopback hw, Option.map_map]
    congr 1; funext x; simp [← dataOf_append]

/-- The transmitter runs in write routing only (R90). -/
def Routed (s : State) : Prop := s.P.tx.running = true → s.G.writeRouting = true

theorem txStep_pending {s t : State} (h : txStep s = some t) (hr : Routed s) (hf : t.S.fault = none) :
    t.output = s.output ∧
      t.E.device.loopback.map (· ++ dataOf t.pending) = s.E.device.loopback.map (· ++ dataOf s.pending) := by
  rcases txStep_cases h with ⟨-, rfl⟩ | ⟨-, hn, ⟨hd, w, ws, hq, rfl⟩ | ⟨hd, hl, x, xs, hq, ⟨-, rfl⟩ | ⟨-, rfl⟩⟩ | ⟨hd, rfl⟩⟩
  · exact ⟨rfl, rfl⟩
  · have hw := hr hn
    have e : s.pending = (samplesOf s.P.regs.src w).map cycleOf ++ ((s.setFifo ws).cycles (samplesOf s.P.regs.src w)).pending := by
      simp [State.pending, hd, hq]
    refine ⟨?_, ?_⟩
    · simp [State.output, e, cycles_bus (s := s.setFifo ws) hw]
    · rw [e, cycles_loopback (s := s.setFifo ws) hw, Option.map_map]
      congr 1; funext y; simp
  · simp at hf
  · have hw := hr hn
    have e : s.pending = [cycleOf x] ++ ((s.setDma { s.P.dma with stream := xs }).cycle x).pending := by
      simp [State.pending, hd, hl, hq]
    refine ⟨?_, ?_⟩
    · simp [State.output, e, cycle_bus, hw]
    · rw [e, cycle_loopback (s := s.setDma { s.P.dma with stream := xs }) hw, Option.map_map]
      congr 1; funext y; simp only [Function.comp, dataOf_append, List.append_assoc]
  · have e : s.pending = [] := by
      rcases hd with ⟨hd, hq⟩ | ⟨hd, ⟨hl, hq⟩ | ⟨hl, ho⟩⟩ <;> simp [State.pending, *]
    have e' : s.finish.pending = [] := by
      rcases hd with ⟨hd, hq⟩ | ⟨hd, ⟨hl, hq⟩ | ⟨hl, ho⟩⟩ <;> simp [State.pending, finish_dma, *]
    exact ⟨by simp [State.output, e, e'], by simp [e, e']⟩

theorem dmaStep_pending {s t : State} (h : dmaStep s = some t) (hf : t.S.fault = none) :
    t.output = s.output ∧ t.E = s.E ∧ t.pending = s.pending := by
  rcases dmaStep_cases h with ⟨hl, ha, hd, ⟨-, rfl⟩ | ⟨-, rfl⟩⟩
  · simp at hf
  · have e : (s.setDma { s.P.dma with latched := true, stream := (s.P.scratch s.P.dma.buf).take (s.P.desc.length / 2) }).pending
        = s.pending := by simp [State.pending, hd, ha, hl]
    exact ⟨by simp [State.output, e], rfl, e⟩

/-- A move that takes no fault changes nothing of the view. -/
theorem moved_view {s : State} {m : Move} (hr : Routed s) (hf : (s.moved m).S.fault = none) : (s.moved m).view = s.view := by
  have b := moved_beside s m
  have hk : (s.moved m).output = s.output ∧
      (s.moved m).E.device.loopback.map (· ++ dataOf (s.moved m).pending) =
        s.E.device.loopback.map (· ++ dataOf s.pending) := by
    cases m with
    | seq => exact ⟨rfl, rfl⟩
    | tx =>
      cases h : txStep s with
      | none => simp [State.moved, h]
      | some t => simp only [State.moved, h, Option.getD_some] at hf ⊢; exact txStep_pending h hr hf
    | dma =>
      cases h : dmaStep s with
      | none => simp [State.moved, h]
      | some t =>
        simp only [State.moved, h, Option.getD_some] at hf ⊢
        obtain ⟨h1, h2, h3⟩ := dmaStep_pending h hf
        exact ⟨h1, by rw [h2, h3]⟩
    | radio v => exact ⟨rfl, rfl⟩
    | clkm v => simp only [State.moved]; split <;> exact ⟨rfl, rfl⟩
  have e := b.env
  simp only [State.view, moved_S_of_fault hf, b.M, b.par, b.G, b.hist, hk.1, hk.2]
  rw [e]

theorem moved_running {s : State} {m : Move} (h : (s.moved m).P.tx.running = true) : s.P.tx.running = true := by
  cases m with
  | seq => exact h
  | tx =>
    cases hx : txStep s with
    | none => simpa [State.moved, hx] using h
    | some t =>
      simp only [State.moved, hx, Option.getD_some] at h
      rcases txStep_cases hx with ⟨-, rfl⟩ | ⟨-, hn, -⟩
      · simpa using h
      · exact hn
  | dma =>
    cases hx : dmaStep s with
    | none => simpa [State.moved, hx] using h
    | some t =>
      simp only [State.moved, hx, Option.getD_some] at h
      rcases dmaStep_cases hx with ⟨-, -, -, ⟨-, rfl⟩ | ⟨-, rfl⟩⟩ <;> simpa using h
  | radio v => exact h
  | clkm v => simp only [State.moved] at h; split at h <;> exact h

theorem Routed_moved {s : State} (h : Routed s) (m : Move) : Routed (s.moved m) := fun hr => by
  rw [(moved_beside s m).G]; exact h (moved_running hr)

/-- What a move can do to the peripheral. -/
inductive PMove (s : State) : Peripheral → Prop where
  | same : PMove s s.P
  | latch (h : s.P.tx.latchPending = true) : PMove s { s.P with tx := { s.P.tx with latchPending := false } }
  | pop (w : Word) (ws : List Word) (hr : s.P.tx.running = true) (hd : s.P.regs.fconf.dscrEn = false)
      (hq : s.P.fifo = w :: ws) : PMove s { s.P with fifo := ws }
  | drain (x : Sample) (xs : List Sample) (hr : s.P.tx.running = true) (hd : s.P.regs.fconf.dscrEn = true)
      (hl : s.P.dma.latched = true) (hq : s.P.dma.stream = x :: xs) :
      PMove s { s.P with dma := { s.P.dma with stream := xs } }
  | finishFifo (hr : s.P.tx.running = true) (hp : s.P.tx.latchPending = false) (hd : s.P.regs.fconf.dscrEn = false)
      (hq : s.P.fifo = []) : PMove s { s.P with tx := { s.P.tx with running := false } }
  | finishDma (hr : s.P.tx.running = true) (hp : s.P.tx.latchPending = false) (hd : s.P.regs.fconf.dscrEn = true)
      (h : s.P.dma.latched = true ∧ s.P.dma.stream = [] ∨ s.P.dma.latched = false ∧ s.P.dma.loaded = false) :
      PMove s { s.P with
        tx := { s.P.tx with running := false }
        dma := { s.P.dma with loaded := false, latched := false }
        desc := { s.P.desc with owner := false } }
  | load (hl : s.P.dma.loaded = true) (ha : s.P.dma.latched = false) (hd : s.P.regs.fconf.dscrEn = true) :
      PMove s { s.P with
        dma := { s.P.dma with latched := true, stream := (s.P.scratch s.P.dma.buf).take (s.P.desc.length / 2) } }
  | clkm (v : ClkmImage) (ht : s.S.txn = false) : PMove s { s.P with regs := { s.P.regs with clkm := v } }

theorem moved_P (s : State) (m : Move) : PMove s (s.moved m).P := by
  cases m with
  | seq => exact .same
  | tx =>
    cases hx : txStep s with
    | none => simpa [State.moved, hx] using PMove.same
    | some t =>
      simp only [State.moved, hx, Option.getD_some]
      rcases txStep_cases hx with ⟨hp, rfl⟩ | ⟨hp, hr, ⟨hd, w, ws, hq, rfl⟩ | ⟨hd, hl, x, xs, hq, ⟨-, rfl⟩ | ⟨-, rfl⟩⟩ |
        ⟨⟨hd, hq⟩ | ⟨hd, hq⟩, rfl⟩⟩
      · exact .latch hp
      · simpa [State.setFifo] using PMove.pop w ws hr hd hq
      · exact .same
      · simpa [State.setDma] using PMove.drain x xs hr hd hl hq
      · have e : s.finish.P = { s.P with tx := { s.P.tx with running := false } } := by simp [State.finish, hd, State.setTx]
        rw [e]; exact .finishFifo hr hp hd hq
      · have e : s.finish.P = { s.P with
            tx := { s.P.tx with running := false }
            dma := { s.P.dma with loaded := false, latched := false }
            desc := { s.P.desc with owner := false } } := by
          simp [State.finish, hd, State.setTx, State.setDma, State.setDescriptor]
        rw [e]; exact .finishDma hr hp hd hq
  | dma =>
    cases hx : dmaStep s with
    | none => simpa [State.moved, hx] using PMove.same
    | some t =>
      simp only [State.moved, hx, Option.getD_some]
      rcases dmaStep_cases hx with ⟨hl, ha, hd, ⟨-, rfl⟩ | ⟨-, rfl⟩⟩
      · exact .same
      · exact .load hl ha hd
  | radio v => exact .same
  | clkm v =>
    cases ht : s.S.txn with
    | true => simpa [State.moved, ht] using PMove.same
    | false => simpa [State.moved, ht, State.setRegs] using PMove.clkm v ht

/-! ## Where a write command stands -/

/-- The radio is on and stays on. -/
def RadioStaysOn (s : State) : Prop := s.E.radioClkEn ≠ 0#32 ∧ ∀ v, Move.radio v ∉ s.E.sched

/-- The launch is sound, and the radio stays off (`r`), or stays on while no load is held: a move takes no fault. -/
def Good (r : Prop) (s : State) : Prop :=
  s.par.sound ∧ (r → RadioOff s) ∧ (¬ r → RadioStaysOn s ∧ s.P.dma.loaded = false)

/-- What holds of the peripheral and the pins between any two micro-operations of a write command. -/
structure Writing (g r : Prop) (s : State) : Prop where
  live : s.live
  pins : s.G.writeRouting = true
  latch_running : s.P.tx.latchPending = true → s.P.tx.running = true
  latched_loaded : s.P.dma.latched = true → s.P.dma.loaded = true
  load_mode : s.P.dma.loaded = true → s.P.regs.fconf.dscrEn = true
  dma_fifo : s.P.regs.fconf.dscrEn = true → s.P.fifo = []
  good : g → Good r s

/-- The registers hold the images of the mode. -/
def InMode (s : State) : Prop := s.P.regs.src = s.S.mode.width ∧ s.P.regs.fconf = s.S.mode.fconf

/-- Nothing is queued or loaded but what is being transmitted. -/
structure Sending (g r : Prop) (s : State) : Prop where
  writing : Writing g r s
  mode : InMode s
  idle : s.P.tx.running = false → s.P.fifo = [] ∧ s.P.dma.loaded = false

/-- Nothing is being transmitted, queued or loaded. -/
structure Quiet (g r : Prop) (s : State) : Prop where
  writing : Writing g r s
  idle : s.P.tx.running = false
  fifo : s.P.fifo = []
  loaded : s.P.dma.loaded = false

/-- A FIFO mode, with room for `k` words while nothing is transmitted. -/
structure Filling (g r : Prop) (k : Nat) (s : State) : Prop where
  writing : Writing g r s
  mode : InMode s
  scalarOrBulk : s.P.regs.fconf.dscrEn = false
  room : g → s.P.tx.running = false ∧ s.P.fifo.length + k ≤ s.par.fifoDepth

/-- A load is held and not yet started. -/
structure Loading (g r : Prop) (s : State) : Prop where
  writing : Writing g r s
  mode : InMode s
  idle : s.P.tx.running = false
  loaded : s.P.dma.loaded = true

theorem RadioOff_took {s : State} {m : Move} {ms : List Move} (h : RadioOff s) (e : s.E.sched = m :: ms) :
    RadioOff (s.setSched ms) := ⟨h.1, fun v hv => h.2 v (by rw [e]; exact List.mem_cons_of_mem _ hv)⟩

theorem moved_radio (s : State) (m : Move) : (s.moved m).E.radioClkEn = (match m with | .radio v => v | _ => s.E.radioClkEn) := by
  cases m with
  | seq => rfl
  | tx =>
    cases hx : txStep s with
    | none => simp [State.moved, hx]
    | some v =>
      simp only [State.moved, hx, Option.getD_some]
      rcases txStep_cases hx with ⟨-, rfl⟩ | ⟨-, -, ⟨-, w, ws, -, rfl⟩ | ⟨-, -, x, xs, -, ⟨-, rfl⟩ | ⟨-, rfl⟩⟩ | ⟨-, rfl⟩⟩
      · rfl
      · rw [cycles_E]; rfl
      · rfl
      · rw [cycle_E]; rfl
      · simp
  | dma =>
    cases hx : dmaStep s with
    | none => simp [State.moved, hx]
    | some v =>
      simp only [State.moved, hx, Option.getD_some]
      rcases dmaStep_cases hx with ⟨-, -, -, ⟨-, rfl⟩ | ⟨-, rfl⟩⟩ <;> rfl
  | radio v => rfl
  | clkm v => simp only [State.moved]; split <;> rfl

theorem RadioOff_listed {s : State} {m : Move} {ms : List Move} (h : RadioOff s) (e : s.E.sched = m :: ms) :
    RadioOff ((s.setSched ms).moved m) := by
  have k := RadioOff_took h e
  refine ⟨?_, fun v hv => k.2 v (by rwa [moved_sched] at hv)⟩
  rw [moved_radio]
  cases m with
  | radio v => exact h.2 v (by simp [e])
  | _ => exact k.1

theorem hwStep_E {s t : State} (h : hwStep s = some t) : t.E.sched = s.E.sched ∧ t.E.radioClkEn = s.E.radioClkEn := by
  unfold hwStep at h
  cases hx : txStep s with
  | some u =>
    simp only [hx, Option.some.injEq] at h
    have e : t = s.moved .tx := by simp [State.moved, hx, h]
    rw [e, moved_sched, moved_radio]; exact ⟨rfl, rfl⟩
  | none =>
    simp only [hx] at h
    have e : t = s.moved .dma := by simp [State.moved, h]
    rw [e, moved_sched, moved_radio]; exact ⟨rfl, rfl⟩

theorem RadioOff_settled {s t : State} (h : RadioOff s) (hw : hwStep s = some t) : RadioOff t := by
  obtain ⟨h1, h2⟩ := hwStep_E hw
  exact ⟨h2.trans h.1, fun v hv => h.2 v (h1 ▸ hv)⟩

/-- Nothing faults of its own while the radio stays off or no load is held (R99). -/
theorem not_Fails {s t : State} (h : RadioOff s ∨ s.P.dma.loaded = false ∧ s.P.dma.latched = false) (hs : s.S.fault = none) :
    ¬ Fails s t := by
  have key : ∀ (u : State) (m : Move), u.E.radioClkEn = 0#32 ∨ u.P.dma.loaded = false ∧ u.P.dma.latched = false →
      u.S.fault = none → (u.moved m).S.fault = none := by
    intro u m hr hu
    by_contra hf
    have hro : u.radioOn = true → u.P.dma.loaded = false ∧ u.P.dma.latched = false := by
      intro ho
      rcases hr with hr | hr
      · simp [State.radioOn, hr] at ho
      · exact hr
    cases m with
    | seq => exact hf hu
    | tx =>
      cases hx : txStep u with
      | none => simp [State.moved, hx] at hf; exact hf hu
      | some v =>
        simp only [State.moved, hx, Option.getD_some] at hf
        rcases txStep_cases hx with ⟨-, rfl⟩ | ⟨-, -, ⟨-, w, ws, -, rfl⟩ | ⟨-, hl, x, xs, -, ⟨ho, rfl⟩ | ⟨-, rfl⟩⟩ | ⟨-, rfl⟩⟩
        · exact hf hu
        · exact hf (by simpa using hu)
        · rw [(hro ho).2] at hl; cases hl
        · exact hf (by simpa using hu)
        · exact hf (by simpa using hu)
    | dma =>
      cases hx : dmaStep u with
      | none => simp [State.moved, hx] at hf; exact hf hu
      | some v =>
        simp only [State.moved, hx, Option.getD_some] at hf
        rcases dmaStep_cases hx with ⟨hl, -, -, ⟨ho, rfl⟩ | ⟨-, rfl⟩⟩
        · rw [(hro ho).1] at hl; cases hl
        · exact hf hu
    | radio v => exact hf hu
    | clkm v => simp only [State.moved] at hf; split at hf <;> exact hf hu
  have h' : s.E.radioClkEn = 0#32 ∨ s.P.dma.loaded = false ∧ s.P.dma.latched = false := h.imp_left And.left
  intro f
  cases f with
  | listed e hf => exact hf (key _ _ h' hs)
  | settled e hp hw hf => obtain ⟨m, rfl⟩ := hwStep_moved hw; exact hf (key _ _ h' hs)

theorem RadioStaysOn_listed {s : State} {m : Move} {ms : List Move} (h : RadioStaysOn s) (e : s.E.sched = m :: ms) :
    RadioStaysOn ((s.setSched ms).moved m) := by
  refine ⟨?_, fun v hv => h.2 v ?_⟩
  · rw [moved_radio]
    cases m with
    | radio v => exact absurd (by simp [e]) (h.2 v)
    | _ => exact h.1
  · rw [moved_sched] at hv; rw [e]; exact List.mem_cons_of_mem _ hv

theorem moved_not_loaded {s : State} (m : Move) (h : s.P.dma.loaded = false) : (s.moved m).P.dma.loaded = false := by
  have p := moved_P s m
  generalize (s.moved m).P = Q at p
  cases p <;> simp_all

theorem Good_stable {r : Prop} : Stable (Good r) where
  took h e := ⟨h.1, fun k => RadioOff_took (h.2.1 k) e, fun k => ⟨⟨(h.2.2 k).1.1, fun v hv => (h.2.2 k).1.2 v (by
    rw [e]; exact List.mem_cons_of_mem _ hv)⟩, (h.2.2 k).2⟩⟩
  listed {u m ms} h e _ := ⟨by rw [(moved_beside _ _).par]; exact h.1, fun k => RadioOff_listed (h.2.1 k) e, fun k =>
    ⟨RadioStaysOn_listed (h.2.2 k).1 e, moved_not_loaded (s := u.setSched ms) m (h.2.2 k).2⟩⟩
  settled h _ _ hw _ := by
    obtain ⟨h1, h2⟩ := hwStep_E hw
    refine ⟨?_, fun k => RadioOff_settled (h.2.1 k) hw, fun k => ⟨⟨?_, ?_⟩, ?_⟩⟩
    · obtain ⟨m, rfl⟩ := hwStep_moved hw; rw [(moved_beside _ _).par]; exact h.1
    · rw [h2]; exact (h.2.2 k).1.1
    · rw [h1]; exact (h.2.2 k).1.2
    · obtain ⟨m, rfl⟩ := hwStep_moved hw; exact moved_not_loaded m (h.2.2 k).2

/-- Stable, from what the moves of a state with `P` keep, the radio aside. -/
theorem Stable.with_good {g r : Prop} {P : State → Prop} (hg : ∀ s, P s → g → Good r s)
    (hs : ∀ u ms, P u → (g → Good r (u.setSched ms)) → P (u.setSched ms))
    (hm : ∀ u m, P u → (u.moved m).S.fault = none → (g → Good r (u.moved m)) → P (u.moved m)) : Stable P where
  took h e := hs _ _ h fun k => Good_stable.took (hg _ h k) e
  listed {u m ms} h e hf := by
    refine hm _ _ (hs _ _ h fun k => ?_) hf fun k => Good_stable.listed (hg _ h k) e hf
    obtain ⟨h1, h2, h3⟩ := hg _ h k
    exact ⟨h1, fun k => RadioOff_took (h2 k) e, fun k => ⟨⟨(h3 k).1.1, fun v hv => (h3 k).1.2 v (by
      rw [e]; exact List.mem_cons_of_mem _ hv)⟩, (h3 k).2⟩⟩
  settled h e hp hw hf := by
    have hgood : g → Good r _ := fun k => Good_stable.settled (hg _ h k) e hp hw hf
    obtain ⟨m, rfl⟩ := hwStep_moved hw; exact hm _ _ h hf hgood

theorem live_moved {s : State} {m : Move} (h : s.live) (hf : (s.moved m).S.fault = none) : (s.moved m).live :=
  ⟨hf, by rw [moved_S_of_fault hf]; exact h.2⟩

theorem Writing_moved {g r : Prop} {s : State} {m : Move} (h : Writing g r s) (hf : (s.moved m).S.fault = none)
    (hg : g → Good r (s.moved m)) : Writing g r (s.moved m) := by
  have p := moved_P s m
  obtain ⟨h1, h2, h3, h4, h5, h6, -⟩ := h
  refine ⟨live_moved h1 hf, by rw [(moved_beside s m).G]; exact h2, ?_, ?_, ?_, ?_, hg⟩ <;>
    generalize (s.moved m).P = Q at p <;> cases p <;> simp_all

theorem Writing_setSched {g r : Prop} {s : State} {ms : List Move} (h : Writing g r s) (hg : g → Good r (s.setSched ms)) :
    Writing g r (s.setSched ms) := ⟨h.live, h.pins, h.latch_running, h.latched_loaded, h.load_mode, h.dma_fifo, hg⟩

theorem InMode_moved {s : State} {m : Move} (h : InMode s) (hf : (s.moved m).S.fault = none) : InMode (s.moved m) := by
  unfold InMode
  rw [(moved_beside s m).regs, moved_S_of_fault hf]; exact h

theorem Writing_stable {g r : Prop} : Stable (Writing g r) :=
  .with_good (fun _ h => h.good) (fun _ _ => Writing_setSched) fun _ _ => Writing_moved

theorem Sending_stable {g r : Prop} : Stable (Sending g r) :=
  .with_good (fun _ h => h.writing.good) (fun _ _ h hg => ⟨Writing_setSched h.writing hg, h.mode, h.idle⟩)
    fun u m h hf hg => by
      refine ⟨Writing_moved h.writing hf hg, InMode_moved h.mode hf, ?_⟩
      have p := moved_P u m
      obtain ⟨⟨h1, h2, h3, h4, h5, h6, -⟩, -, h7⟩ := h
      generalize (u.moved m).P = Q at p
      cases p <;> simp_all

theorem Quiet_stable {g r : Prop} : Stable (Quiet g r) :=
  .with_good (fun _ h => h.writing.good) (fun _ _ h hg => ⟨Writing_setSched h.writing hg, h.idle, h.fifo, h.loaded⟩)
    fun u m h hf hg => by
      have hw := Writing_moved h.writing hf hg
      have p := moved_P u m
      obtain ⟨⟨h1, h2, h3, h4, h5, h6, -⟩, h7, h8, h9⟩ := h
      refine ⟨hw, ?_, ?_, ?_⟩ <;> clear hw <;> generalize (u.moved m).P = Q at p <;> cases p <;> simp_all

theorem Filling_stable {g r : Prop} {k : Nat} : Stable (Filling g r k) :=
  .with_good (fun _ h => h.writing.good) (fun _ _ h hg => ⟨Writing_setSched h.writing hg, h.mode, h.scalarOrBulk, h.room⟩)
    fun u m h hf hg => by
      have hw := Writing_moved h.writing hf hg
      have hi := InMode_moved h.mode hf
      have p := moved_P u m
      have b := moved_beside u m
      refine ⟨hw, hi, ?_, fun hk => ?_⟩
      · rw [b.regs]; exact h.scalarOrBulk
      · obtain ⟨h7, h8⟩ := h.room hk
        rw [b.par]
        obtain ⟨h1, h2, h3, h4, h5, h6, -⟩ := h.writing
        clear hw hi b
        generalize (u.moved m).P = Q at p
        cases p <;> simp_all

theorem Loading_stable {g r : Prop} : Stable (Loading g r) :=
  .with_good (fun _ h => h.writing.good) (fun _ _ h hg => ⟨Writing_setSched h.writing hg, h.mode, h.idle, h.loaded⟩)
    fun u m h hf hg => by
      have hw := Writing_moved h.writing hf hg
      have hi := InMode_moved h.mode hf
      have p := moved_P u m
      obtain ⟨⟨h1, h2, h3, h4, h5, h6, -⟩, -, h7, h8⟩ := h
      refine ⟨hw, hi, ?_, ?_⟩ <;> clear hw hi <;> generalize (u.moved m).P = Q at p <;> cases p <;> simp_all

/-- The cycles of transmit words (R73, R74, R90). -/
def cyclesOf (w : Width) (ws : List Word) : List BusEvent := (ws.flatMap (samplesOf w)).map cycleOf

/-! ## The bus events of transmit words (R71 to R76) -/

theorem tag_bit (t : Bool) (b : Byte) : (tagged t b).getLsbD 8 = t := by cases t <;> simp [tagged]

theorem tag_byte (t : Bool) (b : Byte) : (tagged t b).extractLsb' 0 8 = b := by
  apply BitVec.eq_of_getLsbD_eq
  intro i hi
  have h1 : i < 16 := by omega
  have h2 : ∀ j < 8, (256#16).getLsbD j = false := by decide
  have h3 := h2 i hi
  rw [BitVec.getLsbD_eq_getElem h1] at h3
  cases t <;> simp [tagged, hi, h1, h3]

theorem cycle_tagged (t : Bool) (b : Byte) : cycleOf (tagged t b) = .wr t b := by
  unfold cycleOf; rw [tag_bit, tag_byte]

theorem WS_high (t : Bool) (b : Byte) : (WS t b).extractLsb' 16 16 = tagged t b := by
  apply BitVec.eq_of_getLsbD_eq
  intro i hi
  have h1 : 16 + i < 32 := by omega
  simp [WS, hi, h1]

theorem WB_high (a b : Byte) : (WB a b).extractLsb' 16 16 = tagged true a := by
  apply BitVec.eq_of_getLsbD_eq
  intro i hi
  have h1 : 16 + i < 32 := by omega
  simp [WB, hi, h1]

theorem WB_low (a b : Byte) : (WB a b).extractLsb' 0 16 = tagged true b := by
  apply BitVec.eq_of_getLsbD_eq
  intro i hi
  have h2 : i < 32 := by omega
  simp [WB, hi, h2]

@[simp] theorem cyclesOf_nil (w : Width) : cyclesOf w [] = [] := rfl
@[simp] theorem cyclesOf_append (w : Width) (xs ys : List Word) : cyclesOf w (xs ++ ys) = cyclesOf w xs ++ cyclesOf w ys := by
  simp [cyclesOf]
theorem cyclesOf_cons (w : Width) (x : Word) (xs : List Word) : cyclesOf w (x :: xs) = cyclesOf w [x] ++ cyclesOf w xs := by
  rw [← cyclesOf_append]; rfl

@[simp] theorem WS_cycle (t : Bool) (b : Byte) : cyclesOf .w32 [WS t b] = [.wr t b] := by
  simp [cyclesOf, samplesOf, WS_high, cycle_tagged]

@[simp] theorem WB_cycles (a b : Byte) : cyclesOf .w16 [WB a b] = dataCycles [a, b] := by
  simp [cyclesOf, samplesOf, WB_high, WB_low, cycle_tagged, dataCycles]

theorem SD_cycle (b : Byte) : cycleOf (SD b) = .wr true b := cycle_tagged true b

theorem byteOf_eq (v : Word) (i : Nat) : byteOf v i = BitVec.ofNat 8 (byteAt v i) := by
  apply BitVec.eq_of_toNat_eq
  simp [byteOf, byteAt, Nat.shiftRight_eq_div_pow, Nat.pow_mul]

theorem scalarWords_cycles (t : Bool) (v : Word) (b : Nat) :
    cyclesOf .w32 (scalarWords t v b) = (pixelBytes v (max 1 ((b + 7) / 8))).map (BusEvent.wr t) := by
  have h : ∀ l : List Nat, cyclesOf .w32 (l.map fun i => WS t (byteOf v i)) =
      (l.map fun i => BitVec.ofNat 8 (byteAt v i)).map (BusEvent.wr t) := by
    intro l
    induction l with
    | nil => rfl
    | cons i l ih => rw [List.map_cons, cyclesOf_cons, WS_cycle, ih, byteOf_eq]; rfl
  exact h _

theorem tagged_toNat (t : Bool) (b : Byte) : (tagged t b).toNat = (if t then 256 else 0) + b.toNat := by
  have hb := b.isLt
  cases t
  · simp [tagged]; omega
  · simp [tagged]
    rw [Nat.mod_eq_of_lt (by omega)]
    have h := Nat.two_pow_add_eq_or_of_lt (i := 8) (by simpa using hb) 1
    rw [show 2 ^ 8 * 1 = 256 from rfl] at h
    exact h.symm

theorem WS_eq (t : Bool) (b : Byte) : WS t b = upperWord (if t then 1 else 0) b.toNat := by
  apply BitVec.eq_of_toNat_eq
  have hb := b.isLt
  have h := tagged_toNat t b
  simp only [WS, upperWord, BitVec.toNat_shiftLeft, BitVec.zeroExtend, BitVec.toNat_setWidth, h, BitVec.toNat_ofNat, Nat.shiftLeft_eq]
  cases t <;> simp

theorem WB_eq (a b : Byte) : WB a b = pairWord a.toNat b.toNat := by
  apply BitVec.eq_of_toNat_eq
  have ha := a.isLt
  have hb := b.isLt
  have h1 := tagged_toNat true a
  have h2 := tagged_toNat true b
  simp only [if_true] at h1 h2
  have h := Nat.two_pow_add_eq_or_of_lt (i := 16) (b := 256 + b.toNat) (by omega) (256 + a.toNat)
  simp only [WB, pairWord, BitVec.toNat_or, BitVec.toNat_shiftLeft, BitVec.zeroExtend, BitVec.toNat_setWidth, h1, h2,
    BitVec.toNat_ofNat, Nat.shiftLeft_eq]
  rw [Nat.mod_eq_of_lt (a := 256 + a.toNat) (by omega), Nat.mod_eq_of_lt (a := 256 + b.toNat) (by omega),
    Nat.mod_eq_of_lt (a := (256 + a.toNat) * 2 ^ 16) (by omega), Nat.mul_comm, ← h]
  omega

theorem WB_byteOf (c : Word) (i j : Nat) : WB (byteOf c i) (byteOf c j) = pairWord (byteAt c i) (byteAt c j) := by
  rw [WB_eq, byteOf_eq, byteOf_eq]
  simp [byteAt]

theorem WS_byteOf (t : Bool) (c : Word) (i : Nat) : WS t (byteOf c i) = upperWord (if t then 1 else 0) (byteAt c i) := by
  rw [WS_eq, byteOf_eq]
  simp [byteAt]

@[simp] theorem dataCycles_append (xs ys : List Byte) : dataCycles (xs ++ ys) = dataCycles xs ++ dataCycles ys := by
  simp [dataCycles]

@[simp] theorem dataOf_dataCycles (bs : List Byte) : dataOf (dataCycles bs) = bs := by
  induction bs with
  | nil => rfl
  | cons b bs ih => rw [← ih]; simp [dataOf, dataCycles]

/-! ## One micro-operation of a write command -/

/-- The command was stopped, and not in a sound launch; if it is held, the registers hold the images of the mode. -/
def Halts (g : Prop) (s : State) : Prop := ¬ s.live ∧ ¬ g ∧ (s.S.fault = none → InMode s)

theorem takeFault_not_live (s : State) (c : FaultCode) : ¬ (s.takeFault c).live := by simp [State.live]
theorem setHold_not_live (s : State) (h : Hold) : ¬ (s.setHold h).live := by simp [State.live]
theorem takeFault_faulted (s : State) (c : FaultCode) {Q : Prop} (h : (s.takeFault c).S.fault = none) : Q := by simp at h
theorem Fails_faulted {s t : State} (h : Fails s t) : t.S.fault ≠ none := by
  cases h with
  | listed _ hf => exact hf
  | settled _ _ _ hf => exact hf
theorem Fails_not_live {s t : State} (h : Fails s t) : ¬ t.live := by
  cases h with
  | listed _ hf => exact fun k => hf k.1
  | settled _ _ _ hf => exact fun k => hf k.1

theorem Writing.harmless {g r : Prop} {s : State} (h : Writing g r s) (k : g) :
    RadioOff s ∨ s.P.dma.loaded = false ∧ s.P.dma.latched = false := by
  obtain ⟨-, h1, h2⟩ := h.good k
  by_cases hr : r
  · exact .inl (h1 hr)
  · refine .inr ⟨(h2 hr).2, ?_⟩
    cases hl : s.P.dma.latched with
    | false => rfl
    | true => have := h.latched_loaded hl; rw [(h2 hr).2] at this; cases this

theorem Writing.routed {g r : Prop} {s : State} (h : Writing g r s) : Routed s := fun _ => h.pins

theorem Stable.with_view {g r : Prop} {P : State → Prop} (hP : Stable P) (hw : ∀ s, P s → Writing g r s) (γ : View) :
    Stable fun s => P s ∧ s.view = γ where
  took h e := ⟨hP.took h.1 e, h.2⟩
  listed {u _ ms} h e hf :=
    ⟨hP.listed h.1 e hf, (moved_view (s := u.setSched ms) (hw _ h.1).routed hf).trans h.2⟩
  settled h e hp hk hf := by
    refine ⟨hP.settled h.1 e hp hk hf, ?_⟩
    obtain ⟨m, rfl⟩ := hwStep_moved hk
    exact (moved_view (hw _ h.1).routed hf).trans h.2

/-- The rule for one micro-operation. -/
theorem Runs_op {g r : Prop} {P : State → Prop} {Q : α → State → Prop} {blocked : State → Option Hold} {op : State → Effect α}
    {γ : View} (hP : Stable P) (hw : ∀ s, P s → Writing g r s)
    (done : ∀ s a t, P s → s.view = γ → blocked s = none → op s = .done a t → Q a t)
    (raise : ∀ s c, P s → s.view = γ → op s = .raise c → ¬ g)
    (held : ∀ s h, P s → s.view = γ → blocked s = some h → s.E.sched = [] →
      (s.par.hwProgress = true → hwStep s = none) → InMode s ∧ ¬ g) :
    Runs (fun s => P s ∧ s.view = γ) (micro blocked op) Q (Halts g) :=
  Runs_micro (hP.with_view hw γ) (fun _ h => (hw _ h.1).live.1)
    (fun _ _ _ h b o => done _ _ _ h.1 h.2 b o)
    (fun s c h _ o => ⟨takeFault_not_live s c, raise _ _ h.1 h.2 o, takeFault_faulted s c⟩)
    (fun _ _ h f => ⟨Fails_not_live f, fun k => not_Fails ((hw _ h.1).harmless k) (hw _ h.1).live.1 f,
      fun k => absurd k (Fails_faulted f)⟩)
    fun s x h b e n => ⟨setHold_not_live s x, (held _ _ h.1 h.2 b e n).2, fun _ => (held _ _ h.1 h.2 b e n).1⟩

theorem Runs_atomic {g r : Prop} {P : State → Prop} {Q : α → State → Prop} {op : State → Effect α} {γ : View} (hP : Stable P)
    (hw : ∀ s, P s → Writing g r s) (done : ∀ s a t, P s → s.view = γ → op s = .done a t → Q a t)
    (raise : ∀ s c, P s → s.view = γ → op s = .raise c → ¬ g) :
    Runs (fun s => P s ∧ s.view = γ) (atom op) Q (Halts g) :=
  Runs_op hP hw (fun _ _ _ h v _ o => done _ _ _ h v o) raise fun _ _ _ _ b => nomatch b

/-- The peripheral without an enabled step is idle (R87 to R91, R97). -/
theorem hwStep_none {s : State} (h : hwStep s = none) : s.P.tx.latchPending = false ∧ s.P.tx.running = false := by
  have hx : txStep s = none := by
    unfold hwStep at h
    cases hx : txStep s with
    | none => rfl
    | some u => simp [hx] at h
  have hd : dmaStep s = none := by simpa [hwStep, hx] using h
  have hp : s.P.tx.latchPending = false := by
    cases hp : s.P.tx.latchPending with
    | false => rfl
    | true => simp [txStep, hp] at hx
  refine ⟨hp, ?_⟩
  cases hr : s.P.tx.running with
  | false => rfl
  | true =>
    exfalso
    unfold txStep at hx
    cases hc : s.P.regs.fconf.dscrEn
    · cases hq : s.P.fifo <;> simp [hp, hr, hc, hq] at hx
    · cases hl : s.P.dma.latched
      · cases ho : s.P.dma.loaded
        · simp [hp, hr, hc, hl, ho] at hx
        · simp [dmaStep, hc, hl, ho] at hd
      · cases hq : s.P.dma.stream <;> simp [hp, hr, hc, hl, hq] at hx

/-! ## What a view gains -/

def View.emit (γ : View) (e : Event) : View := { γ with hist := γ.hist ++ [(γ.S.pc, e)] }
def View.logged (γ : View) (es : List Event) : View := { γ with hist := γ.hist ++ es.map (Prod.mk γ.S.pc) }
def View.sends (γ : View) (es : List BusEvent) : View :=
  { γ with output := γ.output ++ es, echo := γ.echo.map (· ++ dataOf es) }
def View.setMode (γ : View) (m : Mode) : View := { γ with S := { γ.S with mode := m } }

@[simp] theorem View.logged_nil (γ : View) : γ.logged [] = γ := by simp [View.logged]
@[simp] theorem View.sends_nil (γ : View) : γ.sends [] = γ := by
  cases h : γ.echo <;> simp [View.sends, dataOf, h] <;> rw [← h]
theorem View.emit_eq (γ : View) (e : Event) : γ.emit e = γ.logged [e] := rfl
theorem View.logged_logged (γ : View) (es fs : List Event) : (γ.logged es).logged fs = γ.logged (es ++ fs) := by
  simp [View.logged]
theorem View.sends_sends (γ : View) (es fs : List BusEvent) : (γ.sends es).sends fs = γ.sends (es ++ fs) := by
  cases h : γ.echo <;> simp [View.sends, h]
theorem View.sends_logged (γ : View) (es : List BusEvent) (fs : List Event) :
    (γ.sends es).logged fs = (γ.logged fs).sends es := rfl
theorem View.setMode_logged (γ : View) (m : Mode) (fs : List Event) :
    (γ.setMode m).logged fs = (γ.logged fs).setMode m := rfl
theorem View.setMode_sends (γ : View) (m : Mode) (es : List BusEvent) :
    (γ.sends es).setMode m = (γ.setMode m).sends es := rfl

/-! ## The rules of the write path -/

/-- A property of the scratch copies alone. -/
structure OfScratch (K : State → Prop) : Prop where
  same : ∀ {s t : State}, t.P.scratch0 = s.P.scratch0 → t.P.scratch1 = s.P.scratch1 → K s → K t

theorem OfScratch.stable {K : State → Prop} (h : OfScratch K) : Stable K :=
  .of_moves (fun u ms k => h.same (s := u) (t := u.setSched ms) rfl rfl k) fun s m k _ => h.same (moved_beside s m).scratch0 (moved_beside s m).scratch1 k

theorem OfScratch_true : OfScratch fun _ => True := ⟨fun _ _ h => h⟩

theorem pending_emit (s : State) (e : Event) : (s.emit e).pending = s.pending := rfl

theorem view_emit (s : State) (e : Event) : (s.emit e).view = s.view.emit e := rfl

theorem Writing_emit {g r : Prop} {s : State} (h : Writing g r s) (e : Event) : Writing g r (s.emit e) :=
  ⟨h.live, h.pins, h.latch_running, h.latched_loaded, h.load_mode, h.dma_fifo, h.good⟩
theorem Sending_emit {g r : Prop} {s : State} (h : Sending g r s) (e : Event) : Sending g r (s.emit e) :=
  ⟨Writing_emit h.writing e, h.mode, h.idle⟩
theorem Quiet_emit {g r : Prop} {s : State} (h : Quiet g r s) (e : Event) : Quiet g r (s.emit e) :=
  ⟨Writing_emit h.writing e, h.idle, h.fifo, h.loaded⟩
theorem Filling_emit {g r : Prop} {k : Nat} {s : State} (h : Filling g r k s) (e : Event) : Filling g r k (s.emit e) :=
  ⟨Writing_emit h.writing e, h.mode, h.scalarOrBulk, h.room⟩

/-- `WaitIdle` (R109): in a sound launch the peripheral is idle after it. -/
theorem Runs_waitIdle {g r : Prop} {P : State → Prop} {γ : View} (hP : Stable P) (hw : ∀ s, P s → Writing g r s)
    (hm : ∀ s, P s → InMode s) (he : ∀ s, P s → P (s.emit .wait)) :
    Runs (fun s => P s ∧ s.view = γ) waitIdle
      (fun _ s => (P s ∧ (g → s.P.tx.running = false)) ∧ s.view = γ.emit .wait) (Halts g) := by
  refine Runs_op hP hw ?_ (fun _ _ _ _ o => by simp [waitIdleOp] at o) ?_
  · intro s a t h v b o
    simp only [waitIdleOp, Effect.done.injEq] at o
    obtain ⟨-, rfl⟩ := o
    refine ⟨⟨he s h, fun k => ?_⟩, by rw [view_emit, v]⟩
    have hg := ((hw s h).good k).1
    have hb : s.waitReady = true := by
      cases hb : s.waitReady with
      | true => rfl
      | false => simp [hb] at b
    simp only [State.waitReady, State.pollReady, State.idleFlag, hg.startLatch, Bool.true_and, Bool.and_eq_true,
      Bool.or_eq_true, Bool.not_eq_true'] at hb
    simp only [emit_P]
    rcases hb.2 with h2 | h2
    · exact h2
    · rw [hb.1] at h2; cases h2
  · intro s x h v b e n
    refine ⟨hm s h, fun k => ?_⟩
    obtain ⟨h1, h2⟩ := hwStep_none (n ((hw s h).good k).1.progress)
    simp [State.waitReady, State.pollReady, State.idleFlag, h1, h2] at b

theorem pending_idle {g r : Prop} {s : State} (h : Writing g r s) (hf : s.P.fifo = []) (hl : s.P.dma.loaded = false) :
    s.pending = [] := by
  have ha : s.P.dma.latched = false := by
    cases ha : s.P.dma.latched with
    | false => rfl
    | true => rw [h.latched_loaded ha] at hl; cases hl
  simp [State.pending, hf, hl, ha]

theorem view_of_pending {s t : State} (h1 : t.S = s.S) (h2 : t.M = s.M) (h3 : t.par = s.par) (h4 : t.G = s.G) (h5 : t.E = s.E)
    (h6 : t.hist = s.hist) (h7 : t.bus = s.bus) (h8 : t.pending = s.pending) : t.view = s.view := by
  simp only [State.view, State.output, h1, h2, h3, h4, h5, h6, h7, h8]

theorem Sending.quiet {g r : Prop} {s : State} (h : Sending g r s) (hr : s.P.tx.running = false) : Quiet g r s :=
  ⟨h.writing, hr, (h.idle hr).1, (h.idle hr).2⟩

/-- A mode register write (R105): into a quiet peripheral, which it leaves quiet. -/
theorem Runs_modeReg {g r : Prop} {K : State → Prop} {γ : View} (hK : OfScratch K) (v : RegImage) (hv : v.reg = .src ∨ v.reg = .fconf)
    {P : State → Prop} (hP : Stable P) (hw : ∀ s, P s → Writing g r s) (hq : ∀ s, P s → s.P.tx.running = false → Quiet g r s)
    (hi : ∀ s, P s → g → s.P.tx.running = false) :
    Runs (fun s => (P s ∧ K s) ∧ s.view = γ) (regWrite v)
      (fun _ s => ((∃ t, P t ∧ Quiet g r t ∧ s.P.regs = t.P.regs.put v ∧ s.S = t.S) ∧ Quiet g r s ∧ K s) ∧
        s.view = γ.emit (.regWr v)) (Halts g) := by
  refine Runs_atomic (P := fun s => P s ∧ K s) (hP.and hK.stable) (fun s h => hw s h.1) ?_ ?_
  · intro s a t h hv' o
    obtain ⟨hz, rfl⟩ := regWriteOp_done o
    have hr : s.P.tx.running = false := by
      simp only [State.regHazard, Bool.or_eq_false_iff, Bool.and_eq_false_iff] at hz
      rcases hz.1 with h1 | h1
      · rcases hv with e | e <;> rw [e] at h1 <;> cases h1
      · exact h1
    have q := hq s h.1 hr
    have hqq : Quiet g r ((s.setRegs (s.P.regs.put v)).emit (.regWr v)) := by
      refine ⟨⟨q.writing.live, q.writing.pins, q.writing.latch_running, q.writing.latched_loaded, ?_, fun _ => q.fifo,
        q.writing.good⟩, q.idle, q.fifo, q.loaded⟩
      intro hl
      have := q.loaded
      simp at hl
      rw [this] at hl; cases hl
    refine ⟨⟨⟨s, h.1, q, rfl, rfl⟩, hqq, hK.same (s := s) (t := (s.setRegs (s.P.regs.put v)).emit (.regWr v)) rfl rfl h.2⟩, ?_⟩
    rw [view_emit, ← hv']
    have e : (s.setRegs (s.P.regs.put v)).view = s.view := by
      refine view_of_pending rfl rfl rfl rfl rfl rfl rfl ?_
      have := pending_idle hqq.writing hqq.fifo hqq.loaded
      rw [pending_emit] at this
      rw [this, pending_idle q.writing q.fifo q.loaded]
    rw [e]
  · intro s c h hv' o k
    have hz := (regWriteOp_raise o).2
    have hl := (hq s h.1 (hi s h.1 k)).loaded
    simp only [State.regHazard, hi s h.1 k, hl, Bool.and_false, Bool.or_self] at hz
    cases hz

/-- The events of `ensureMode m` (R138). -/
def ensureEvents (m₀ m : Mode) : List Event := if m₀ = m then [] else [.regWr (.src m.width), .regWr (.fconf m.fconf)]

/-- Reading the state changes nothing. -/
theorem get_bind (f : State → Act α) (s : State) : ((get : Act State) >>= f) s = f s s := rfl

theorem ensureMode_eq (m : Mode) (s : State) : ensureMode m s = (if s.S.mode = m then (pure () : Act Unit)
    else regWrite (.src m.width) >>= fun _ => regWrite (.fconf m.fconf) >>= fun _ => update fun t => t.setMode m) s := rfl

theorem ensureMode_same {m : Mode} {s : State} (h : s.S.mode = m) : ensureMode m s = .ok () s := by
  rw [ensureMode_eq, if_pos h]; rfl

theorem ensureMode_switch {m : Mode} {s : State} (h : s.S.mode ≠ m) :
    ensureMode m s = (regWrite (.src m.width) >>= fun _ => regWrite (.fconf m.fconf) >>= fun _ =>
      update fun t => t.setMode m) s := by
  rw [ensureMode_eq, if_neg h]

/-- `EnsureMode` (R138): it does nothing, or finds the peripheral quiet and leaves it so, in the mode's registers. -/
theorem Runs_ensureMode {g r : Prop} {K : State → Prop} {γ : View} (hK : OfScratch K) (m : Mode) :
    Runs (fun s => ((Sending g r s ∧ (g → s.P.tx.running = false)) ∧ K s) ∧ s.view = γ) (ensureMode m)
      (fun _ s => (((Sending g r s ∧ (g → s.P.tx.running = false)) ∧ K s) ∧ s.S.mode = m) ∧
        s.view = (γ.setMode m).logged (ensureEvents γ.S.mode m)) (Halts g) := by
  have hidle : Stable fun s => Sending g r s ∧ (g → s.P.tx.running = false) := by
    refine .with_good (g := g) (fun _ h => h.1.writing.good) (fun u ms h hg => ⟨⟨Writing_setSched h.1.writing hg, h.1.mode, h.1.idle⟩, h.2⟩)
      fun u m h hf hg => ?_
    refine ⟨⟨Writing_moved h.1.writing hf hg, InMode_moved h.1.mode hf, ?_⟩, fun k => ?_⟩
    · have p := moved_P u m
      obtain ⟨⟨⟨h1, h2, h3, h4, h5, h6, -⟩, -, h7⟩, -⟩ := h
      generalize (u.moved m).P = Q at p
      cases p <;> simp_all
    · cases hr : (u.moved m).P.tx.running with
      | false => rfl
      | true => rw [moved_running hr] at h; exact absurd (h.2 k) (by simp)
  intro s hs
  obtain ⟨⟨hsend, hk⟩, hv⟩ := hs
  have hm : γ.S.mode = s.S.mode := by rw [← hv]; rfl
  by_cases e : s.S.mode = m
  · rw [ensureMode_same e]
    refine ⟨⟨⟨hsend, hk⟩, e⟩, ?_⟩
    have : γ.setMode m = γ := by
      rw [← hv, ← e]; rfl
    rw [this, hv, ensureEvents, if_pos (by rw [hm, e])]; simp
  · rw [ensureMode_switch e]
    have h1 := Runs_modeReg (g := g) (γ := γ) hK (.src m.width) (.inl rfl) hidle (fun s h => h.1.writing)
      (fun s h => h.1.quiet) (fun s h => h.2)
    have h2 := Runs_modeReg (g := g) (γ := γ.emit (.regWr (.src m.width))) hK (.fconf m.fconf) (.inr rfl)
      (P := fun s => Quiet g r s ∧ s.P.regs.src = m.width)
      (by
        refine Quiet_stable.and (.of_moves (fun _ _ h => h) fun u m' h _ => ?_)
        rw [(moved_beside u m').regs]; exact h)
      (fun s h => h.1.writing) (fun s h _ => h.1) (fun s h _ => h.1.idle)
    have h3 := Runs_bind h1 fun _ => Runs_bind (Runs_weaken h2
      (fun s (hs : _ ∧ _) => by
        obtain ⟨⟨⟨t, -, -, hregs, -⟩, hq, hk'⟩, hv'⟩ := hs
        exact ⟨⟨⟨hq, by rw [hregs]; rfl⟩, hk'⟩, hv'⟩) (fun _ _ h => h) fun _ h => h) fun _ =>
      Runs_weaken (Runs_update (E := Halts g) (Q := fun _ s => (((Sending g r s ∧ (g → s.P.tx.running = false)) ∧ K s) ∧ s.S.mode = m) ∧
        s.view = (γ.setMode m).logged (ensureEvents γ.S.mode m)) fun t => t.setMode m)
        (fun s (hs : _ ∧ _) => by
          obtain ⟨⟨⟨t, ⟨-, hsrc⟩, -, hregs, -⟩, hq, hk'⟩, hv'⟩ := hs
          refine ⟨⟨⟨⟨⟨⟨hq.writing.1, hq.writing.2, hq.writing.3, hq.writing.4, hq.writing.5, hq.writing.6, hq.writing.7⟩,
            ⟨by simp [hregs, Regs.put, hsrc], by simp [hregs, Regs.put]⟩, fun _ => ⟨hq.fifo, hq.loaded⟩⟩, fun _ => hq.idle⟩,
            hK.same (s := s) (t := s.setMode m) rfl rfl hk'⟩, rfl⟩, ?_⟩
          have : (s.setMode m).view = s.view.setMode m := rfl
          rw [this, hv', ensureEvents, if_neg (by rw [hm]; exact e)]
          simp [View.emit, View.setMode, View.logged])
        (fun _ _ h => h) fun _ h => h
    exact h3 s ⟨⟨hsend, hk⟩, hv⟩

theorem Mode.fconf_dscrEn (m : Mode) : m.fconf.dscrEn = (m == .bulk16Dma) := by cases m <;> rfl

theorem Sending.filling {g r : Prop} {s : State} (h : Sending g r s) (hi : g → s.P.tx.running = false)
    (hm : s.S.mode ≠ .bulk16Dma) : Filling g r 32 s where
  writing := h.writing
  mode := h.mode
  scalarOrBulk := by rw [h.mode.2, Mode.fconf_dscrEn]; simpa using hm
  room k := ⟨hi k, by simpa [(h.idle (hi k)).1] using (h.writing.good k).1.depth⟩

/-- `FifoPush` (R106). -/
theorem Runs_fifoPush {g r : Prop} {k : Nat} {γ : View} (w : Word) :
    Runs (fun s => Filling g r (k + 1) s ∧ s.view = γ) (fifoPush w)
      (fun _ s => Filling g r k s ∧ s.view = (γ.emit (.push w)).sends (cyclesOf γ.S.mode.width [w])) (Halts g) := by
  refine Runs_atomic Filling_stable (fun s h => h.writing) ?_ ?_
  · intro s a t h hv o
    obtain ⟨hz, rfl⟩ := fifoPushOp_done o
    have hl : s.P.dma.loaded = false := by
      cases hl : s.P.dma.loaded with
      | false => rfl
      | true => have := h.writing.load_mode hl; rw [h.scalarOrBulk] at this; cases this
    have hF : Filling g r k (s.setFifo (s.P.fifo ++ [w])) := by
      refine ⟨⟨h.writing.live, h.writing.pins, h.writing.latch_running, h.writing.latched_loaded,
        h.writing.load_mode, fun hd => ?_, h.writing.good⟩, h.mode, h.scalarOrBulk, fun kk => ?_⟩
      · rw [show (s.setFifo (s.P.fifo ++ [w])).P.regs = s.P.regs from rfl, h.scalarOrBulk] at hd; cases hd
      · obtain ⟨h1, h2⟩ := h.room kk
        refine ⟨h1, ?_⟩
        simp; omega
    refine ⟨Filling_emit hF _, ?_⟩
    have hp : (s.setFifo (s.P.fifo ++ [w])).pending = s.pending ++ cyclesOf s.S.mode.width [w] := by
      simp [State.pending, h.scalarOrBulk, cyclesOf, h.mode.1]
    rw [view_emit, ← hv]
    cases hd : s.E.device.loopback <;>
      simp [State.view, View.emit, View.sends, State.output, hp, hd]
  · intro s c h hv o kk
    obtain ⟨h1, h2⟩ := h.room kk
    unfold fifoPushOp at o
    split at o
    · omega
    · cases o

theorem View.logged_cons (γ : View) (e : Event) (es : List Event) : γ.logged (e :: es) = (γ.emit e).logged es := by
  simp [View.logged, View.emit]

/-- A batch of pushes. -/
theorem Runs_pushes {g r : Prop} {k : Nat} (ws : List Word) {γ : View} :
    Runs (fun s => Filling g r (k + ws.length) s ∧ s.view = γ) (forEach fifoPush ws)
      (fun _ s => Filling g r k s ∧ s.view = (γ.logged (ws.map .push)).sends (cyclesOf γ.S.mode.width ws)) (Halts g) := by
  induction ws generalizing γ with
  | nil => exact fun s hs => ⟨hs.1, by simpa [cyclesOf] using hs.2⟩
  | cons w ws ih =>
    refine Runs_bind (Runs_fifoPush (k := k + ws.length) w) fun _ => Runs_weaken ih (fun _ h => h) (fun _ s h => ⟨h.1, ?_⟩)
      fun _ h => h
    rw [h.2, List.map_cons, View.logged_cons, View.sends_logged, View.sends_sends]
    simp [cyclesOf, View.emit, View.sends]

/-- `TxStart` after a batch of pushes (R92, R107). -/
theorem Runs_txStart {g r : Prop} {k : Nat} {γ : View} :
    Runs (fun s => Filling g r k s ∧ s.view = γ) txStart (fun _ s => Sending g r s ∧ s.view = γ.emit .start) (Halts g) := by
  refine Runs_atomic Filling_stable (fun s h => h.writing) ?_ ?_
  · intro s a t h hv o
    obtain ⟨hz, -, rfl⟩ := txStartOp_done o
    have hS : Sending g r ((s.setRegs { s.P.regs with txStart := true }).setTx ⟨true, true⟩) :=
      ⟨⟨h.writing.live, h.writing.pins, fun _ => rfl, h.writing.latched_loaded, h.writing.load_mode,
        h.writing.dma_fifo, h.writing.good⟩, h.mode, fun e => by cases e⟩
    refine ⟨Sending_emit hS _, ?_⟩
    rw [view_emit, ← hv]
    rfl
  · intro s c h hv o kk
    unfold txStartOp at o
    rw [(h.room kk).1, h.scalarOrBulk] at o
    simp at o

/-! ## Scalar writes (R147) -/

/-- A FIFO batch: `WaitIdle`, `EnsureMode`, pushes, `TxStart`. -/
theorem Runs_batch {g r : Prop} {γ : View} {m : Mode} (hm : m ≠ .bulk16Dma) {ws : List Word} (hn : ws.length ≤ 32) :
    Runs (fun s => Sending g r s ∧ s.view = γ)
      (waitIdle >>= fun _ => ensureMode m >>= fun _ => forEach fifoPush ws >>= fun _ => txStart)
      (fun _ s => Sending g r s ∧ s.view =
        ((γ.setMode m).logged (.wait :: ensureEvents γ.S.mode m ++ ws.map .push ++ [.start])).sends (cyclesOf m.width ws))
      (Halts g) := by
  refine Runs_bind (Runs_waitIdle Sending_stable (fun s h => h.writing) (fun s h => h.mode) fun s h => Sending_emit h .wait) fun _ => ?_
  refine Runs_bind (R := fun _ s => (((Sending g r s ∧ (g → s.P.tx.running = false)) ∧ True) ∧ s.S.mode = m) ∧
    s.view = ((γ.emit .wait).setMode m).logged (ensureEvents γ.S.mode m)) ?_ fun _ => ?_
  · exact Runs_weaken (Runs_ensureMode OfScratch_true m) (fun s h => ⟨⟨h.1, trivial⟩, h.2⟩) (fun _ _ h => h) fun _ h => h
  refine Runs_bind (Runs_weaken (Runs_pushes (k := 32 - ws.length) ws) (fun s h => ⟨?_, h.2⟩) (fun _ _ h => h) fun _ h => h)
    fun _ => Runs_weaken Runs_txStart (fun _ h => h) (fun _ s h => ⟨h.1, ?_⟩) fun _ h => h
  · have := h.1.1.1.1.filling h.1.1.1.2 (by rw [h.1.2]; exact hm)
    rwa [show 32 - ws.length + ws.length = 32 from by omega]
  · rw [h.2]
    simp [View.emit, View.setMode, View.logged, View.sends]

theorem scalarWords_length (t : Bool) (v : Word) (b : Nat) : (scalarWords t v b).length = scalarBytes b := by
  simp [scalarWords]

/-- `ScalarWrite` (R147). -/
theorem Runs_scalarWrite {g r : Prop} {γ : View} (t : Bool) (v : Word) {b : Nat} (hb : b ≤ 32) :
    Runs (fun s => Sending g r s ∧ s.view = γ) (scalarWrite t v b)
      (fun _ s => Sending g r s ∧ s.view =
        ((γ.setMode .scalar32).logged (.wait :: ensureEvents γ.S.mode .scalar32 ++ (scalarWords t v b).map .push ++
          [.start])).sends (cyclesOf .w32 (scalarWords t v b))) (Halts g) :=
  Runs_batch (m := .scalar32) (by simp) (by rw [scalarWords_length]; unfold scalarBytes ceil8; omega)

/-! ## writeDataRepeat (R153, R154) -/

theorem Runs_spin {g r : Prop} {P : State → Prop} {γ : View} (hP : Stable P) (hw : ∀ s, P s → Writing g r s)
    (he : ∀ s e, P s → P (s.emit e)) (k : State → Nat) (n : Nat) (hk : ∀ s, s.par = γ.par → k s = n) :
    Runs (fun s => P s ∧ s.view = γ) (atom (spinOp k)) (fun _ s => P s ∧ s.view = γ.emit (.spin n)) (Halts g) := by
  refine Runs_atomic hP hw ?_ (fun _ _ _ _ o => by simp [spinOp] at o)
  intro s a t h hv o
  simp only [spinOp, Effect.done.injEq] at o
  obtain ⟨-, rfl⟩ := o
  rw [hk s (by rw [← hv]; rfl)]
  exact ⟨he _ _ h, by rw [view_emit, hv]⟩

theorem Runs_repeatLoop {g r : Prop} {unit : List Word} {full : Nat} (hu : full * unit.length ≤ 32) (hf : 1 ≤ full) (spin : Nat) :
    ∀ (rounds rem len : Nat), 1 ≤ len → len ≤ full → len ≤ rem → rem ≤ rounds → full ∣ rem - len → ∀ γ : View,
      γ.par.kRepeat = spin →
      Runs (fun s => Sending g r s ∧ s.view = γ) (repeatLoop unit full rounds rem len)
        (fun _ s => Sending g r s ∧ s.view =
          ((γ.setMode .bulk16).logged (burstEvents spin (ensureEvents γ.S.mode .bulk16)
            ((len :: List.replicate ((rem - len) / full) full).map fun n => (List.replicate n unit).flatten.map .push))).sends
            (cyclesOf .w16 (List.replicate rem unit).flatten)) (Halts g) := by
  intro rounds
  induction rounds with
  | zero => intro rem len h1 _ h3 h4; omega
  | succ rounds ih =>
    intro rem len h1 h2 h3 h4 h5 γ hs
    have hlen : (List.replicate len unit).flatten.length ≤ 32 := by
      rw [List.length_flatten, List.map_replicate, List.sum_replicate, smul_eq_mul]
      exact (Nat.mul_le_mul_right _ h2).trans hu
    have hb := Runs_batch (g := g) (r := r) (γ := γ) (m := .bulk16) (by simp) hlen
    have hrep : repeatLoop unit full (rounds + 1) rem len =
        ((waitIdle >>= fun _ => ensureMode .bulk16 >>= fun _ => forEach fifoPush (List.replicate len unit).flatten >>= fun _ =>
          txStart) >>= fun _ => if rem - len = 0 then (pure () : Act Unit)
          else spinRepeat >>= fun _ => repeatLoop unit full rounds (rem - len) full) := by
      simp only [repeatLoop, bind_assoc]
    rw [hrep]
    refine Runs_bind hb fun _ => ?_
    by_cases hz : rem - len = 0
    · rw [if_pos hz]
      refine Runs_weaken (Runs_pure (E := Halts g) (Q := fun _ s => Sending g r s ∧ s.view = _) ()) (fun s h => ⟨h.1, h.2.trans ?_⟩)
        (fun _ _ h => h) fun _ h => h
      have : rem = len := by omega
      subst this
      simp [burstEvents, Mode.width]
    · rw [if_neg hz]
      obtain ⟨q, hq⟩ := h5
      have hq1 : 1 ≤ q := by
        rcases Nat.eq_zero_or_pos q with e | e
        · rw [e] at hq; omega
        · exact e
      have hfr : full ≤ rem - len := by rw [hq]; exact Nat.le_mul_of_pos_right _ hq1
      refine Runs_bind (Runs_spin Sending_stable (fun s h => h.writing) (fun _ e h => Sending_emit h e) (fun s => s.par.kRepeat) spin
        (fun s h => by rw [h]; exact hs)) fun _ => ?_
      refine Runs_weaken (ih (rem - len) full hf le_rfl hfr (by omega) ⟨q - 1, ?_⟩ _ ?_) (fun _ h => h) (fun _ s h => ⟨h.1, h.2.trans ?_⟩)
        fun _ h => h
      · rw [hq, Nat.mul_sub_one]
      · exact hs
      · have hd : (rem - len) / full = (rem - len - full) / full + 1 := by
          rw [hq, show full * q - full = full * (q - 1) from (Nat.mul_sub_one _ _).symm, Nat.mul_div_cancel_left _ hf,
            Nat.mul_div_cancel_left _ hf]; omega
        rw [hd, List.replicate_succ]
        simp only [List.map_cons, burstEvents]
        have hr : rem = len + (rem - len) := by omega
        rw [show (List.replicate rem unit).flatten = (List.replicate len unit).flatten ++ (List.replicate (rem - len) unit).flatten from by
          conv_lhs => rw [hr, List.replicate_add, List.flatten_append]]
        simp [View.emit, View.logged, View.sends, View.setMode, ensureEvents, Mode.width, List.map_cons]
        cases γ.echo <;> simp

theorem batchSizes_eq {n b : Nat} (hn : 1 ≤ n) (hb : 1 ≤ b) :
    leadingBatch n b :: List.replicate ((n - leadingBatch n b) / b) b = batchSizes n b ∧ b ∣ n - leadingBatch n b ∧
      leadingBatch n b ≤ n ∧ 1 ≤ leadingBatch n b ∧ leadingBatch n b ≤ b := by
  have h1 := Nat.div_add_mod (n - 1) b
  have h2 := Nat.mod_lt (n - 1) hb
  have h3 : n - leadingBatch n b = b * ((n - 1) / b) := by unfold leadingBatch; omega
  have h4 := Nat.mod_le (n - 1) b
  refine ⟨?_, ⟨_, h3⟩, ?_, ?_, ?_⟩
  · rw [h3, Nat.mul_div_cancel_left _ hb]; rfl
  all_goals unfold leadingBatch; omega

/-- The batches of `writeDataRepeat` (R153, R154, R155). -/
theorem Runs_repeat {g r : Prop} {unit : List Word} {full n : Nat} (hu : full * unit.length ≤ 32) (hf : 1 ≤ full) (hn : 1 ≤ n)
    (γ : View) :
    Runs (fun s => Sending g r s ∧ s.view = γ) (repeatLoop unit full n n (leadingBatch n full))
      (fun _ s => Sending g r s ∧ s.view =
        ((γ.setMode .bulk16).logged (burstEvents γ.par.kRepeat (toBulk16 γ.S.mode)
          ((batchSizes n full).map fun n => (List.replicate n unit).flatten.map .push))).sends
          (cyclesOf .w16 (List.replicate n unit).flatten)) (Halts g) := by
  obtain ⟨h1, h2, h3, h4, h5⟩ := batchSizes_eq hn hf
  have h := Runs_repeatLoop (g := g) (r := r) hu hf γ.par.kRepeat n n (leadingBatch n full) h4 h5 h3 le_rfl h2 γ rfl
  rw [h1] at h
  exact h

/-! ## A whole command -/

theorem command_runs {P : State → Prop} {c : Act Unit} {Q : Unit → State → Prop} {E : State → Prop} (h : Runs P c Q E)
    (o : Opcode) {s : State} (hs : P s) :
    (∃ t, command o c s = .next (t.advance o.row.len) ∧ Q () t) ∨ ∃ t, command o c s = .next t ∧ E t := by
  have k := h s hs
  unfold command
  cases hr : c s with
  | ok a t => simp only [hr] at k; exact .inl ⟨t, rfl, k⟩
  | error e t => simp only [hr] at k; exact .inr ⟨t, rfl, k⟩

/-- The state between commands, in a transaction and out of read mode. -/
theorem BoundaryInv.sending {g r : Prop} {s : State} (h : BoundaryInv s) (hl : s.live) (ht : s.S.txn = true)
    (hr : s.S.read = false) (hg : g → Good r s) : Sending g r s := by
  have c := h.pins.control
  have hm := c.txn_mode ht
  have hmode : InMode s := c.registers hl.1 hm
  refine ⟨⟨hl, (h.pins.write_pins hl.1 (c.txn_life ht) hr).1, h.pins.latch_running, h.pins.latched_loaded, ?_, ?_, hg⟩,
    hmode, h.idle_empty hl⟩
  · intro k
    rw [hmode.2, h.load_mode hl k]; rfl
  · intro k
    rw [hmode.2, Mode.fconf_dscrEn] at k
    exact h.dma_fifo hl (by simpa using k)

theorem BurstReady.sending {s : State} (h : BurstReady s) : Sending True True s :=
  h.boundary.sending h.live h.txn h.write fun _ => ⟨h.sound, fun _ => h.radio, fun k => absurd trivial k⟩

/-- The first three checks of a write command. -/
theorem Runs_writeChecks {g : Prop} {γ : View} (hg : g → γ.S.life = .initialised ∧ γ.S.txn = true ∧ γ.S.read = false)
    {P : State → Prop} :
    Runs (fun s => P s ∧ s.view = γ) writeChecks
      (fun _ s => (P s ∧ s.S.life = .initialised ∧ s.S.txn = true ∧ s.S.read = false) ∧ s.view = γ) (Halts g) := by
  have hv : ∀ s : State, s.view = γ → s.S = γ.S := fun s h => by rw [← h]; rfl
  refine Runs_bind (R := fun _ s => (P s ∧ s.S.life = .initialised) ∧ s.view = γ) ?_ fun _ => ?_
  · refine Runs_check (fun s h c => ⟨⟨h.1, by simpa using c⟩, h.2⟩) fun s h c => ⟨takeFault_not_live _ _, fun k => ?_, takeFault_faulted _ _⟩
    rw [hv s h.2, (hg k).1] at c; cases c
  refine Runs_bind (R := fun _ s => (P s ∧ s.S.life = .initialised ∧ s.S.txn = true) ∧ s.view = γ) ?_ fun _ => ?_
  · refine Runs_check (fun s h c => ⟨⟨h.1.1, h.1.2, c⟩, h.2⟩) fun s h c => ⟨takeFault_not_live _ _, fun k => ?_, takeFault_faulted _ _⟩
    rw [hv s h.2, (hg k).2.1] at c; cases c
  · refine Runs_check (fun s h c => ⟨⟨h.1.1, h.1.2.1, h.1.2.2, by simpa using c⟩, h.2⟩)
      fun s h c => ⟨takeFault_not_live _ _, fun k => ?_, takeFault_faulted _ _⟩
    rw [hv s h.2, (hg k).2.2] at c; cases c

/-- An operand check. -/
theorem Runs_operand {g : Prop} {P : State → Prop} {c : State → Bool} (hg : g → ∀ s, P s → c s = true) :
    Runs P (needOperand c) (fun _ s => P s ∧ c s = true) (Halts g) :=
  Runs_check (fun _ h k => ⟨h, k⟩) fun s h k => ⟨takeFault_not_live _ _, fun k' => (by rw [hg k' s h] at k; cases k),
    takeFault_faulted _ _⟩

end Sys2Proof.Machine
end

