-- ==== Sys2Proof/Laws/Bulk.lean ====
section
/-!
SUPPORT. The rules of `writeBytes` and of the DMA phase (R158 to R160), over any way of reading the buffer's bytes.
-/

namespace Sys2Proof.Machine

/-! ## Reading the buffer -/

/-- The part of a view that the buffer's bytes are read from. -/
structure Source where
  M : Memory
  par : Params
  pixbuf : List Byte

def View.source (γ : View) : Source := ⟨γ.M, γ.par, γ.S.pixbuf⟩

/-- `rd k` reads byte `f k` and records `ev k`, for `k` below `n`, wherever a write command stands. -/
def Reads (g r : Prop) (σ : Source) (n : Nat) (rd : Nat → Act Byte) (f : Nat → Byte) (ev : Nat → List Event) : Prop :=
  ∀ {P : State → Prop} {γ : View} {k : Nat}, Stable P → (∀ s, P s → Writing g r s) →
    (∀ s, P s → InMode s) → (∀ s e, P s → P (s.emit e)) →
    γ.source = σ → k < n →
    Runs (fun s => P s ∧ s.view = γ) (rd k) (fun b s => (P s ∧ b = f k) ∧ s.view = γ.logged (ev k)) (Halts g)

theorem Reads_memory {g r : Prop} {σ : Source} {n buffer : Nat} (ha : g → admitsAll σ.par buffer n) :
    Reads g r σ n (fun k => memRead (buffer + k)) (fun k => σ.M.read (buffer + k))
      (fun k => [.mRd (buffer + k) (σ.M.read (buffer + k))]) := by
  intro P γ k hP hw hm he hσ hk
  refine Runs_op hP hw ?_ (fun _ _ _ _ o => by simp [memReadOp] at o) ?_
  · intro s a t h hv _ o
    simp only [memReadOp, Effect.done.injEq] at o
    obtain ⟨rfl, rfl⟩ := o
    have hM : s.M = σ.M := by rw [← hσ, ← hv]; rfl
    refine ⟨⟨he _ _ h, by rw [hM]⟩, ?_⟩
    rw [view_emit, hv, hM]; rfl
  · intro s x h hv b _ _
    refine ⟨hm s h, fun kk => ?_⟩
    have hp : s.par = σ.par := by rw [← hσ, ← hv]; rfl
    rw [hp, ha kk k hk] at b
    simp at b

theorem Reads_pixbuf {g : Prop} {σ : Source} {n : Nat} :
    Reads g r σ n readPixbuf (fun k => σ.pixbuf.getD k 0#8) (fun _ => []) := by
  intro P γ k _ _ _ _ hσ _ s hs
  have hp : s.S.pixbuf = σ.pixbuf := by rw [← hσ, ← hs.2]; rfl
  exact ⟨⟨hs.1, by rw [hp]⟩, by simpa using hs.2⟩

/-- Bytes `k` to `k + n - 1` of the buffer. -/
def bytesAt (f : Nat → Byte) (k n : Nat) : List Byte := (List.range n).map fun j => f (k + j)

theorem bytesAt_succ (f : Nat → Byte) (k n : Nat) : bytesAt f k (n + 1) = f k :: bytesAt f (k + 1) n := by
  simp [bytesAt, List.range_succ_eq_map, Nat.add_assoc, Nat.add_comm 1]

theorem bytesAt_add (f : Nat → Byte) (k m n : Nat) : bytesAt f k (m + n) = bytesAt f k m ++ bytesAt f (k + m) n := by
  induction m generalizing k with
  | zero => simp [bytesAt]
  | succ m ih => rw [show m + 1 + n = (m + n) + 1 from by omega, bytesAt_succ, ih, bytesAt_succ, List.cons_append,
      show k + 1 + m = k + (m + 1) from by omega]

/-- The events of `n` bytes read. -/
def readsLog (ev : Nat → List Event) (k n : Nat) : List Event := (List.range n).flatMap fun j => ev (k + j)

theorem readsLog_succ (ev : Nat → List Event) (k n : Nat) : readsLog ev k (n + 1) = ev k ++ readsLog ev (k + 1) n := by
  simp [readsLog, List.range_succ_eq_map, List.flatMap_cons, List.flatMap_map, Nat.add_assoc, Nat.add_comm 1]

/-- The events of `n` byte pairs read and pushed. -/
def pairsLog (f : Nat → Byte) (ev : Nat → List Event) (k n : Nat) : List Event :=
  (List.range n).flatMap fun j => readsLog ev (k + 2 * j) 2 ++ [.push (pairWord (f (k + 2 * j)).toNat (f (k + 2 * j + 1)).toNat)]

theorem pairsLog_succ (f : Nat → Byte) (ev : Nat → List Event) (k n : Nat) : pairsLog f ev k (n + 1) =
    ev k ++ ev (k + 1) ++ [.push (pairWord (f k).toNat (f (k + 1)).toNat)] ++ pairsLog f ev (k + 2) n := by
  have h : ∀ j, k + 2 * (j + 1) = k + 2 + 2 * j := by omega
  simp [pairsLog, List.range_succ_eq_map, List.flatMap_cons, List.flatMap_map, h, readsLog]

/-! ## The FIFO path -/

theorem View.source_logged (γ : View) (es : List Event) : (γ.logged es).source = γ.source := rfl
theorem View.source_sends (γ : View) (es : List BusEvent) : (γ.sends es).source = γ.source := rfl
theorem View.source_setMode (γ : View) (m : Mode) : (γ.setMode m).source = γ.source := rfl

/-- A batch of byte pairs (R159). -/
theorem Runs_pushPairs {g r : Prop} {σ : Source} {n : Nat} {rd : Nat → Act Byte} {f : Nat → Byte} {ev : Nat → List Event}
    (hr : Reads g r σ n rd f ev) : ∀ (len k : Nat) {j : Nat} {γ : View}, γ.source = σ → γ.S.mode.width = .w16 → k + 2 * len ≤ n →
    Runs (fun s => Filling g r (j + len) s ∧ s.view = γ) (pushPairs rd len k)
      (fun _ s => Filling g r j s ∧ s.view = (γ.logged (pairsLog f ev k len)).sends (dataCycles (bytesAt f k (2 * len))))
      (Halts g) := by
  intro len
  induction len with
  | zero =>
    intro k j γ _ _ _ s hs
    refine ⟨hs.1, ?_⟩
    have : s.view = γ := hs.2
    simp [this, pairsLog, bytesAt, dataCycles]
  | succ len ih =>
    intro k j γ hσ hw hn
    unfold pushPairs
    have he : ∀ (i : Nat) (s : State) (e : Event), Filling g r i s → Filling g r i (s.emit e) := fun _ _ e h => Filling_emit h e
    refine Runs_bind (hr (P := Filling g r (j + (len + 1))) Filling_stable (fun s h => h.writing) (fun s h => h.mode) (he _) hσ (by omega)) fun b0 => ?_
    refine Runs_bind (Runs_weaken (hr (P := fun s => Filling g r (j + (len + 1)) s ∧ b0 = f k) (γ := γ.logged (ev k))
      (k := k + 1) (Filling_stable.and (.of_moves (fun _ _ h => h) fun _ _ h _ => h)) (fun s h => h.1.writing)
      (fun s h => h.1.mode) (fun s e h => ⟨he _ s e h.1, h.2⟩) hσ (by omega)) (fun _ h => h) (fun _ _ h => h) fun _ h => h) fun b1 => ?_
    refine Runs_bind (R := fun _ s => (Filling g r (j + len) s ∧ b0 = f k ∧ b1 = f (k + 1)) ∧
      s.view = ((γ.logged (ev k ++ ev (k + 1))).emit (.push (WB b0 b1))).sends (cyclesOf .w16 [WB b0 b1])) ?_ fun _ => ?_
    · intro s hs
      obtain ⟨⟨⟨h1, h2⟩, h3⟩, h4⟩ := hs
      rw [View.logged_logged] at h4
      have := Runs_fifoPush (g := g) (k := j + len) (γ := γ.logged (ev k ++ ev (k + 1))) (WB b0 b1) s ⟨h1, h4⟩
      cases hx : fifoPush (WB b0 b1) s with
      | ok a t =>
        simp only [hx] at this ⊢
        refine ⟨⟨this.1, h2, h3⟩, this.2.trans ?_⟩
        rw [show (γ.logged (ev k ++ ev (k + 1))).S.mode.width = .w16 from hw]
      | error e t => simpa only [hx] using this
    · intro s hs
      obtain ⟨⟨h1, rfl, rfl⟩, h4⟩ := hs
      have := ih (k + 2) (j := j) (γ := s.view) (by rw [h4]; exact hσ) (by rw [h4]; exact hw) (by omega) s ⟨h1, rfl⟩
      cases hx : pushPairs rd len (k + 2) s with
      | ok a t =>
        simp only [hx] at this ⊢
        refine ⟨this.1, this.2.trans ?_⟩
        rw [h4, WB_cycles, View.emit_eq, View.logged_logged, View.sends_logged, View.sends_sends, View.logged_logged,
          pairsLog_succ, WB_eq, show 2 * (len + 1) = (2 * len + 1) + 1 from by omega, bytesAt_succ, bytesAt_succ]
        simp [dataCycles]
      | error e t => simpa only [hx] using this

/-! ## The DMA path (R160) -/

/-- The copy is not the one a load holds. -/
def Spare (copy : Bool) (s : State) : Prop := s.P.dma.loaded = true → s.P.dma.buf ≠ copy

theorem Spare_stable {copy : Bool} : Stable (Spare copy) :=
  .of_moves (fun _ _ h => h) fun u m h _ => by
    have p := moved_P u m
    unfold Spare at *
    generalize (u.moved m).P = Q at p
    cases p <;> simp_all

theorem Stable_imp {g : Prop} {P : State → Prop} (h : Stable P) : Stable fun s => g → P s where
  took k e := fun hg => h.took (k hg) e
  listed k e hf := fun hg => h.listed (k hg) e hf
  settled k e hp hw hf := fun hg => h.settled (k hg) e hp hw hf

/-- Reading many bytes of the buffer. -/
theorem Runs_readMany {g r : Prop} {σ : Source} {n : Nat} {rd : Nat → Act Byte} {f : Nat → Byte} {ev : Nat → List Event}
    (hr : Reads g r σ n rd f ev) {P : State → Prop} (hP : Stable P) (hw : ∀ s, P s → Writing g r s)
    (hm : ∀ s, P s → InMode s) (he : ∀ s e, P s → P (s.emit e)) : ∀ (m k : Nat) {γ : View}, γ.source = σ → k + m ≤ n →
    Runs (fun s => P s ∧ s.view = γ) (readMany rd m k)
      (fun bs s => (P s ∧ bs = bytesAt f k m) ∧ s.view = γ.logged (readsLog ev k m)) (Halts g) := by
  intro m
  induction m with
  | zero => intro k γ _ _ s hs; exact ⟨⟨hs.1, rfl⟩, by simpa [readsLog] using hs.2⟩
  | succ m ih =>
    intro k γ hσ hn
    unfold readMany
    refine Runs_bind (hr (k := k) hP hw hm he hσ (by omega)) fun b => ?_
    refine Runs_bind (R := fun bs s => (P s ∧ b = f k ∧ bs = bytesAt f (k + 1) m) ∧
      s.view = γ.logged (ev k ++ readsLog ev (k + 1) m)) ?_ fun bs => ?_
    · intro s hs
      have := ih (k + 1) (γ := γ.logged (ev k)) hσ (by omega) s ⟨hs.1.1, hs.2⟩
      cases hx : readMany rd m (k + 1) s with
      | ok a t =>
        simp only [hx] at this ⊢
        exact ⟨⟨this.1.1, hs.1.2, this.1.2⟩, by rw [this.2, View.logged_logged]⟩
      | error e t => simpa only [hx] using this
    · intro s hs
      refine ⟨⟨hs.1.1, ?_⟩, by rw [hs.2, readsLog_succ]⟩
      rw [bytesAt_succ, hs.1.2.1, hs.1.2.2]

theorem setScratch_pending {s : State} {copy : Bool} {v : List Sample} (h : s.P.dma.loaded = true → s.P.dma.buf ≠ copy)
    (ha : s.P.dma.latched = true → s.P.dma.loaded = true) : (s.setScratch copy v).pending = s.pending := by
  cases copy <;> cases hl : s.P.dma.loaded <;> cases hb : s.P.dma.buf <;> cases hd : s.P.dma.latched <;>
    simp_all [State.pending, State.setScratch, Peripheral.scratch]

/-- Scratch copy `copy` holds `v`. -/
def Holds (copy : Bool) (v : List Sample) (s : State) : Prop := s.P.scratch copy = v

theorem Holds_ofScratch {copy : Bool} {v : List Sample} : OfScratch (Holds copy v) :=
  ⟨fun h1 h2 h => by cases copy <;> simp_all [Holds, Peripheral.scratch]⟩

/-- `BufWrite` (R117). -/
theorem Runs_bufWrite {g r : Prop} {γ : View} (copy : Bool) (v : List Sample) :
    Runs (fun s => (Sending g r s ∧ (g → Spare copy s)) ∧ s.view = γ) (bufWrite copy v)
      (fun _ s => (Sending g r s ∧ Holds copy v s) ∧ s.view = γ.emit (.bufWr copy v.length)) (Halts g) := by
  refine Runs_atomic (Sending_stable.and (Stable_imp Spare_stable)) (fun s h => h.1.writing) ?_ ?_
  · intro s a t h hv o
    obtain ⟨hz, rfl⟩ := bufWriteOp_done o
    have hS : Sending g r (s.setScratch copy v) := by
      have := h.1
      cases copy <;> exact ⟨⟨this.writing.1, this.writing.2, this.writing.3, this.writing.4, this.writing.5, this.writing.6, this.writing.7⟩, this.mode, this.idle⟩
    refine ⟨⟨Sending_emit hS _, ?_⟩, ?_⟩
    · cases copy <;> rfl
    · rw [view_emit, ← hv]
      congr 1
      have hp := setScratch_pending (s := s) (v := v) hz h.1.writing.latched_loaded
      cases copy <;> exact view_of_pending rfl rfl rfl rfl rfl rfl rfl hp
  · intro s c h hv o k
    have := h.2 k
    unfold bufWriteOp at o
    cases hl : s.P.dma.loaded
    · simp [hl] at o
    · simp [hl, this hl] at o

/-- The sequencer may use the descriptor: nothing is transmitted, in a sound launch. -/
def Idle (g r : Prop) (s : State) : Prop := Sending g r s ∧ (g → s.P.tx.running = false)

theorem Idle_stable {g r : Prop} : Stable (Idle g r) :=
  Sending_stable.and (Stable_imp (.of_moves (fun _ _ h => h) fun u m h _ => by
    cases hr : (u.moved m).P.tx.running with
    | false => rfl
    | true => rw [moved_running hr] at h; cases h))

theorem Idle_emit {g r : Prop} {s : State} (h : Idle g r s) (e : Event) : Idle g r (s.emit e) := ⟨Sending_emit h.1 e, h.2⟩

theorem Idle.loaded {g r : Prop} {s : State} (h : Idle g r s) (k : g) : s.P.dma.loaded = false := (h.1.idle (h.2 k)).2

/-- The view after the descriptor record was reallocated at `a`, the allocator left with `al` (R116, R119). -/
def View.realloc (γ : View) (n : Nat) (a : Word) (al : List (Option Word)) : View :=
  { γ.logged ((if γ.S.desc.allocated then [.free γ.S.desc.addr] else []) ++ [.alloc n a]) with
    S := { γ.S with desc := { γ.S.desc with capacity := n, addr := a } }, allocs := al }

theorem Runs_descRelease {g r : Prop} {K : State → Prop} (hK : OfScratch K) {γ : View} :
    Runs (fun s => (Idle g r s ∧ K s) ∧ s.view = γ) descRelease
      (fun _ s => (Idle g r s ∧ K s) ∧ s.view = γ.logged (if γ.S.desc.allocated then [.free γ.S.desc.addr] else [])) (Halts g) := by
  intro s hs
  have hd : s.S.desc = γ.S.desc := by rw [← hs.2]; rfl
  unfold descRelease
  rw [get_bind]
  cases ha : s.S.desc.allocated with
  | false =>
    rw [hd] at ha
    simp only [ha, Bool.false_eq_true, if_false, View.logged_nil]
    exact hs
  | true =>
    rw [hd] at ha
    simp only [ha, if_true]
    refine Runs_atomic (P := fun s => Idle g r s ∧ K s) (Idle_stable.and hK.stable) (fun s h => h.1.1.writing) ?_ ?_ s hs
    · intro s a t h hv o
      obtain ⟨hz, rfl⟩ := descFreeOp_done o
      have hd : s.S.desc = γ.S.desc := by rw [← hv]; rfl
      exact ⟨⟨Idle_emit h.1 _, hK.same (s := s) (t := s.emit _) rfl rfl h.2⟩, by rw [view_emit, hv, hd]; rfl⟩
    · intro s c h hv o k
      simp [descFreeOp, h.1.loaded k] at o

theorem Runs_descAlloc {g r : Prop} {K : State → Prop} (hK : OfScratch K) {γ : View} (n : Nat)
    (hg : g → ∃ a al, γ.allocs = some a :: al) :
    Runs (fun s => (Idle g r s ∧ K s) ∧ s.view = γ) (atom (descAllocOp n))
      (fun _ s => (Idle g r s ∧ K s) ∧ ∃ a al, (g → γ.allocs = some a :: al) ∧
        s.view = { γ.emit (.alloc n a) with S := { γ.S with desc := { γ.S.desc with capacity := n, addr := a } }, allocs := al })
      (Halts g) := by
  refine Runs_atomic (P := fun s => Idle g r s ∧ K s) (Idle_stable.and hK.stable) (fun s h => h.1.1.writing) ?_ ?_
  · intro s u t h hv o
    have hal : s.E.allocs = γ.allocs := by rw [← hv]; rfl
    obtain ⟨hz, a, ha, rfl⟩ := descAllocOp_done o
    have hI : Idle g r (s.afterAlloc.setDesc { s.S.desc with capacity := n, addr := a }) := by
      have e : s.afterAlloc.E.radioClkEn = s.E.radioClkEn ∧ s.afterAlloc.E.sched = s.E.sched := by simp
      refine ⟨⟨⟨?_, ?_, ?_, ?_, ?_, ?_, fun k => ?_⟩, ?_, ?_⟩, ?_⟩
      · have := h.1.1.writing.live; exact ⟨by simpa using this.1, by simpa using this.2⟩
      · simpa using h.1.1.writing.pins
      · simpa using h.1.1.writing.latch_running
      · simpa using h.1.1.writing.latched_loaded
      · simpa using h.1.1.writing.load_mode
      · simpa using h.1.1.writing.dma_fifo
      · have := h.1.1.writing.good k
        simpa [Good, RadioOff, RadioStaysOn] using this
      · have := h.1.1.mode
        exact ⟨by simpa using this.1, by simpa using this.2⟩
      · simpa using h.1.1.idle
      · simpa using h.1.2
    refine ⟨⟨Idle_emit hI _, hK.same (s := s) (by simp) (by simp) h.2⟩, a, s.afterAlloc.E.allocs, fun k => ?_, ?_⟩
    · obtain ⟨a', al, e⟩ := hg k
      rw [e] at hal
      simp only [State.allocAnswer, hal, List.headD_cons, Option.some.injEq] at ha
      rw [e, ha]
      simp [State.afterAlloc, hal]
    · rw [view_emit, ← hv]
      have hp : (s.afterAlloc.setDesc { s.S.desc with capacity := n, addr := a }).pending = s.pending := by
        simp [State.pending]
      have hS : (s.afterAlloc.setDesc { s.S.desc with capacity := n, addr := a }).S =
          { s.S with desc := { s.S.desc with capacity := n, addr := a } } := by simp [State.setDesc]
      simp [State.view, View.emit, State.output, hp, hS]
  · intro s c h hv o k
    obtain ⟨a, al, e⟩ := hg k
    have hal : s.E.allocs = γ.allocs := by rw [← hv]; rfl
    rw [e] at hal
    simp [descAllocOp, h.1.loaded k, State.allocAnswer, hal] at o

/-- `DescRealloc` (R119). -/
theorem Runs_descRealloc {g r : Prop} {K : State → Prop} (hK : OfScratch K) {γ : View} (n : Nat)
    (hg : g → ∃ a al, γ.allocs = some a :: al) :
    Runs (fun s => (Idle g r s ∧ K s) ∧ s.view = γ) (descRealloc n)
      (fun _ s => (Idle g r s ∧ K s) ∧ ∃ a al, (g → γ.allocs = some a :: al) ∧ s.view = γ.realloc n a al) (Halts g) := by
  refine Runs_bind (Runs_descRelease hK) fun _ => Runs_weaken (Runs_descAlloc hK
    (γ := γ.logged (if γ.S.desc.allocated then [.free γ.S.desc.addr] else [])) n hg) (fun _ h => h) (fun _ s h => ⟨h.1, ?_⟩)
    fun _ h => h
  obtain ⟨a, al, h1, h2⟩ := h.2
  exact ⟨a, al, h1, by rw [h2]; simp [View.realloc, View.emit, View.logged]⟩

/-- The descriptor record for a load (R160, R164): reallocated when its length differs. -/
theorem Runs_ensureCapacity {g r : Prop} {K : State → Prop} (hK : OfScratch K) {γ : View} (n : Nat)
    (hg : g → n ≠ γ.S.desc.capacity → ∃ a al, γ.allocs = some a :: al) :
    Runs (fun s => (Idle g r s ∧ K s) ∧ s.view = γ) (ensureCapacity n)
      (fun _ s => (Idle g r s ∧ K s) ∧ (n = γ.S.desc.capacity ∧ s.view = γ ∨
        n ≠ γ.S.desc.capacity ∧ ∃ a al, (g → γ.allocs = some a :: al) ∧ s.view = γ.realloc n a al)) (Halts g) := by
  intro s hs
  have hd : s.S.desc = γ.S.desc := by rw [← hs.2]; rfl
  unfold ensureCapacity
  rw [get_bind, hd]
  by_cases hn : n = γ.S.desc.capacity
  · rw [if_pos hn]; exact ⟨hs.1, .inl ⟨hn, hs.2⟩⟩
  · rw [if_neg hn]
    have := Runs_descRealloc hK n (fun k => hg k hn) s hs
    cases hx : descRealloc n s with
    | ok a t => simp only [hx] at this ⊢; exact ⟨this.1, .inr ⟨hn, this.2⟩⟩
    | error e t => simpa only [hx] using this

/-- The descriptor of a load of `n` bus bytes from copy `copy` is written, and no load is held. -/
def Described (copy : Bool) (n : Nat) (s : State) : Prop :=
  s.P.dma.loaded = false ∧ s.P.desc.length = 2 * n ∧ s.P.desc.bufAddr = s.par.scratchAddr copy

theorem Described_stable {copy : Bool} {n : Nat} : Stable (Described copy n) :=
  .of_moves (fun _ _ h => h) fun u m h _ => by
    have p := moved_P u m
    unfold Described at *
    rw [(moved_beside u m).par]
    generalize (u.moved m).P = Q at p
    cases p <;> simp_all

/-- `DescWrite` (R119). -/
theorem Runs_descWrite {g r : Prop} {K : State → Prop} (hK : OfScratch K) {γ : View} (copy : Bool) (n : Nat)
    (hm : γ.S.mode = .bulk16Dma) :
    Runs (fun s => (Idle g r s ∧ K s) ∧ s.view = γ) (descWrite (loadDescriptor (γ.par.scratchAddr copy) n))
      (fun _ s => ((Idle g r s ∧ Described copy n s) ∧ K s) ∧
        s.view = γ.emit (.descWr (loadDescriptor (γ.par.scratchAddr copy) n))) (Halts g) := by
  refine Runs_atomic (P := fun s => Idle g r s ∧ K s) (Idle_stable.and hK.stable) (fun s h => h.1.1.writing) ?_ ?_
  · intro s a t h hv o
    obtain ⟨hz, rfl⟩ := descWriteOp_done o
    have hp : s.par = γ.par := by rw [← hv]; rfl
    have hmode : s.S.mode = .bulk16Dma := by rw [← hm, ← hv]; rfl
    have hd : s.P.regs.fconf.dscrEn = true := by rw [h.1.1.mode.2, hmode]; rfl
    have hI : Idle g r (s.setDescriptor (loadDescriptor (γ.par.scratchAddr copy) n)) := by
      have := h.1.1
      exact ⟨⟨⟨this.writing.1, this.writing.2, this.writing.3, this.writing.4, this.writing.5, this.writing.6, this.writing.7⟩,
        this.mode, this.idle⟩, h.1.2⟩
    have ha : s.P.dma.latched = false := by
      cases ha : s.P.dma.latched with
      | false => rfl
      | true => rw [h.1.1.writing.latched_loaded ha] at hz; cases hz
    refine ⟨⟨⟨Idle_emit hI _, hz, rfl, by rw [← hp]; rfl⟩, hK.same (s := s) (by simp) (by simp) h.2⟩, ?_⟩
    rw [view_emit, ← hv]
    congr 1
    exact view_of_pending rfl rfl rfl rfl rfl rfl rfl (by simp [State.pending, hd, ha, hz])
  · intro s c h hv o k
    simp [descWriteOp, h.1.loaded k] at o

/-- `OutLinkStart` (R118): the copy's samples are to be sent. -/
theorem Runs_outLinkStart {g r : Prop} (hgr : g → r) {γ : View} {copy : Bool} {v : List Sample} (hsc : γ.par.scratchAddr0 ≠ γ.par.scratchAddr1)
    (hm : γ.S.mode = .bulk16Dma) :
    Runs (fun s => ((Idle g r s ∧ Described copy v.length s) ∧ Holds copy v s) ∧ s.view = γ) outLinkStart
      (fun _ s => (Loading g r s ∧ (copy = s.P.dma.buf)) ∧
        s.view = (γ.emit (.regWr (.outlink ⟨Config.physAddr γ.S.desc.addr, true⟩))).sends (v.map cycleOf)) (Halts g) := by
  refine Runs_atomic (P := fun s => (Idle g r s ∧ Described copy v.length s) ∧ Holds copy v s)
    ((Idle_stable.and Described_stable).and Holds_ofScratch.stable) (fun s h => h.1.1.1.writing) ?_ ?_
  · intro s a t h hv o
    obtain ⟨hr, hl, rfl⟩ := outLinkStartOp_done o
    have hpar : s.par = γ.par := by rw [← hv]; rfl
    have hmode : s.S.mode = .bulk16Dma := by rw [← hm, ← hv]; rfl
    have hd : s.P.regs.fconf.dscrEn = true := by rw [h.1.1.1.mode.2, hmode]; rfl
    have ha : s.P.dma.latched = false := by
      cases ha : s.P.dma.latched with
      | false => rfl
      | true => rw [h.1.1.1.writing.latched_loaded ha] at hl; cases hl
    have hcopy : s.par.copyAt s.P.desc.bufAddr = copy := by
      rw [h.1.2.2.2]
      rw [← hpar] at hsc
      cases copy <;> simp [Params.copyAt, Params.scratchAddr, hsc]
    have hw := h.1.1.1.writing
    have hp0 : s.pending = [] := by simp [State.pending, hd, ha, hl]
    have hp1 : s.linked.pending = v.map cycleOf := by
      have hh : s.P.scratch copy = v := h.2
      have hlen := h.1.2.2.1
      have e : s.linked.P.scratch copy = v := by cases copy <;> exact hh
      simp only [State.pending, State.linked, setDma_P_dma, setDma_P_regs, emit_P, setRegs_P_regs, hd, hcopy, if_true,
        Bool.false_eq_true, if_false] at e ⊢
      rw [e, setDma_P_desc, emit_P, setRegs_P_desc, hlen]
      simp
    refine ⟨⟨⟨⟨hw.live, hw.pins, hw.latch_running, fun e => ?_, fun _ => hd, hw.dma_fifo,
      fun k => ⟨(hw.good k).1, (hw.good k).2.1, fun n => absurd (hgr k) n⟩⟩, h.1.1.1.mode, hr, rfl⟩, hcopy.symm⟩, ?_⟩
    · cases e
    · rw [← hv]
      simp only [State.view, View.emit, View.sends, State.output, hp0, hp1, List.append_nil]
      cases hk : s.E.device.loopback <;> simp [State.linked, hk, dataOf]
  · intro s c h hv o k
    simp [outLinkStartOp, regWriteOp, State.regHazard, h.1.1.2 k, h.1.2.1] at o

/-- `Spin(K_DMA)` (R98): in a sound launch the load is latched after it. -/
theorem Runs_spinDma {g r : Prop} {γ : View} {copy : Bool} :
    Runs (fun s => (Loading g r s ∧ (copy = s.P.dma.buf)) ∧ s.view = γ) spinDma
      (fun _ s => (Loading g r s ∧ (g → s.P.dma.latched = true) ∧ (copy = s.P.dma.buf)) ∧ s.view = γ.emit (.spin γ.par.kDma)) (Halts g) := by
  have hst : Stable fun s => Loading g r s ∧ (copy = s.P.dma.buf) := by
    refine Loading_stable.and (.of_moves (fun _ _ h => h) fun u m h _ => ?_)
    have p := moved_P u m
    generalize (u.moved m).P = Q at p
    cases p <;> simp_all
  refine Runs_op hst (fun s h => h.1.writing) ?_ (fun _ _ _ _ o => by simp [spinOp] at o) ?_
  · intro s a t h hv b o
    simp only [spinOp, Effect.done.injEq] at o
    obtain ⟨-, rfl⟩ := o
    have hpar : s.par = γ.par := by rw [← hv]; rfl
    refine ⟨⟨⟨Writing_emit h.1.writing _, h.1.mode, h.1.idle, h.1.loaded⟩, fun k => ?_, h.2⟩, by rw [view_emit, hv, hpar]⟩
    have hg := (h.1.writing.good k).1.dmaLatch
    cases hl : s.P.dma.latched with
    | true => exact hl
    | false => simp [State.dmaSpinReady, hg, hl] at b
  · intro s x h hv b _ n
    refine ⟨h.1.mode, fun k => ?_⟩
    have hn := n (h.1.writing.good k).1.progress
    have hx : txStep s = none := by
      unfold hwStep at hn
      cases hx : txStep s with
      | none => rfl
      | some u => simp [hx] at hn
    simp only [hwStep, hx] at hn
    have hd := h.1.writing.load_mode h.1.loaded
    cases hl : s.P.dma.latched with
    | true => simp [State.dmaSpinReady, hl] at b
    | false => simp [dmaStep, h.1.loaded, hl, hd] at hn

/-- `TxStart` of a load (R92, R107, R119). -/
theorem Runs_txStartLoad {g r : Prop} {γ : View} {copy : Bool} :
    Runs (fun s => (Loading g r s ∧ (g → s.P.dma.latched = true) ∧ (copy = s.P.dma.buf)) ∧ s.view = γ) txStart
      (fun _ s => (Sending g r s ∧ (copy = s.P.dma.buf)) ∧ s.view = γ.emit .start) (Halts g) := by
  have hst : Stable fun s => Loading g r s ∧ (g → s.P.dma.latched = true) ∧ (copy = s.P.dma.buf) := by
    refine .with_good (g := g) (fun _ h => h.1.writing.good)
      (fun u ms h hg => ⟨⟨Writing_setSched h.1.writing hg, h.1.mode, h.1.idle, h.1.loaded⟩, h.2⟩) fun u m h hf hg => ?_
    have hw := Writing_moved h.1.writing hf hg
    have hi := InMode_moved h.1.mode hf
    have p := moved_P u m
    obtain ⟨⟨⟨h1, h2, h3, h4, h5, h6, -⟩, -, h7, h8⟩, h9, h10⟩ := h
    refine ⟨⟨hw, hi, ?_, ?_⟩, fun k => ?_, ?_⟩ <;> clear hw hi <;> generalize (u.moved m).P = Q at p <;> cases p <;> simp_all
  refine Runs_atomic hst (fun s h => h.1.writing) ?_ ?_
  · intro s a t h hv o
    obtain ⟨hz, -, rfl⟩ := txStartOp_done o
    have hw := h.1.writing
    have hS : Sending g r ((s.setRegs { s.P.regs with txStart := true }).setTx ⟨true, true⟩) :=
      ⟨⟨hw.live, hw.pins, fun _ => rfl, hw.latched_loaded, hw.load_mode, hw.dma_fifo, hw.good⟩, h.1.mode, fun e => by cases e⟩
    refine ⟨⟨Sending_emit hS _, h.2.2⟩, ?_⟩
    rw [view_emit, ← hv]
    rfl
  · intro s c h hv o k
    simp [txStartOp, h.1.idle, h.2.1 k] at o

/-- `γ'` is `γ` after the bus events `bs` were queued: only the mode, the descriptor's bookkeeping, the next copy, the
allocator and the history may differ otherwise. -/
structure Sent (γ : View) (bs : List BusEvent) (γ' : View) : Prop where
  S : γ'.S = { γ.S with mode := γ'.S.mode, desc := γ'.S.desc, flip := γ'.S.flip }
  M : γ'.M = γ.M
  par : γ'.par = γ.par
  G : γ'.G = γ.G
  producers : γ'.producers = γ.producers
  output : γ'.output = γ.output ++ bs
  echo : γ'.echo = γ.echo.map (· ++ dataOf bs)

theorem Sent.refl (γ : View) : Sent γ [] γ := by
  refine ⟨rfl, rfl, rfl, rfl, rfl, by simp, ?_⟩
  cases γ.echo <;> simp [dataOf]

theorem Sent.trans {γ δ ε : View} {bs cs : List BusEvent} (h : Sent γ bs δ) (k : Sent δ cs ε) : Sent γ (bs ++ cs) ε where
  S := by rw [k.S, h.S]
  M := k.M.trans h.M
  par := k.par.trans h.par
  G := k.G.trans h.G
  producers := k.producers.trans h.producers
  output := by rw [k.output, h.output, List.append_assoc]
  echo := by rw [k.echo, h.echo, Option.map_map]; congr 1; funext x; simp

theorem Sent.source {γ δ : View} {bs : List BusEvent} (h : Sent γ bs δ) : δ.source = γ.source := by
  simp only [View.source, h.M, h.par]; rw [h.S]

theorem Sent.pc {γ δ : View} {bs : List BusEvent} (h : Sent γ bs δ) : δ.S.pc = γ.S.pc := by rw [h.S]

theorem Sent.cast {γ δ : View} {bs cs : List BusEvent} (h : Sent γ bs δ) (e : bs = cs) : Sent γ cs δ := e ▸ h

theorem Sent.logged (γ : View) (es : List Event) : Sent γ [] (γ.logged es) :=
  ⟨rfl, rfl, rfl, rfl, rfl, by simp [View.logged], (Sent.refl γ).echo⟩

theorem Sent.sends (γ : View) (bs : List BusEvent) : Sent γ bs (γ.sends bs) := ⟨rfl, rfl, rfl, rfl, rfl, rfl, rfl⟩

theorem Sent.setMode (γ : View) (m : Mode) : Sent γ [] (γ.setMode m) :=
  ⟨rfl, rfl, rfl, rfl, rfl, by simp [View.setMode], (Sent.refl γ).echo⟩

theorem Sent.realloc (γ : View) (n : Nat) (a : Word) (al : List (Option Word)) : Sent γ [] (γ.realloc n a al) :=
  ⟨rfl, rfl, rfl, rfl, rfl, by simp [View.realloc, View.logged], (Sent.refl γ).echo⟩

def View.flipped (γ : View) : View := { γ with S := { γ.S with flip := !γ.S.flip } }

theorem Sent.flipped (γ : View) : Sent γ [] γ.flipped :=
  ⟨rfl, rfl, rfl, rfl, rfl, by simp [View.flipped], (Sent.refl γ).echo⟩

/-- The view after `ensureCapacity n`. -/
def Capacity (g : Prop) (n : Nat) (γ γ' : View) : Prop :=
  n = γ.S.desc.capacity ∧ γ' = γ ∨
    n ≠ γ.S.desc.capacity ∧ ∃ a al, (g → γ.allocs = some a :: al) ∧ γ' = γ.realloc n a al

theorem Capacity.sent {g : Prop} {n : Nat} {γ γ' : View} (h : Capacity g n γ γ') : Sent γ [] γ' := by
  rcases h with ⟨-, rfl⟩ | ⟨-, a, al, -, rfl⟩
  · exact .refl _
  · exact .realloc _ _ _ _

/-- The view after the samples of a load of `n` bytes were prepared in copy `S.flip`. -/
def View.prepared (γ : View) (rl : List Event) (n : Nat) : View :=
  (γ.logged (rl ++ [.bufWr γ.S.flip n, .wait] ++ ensureEvents γ.S.mode .bulk16Dma)).setMode .bulk16Dma

/-- The view after the load was linked, started and the next copy chosen. -/
def View.linked (γ : View) (bs : List Byte) : View :=
  ((γ.logged [.descWr (loadDescriptor (γ.par.scratchAddr γ.S.flip) bs.length),
    .regWr (.outlink ⟨Config.physAddr γ.S.desc.addr, true⟩), .spin γ.par.kDma, .start]).sends (dataCycles bs)).flipped

/-- A load of the DMA phase (R160). -/
theorem Runs_dmaLoad {g r : Prop} {σ : Source} {N : Nat} {rd : Nat → Act Byte} {f : Nat → Byte} {ev : Nat → List Event}
    (hgr : g → r) (hr : Reads g r σ N rd f ev) {γ : View} {k n : Nat} (hσ : γ.source = σ) (hn : k + n ≤ N)
    (hsc : γ.par.scratchAddr0 ≠ γ.par.scratchAddr1)
    (hg : g → 2 * n ≠ γ.S.desc.capacity → ∃ a al, γ.allocs = some a :: al) :
    Runs (fun s => (Sending g r s ∧ (g → Spare s.S.flip s)) ∧ s.view = γ) (dmaLoad rd k n)
      (fun _ s => (Sending g r s ∧ (g → Spare s.S.flip s)) ∧
        ∃ δ, Capacity g (2 * n) (γ.prepared (readsLog ev k n) n) δ ∧ s.view = δ.linked (bytesAt f k n)) (Halts g) := by
  have hlen : (bytesAt f k n).length = n := by simp [bytesAt]
  have hbs : ∀ bs : List Byte, (bs.map SD).map cycleOf = dataCycles bs := by
    intro bs; simp [dataCycles, SD_cycle, Function.comp_def]
  unfold dmaLoad
  refine Runs_bind (R := fun bs s => ((Sending g r s ∧ (g → Spare γ.S.flip s)) ∧ bs = bytesAt f k n) ∧
    s.view = γ.logged (readsLog ev k n)) ?_ fun bs => ?_
  · refine Runs_weaken (Runs_readMany hr (P := fun s => Sending g r s ∧ (g → Spare γ.S.flip s))
      (Sending_stable.and (Stable_imp Spare_stable)) (fun s h => h.1.writing) (fun s h => h.1.mode) (fun s e h => ⟨Sending_emit h.1 e, h.2⟩) n k hσ hn)
      (fun s h => ⟨⟨h.1.1, fun kk => ?_⟩, h.2⟩) (fun _ _ h => h) fun _ h => h
    have : s.S.flip = γ.S.flip := by rw [← h.2]; rfl
    rw [← this]; exact h.1.2 kk
  intro s hs
  obtain ⟨⟨⟨h1, h2⟩, rfl⟩, hv⟩ := hs
  have hflip : s.S.flip = γ.S.flip := by rw [show s.S = s.view.S from rfl, hv]; rfl
  have hpar : s.par = γ.par := by rw [show s.par = s.view.par from rfl, hv]; rfl
  rw [get_bind]
  -- from here on the state is only known by its view
  have main : Runs (fun u => (Sending g r u ∧ (g → Spare γ.S.flip u)) ∧ u.view = γ.logged (readsLog ev k n))
      (bufWrite γ.S.flip ((bytesAt f k n).map SD) >>= fun _ => waitIdle >>= fun _ => ensureMode .bulk16Dma >>= fun _ =>
        ensureCapacity (2 * n) >>= fun _ => descWrite (loadDescriptor (γ.par.scratchAddr γ.S.flip) n) >>= fun _ =>
        outLinkStart >>= fun _ => spinDma >>= fun _ => txStart >>= fun _ => update fun u => u.setFlip (!u.S.flip))
      (fun _ s => (Sending g r s ∧ (g → Spare s.S.flip s)) ∧
        ∃ δ, Capacity g (2 * n) (γ.prepared (readsLog ev k n) n) δ ∧ s.view = δ.linked (bytesAt f k n)) (Halts g) := by
    have hK := Holds_ofScratch (copy := γ.S.flip) (v := (bytesAt f k n).map SD)
    refine Runs_bind (Runs_bufWrite _ _) fun _ => ?_
    refine Runs_bind (Runs_waitIdle (P := fun s => Sending g r s ∧ Holds γ.S.flip ((bytesAt f k n).map SD) s)
      (Sending_stable.and hK.stable) (fun s h => h.1.writing) (fun s h => h.1.mode)
      (fun s h => ⟨Sending_emit h.1 _, hK.same (s := s) (t := s.emit .wait) rfl rfl h.2⟩)) fun _ => ?_
    refine Runs_bind (Runs_weaken (Runs_ensureMode hK .bulk16Dma) (fun s h => ⟨⟨⟨h.1.1.1, h.1.2⟩, h.1.1.2⟩, h.2⟩)
      (fun _ _ h => h) fun _ h => h) fun _ => ?_
    refine Runs_bind (R := fun _ s => (Idle g r s ∧ Holds γ.S.flip ((bytesAt f k n).map SD) s) ∧
      Capacity g (2 * n) (γ.prepared (readsLog ev k n) n) s.view) ?_ fun _ => ?_
    · refine Runs_weaken (Runs_ensureCapacity hK (γ := γ.prepared (readsLog ev k n) n) (2 * n) hg) (fun s h => ⟨h.1.1, h.2.trans ?_⟩)
        (fun _ _ h => h) fun _ h => h
      simp [View.prepared, View.emit, View.logged, View.setMode, hlen]
    intro s hs
    obtain ⟨⟨h1, h2⟩, h3⟩ := hs
    have hsent := ((Sent.logged γ _).trans (Sent.setMode _ .bulk16Dma)).trans h3.sent
    have hm : s.view.S.mode = .bulk16Dma := by
      rcases h3 with ⟨-, e⟩ | ⟨-, a, al, -, e⟩ <;> rw [e] <;> rfl
    have hfl : s.view.S.flip = γ.S.flip := by
      rcases h3 with ⟨-, e⟩ | ⟨-, a, al, -, e⟩ <;> rw [e] <;> rfl
    have hp : s.view.par = γ.par := hsent.par
    have tail : Runs (fun u => (Idle g r u ∧ Holds γ.S.flip ((bytesAt f k n).map SD) u) ∧ u.view = s.view)
        (descWrite (loadDescriptor (γ.par.scratchAddr γ.S.flip) n) >>= fun _ =>
          outLinkStart >>= fun _ => spinDma >>= fun _ => txStart >>= fun _ => update fun u => u.setFlip (!u.S.flip))
        (fun _ u => (Sending g r u ∧ (g → Spare u.S.flip u)) ∧ u.view = s.view.linked (bytesAt f k n)) (Halts g) := by
      rw [← hp]
      refine Runs_bind (Runs_descWrite hK γ.S.flip n hm) fun _ => ?_
      refine Runs_bind (Runs_weaken (Runs_outLinkStart hgr (copy := γ.S.flip) (v := (bytesAt f k n).map SD)
        (γ := s.view.emit (.descWr (loadDescriptor (s.view.par.scratchAddr γ.S.flip) n)))
        (by rw [show (s.view.emit _).par = s.view.par from rfl, hp]; exact hsc) hm)
        (fun u h => ⟨⟨⟨h.1.1.1, by rw [List.length_map, hlen]; exact h.1.1.2⟩, h.1.2⟩, h.2⟩) (fun _ _ h => h) fun _ h => h) fun _ => ?_
      refine Runs_bind Runs_spinDma fun _ => Runs_bind Runs_txStartLoad fun _ => ?_
      refine Runs_weaken (Runs_update (E := Halts g) (Q := fun _ u => (Sending g r u ∧ (g → Spare u.S.flip u)) ∧
        u.view = s.view.linked (bytesAt f k n)) fun u => u.setFlip (!u.S.flip)) (fun u h => ?_) (fun _ _ h => h) fun _ h => h
      obtain ⟨⟨h4, h5⟩, h6⟩ := h
      have hfu : u.S.flip = γ.S.flip := by rw [← hfl, show u.S = u.view.S from rfl, h6]; rfl
      refine ⟨⟨⟨⟨h4.writing.1, h4.writing.2, h4.writing.3, h4.writing.4, h4.writing.5, h4.writing.6, h4.writing.7⟩, h4.mode, h4.idle⟩,
        fun _ _ => ?_⟩, ?_⟩
      · rw [setFlip_P, ← h5, setFlip_S_flip, hfu]; cases γ.S.flip <;> simp
      · have e : (u.setFlip (!u.S.flip)).view = u.view.flipped := rfl
        rw [e, h6, hbs]
        simp [View.linked, View.flipped, View.emit, View.logged, View.sends, hlen, hfl]
    have := tail s ⟨⟨h1, h2⟩, rfl⟩
    revert this
    cases (descWrite (loadDescriptor (γ.par.scratchAddr γ.S.flip) n) >>= fun _ =>
          outLinkStart >>= fun _ => spinDma >>= fun _ => txStart >>= fun _ => update fun u => u.setFlip (!u.S.flip)) s with
    | ok a t => exact fun h => ⟨h.1, _, h3, h.2⟩
    | error e t => exact fun h => h
  have := main s ⟨⟨h1, h2⟩, hv⟩
  rw [← hflip, ← hpar] at this
  exact this

/-- The loads of `ns` bytes each, from byte `k` of the buffer on. -/
inductive DmaRun (g : Prop) (f : Nat → Byte) (ev : Nat → List Event) : View → Nat → List Nat → View → Prop where
  | nil {γ : View} {k : Nat} : DmaRun g f ev γ k [] γ
  | cons {γ δ ε : View} {k n : Nat} {ns : List Nat} (h : Capacity g (2 * n) (γ.prepared (readsLog ev k n) n) δ)
      (r : DmaRun g f ev (δ.linked (bytesAt f k n)) (k + n) ns ε) : DmaRun g f ev γ k (n :: ns) ε

theorem Sent.linked (γ : View) (bs : List Byte) : Sent γ (dataCycles bs) (γ.linked bs) :=
  (((Sent.logged γ _).trans (Sent.sends _ (dataCycles bs))).trans (Sent.flipped _)).cast (by simp)

theorem Sent.prepared (γ : View) (rl : List Event) (n : Nat) : Sent γ [] (γ.prepared rl n) :=
  (Sent.logged γ _).trans (Sent.setMode _ _)

theorem DmaRun.sent {g : Prop} {f : Nat → Byte} {ev : Nat → List Event} {γ ε : View} {k : Nat} {ns : List Nat}
    (h : DmaRun g f ev γ k ns ε) : Sent γ (dataCycles (bytesAt f k ns.sum)) ε := by
  induction h with
  | nil => exact (Sent.refl _).cast (by simp [bytesAt, dataCycles])
  | @cons γ δ ε k n ns h _ ih =>
    refine ((((Sent.prepared γ _ _).trans h.sent).trans (Sent.linked δ _)).trans ih).cast ?_
    simp [bytesAt_add]

/-- The load sizes of a DMA phase, as its loop computes them (R160, R162). -/
def loadsFrom : Nat → Nat → Nat → List Nat
  | 0, _, _ => []
  | fuel + 1, rem, load => min load rem ::
      if rem - min load rem = 0 then [] else loadsFrom fuel (rem - min load rem) (min (2 * load) dmaLoadMax)

theorem loadsFrom_sum : ∀ (fuel rem load : Nat), 1 ≤ load → 1 ≤ rem → rem ≤ fuel → (loadsFrom fuel rem load).sum = rem := by
  intro fuel
  induction fuel with
  | zero => intro rem load _ h1 h2; omega
  | succ fuel ih =>
    intro rem load h0 h1 h2
    unfold loadsFrom
    by_cases hz : rem - min load rem = 0
    · rw [if_pos hz]; simp; omega
    · rw [if_neg hz, List.sum_cons, ih _ _ (by unfold dmaLoadMax; omega) (by omega) (by omega)]; omega

/-- The allocator has an answer for every load. -/
def Supplied (γ : View) (n : Nat) : Prop := ∃ (as : List Word) (more : List (Option Word)), γ.allocs = as.map some ++ more ∧ n ≤ as.length

theorem Supplied.head {γ : View} {n : Nat} (h : Supplied γ (n + 1)) : ∃ a al, γ.allocs = some a :: al := by
  obtain ⟨as, more, h1, h2⟩ := h
  cases as with
  | nil => simp at h2
  | cons a as => exact ⟨a, as.map some ++ more, h1⟩

theorem Supplied.after {g : Prop} {γ δ : View} {n m : Nat} (h : Supplied γ (n + 1)) (k : g) (c : Capacity g m γ δ) :
    Supplied δ n := by
  obtain ⟨as, more, h1, h2⟩ := h
  rcases c with ⟨-, rfl⟩ | ⟨-, a, al, ha, rfl⟩
  · exact ⟨as, more, h1, by omega⟩
  · have e := ha k
    rw [h1] at e
    cases as with
    | nil => simp at h2
    | cons b bs =>
      simp only [List.map_cons, List.cons_append, List.cons.injEq] at e
      exact ⟨bs, more, e.2.symm, by simpa using h2⟩

/-- The DMA phase (R160). -/
theorem Runs_dmaPhase {g r : Prop} {σ : Source} {N : Nat} {rd : Nat → Act Byte} {f : Nat → Byte} {ev : Nat → List Event}
    (hgr : g → r) (hr : Reads g r σ N rd f ev) (hsc : σ.par.scratchAddr0 ≠ σ.par.scratchAddr1) : ∀ (fuel k rem load : Nat) (γ : View), γ.source = σ →
    k + rem ≤ N → 1 ≤ rem → 1 ≤ load → rem ≤ fuel → (g → Supplied γ (loadsFrom fuel rem load).length) →
    Runs (fun s => (Sending g r s ∧ (g → Spare s.S.flip s)) ∧ s.view = γ) (dmaPhase rd fuel k rem load)
      (fun _ s => Sending g r s ∧ DmaRun g f ev γ k (loadsFrom fuel rem load) s.view) (Halts g) := by
  intro fuel
  induction fuel with
  | zero => intro k rem load γ _ _ h1 _ h2; omega
  | succ fuel ih =>
    intro k rem load γ hσ hN h1 hl h2 hs
    have hpar : γ.par = σ.par := by rw [← hσ]; rfl
    have hlen : ∃ m, (loadsFrom (fuel + 1) rem load).length = m + 1 := by unfold loadsFrom; exact ⟨_, rfl⟩
    unfold dmaPhase
    refine Runs_bind (Runs_dmaLoad hgr hr hσ (by omega) (by rw [hpar]; exact hsc) fun kk _ => ?_) fun _ => ?_
    · obtain ⟨m, e⟩ := hlen
      have := hs kk
      rw [e] at this
      exact this.head
    intro s hs'
    obtain ⟨h3, δ, h4, h5⟩ := hs'
    unfold loadsFrom at hs ⊢
    by_cases hz : rem - min load rem = 0
    · simp only [if_pos hz]
      refine ⟨h3.1, .cons h4 ?_⟩
      rw [h5]; exact .nil
    · simp only [if_neg hz] at hs ⊢
      have hsent := ((Sent.prepared γ (readsLog ev k (min load rem)) (min load rem)).trans h4.sent).trans (Sent.linked δ (bytesAt f k (min load rem)))
      have := ih (k + min load rem) (rem - min load rem) (min (2 * load) dmaLoadMax) s.view
        (by rw [h5, hsent.source]; exact hσ) (by omega) (by omega) (by unfold dmaLoadMax; omega) (by omega)
        (fun kk => by
          have hsup := (hs kk)
          rw [List.length_cons] at hsup
          have := Supplied.after (γ := γ.prepared (readsLog ev k (min load rem)) (min load rem)) hsup kk h4
          rw [h5]; exact this) s ⟨h3, rfl⟩
      revert this
      cases dmaPhase rd fuel (k + min load rem) (rem - min load rem) (min (2 * load) dmaLoadMax) s with
      | ok a t => exact fun h => ⟨h.1, .cons h4 (by rw [← h5]; exact h.2)⟩
      | error e t => exact fun h => h

/-! ## The FIFO phase (R159) -/

/-- The batches of `ns` byte pairs each, from byte `k` of the buffer on, `sent` bus bytes sent before; then, if the DMA
phase is entered, its loads. -/
inductive FifoRun (g r : Prop) (f : Nat → Byte) (ev : Nat → List Event) (useDma : Bool) : View → Nat → Nat → List Nat → View → Prop where
  | last {γ : View} {k sent n : Nat} : FifoRun g r f ev useDma γ k sent [n]
      (((γ.setMode .bulk16).logged (.wait :: ensureEvents γ.S.mode .bulk16 ++ pairsLog f ev k n ++ [.start])).sends
        (dataCycles (bytesAt f k (2 * n))))
  | more {γ ε : View} {k sent n n' : Nat} {ns : List Nat} (polled : List Event)
      (hp : polled = if useDma = true ∧ γ.par.tDma ≤ sent + 2 * n then [.radio true] else []) (hq : g → r → polled = [])
      (run : FifoRun g r f ev useDma
        (((γ.setMode .bulk16).logged (.wait :: ensureEvents γ.S.mode .bulk16 ++ pairsLog f ev k n ++ [.start] ++ polled ++
          [.spin γ.par.kBytes])).sends (dataCycles (bytesAt f k (2 * n)))) (k + 2 * n) (sent + 2 * n) (n' :: ns) ε) :
      FifoRun g r f ev useDma γ k sent (n :: n' :: ns) ε
  | dma {γ ε : View} {k sent n n' : Nat} {ns : List Nat} (hu : useDma = true) (ht : γ.par.tDma ≤ sent + 2 * n) (hr : g → r)
      (run : DmaRun g f ev
        (((γ.setMode .bulk16).logged (.wait :: ensureEvents γ.S.mode .bulk16 ++ pairsLog f ev k n ++ [.start, .radio false])).sends
          (dataCycles (bytesAt f k (2 * n)))) (k + 2 * n)
        (loadsFrom (2 * (n' :: ns).sum) (2 * (n' :: ns).sum) dmaLoadMin) ε) :
      FifoRun g r f ev useDma γ k sent (n :: n' :: ns) ε

theorem FifoRun.sent {g r : Prop} {f : Nat → Byte} {ev : Nat → List Event} {useDma : Bool} {γ ε : View} {k sent : Nat}
    {ns : List Nat} (h : FifoRun g r f ev useDma γ k sent ns ε) (hpos : ∀ n ∈ ns, 1 ≤ n) :
    Sent γ (dataCycles (bytesAt f k (2 * ns.sum))) ε := by
  induction h with
  | last => exact (((Sent.setMode _ _).trans (Sent.logged _ _)).trans (Sent.sends _ _)).cast (by simp)
  | @more γ ε k sent n n' ns polled hp hq r' ih =>
    refine ((((Sent.setMode _ _).trans (Sent.logged _ _)).trans (Sent.sends _ _)).trans (ih fun m hm => hpos m (by simp_all))).cast ?_
    rw [List.sum_cons (a := n), show 2 * (n + (n' :: ns).sum) = 2 * n + 2 * (n' :: ns).sum from by omega, bytesAt_add]
    simp
  | @dma γ ε k sent n n' ns hu ht hr r' =>
    have h1 := hpos n' (by simp)
    refine ((((Sent.setMode _ _).trans (Sent.logged _ _)).trans (Sent.sends _ _)).trans r'.sent).cast ?_
    have h2 : 1 ≤ 2 * (n' :: ns).sum := by rw [List.sum_cons]; omega
    rw [loadsFrom_sum _ _ _ (by decide) h2 le_rfl]
    rw [List.sum_cons (a := n), show 2 * (n + (n' :: ns).sum) = 2 * n + 2 * (n' :: ns).sum from by omega, bytesAt_add]
    simp

/-- Whether the DMA phase is entered (R159, R161). -/
theorem Runs_dmaEntry {g r : Prop} {γ : View} (useDma : Bool) (done : Nat) :
    Runs (fun s => Sending g r s ∧ s.view = γ) (dmaEntry useDma done)
      (fun go s => Sending g r s ∧ ∃ polled,
        (polled = if useDma = true ∧ γ.par.tDma ≤ done then [.radio (!go)] else []) ∧ s.view = γ.logged polled ∧
          (go = true → useDma = true ∧ γ.par.tDma ≤ done ∧ (g → r)) ∧ (go = false → g → r → polled = [])) (Halts g) := by
  intro s hs
  have hp : s.par = γ.par := by rw [← hs.2]; rfl
  unfold dmaEntry
  rw [get_bind, hp]
  by_cases hc : useDma = true ∧ γ.par.tDma ≤ done
  · rw [if_pos hc]
    have h : Runs (fun s => Sending g r s ∧ s.view = γ) radioPoll (fun on s => (Sending g r s ∧
        ((on = false → g → r) ∧ (on = true → g → ¬ r))) ∧ s.view = γ.emit (.radio on)) (Halts g) := by
      refine Runs_atomic Sending_stable (fun s h => h.writing) ?_ (fun _ _ _ _ o => by simp [radioPollOp] at o)
      intro s a t h hv o
      simp only [radioPollOp, Effect.done.injEq] at o
      obtain ⟨rfl, rfl⟩ := o
      refine ⟨⟨Sending_emit h _, fun ho k => ?_, fun ho k hr => ?_⟩, by rw [view_emit, hv]⟩
      · by_contra hr
        exact ((h.writing.good k).2.2 hr).1.1 (by simpa [State.radioOn] using ho)
      · simp [State.radioOn, ((h.writing.good k).2.1 hr).1] at ho
    have h1 := Runs_bind (Q := fun go s => Sending g r s ∧ ∃ polled,
        (polled = if useDma = true ∧ γ.par.tDma ≤ done then [.radio (!go)] else []) ∧ s.view = γ.logged polled ∧
          (go = true → useDma = true ∧ γ.par.tDma ≤ done ∧ (g → r)) ∧ (go = false → g → r → polled = [])) h
      (f := fun on => pure (!on)) fun on => fun s hs => by
        refine ⟨hs.1.1, [.radio on], ?_, hs.2, fun e => ⟨hc.1, hc.2, hs.1.2.1 (by simpa using e)⟩, fun e k hr => ?_⟩
        · rw [if_pos hc, Bool.not_not]
        · exact absurd hr (hs.1.2.2 (by simpa using e) k)
    exact h1 s hs
  · rw [if_neg hc]
    have h : Sending g r s ∧ ∃ polled : List Event,
        (polled = if useDma = true ∧ γ.par.tDma ≤ done then [.radio (!false)] else []) ∧ s.view = γ.logged polled ∧
          (false = true → useDma = true ∧ γ.par.tDma ≤ done ∧ (g → r)) ∧ (false = false → g → r → polled = []) :=
      ⟨hs.1, [], (if_neg hc).symm, by simpa using hs.2, (fun e => nomatch e), fun _ _ _ => rfl⟩
    exact h

/-- The batch list of the FIFO phase, as its loop computes it. -/
theorem replicate_batches {pairs len : Nat} (h : len < pairs) (hd : bytesBatch ∣ pairs - len) :
    (pairs - len) / bytesBatch = (pairs - len - bytesBatch) / bytesBatch + 1 ∧ bytesBatch ≤ pairs - len ∧
      bytesBatch ∣ pairs - len - bytesBatch := by
  obtain ⟨q, hq⟩ := hd
  unfold bytesBatch at *
  omega

/-- The FIFO phase (R159). -/
theorem Runs_fifoPhase {g r : Prop} {σ : Source} {N : Nat} {rd : Nat → Act Byte} {f : Nat → Byte} {ev : Nat → List Event}
    (hr : Reads g r σ N rd f ev) {useDma : Bool} (hsc : useDma = true → σ.par.scratchAddr0 ≠ σ.par.scratchAddr1) :
    ∀ (rounds k pairs done len : Nat) (γ : View), γ.source = σ → k + 2 * pairs ≤ N → 1 ≤ len → len ≤ pairs → len ≤ bytesBatch →
    pairs ≤ rounds → bytesBatch ∣ pairs - len → (g → r → useDma = true → Supplied γ (2 * pairs)) →
    Runs (fun s => Sending g r s ∧ s.view = γ) (fifoPhase rd useDma rounds k pairs done len)
      (fun _ s => Sending g r s ∧
        FifoRun g r f ev useDma γ k done (len :: List.replicate ((pairs - len) / bytesBatch) bytesBatch) s.view) (Halts g) := by
  intro rounds
  induction rounds with
  | zero => intro k pairs done len γ _ _ h1 h2 _ h3; omega
  | succ rounds ih =>
    intro k pairs done len γ hσ hN h1 h2 hb h3 hd hs
    unfold fifoPhase
    refine Runs_bind (Runs_waitIdle Sending_stable (fun s h => h.writing) (fun s h => h.mode) fun s h => Sending_emit h .wait) fun _ => ?_
    refine Runs_bind (Runs_weaken (Runs_ensureMode OfScratch_true .bulk16) (fun s h => ⟨⟨h.1, trivial⟩, h.2⟩) (fun _ _ h => h)
      fun _ h => h) fun _ => ?_
    refine Runs_bind (Runs_weaken (Runs_pushPairs hr len k (j := 32 - len)
      (γ := ((γ.emit .wait).setMode .bulk16).logged (ensureEvents γ.S.mode .bulk16)) hσ rfl (by omega))
      (fun s h => ⟨?_, h.2⟩) (fun _ _ h => h) fun _ h => h) fun _ => ?_
    · have := h.1.1.1.1.filling h.1.1.1.2 (by rw [h.1.2]; simp)
      rwa [show 32 - len + len = 32 from by unfold bytesBatch at hb; omega]
    refine Runs_bind Runs_txStart fun _ => ?_
    by_cases hz : pairs - len = 0
    · simp only [if_pos hz]
      intro s hs'
      refine ⟨hs'.1, ?_⟩
      rw [hz, Nat.zero_div, List.replicate_zero]
      have e : s.view = ((γ.setMode .bulk16).logged (.wait :: ensureEvents γ.S.mode .bulk16 ++ pairsLog f ev k len ++ [.start])).sends
        (dataCycles (bytesAt f k (2 * len))) := by
        rw [hs'.2]; simp [View.emit, View.logged, View.setMode, View.sends]
      rw [e]; exact .last
    · simp only [if_neg hz]
      obtain ⟨hd1, hd2, hd3⟩ := replicate_batches (by omega) hd
      have hsum : ∀ q x, x = bytesBatch * q → (List.replicate q bytesBatch).sum = x := by
        intro q x e; rw [List.sum_replicate, smul_eq_mul, e, Nat.mul_comm]
      refine Runs_bind (Runs_dmaEntry useDma (done + 2 * len)) fun go => ?_
      intro s hs'
      obtain ⟨h4, polled, h5, h6, h7, h8⟩ := hs'
      have e6 : s.view = ((γ.setMode .bulk16).logged (.wait :: ensureEvents γ.S.mode .bulk16 ++ pairsLog f ev k len ++ [.start] ++ polled)).sends
        (dataCycles (bytesAt f k (2 * len))) := by
        rw [h6]; simp [View.emit, View.logged, View.setMode, View.sends]
      have hsent : Sent γ (dataCycles (bytesAt f k (2 * len))) s.view := by
        rw [e6]; exact (((Sent.setMode _ _).trans (Sent.logged _ _)).trans (Sent.sends _ _)).cast (by simp)
      have hsrc : s.view.source = σ := by rw [hsent.source]; exact hσ
      have hall : s.view.allocs = γ.allocs := by rw [e6]; rfl
      cases go with
      | true =>
        simp only [if_true]
        obtain ⟨hu, ht, hgr⟩ := h7 rfl
        have hidle : g → Spare s.S.flip s := fun _ hl => by
          have := h4.writing.load_mode hl
          rw [h4.mode.2, show s.S.mode = s.view.S.mode from rfl, e6] at this
          cases this
        have hlen : ∀ (fuel rem load : Nat), 1 ≤ load → (loadsFrom fuel rem load).length ≤ rem + 1 := by
          intro fuel
          induction fuel with
          | zero => intro rem load _; simp [loadsFrom]
          | succ fuel ihf =>
            intro rem load hl
            unfold loadsFrom
            split
            · simp
            · have := ihf (rem - min load rem) (min (2 * load) dmaLoadMax) (by unfold dmaLoadMax; omega)
              simp; omega
        have := Runs_dmaPhase hgr hr (hsc hu) (2 * (pairs - len)) (k + 2 * len) (2 * (pairs - len)) dmaLoadMin s.view hsrc (by omega) (by omega)
          (by decide) le_rfl (fun kk => by
            obtain ⟨as, more, h9, h10⟩ := hs kk (hgr kk) hu
            refine ⟨as, more, by rw [hall]; exact h9, ?_⟩
            have := hlen (2 * (pairs - len)) (2 * (pairs - len)) dmaLoadMin (by decide)
            omega) s ⟨⟨h4, hidle⟩, rfl⟩
        revert this
        cases dmaPhase rd (2 * (pairs - len)) (k + 2 * len) (2 * (pairs - len)) dmaLoadMin s with
        | error e t => exact fun h => h
        | ok a t =>
          intro h
          refine ⟨h.1, ?_⟩
          have hq : polled = [.radio false] := by rw [h5, if_pos ⟨hu, ht⟩]; rfl
          rw [hq] at e6
          rw [hd1, List.replicate_succ]
          refine .dma hu ht hgr ?_
          rw [show (bytesBatch :: List.replicate ((pairs - len - bytesBatch) / bytesBatch) bytesBatch).sum = pairs - len from by
            rw [← List.replicate_succ, ← hd1]; exact hsum _ _ (Nat.mul_div_cancel' hd).symm]
          have e7 := h.2
          rw [e6] at e7
          simpa using e7
      | false =>
        simp only [Bool.false_eq_true, if_false]
        have hpar : s.view.par = γ.par := hsent.par
        refine (Runs_bind (Runs_spin (γ := s.view) Sending_stable (fun s h => h.writing) (fun _ e h => Sending_emit h e) (fun s => s.par.kBytes) γ.par.kBytes
          (fun u h => by rw [h, hpar])) fun _ => ?_) s ⟨h4, rfl⟩
        refine Runs_weaken (ih (k + 2 * len) (pairs - len) (done + 2 * len) bytesBatch
          (s.view.emit (.spin γ.par.kBytes)) hsrc (by omega) (by decide) hd2 le_rfl (by omega) hd3
          (fun kk hr' hu => ?_)) (fun _ h => h) (fun _ u h => ⟨h.1, ?_⟩) fun _ h => h
        · obtain ⟨as, more, h9, h10⟩ := hs kk hr' hu
          exact ⟨as, more, by rw [← h9]; exact hall, by omega⟩
        · rw [hd1, List.replicate_succ]
          refine .more polled (by rw [h5]; rfl) (h8 rfl) ?_
          have e7 := h.2
          rw [e6] at e7
          simpa [View.emit, View.logged, View.sends] using e7

/-! ## The body of writeBytes (R158) -/

/-- The byte pairs after the odd leading byte. -/
theorem Runs_pairsBody {g r : Prop} {σ : Source} {N : Nat} {rd : Nat → Act Byte} {f : Nat → Byte} {ev : Nat → List Event}
    (hr : Reads g r σ N rd f ev) {useDma : Bool} (hsc : useDma = true → σ.par.scratchAddr0 ≠ σ.par.scratchAddr1)
    {k pairs : Nat} {γ : View} (hσ : γ.source = σ) (hN : k + 2 * pairs ≤ N)
    (hs : g → r → useDma = true → Supplied γ (2 * pairs)) :
    Runs (fun s => Sending g r s ∧ s.view = γ) (pairsBody rd k pairs useDma)
      (fun _ s => Sending g r s ∧ (if pairs = 0 then s.view = γ
        else FifoRun g r f ev useDma γ k 0 (batchSizes pairs 32) s.view)) (Halts g) := by
  unfold pairsBody
  by_cases hp : pairs = 0
  · simp only [if_pos hp]; exact fun s h => h
  · simp only [if_neg hp]
    obtain ⟨h1, h2, h3, h4, h5⟩ := batchSizes_eq (n := pairs) (b := bytesBatch) (by omega) (by decide)
    have := Runs_fifoPhase hr hsc pairs k pairs 0 (leadingBatch pairs bytesBatch) γ hσ hN h4 h3 h5 le_rfl h2 hs
    rwa [h1] at this

/-- The view after the odd leading byte (R158). -/
def View.leading (γ : View) (rl : List Event) (b : Byte) : View :=
  ((γ.setMode .scalar32).logged (rl ++ .wait :: ensureEvents γ.S.mode .scalar32 ++ [.push (upperWord 1 b.toNat), .start])).sends
    (dataCycles [b])

/-- What `bytesBody` did. -/
def BytesRun (g r : Prop) (f : Nat → Byte) (ev : Nat → List Event) (useDma : Bool) (γ : View) (length : Nat) (ε : View) : Prop :=
  let δ := if length % 2 = 1 then γ.leading (ev 0) (f 0) else γ
  if length / 2 = 0 then ε = δ else FifoRun g r f ev useDma δ (length % 2) 0 (batchSizes (length / 2) 32) ε

theorem Sent.leading (γ : View) (rl : List Event) (b : Byte) : Sent γ (dataCycles [b]) (γ.leading rl b) :=
  (((Sent.setMode _ _).trans (Sent.logged _ _)).trans (Sent.sends _ _)).cast (by simp)

theorem batchSizes_pos (n : Nat) {b : Nat} (hb : 1 ≤ b) : ∀ m ∈ batchSizes n b, 1 ≤ m := by
  intro m hm
  simp only [batchSizes, List.mem_cons, List.mem_replicate] at hm
  omega

theorem batchSizes_sum {n b : Nat} (hn : 1 ≤ n) : (batchSizes n b).sum = n := by
  have := Nat.div_add_mod (n - 1) b
  have h2 : (n - 1) / b * b = b * ((n - 1) / b) := Nat.mul_comm _ _
  simp only [batchSizes, List.sum_cons, List.sum_replicate, smul_eq_mul]
  omega

theorem BytesRun.sent {g r : Prop} {f : Nat → Byte} {ev : Nat → List Event} {useDma : Bool} {γ ε : View} {length : Nat}
    (h : BytesRun g r f ev useDma γ length ε) : Sent γ (dataCycles (bytesAt f 0 length)) ε := by
  unfold BytesRun at h
  have hδ : Sent γ (dataCycles (bytesAt f 0 (length % 2))) (if length % 2 = 1 then γ.leading (ev 0) (f 0) else γ) := by
    by_cases hl : length % 2 = 1
    · rw [if_pos hl, hl]; exact (Sent.leading γ _ _).cast (by simp [bytesAt])
    · rw [if_neg hl, show length % 2 = 0 from by omega]; exact (Sent.refl γ).cast (by simp [bytesAt, dataCycles])
  by_cases hz : length / 2 = 0
  · simp only [if_pos hz] at h
    rw [h]
    exact hδ.cast (by rw [show length = length % 2 from by omega, Nat.mod_mod])
  · simp only [if_neg hz] at h
    refine (hδ.trans (h.sent (batchSizes_pos _ (by decide)))).cast ?_
    rw [batchSizes_sum (by omega), ← dataCycles_append]
    have e : length = length % 2 + 2 * (length / 2) := (Nat.mod_add_div length 2).symm
    conv_rhs => rw [e, bytesAt_add]
    rw [Nat.zero_add]

/-- The body of `writeBytes` (R158). -/
theorem Runs_bytesBody {g r : Prop} {σ : Source} {length : Nat} {rd : Nat → Act Byte} {f : Nat → Byte} {ev : Nat → List Event}
    (hr : Reads g r σ length rd f ev) {useDma : Bool} (hsc : useDma = true → σ.par.scratchAddr0 ≠ σ.par.scratchAddr1)
    {γ : View} (hσ : γ.source = σ) (hs : g → r → useDma = true → Supplied γ length) :
    Runs (fun s => Sending g r s ∧ s.view = γ) (bytesBody rd length useDma)
      (fun _ s => Sending g r s ∧ BytesRun g r f ev useDma γ length s.view) (Halts g) := by
  unfold bytesBody BytesRun
  by_cases hl : length % 2 = 1
  · simp only [hl]
    refine Runs_bind (hr Sending_stable (fun s h => h.writing) (fun s h => h.mode) (fun _ e h => Sending_emit h e) hσ (k := 0) (by omega)) fun b => ?_
    intro s hs'
    obtain ⟨⟨h1, rfl⟩, h2⟩ := hs'
    refine (Runs_bind (Runs_weaken (Runs_scalarWrite (γ := γ.logged (ev 0)) true ((f 0).zeroExtend 32) (b := 8) (by decide))
      (fun _ h => h) (fun _ u (h : _ ∧ _) => (⟨h.1, h.2.trans ?_⟩ : Sending g r u ∧ u.view = γ.leading (ev 0) (f 0))) fun _ h => h)
      fun _ => ?_) s ⟨h1, h2⟩
    · have e1 : scalarWords true ((f 0).zeroExtend 32) 8 = [WS true (f 0)] := by
        have e2 : byteOf ((f 0).zeroExtend 32) 0 = f 0 := by
          apply BitVec.eq_of_toNat_eq
          have := (f 0).isLt
          simp [byteOf]
          omega
        simp [scalarWords, scalarBytes, ceil8, e2]
      rw [e1, WS_cycle]
      simp [View.leading, View.logged, View.setMode, View.sends, WS_eq, dataCycles]
    · have := Runs_pairsBody hr hsc (k := 1) (pairs := (length - 1) / 2) (γ := γ.leading (ev 0) (f 0)) (useDma := useDma) hσ (by omega)
        (fun kk hr' hu => by
          obtain ⟨as, more, h3, h4⟩ := hs kk hr' hu
          exact ⟨as, more, h3, by omega⟩)
      rwa [show (length - 1) / 2 = length / 2 from by omega] at this ⊢
  · simp only [show length % 2 = 0 from by omega]
    have := Runs_pairsBody hr hsc (k := 0) (pairs := length / 2) (γ := γ) (useDma := useDma) hσ (by omega) (fun kk hr' hu => by
      obtain ⟨as, more, h3, h4⟩ := hs kk hr' hu
      exact ⟨as, more, h3, by omega⟩)
    exact this

end Sys2Proof.Machine
end

