-- ==== Sys2Proof/Laws/Calm.lean ====
section
/-!
SUPPORT. Exact results in a calm state: whatever the other agents do, a sequence of micro-operations ends in one state, up
to how much of the interleaving was consumed and where the radio stands.
* `Gives m s a t`: from `s`, `m` answers `a` in `t`.
* One lemma per micro-operation, and `Gives.bind`.
-/

namespace Sys2Proof.Machine

/-- From `s`, after any part of the interleaving, `m` answers `a` in `t`, after a further part. -/
def Gives (m : Act α) (s : State) (a : α) (t : State) : Prop :=
  ∀ ms r, ms <:+ s.E.sched → ∃ ms' r', ms' <:+ ms ∧ m (passed s ms r) = .ok a (passed t ms' r')

theorem Gives.bind {m : Act α} {f : α → Act β} {s t u : State} {a : α} {b : β} (h : Gives m s a t)
    (hs : t.E.sched = s.E.sched) (k : Gives (f a) t b u) : Gives (m >>= f) s b u := by
  intro ms r hms
  obtain ⟨ms', r', h1, h2⟩ := h ms r hms
  obtain ⟨ms'', r'', h3, h4⟩ := k ms' r' (hs ▸ h1.trans hms)
  exact ⟨ms'', r'', h3.trans h1, by rw [Act_bind_ok h2]; exact h4⟩

theorem Gives.pure (a : α) (s : State) : Gives (pure a : Act α) s a s := fun ms r _ => ⟨ms, r, List.suffix_refl _, rfl⟩

theorem Gives.update {f : State → State} {s : State} (h : ∀ ms r, f (passed s ms r) = passed (f s) ms r) :
    Gives (update f) s () (f s) := fun ms r _ => ⟨ms, r, List.suffix_refl _, by rw [← h]; rfl⟩

theorem Gives.check {c : State → Bool} {f : FaultCode} {s : State} (h : ∀ ms r, c (passed s ms r) = true) :
    Gives (check c f) s () s := fun ms r _ => ⟨ms, r, List.suffix_refl _, check_true (h ms r)⟩

/-- Reading the state, where what follows depends on neither the interleaving nor the radio. -/
theorem Gives.gets {f : State → Act α} {s t : State} {a : α} (hf : ∀ ms r, f (passed s ms r) = f s) (h : Gives (f s) s a t) :
    Gives ((get : Act State) >>= f) s a t := fun ms r hms => by
  obtain ⟨ms', r', h1, h2⟩ := h ms r hms
  exact ⟨ms', r', h1, by rw [← h2, ← hf ms r]; rfl⟩

theorem Gives.congr {m : Act α} {s t t' : State} {a : α} (h : Gives m s a t) (e : t = t') : Gives m s a t' := e ▸ h

/-- A micro-operation that nothing blocks in a calm state. -/
theorem Gives.micro {blocked : State → Option Hold} {op : State → Effect α} {s t : State} {a : α} (h : Calm s)
    (hb : ∀ ms r, blocked (passed s ms r) = none) (ho : ∀ ms r, op (passed s ms r) = .done a (passed t ms r)) :
    Gives (micro blocked op) s a t := by
  intro ms r hms
  obtain ⟨ms', r', h1, h2⟩ := micro_calm (op := op) (Calm_passed h hms r) (blocked := blocked) fun a b => hb a b
  exact ⟨ms', r', h1, by rw [h2, passed_passed]; simp [perform, ho]⟩

theorem Gives.atom {op : State → Effect α} {s t : State} {a : α} (h : Calm s)
    (ho : ∀ ms r, op (passed s ms r) = .done a (passed t ms r)) : Gives (atom op) s a t :=
  .micro h (fun _ _ => rfl) ho

/-- A command in a calm state. -/
theorem Gives.command {c : Act Unit} {s t : State} (h : Gives c s () t) (o : Opcode) :
    ∃ ms r, ms <:+ s.E.sched ∧ command o c s = .next (passed (t.advance o.row.len) ms r) := by
  obtain ⟨ms, r, h1, h2⟩ := h s.E.sched s.E.radioClkEn (List.suffix_refl _)
  rw [passed_self] at h2
  exact ⟨ms, r, h1, by simp only [Machine.command, h2]; rfl⟩

/-- An action for each element, each from the state the one before answered. -/
theorem Gives.forEach {f : α → Act Unit} {g : State → α → State} (I : State → Prop)
    (h : ∀ s a, I s → Gives (f a) s () (g s a) ∧ I (g s a) ∧ (g s a).E.sched = s.E.sched) :
    ∀ (as : List α) (s : State), I s → Gives (forEach f as) s () (as.foldl g s)
  | [], s, _ => .pure () s
  | a :: as, s, hs => (h s a hs).1.bind (h s a hs).2.2 (Gives.forEach I h as _ (h s a hs).2.1)

/-! ## What keeps a state calm -/

theorem Calm_emit {s : State} (h : Calm s) (e : Event) : Calm (s.emit e) := h
theorem Calm_setPad {s : State} (h : Calm s) (r : Role) (p : Pad) : Calm (s.setPad r p) := h
theorem Calm_setRegs {s : State} (h : Calm s) (v : Regs) : Calm (s.setRegs v) := h
theorem Calm_setFifo {s : State} (h : Calm s) (v : List Word) : Calm (s.setFifo v) := h
theorem Calm_setMode {s : State} (h : Calm s) (v : Mode) : Calm (s.setMode v) := h
theorem Calm_setMem {s : State} (h : Calm s) (v : Memory) : Calm (s.setMem v) := h
theorem Calm_showLevel {s : State} (h : Calm s) (r : Role) (l : Bool) : Calm (s.showLevel r l) := by
  simpa [Calm] using h
theorem Calm_afterRaw {s : State} (h : Calm s) : Calm s.afterRaw := by simpa [Calm] using h
theorem Calm_afterClock {s : State} (h : Calm s) : Calm s.afterClock := by simpa [Calm] using h

theorem Calm.not_running {s : State} (h : Calm s) : s.P.tx.running = false := by rw [h.2.1]

theorem Calm.padHazard {s : State} (h : Calm s) (r : Role) : s.padHazard r = false := by
  simp [State.padHazard, h.not_running]

/-! ## The micro-operations -/

theorem Gives.waitIdle {s : State} (h : Calm s) : Gives waitIdle s () (s.emit .wait) := by
  refine .micro h (fun ms r => ?_) fun ms r => rfl
  have e : (passed s ms r).P = s.P := rfl
  simp [State.waitReady, State.pollReady, State.idleFlag, e, h.2.1]

theorem Gives.pollIdle {s : State} (h : Calm s) : Gives pollIdle s true (s.emit (.poll true)) := by
  refine .micro h (fun ms r => ?_) fun ms r => ?_
  · have e : (passed s ms r).P = s.P := rfl
    simp [State.pollReady, e, h.2.1]
  · have e : (passed s ms r).idleFlag = true := by
      show s.idleFlag = true
      simp [State.idleFlag, h.2.1]
    simp only [pollIdleOp, e]; rfl

theorem Gives.regWrite {s : State} (h : Calm s) (v : RegImage) :
    Gives (regWrite v) s () ((s.setRegs (s.P.regs.put v)).emit (.regWr v)) :=
  .atom h fun ms r => by
    have e : (passed s ms r).regHazard v = false := by
      show s.regHazard v = false
      simp [State.regHazard, h.not_running, h.2.2.1]
    rw [regWriteOp_ok e]; rfl

theorem Gives.fifoPush {s : State} (h : Calm s) (w : Word) (hf : s.P.fifo.length ≠ s.par.fifoDepth) :
    Gives (fifoPush w) s () ((s.setFifo (s.P.fifo ++ [w])).emit (.push w)) :=
  .atom h fun ms r => by
    unfold fifoPushOp
    rw [if_neg (show ¬ (passed s ms r).P.fifo.length = (passed s ms r).par.fifoDepth from hf)]; rfl

theorem Gives.txStart {s : State} (h : Calm s) :
    Gives txStart s () (((s.setRegs { s.P.regs with txStart := true }).setTx ⟨true, true⟩).emit .start) :=
  .atom h fun ms r => by
    have e1 : (passed s ms r).P = s.P := rfl
    simp only [txStartOp, e1, h.not_running, h.2.2.1]
    simp; rfl

theorem Gives.gpioClaim {s : State} (h : Calm s) (r : Role) :
    Gives (gpioClaim r) s () ((s.setPad r { s.G.get r with claimed := true, route := .gpio }).emit (.claim r)) :=
  .atom h fun ms x => by
    have e : (passed s ms x).padHazard r = false := h.padHazard r
    unfold gpioClaimOp
    rw [e]; rfl

theorem Gives.gpioDir {s : State} (h : Calm s) (r : Role) (d : Dir) :
    Gives (gpioDir r d) s () ((s.setPad r { s.G.get r with dir := d }).emit (.dir r d)) :=
  .atom h fun ms x => by
    have e : (passed s ms x).padHazard r = false := h.padHazard r
    unfold gpioDirOp
    rw [e]; rfl

theorem Gives.route {s : State} (h : Calm s) (r : Role) (v : Route) :
    Gives (route r v) s () ((s.setPad r ((s.G.get r).routed v)).emit (.route r v)) :=
  .atom h fun ms x => by
    have e : (passed s ms x).padHazard r = false := h.padHazard r
    unfold routeOp
    rw [e]; rfl

theorem passed_showLevel (s : State) (ms : List Move) (x : Word) (r : Role) (l : Bool) :
    (passed s ms x).showLevel r l = passed (s.showLevel r l) ms x := by
  unfold State.showLevel
  dsimp only
  have e : (passed s ms x).G = s.G := rfl
  rw [e]
  split <;> [split; skip] <;> rfl

theorem Gives.gpioLevel {s : State} (h : Calm s) (r : Role) (l : Bool) :
    Gives (gpioLevel r l) s () (((s.showLevel r l).setPad r { s.G.get r with level := l }).emit (.level r l)) :=
  .atom h fun ms x => by
    have e : (passed s ms x).padHazard r = false := h.padHazard r
    unfold gpioLevelOp
    rw [e, passed_showLevel]; rfl

theorem passed_afterRaw (s : State) (ms : List Move) (x : Word) : (passed s ms x).afterRaw = passed s.afterRaw ms x := by
  unfold State.afterRaw
  have e : (passed s ms x).E.device = s.E.device := rfl
  rw [e]
  split <;> rfl

theorem Gives.gpioReadRaw {s : State} (h : Calm s) : Gives gpioReadRaw s s.rawWord (s.afterRaw.emit (.sample s.rawWord)) :=
  .atom h fun ms x => by
    have e : (passed s ms x).rawWord = s.rawWord := rfl
    simp only [gpioReadRawOp, passed_afterRaw, e]; rfl

theorem passed_afterClock (s : State) (ms : List Move) (x : Word) : (passed s ms x).afterClock = passed s.afterClock ms x := by
  unfold State.afterClock
  have e : (passed s ms x).E.busClock = s.E.busClock := rfl
  rw [e]
  split <;> rfl

theorem Gives.queryBusClock {s : State} (h : Calm s) :
    Gives queryBusClock s s.clockAnswer (s.afterClock.emit (.clock s.clockAnswer)) :=
  .atom h fun ms x => by
    have e : (passed s ms x).clockAnswer = s.clockAnswer := rfl
    simp only [queryBusClockOp, passed_afterClock, e]; rfl

theorem Gives.memWrite {s : State} (h : Calm s) {a : Nat} (v : Byte) (ha : s.par.admits a = true) :
    Gives (memWrite a v) s () ((s.setMem (s.M.write a v)).emit (.mWr a v)) :=
  .micro h (fun ms r => by rw [if_pos (show (passed s ms r).par.admits a = true from ha)]) fun _ _ => rfl

theorem Gives.memRead {s : State} (h : Calm s) {a : Nat} (ha : s.par.admits a = true) :
    Gives (memRead a) s (s.M.read a) (s.emit (.mRd a (s.M.read a))) :=
  .micro h (fun ms r => by rw [if_pos (show (passed s ms r).par.admits a = true from ha)]) fun _ _ => rfl

/-- `EnsureMode` (R138). -/
theorem Gives.ensureMode {s : State} (h : Calm s) (m : Mode) :
    Gives (ensureMode m) s () (if s.S.mode = m then s
      else ((((s.setRegs { s.P.regs with src := m.width }).emit (.regWr (.src m.width))).setRegs
        { s.P.regs with src := m.width, fconf := m.fconf }).emit (.regWr (.fconf m.fconf))).setMode m) := by
  intro ms r hms
  have hm : (passed s ms r).S.mode = s.S.mode := rfl
  by_cases e : s.S.mode = m
  · refine ⟨ms, r, List.suffix_refl _, ?_⟩
    rw [if_pos e]
    show (if (passed s ms r).S.mode = m then (Pure.pure () : Act Unit) else _) (passed s ms r) = _
    rw [if_pos (hm.trans e)]; rfl
  · have k : Gives (Machine.regWrite (.src m.width) >>= fun _ => Machine.regWrite (.fconf m.fconf) >>= fun _ =>
        Machine.update fun t => t.setMode m) s () _ :=
      (Gives.regWrite h _).bind rfl ((Gives.regWrite (Calm_emit (Calm_setRegs h _) _) _).bind rfl
        (Gives.update fun _ _ => rfl))
    obtain ⟨ms', r', h1, h2⟩ := k ms r hms
    refine ⟨ms', r', h1, ?_⟩
    rw [if_neg e]
    show (if (passed s ms r).S.mode = m then (Pure.pure () : Act Unit) else _) (passed s ms r) = _
    rw [if_neg (fun k => e (hm ▸ k))]
    exact h2

/-- The state after a byte was read (R173). -/
def State.byteRead (s : State) : State :=
  let t := (s.afterRaw.emit (.sample s.rawWord))
  let u := t.afterRaw.emit (.sample t.rawWord)
  let v := (((u.showLevel .rd true).setPad .rd { u.G.rd with level := true }).emit (.level .rd true))
  ((v.showLevel .rd false).setPad .rd { v.G.rd with level := false }).emit (.level .rd false)

/-- The byte read: of the second of two samples (R173). -/
def State.byteAnswer (s : State) : Byte :=
  unscramble s.S.cfg.pinD (s.afterRaw.emit (.sample s.rawWord)).rawWord

theorem byteRead_sched (s : State) : s.byteRead.E.sched = s.E.sched := by simp [State.byteRead]

theorem Calm_byteRead {s : State} (h : Calm s) : Calm s.byteRead := by simpa [State.byteRead, Calm] using h

theorem Gives.readByte {s : State} (h : Calm s) : Gives readByte s s.byteAnswer s.byteRead := by
  unfold Machine.readByte
  refine (Gives.gpioReadRaw h).bind (by simp) ((Gives.gpioReadRaw (Calm_emit (Calm_afterRaw h) _)).bind (by simp) ?_)
  refine (Gives.gpioLevel ?_ .rd true).bind (by simp) ((Gives.gpioLevel ?_ .rd false).bind (by simp) ?_)
  · simpa [Calm] using h
  · simpa [Calm] using h
  · intro ms r _
    refine ⟨ms, r, List.suffix_refl _, ?_⟩
    have e : ∀ (f : State → Act Byte) (x : State), ((get : Act State) >>= f) x = f x x := fun _ _ => rfl
    rw [e]
    have e2 : ∀ t : State, (passed t ms r).S = t.S := fun _ => rfl
    rw [e2]
    simp [State.byteAnswer, State.byteRead]
    rfl

end Sys2Proof.Machine
end

