-- ==== Sys2Proof/Laws/Memory.lean ====
section
/-!
SUPPORT. Host memory: read after write, and every memory operation keeps the canonical form.
-/

namespace Sys2Proof.Machine

theorem Memory_wfFrom_mono {lo lo' : Nat} {m : Memory} (h : lo' ≤ lo) (hm : Memory.wfFrom lo m = true) :
    Memory.wfFrom lo' m = true := by
  cases m with
  | nil => rfl
  | cons c m => obtain ⟨a, b⟩ := c; simp [Memory.wfFrom] at hm ⊢; exact ⟨⟨by omega, hm.1.2⟩, hm.2⟩

/-- An address below every listed one reads as unlisted. -/
theorem Memory_read_below {lo : Nat} {m : Memory} (hm : Memory.wfFrom lo m = true) {a : Nat} (h : a < lo) :
    Memory.read m a = Memory.unlisted := by
  induction m generalizing lo with
  | nil => rfl
  | cons c m ih =>
    obtain ⟨a', b⟩ := c
    simp only [Memory.wfFrom, Bool.and_eq_true, decide_eq_true_eq] at hm
    have : a ≠ a' := by omega
    simp only [Memory.read, this, if_false]
    exact ih hm.2 (by omega)

theorem Memory_write_wfFrom {lo : Nat} {m : Memory} (hm : Memory.wfFrom lo m = true) {a : Nat} (b : Byte) (h : lo ≤ a) :
    Memory.wfFrom lo (Memory.write m a b) = true := by
  induction m generalizing lo with
  | nil => by_cases hb : b = Memory.unlisted <;> simp [Memory.write, Memory.wfFrom, hb, h]
  | cons c m ih =>
    obtain ⟨a', b'⟩ := c
    simp only [Memory.wfFrom, Bool.and_eq_true, decide_eq_true_eq] at hm
    obtain ⟨⟨h1, h2⟩, h3⟩ := hm
    by_cases e : a = a'
    · subst e
      by_cases hb : b = Memory.unlisted
      · simpa [Memory.write, hb] using Memory_wfFrom_mono (by omega) h3
      · simp [Memory.write, hb, Memory.wfFrom, h1, h3]
    · by_cases l : a < a'
      · by_cases hb : b = Memory.unlisted
        · simp [Memory.write, e, l, hb, Memory.wfFrom, h1, h2, h3]
        · simp [Memory.write, e, l, hb, Memory.wfFrom, h, h2, h3]
      · simp only [Memory.write, e, l, if_false, Memory.wfFrom, Bool.and_eq_true, decide_eq_true_eq]
        exact ⟨⟨h1, h2⟩, ih h3 (by omega)⟩

/-- A write keeps the canonical form. -/
theorem Memory_write_wf {m : Memory} (hm : m.wf = true) (a : Nat) (b : Byte) : (m.write a b).wf = true :=
  Memory_write_wfFrom hm b (Nat.zero_le a)

/-- A list of writes keeps the canonical form. -/
theorem Memory_writeAll_wf (cs : List Host.Cell) {m : Memory} (hm : m.wf = true) : (m.writeAll cs).wf = true := by
  induction cs generalizing m with
  | nil => exact hm
  | cons c cs ih =>
    simp only [Memory.writeAll]
    split
    · exact ih (Memory_write_wf hm _ _)
    · exact ih hm

/-- A read of the written address gives the written byte. -/
theorem Memory_read_write_same {lo : Nat} {m : Memory} (hm : Memory.wfFrom lo m = true) (a : Nat) (b : Byte) :
    (Memory.write m a b).read a = b := by
  induction m generalizing lo with
  | nil => by_cases hb : b = Memory.unlisted <;> simp [Memory.write, Memory.read, hb]
  | cons c m ih =>
    obtain ⟨a', b'⟩ := c
    simp only [Memory.wfFrom, Bool.and_eq_true, decide_eq_true_eq] at hm
    obtain ⟨⟨-, -⟩, h3⟩ := hm
    by_cases e : a = a'
    · subst e
      by_cases hb : b = Memory.unlisted
      · simp [Memory.write, hb, Memory_read_below h3]
      · simp [Memory.write, hb, Memory.read]
    · by_cases l : a < a'
      · by_cases hb : b = Memory.unlisted
        · simp [Memory.write, e, l, hb, Memory.read, Memory_read_below h3 (show a < a' + 1 by omega)]
        · simp [Memory.write, e, l, hb, Memory.read]
      · simp [Memory.write, e, l, Memory.read, ih h3]

/-- A read of any other address is as before. -/
theorem Memory_read_write_other (m : Memory) {a a' : Nat} (b : Byte) (h : a' ≠ a) :
    (Memory.write m a b).read a' = m.read a' := by
  induction m with
  | nil => by_cases hb : b = Memory.unlisted <;> simp [Memory.write, Memory.read, hb, h]
  | cons c m ih =>
    obtain ⟨x, y⟩ := c
    by_cases e : a = x
    · subst e; by_cases hb : b = Memory.unlisted <;> simp [Memory.write, Memory.read, hb, h]
    · by_cases l : a < x
      · by_cases hb : b = Memory.unlisted <;> simp [Memory.write, Memory.read, hb, h, e, l]
      · simp [Memory.write, Memory.read, e, l, ih]

/-- Host memory is in canonical form after reset. -/
theorem reset_memory_wf : Memory.wf State.reset.M = true := rfl

end Sys2Proof.Machine
end

