-- ==== Sys2Proof/Laws/PerInstr.lean ====
section
/-!
SUPPORT. Statements about every instruction as syntax, one lemma per constructor.
`EncodeLength`: an instruction's packet has the length the opcode table gives it (spec/30_encoding.md R64).
-/

namespace Sys2Proof.Laws.EncodeLength

/-- The encoder writes exactly `len(opcode)` words. -/
def Statement (i : Instr) : Prop := (encode i).length = i.len

theorem config (inst : Nat) (pinD : Vector Nat 8) (rd wr rs freq : Nat) : Statement (.config inst pinD rd wr rs freq) := rfl
theorem init : Statement .init := rfl
theorem release : Statement .release := rfl
theorem beginTransaction : Statement .beginTransaction := rfl
theorem endTransaction : Statement .endTransaction := rfl
theorem wait : Statement .wait := rfl
theorem busy : Statement .busy := rfl
theorem writeCommand (value : Word) (blen : Nat) : Statement (.writeCommand value blen) := rfl
theorem writeData (value : Word) (blen : Nat) : Statement (.writeData value blen) := rfl
theorem writeDataRepeat (value : Word) (blen count : Nat) : Statement (.writeDataRepeat value blen count) := rfl
theorem writeBytes (buffer length : Nat) (useDma : Bool) : Statement (.writeBytes buffer length useDma) := rfl
theorem writePixels (producer length : Nat) : Statement (.writePixels producer length) := rfl
theorem beginRead : Statement .beginRead := rfl
theorem endRead : Statement .endRead := rfl
theorem readData (blen : Nat) : Statement (.readData blen) := rfl
theorem readBytes (dst length : Nat) (allowDma : Bool) : Statement (.readBytes dst length allowDma) := rfl
theorem readPixels (dst producer length : Nat) : Statement (.readPixels dst producer length) := rfl

end Sys2Proof.Laws.EncodeLength
end

