-- ==== Sys2Proof/Laws/Step.lean ====
section
/-!
SUPPORT. Everything a step can do, once.
-/

namespace Sys2Proof.Machine

/-- The sequencer fetches from `u`: from `s`, or from `s` with its listed turn consumed. -/
def Fetches (s u : State) : Prop :=
  s.sequencerDone = false ∧ (s.E.sched = [] ∧ u = s ∨ ∃ ms, s.E.sched = .seq :: ms ∧ u = s.setSched ms)

theorem Fetches_S {s u : State} (h : Fetches s u) : u.S = s.S := by
  rcases h with ⟨-, ⟨-, rfl⟩ | ⟨ms, -, rfl⟩⟩ <;> rfl

/-- A relation that holds of every move, micro-operation, fault, hold and advance, holds across exec. -/
theorem exec_relates {R : State → State → Prop} (hr : ∀ s, R s s) (ht : ∀ s t u, R s t → R t u → R s u)
    (hs : ∀ u ms, R u (u.setSched ms)) (hm : ∀ u m, R u (u.moved m)) (hf : ∀ u c, R u (u.takeFault c))
    (hh : ∀ u x, R u (u.setHold x)) (ha : ∀ u n, R u (u.advance n)) {i : Instr} (hp : ∀ u v, Performs i u v → R u v)
    {s t : State} (h : exec i s = .next t) : R s t := by
  have hd : ∀ u, Did i s u → R s u := fun u d =>
    d.keeps (I := R s) (hr s) (fun u ms h => ht _ _ _ h (hs u ms)) (fun u m h _ => ht _ _ _ h (hm u m))
      (fun u v h p => ht _ _ _ h (hp u v p))
  rcases exec_did h with ⟨u, d, rfl⟩ | k
  · exact ht _ _ _ (hd u d) (ha _ _)
  · cases k with
    | raised d c => exact ht _ _ _ (hd _ d) (hf _ _)
    | moved d m _ => exact ht _ _ _ (hd _ d) (hm _ _)
    | held d x => exact ht _ _ _ (hd _ d) (hh _ _)

/-- Everything the sequencer's turn can do (R70, R80, R125). -/
theorem fetchTurn_cases (u : State) :
    (∃ i rest, decode u.fetchWords = .ok (i, rest) ∧ u.fetchTurn = .run i u) ∨
    (decode u.fetchWords = .error .truncated ∧ u.fetchTurn = .moved u.refuse) ∨
    (decode u.fetchWords = .error .empty ∧ u.fetchTurn = .stop .runComplete) ∨
    ((∃ e, decode u.fetchWords = .error e ∧ e ≠ .truncated ∧ e ≠ .empty) ∧
      u.fetchTurn = .moved (u.takeFault .illegal)) := by
  unfold State.fetchTurn
  cases h : decode u.fetchWords with
  | ok p => exact .inl ⟨p.1, p.2, rfl, rfl⟩
  | error e => cases e <;> simp

theorem endTurn_stops (s : State) : (∃ f, s.endTurn = .stop f) ∨ ∃ r, s.endTurn = .refuse r := by
  unfold State.endTurn
  cases s.S.hold with
  | some h => exact .inl ⟨_, rfl⟩
  | none => cases s.S.refused <;> cases (hwStep s).isSome <;> simp

/-- Everything a step can do. -/
theorem step_cases {s t : State} (h : step s = .next t) : s.S.fault = none ∧
    ((∃ m ms, m ≠ .seq ∧ s.E.sched = m :: ms ∧ t = (s.setSched ms).moved m) ∨
      (∃ ms, s.E.sched = .seq :: ms ∧ s.sequencerDone = true ∧ t = s.setSched ms) ∨
      (s.E.sched = [] ∧ s.sequencerDone = true ∧ s.par.hwProgress = true ∧ hwStep s = some t) ∨
      ∃ u, Fetches s u ∧
        ((∃ i rest, decode u.fetchWords = .ok (i, rest) ∧ exec i u = .next t) ∨
          (decode u.fetchWords = .error .truncated ∧ t = u.refuse) ∨ t = u.takeFault .illegal)) := by
  have hfetch : ∀ u, Fetches s u → (match u.fetchTurn with
      | .moved t => (.next t : Host.Outcome State Fault Refusal)
      | .run i t => exec i t
      | .stop f => .fault f
      | .refuse r => .refused r) = .next t → ∃ u, Fetches s u ∧
        ((∃ i rest, decode u.fetchWords = .ok (i, rest) ∧ exec i u = .next t) ∨
          (decode u.fetchWords = .error .truncated ∧ t = u.refuse) ∨ t = u.takeFault .illegal) := by
    intro u hu he
    refine ⟨u, hu, ?_⟩
    rcases fetchTurn_cases u with ⟨i, rest, h1, h2⟩ | ⟨h1, h2⟩ | ⟨h1, h2⟩ | ⟨-, h2⟩
    · simp only [h2] at he; exact .inl ⟨i, rest, h1, he⟩
    · simp only [h2, Host.Outcome.next.injEq] at he; exact .inr (.inl ⟨h1, he.symm⟩)
    · simp only [h2] at he; cases he
    · simp only [h2, Host.Outcome.next.injEq] at he; exact .inr (.inr he.symm)
  unfold step State.nextTurn at h
  cases hf : s.S.fault with
  | some c => simp [hf] at h
  | none =>
    refine ⟨rfl, ?_⟩
    simp only [hf] at h
    cases hq : s.E.sched with
    | nil =>
      simp only [hq] at h
      cases hd : s.sequencerDone with
      | true =>
        simp only [hd, if_true] at h
        unfold State.idleTurn at h
        cases hp : s.par.hwProgress with
        | true =>
          simp only [hp, if_true] at h
          cases hw : hwStep s with
          | some u =>
            simp only [hw, Host.Outcome.next.injEq] at h
            exact .inr (.inr (.inl ⟨rfl, rfl, rfl, by rw [h]⟩))
          | none =>
            simp only [hw] at h
            rcases endTurn_stops s with ⟨f, e⟩ | ⟨r, e⟩ <;> simp [e] at h
        | false =>
          simp only [hp, Bool.false_eq_true, if_false] at h
          rcases endTurn_stops s with ⟨f, e⟩ | ⟨r, e⟩ <;> simp [e] at h
      | false =>
        simp only [hd, Bool.false_eq_true, if_false] at h
        exact .inr (.inr (.inr (hfetch s ⟨hd, .inl ⟨hq, rfl⟩⟩ h)))
    | cons m ms =>
      simp only [hq] at h
      by_cases hm : m = .seq
      · subst hm
        simp only [if_true] at h
        cases hd : s.sequencerDone with
        | true =>
          simp only [hd, if_true, Host.Outcome.next.injEq] at h
          exact .inr (.inl ⟨ms, rfl, rfl, h.symm⟩)
        | false =>
          simp only [hd, Bool.false_eq_true, if_false] at h
          exact .inr (.inr (.inr (hfetch _ ⟨hd, .inr ⟨ms, hq, rfl⟩⟩ h)))
      · simp only [hm, if_false, Host.Outcome.next.injEq] at h
        exact .inl ⟨m, ms, hm, rfl, h.symm⟩

/-- A property that every move, the consumption of the interleaving, a fault, a refusal and every exec keeps, every step
keeps. -/
theorem step_keeps {I : State → Prop} (hs : ∀ s ms, I s → I (s.setSched ms)) (hm : ∀ s m, I s → I (s.moved m))
    (hf : ∀ s c, I s → I (s.takeFault c)) (hr : ∀ s, I s → I s.refuse)
    (he : ∀ i s t, I s → s.live → exec i s = .next t → I t) {s t : State} (hI : I s) (h : step s = .next t) : I t := by
  obtain ⟨h0, ⟨m, ms, -, -, rfl⟩ | ⟨ms, -, -, rfl⟩ | ⟨-, -, -, hw⟩ | ⟨u, hu, h⟩⟩ := step_cases h
  · exact hm _ m (hs _ ms hI)
  · exact hs _ ms hI
  · obtain ⟨m, rfl⟩ := hwStep_moved hw; exact hm _ m hI
  · have hIu : I u := by
      rcases hu with ⟨-, ⟨-, rfl⟩ | ⟨ms, -, rfl⟩⟩
      · exact hI
      · exact hs _ ms hI
    rcases h with ⟨i, rest, -, h⟩ | ⟨-, rfl⟩ | rfl
    · refine he i u t hIu ?_ h
      have e := Fetches_S hu
      have hd := hu.1
      simp only [State.sequencerDone, Bool.or_eq_false_iff, Option.isSome_eq_false_iff, Option.isNone_iff_eq_none] at hd
      exact ⟨by rw [e, h0], by rw [e]; exact hd.1.1⟩
    · exact hr _ hIu
    · exact hf _ _ hIu

end Sys2Proof.Machine
end

