-- ==== Sys2Proof/Laws/Still.lean ====
section
/-!
SUPPORT. Exact results while nothing is transmitted and no load is held, the environment free to overwrite `CLKM` outside a
transaction.
* `micro_still`: a micro-operation that nothing blocks is performed in `s.turned`, exactly.
* `Yields m s a t`: from `s`, `m` answers `a` in `t`, whatever the interleaving, the radio and `CLKM` are; one lemma per
  micro-operation of `init`, and `Yields.bind`.
-/

namespace Sys2Proof.Machine

/-- `s` with the interleaving `ms`, the radio at `r` and `CLKM` holding `c`. -/
def drifted (s : State) (ms : List Move) (r : Word) (c : ClkmImage) : State :=
  (passed s ms r).setRegs { s.P.regs with clkm := c }

theorem drifted_self (s : State) : drifted s s.E.sched s.E.radioClkEn s.P.regs.clkm = s := rfl

theorem drifted_drifted (s : State) (ms ms' : List Move) (r r' : Word) (c c' : ClkmImage) :
    drifted (drifted s ms r c) ms' r' c' = drifted s ms' r' c' := rfl

theorem turned_drifted (s : State) : s.turned = drifted s (afterTurn s.E.sched)
    (radioAfter (beforeTurn s.E.sched) s.E.radioClkEn)
    (if s.S.txn then s.P.regs.clkm else clkmAfter (beforeTurn s.E.sched) s.P.regs.clkm) := rfl

theorem Calm.still {s : State} (h : Calm s) : Still s := ⟨h.1, h.2.1, h.2.2.1⟩

theorem Still_drifted {s : State} (h : Still s) (ms : List Move) (r : Word) (c : ClkmImage) : Still (drifted s ms r c) := h

theorem Still.not_running {s : State} (h : Still s) : s.P.tx.running = false := by rw [h.2.1]

theorem Still.padHazard {s : State} (h : Still s) (r : Role) : s.padHazard r = false := by
  simp [State.padHazard, h.not_running]

theorem Still.regHazard {s : State} (h : Still s) (v : RegImage) : s.regHazard v = false := by
  simp [State.regHazard, h.not_running, h.2.2]

/-! ## The interleaving, turn by turn -/

@[simp] theorem turned_S (s : State) : s.turned.S = s.S := rfl
@[simp] theorem turned_G (s : State) : s.turned.G = s.G := rfl
@[simp] theorem turned_M (s : State) : s.turned.M = s.M := rfl
@[simp] theorem turned_bus (s : State) : s.turned.bus = s.bus := rfl
@[simp] theorem turned_hist (s : State) : s.turned.hist = s.hist := rfl
@[simp] theorem turned_par (s : State) : s.turned.par = s.par := rfl
@[simp] theorem turned_stream (s : State) : s.turned.stream = s.stream := rfl
@[simp] theorem turned_sched (s : State) : s.turned.E.sched = afterTurn s.E.sched := rfl
@[simp] theorem turned_radio (s : State) :
    s.turned.E.radioClkEn = radioAfter (beforeTurn s.E.sched) s.E.radioClkEn := rfl

/-- A turn changes `CLKM` and nothing else of the peripheral. -/
theorem turned_P (s : State) : s.turned.P = { s.P with regs := { s.P.regs with clkm := s.turned.P.regs.clkm } } := rfl

@[simp] theorem turned_tx (s : State) : s.turned.P.tx = s.P.tx := rfl
@[simp] theorem turned_dma (s : State) : s.turned.P.dma = s.P.dma := rfl
@[simp] theorem turned_fifo (s : State) : s.turned.P.fifo = s.P.fifo := rfl
@[simp] theorem turned_clockAnswer (s : State) : s.turned.clockAnswer = s.clockAnswer := rfl

theorem turned_afterClock (s : State) : s.turned.afterClock = s.afterClock.turned := by
  unfold State.afterClock
  have e : s.turned.E.busClock = s.E.busClock := rfl
  rw [e]
  split <;> rfl

theorem Still_turned {s : State} (h : Still s) : Still s.turned := h
theorem Still_emit {s : State} (h : Still s) (e : Event) : Still (s.emit e) := h
theorem Still_setRegs {s : State} (h : Still s) (v : Regs) : Still (s.setRegs v) := h
theorem Still_setCache {s : State} (h : Still s) (v : Cache) : Still (s.setCache v) := h
theorem Still_setPad {s : State} (h : Still s) (r : Role) (p : Pad) : Still (s.setPad r p) := h
theorem Still_afterClock {s : State} (h : Still s) : Still s.afterClock := by simpa [Still] using h
theorem Still_showLevel {s : State} (h : Still s) (r : Role) (l : Bool) : Still (s.showLevel r l) := by
  simpa [Still] using h

theorem radioAfter_append (a b : List Move) (r : Word) : radioAfter (a ++ b) r = radioAfter b (radioAfter a r) := by
  induction a generalizing r with
  | nil => rfl
  | cons m a ih => cases m <;> exact ih _

theorem clkmAfter_append (a b : List Move) (c : ClkmImage) : clkmAfter (a ++ b) c = clkmAfter b (clkmAfter a c) := by
  induction a generalizing c with
  | nil => rfl
  | cons m a ih => cases m <;> exact ih _

/-- A state in which nothing is transmitted or loaded, after one listed move of another agent. -/
theorem moved_still {s : State} {m : Move} (h : Still s) (ms : List Move) :
    (s.setSched ms).moved m = drifted s ms (radioAfter [m] s.E.radioClkEn)
      (if s.S.txn then s.P.regs.clkm else clkmAfter [m] s.P.regs.clkm) := by
  obtain ⟨-, htx, hd⟩ := h
  cases m with
  | seq => cases s.S.txn <;> rfl
  | tx => simp [State.moved, txStep, htx, radioAfter, clkmAfter, drifted, passed]; rfl
  | dma => simp [State.moved, dmaStep, hd, radioAfter, clkmAfter, drifted, passed]; rfl
  | radio v => simp [State.moved, radioAfter, clkmAfter, drifted, passed]; rfl
  | clkm v => cases ht : s.S.txn <;> simp [State.moved, ht, radioAfter, clkmAfter, drifted, passed] <;> rfl

/-- Awaiting a turn while nothing is transmitted or loaded, for a micro-operation that nothing blocks. -/
theorem await_still {blocked : State → Option Hold} {s : State} (h : Still s)
    (hb : ∀ ms r c, blocked (drifted s ms r c) = none) : await blocked s.E.sched s = .ok () s.turned := by
  generalize hq : s.E.sched = q
  induction q generalizing s with
  | nil =>
    have e : s.turned = s := by
      rw [turned_drifted, hq]
      show drifted s [] s.E.radioClkEn (if s.S.txn then s.P.regs.clkm else s.P.regs.clkm) = s
      rw [ite_self, ← hq]; rfl
    have hb0 := hb s.E.sched s.E.radioClkEn s.P.regs.clkm
    rw [drifted_self] at hb0
    simp [await, hwFuel, settle, hb0, e]
  | cons m ms ih =>
    by_cases hm : m = .seq
    · have e : s.turned = s.setSched ms := by
        rw [turned_drifted, hq]
        simp only [afterTurn, beforeTurn, hm, if_true, radioAfter, clkmAfter, ite_self]
        rfl
      have hb0 := hb ms s.E.radioClkEn s.P.regs.clkm
      rw [show drifted s ms s.E.radioClkEn s.P.regs.clkm = s.setSched ms from rfl] at hb0
      simp [await, hm, hb0, e]
    · have hr := moved_still (m := m) h ms
      have ht : s.turned = (drifted s ms (radioAfter [m] s.E.radioClkEn)
          (if s.S.txn then s.P.regs.clkm else clkmAfter [m] s.P.regs.clkm)).turned := by
        rw [turned_drifted, turned_drifted, hq, drifted_drifted]
        simp only [afterTurn, beforeTurn, hm, if_false]
        congr 1
        · exact radioAfter_append [m] _ _
        · show (if s.S.txn = true then s.P.regs.clkm else clkmAfter ([m] ++ beforeTurn ms) s.P.regs.clkm) =
            if s.S.txn = true then _ else clkmAfter (beforeTurn ms) _
          rw [clkmAfter_append]
          cases ht : s.S.txn <;> simp [drifted]
      have hf : ((s.setSched ms).moved m).S.fault.isSome = false := by rw [hr]; simp [drifted, passed, h.1]
      simp only [await, hm, if_false, hf, Bool.false_eq_true]
      rw [hr, ht]
      exact ih (s := drifted s ms _ _) h (fun a b c => hb a b c) rfl

/-- A micro-operation that nothing blocks, while nothing is transmitted or loaded: it is performed when its turn comes. -/
theorem micro_still {blocked : State → Option Hold} {op : State → Effect α} {s : State} (h : Still s)
    (hb : ∀ ms r c, blocked (drifted s ms r c) = none) : micro blocked op s = perform op s.turned := by
  simp only [micro, await_still h hb]

theorem atom_still {op : State → Effect α} {s : State} (h : Still s) : atom op s = perform op s.turned :=
  micro_still h fun _ _ _ => rfl

theorem regWrite_still {s : State} (h : Still s) (v : RegImage) :
    regWrite v s = .ok () ((s.turned.setRegs (s.turned.P.regs.put v)).emit (.regWr v)) := by
  refine (atom_still h).trans (perform_done ?_)
  rw [regWriteOp_ok ((Still_turned h).regHazard v)]

theorem waitIdle_still {s : State} (h : Still s) : waitIdle s = .ok () (s.turned.emit .wait) := by
  refine (micro_still h fun ms r c => ?_).trans rfl
  have e : (drifted s ms r c).P.tx = s.P.tx := rfl
  simp [State.waitReady, State.pollReady, State.idleFlag, e, h.2.1]

theorem pollIdle_still {s : State} (h : Still s) : pollIdle s = .ok true (s.turned.emit (.poll true)) := by
  refine (micro_still h fun ms r c => ?_).trans (perform_done ?_)
  · have e : (drifted s ms r c).P.tx = s.P.tx := rfl
    simp [State.pollReady, e, h.2.1]
  · have e : s.turned.idleFlag = true := by
      show s.idleFlag = true
      simp [State.idleFlag, h.2.1]
    simp only [pollIdleOp, e]

theorem queryBusClock_still {s : State} (h : Still s) :
    queryBusClock s = .ok s.clockAnswer (s.turned.afterClock.emit (.clock s.clockAnswer)) :=
  (atom_still h).trans rfl

/-- `CLKM`, `SRC` and `FCONF` written one after the other outside a transaction: `CLKM` ends with the last overwrite of the
two turns after its write. -/
theorem regWrites_still {s : State} (h : Still s) (ht : s.S.txn = false) (c : ClkmImage) (w : Width) (f : FconfImage) :
    (regWrite (.clkm c) >>= fun _ => regWrite (.src w) >>= fun _ => regWrite (.fconf f)) s = .ok ()
      { passed s (turnsLeft 3 s.E.sched) (radioAfter (movesIn 3 s.E.sched) s.E.radioClkEn) with
        P := { s.P with regs := { s.P.regs with
          clkm := clkmAfter (movesIn 2 (turnsLeft 1 s.E.sched)) c, src := w, fconf := f } }
        hist := (s.logged [.regWr (.clkm c), .regWr (.src w), .regWr (.fconf f)]).hist } := by
  have h2 : Still ((s.turned.setRegs (s.turned.P.regs.put (.clkm c))).emit (.regWr (.clkm c))) := h
  rw [Act_bind_ok (regWrite_still h _), Act_bind_ok (regWrite_still h2 _),
    regWrite_still (Still_emit (Still_setRegs (Still_turned h2) _) _)]
  simp [State.turned, passed, State.setSched, State.setRadio, State.setRegs, State.emit, Regs.put, State.logged,
    turnsLeft, movesIn, radioAfter_append, clkmAfter_append, ht]

/-- The cache the rules give is the one `beginTransaction` computes. -/
theorem cacheAt_eq (s : State) (f : Word) : s.cacheAt f = s.cacheFor f := by
  unfold State.cacheFor State.cacheAt
  cases hv : s.S.cache.valid <;> by_cases hf : f = s.S.cache.freq <;> simp [hf] <;> rfl

/-! ## Up to the interleaving, the radio and `CLKM` -/

/-- From `s`, whatever the interleaving, the radio and `CLKM` are, `m` answers `a` in `t`. -/
def Yields (m : Act α) (s : State) (a : α) (t : State) : Prop :=
  ∀ ms r c, ∃ ms' r' c', m (drifted s ms r c) = .ok a (drifted t ms' r' c')

theorem Yields.bind {m : Act α} {f : α → Act β} {s t u : State} {a : α} {b : β} (h : Yields m s a t)
    (k : Yields (f a) t b u) : Yields (m >>= f) s b u := by
  intro ms r c
  obtain ⟨ms', r', c', h2⟩ := h ms r c
  obtain ⟨ms'', r'', c'', h4⟩ := k ms' r' c'
  exact ⟨ms'', r'', c'', by rw [Act_bind_ok h2]; exact h4⟩

theorem Yields.pure (a : α) (s : State) : Yields (pure a : Act α) s a s := fun ms r c => ⟨ms, r, c, rfl⟩

theorem Yields.congr {m : Act α} {s t t' : State} {a : α} (h : Yields m s a t) (e : t = t') : Yields m s a t' := e ▸ h

theorem Yields.update {f : State → State} {s : State} (h : ∀ ms r c, f (drifted s ms r c) = drifted (f s) ms r c) :
    Yields (update f) s () (f s) := fun ms r c => ⟨ms, r, c, by rw [← h]; rfl⟩

theorem Yields.check {p : State → Bool} {f : FaultCode} {s : State} (h : ∀ ms r c, p (drifted s ms r c) = true) :
    Yields (check p f) s () s := fun ms r c => ⟨ms, r, c, check_true (h ms r c)⟩

/-- Reading the state, where what follows depends on neither the interleaving nor the radio nor `CLKM`. -/
theorem Yields.gets {f : State → Act α} {s t : State} {a : α} (hf : ∀ ms r c, f (drifted s ms r c) = f s)
    (h : Yields (f s) s a t) : Yields ((get : Act State) >>= f) s a t := fun ms r c => by
  obtain ⟨ms', r', c', h2⟩ := h ms r c
  exact ⟨ms', r', c', by rw [← h2, ← hf ms r c]; rfl⟩

/-- A micro-operation that nothing blocks, and whose effect may itself set `CLKM`. -/
theorem Yields.atom {op : State → Effect α} {s t : State} {a : α} (h : Still s)
    (ho : ∀ ms r c, ∃ c', op (drifted s ms r c) = .done a (drifted t ms r c')) : Yields (atom op) s a t := by
  intro ms r c
  have e := atom_still (op := op) (Still_drifted h ms r c)
  rw [turned_drifted, drifted_drifted] at e
  obtain ⟨c', hc⟩ := ho (afterTurn ms) (radioAfter (beforeTurn ms) r)
    (if (drifted s ms r c).S.txn then c else clkmAfter (beforeTurn ms) c)
  exact ⟨_, _, c', e.trans (perform_done hc)⟩

/-- A command. -/
theorem Yields.command {m : Act Unit} {s t : State} (h : Yields m s () t) (o : Opcode) :
    ∃ ms r c, command o m s = .next (drifted (t.advance o.row.len) ms r c) := by
  obtain ⟨ms, r, c, h2⟩ := h s.E.sched s.E.radioClkEn s.P.regs.clkm
  rw [drifted_self] at h2
  exact ⟨ms, r, c, by simp only [Machine.command, h2]; rfl⟩

/-- An action for each element, each from the state the one before answered. -/
theorem Yields.forEach {f : β → Act Unit} {g : State → β → State} (I : State → Prop)
    (h : ∀ s a, I s → Yields (f a) s () (g s a) ∧ I (g s a)) :
    ∀ (as : List β) (s : State), I s → Yields (forEach f as) s () (as.foldl g s)
  | [], s, _ => .pure () s
  | a :: as, s, hs => (h s a hs).1.bind (Yields.forEach I h as _ (h s a hs).2)

theorem drifted_showLevel (s : State) (ms : List Move) (x : Word) (c : ClkmImage) (r : Role) (l : Bool) :
    (drifted s ms x c).showLevel r l = drifted (s.showLevel r l) ms x c := by
  unfold State.showLevel
  dsimp only
  have e : (drifted s ms x c).G = s.G := rfl
  rw [e]
  split <;> [split; skip] <;> rfl

theorem Yields.waitIdle {s : State} (h : Still s) : Yields waitIdle s () (s.emit .wait) := fun ms r c =>
  ⟨_, _, _, waitIdle_still (Still_drifted h ms r c)⟩

theorem Yields.gpioClaim {s : State} (h : Still s) (r : Role) :
    Yields (gpioClaim r) s () ((s.setPad r { s.G.get r with claimed := true, route := .gpio }).emit (.claim r)) :=
  .atom h fun ms x c => ⟨c, by
    have e : (drifted s ms x c).padHazard r = false := h.padHazard r
    unfold gpioClaimOp
    rw [e]; rfl⟩

theorem Yields.gpioDir {s : State} (h : Still s) (r : Role) (d : Dir) :
    Yields (gpioDir r d) s () ((s.setPad r { s.G.get r with dir := d }).emit (.dir r d)) :=
  .atom h fun ms x c => ⟨c, by
    have e : (drifted s ms x c).padHazard r = false := h.padHazard r
    unfold gpioDirOp
    rw [e]; rfl⟩

theorem Yields.route {s : State} (h : Still s) (r : Role) (v : Route) :
    Yields (route r v) s () ((s.setPad r ((s.G.get r).routed v)).emit (.route r v)) :=
  .atom h fun ms x c => ⟨c, by
    have e : (drifted s ms x c).padHazard r = false := h.padHazard r
    unfold routeOp
    rw [e]; rfl⟩

theorem Yields.gpioLevel {s : State} (h : Still s) (r : Role) (l : Bool) :
    Yields (gpioLevel r l) s () (((s.showLevel r l).setPad r { s.G.get r with level := l }).emit (.level r l)) :=
  .atom h fun ms x c => ⟨c, by
    have e : (drifted s ms x c).padHazard r = false := h.padHazard r
    unfold gpioLevelOp
    rw [e, drifted_showLevel]; rfl⟩

theorem Yields.clockGateOn {s : State} (h : Still s) :
    Yields clockGateOn s () ((if s.P.gate = ⟨false, false⟩ then s.released else s).setGate ⟨true, true⟩ |>.emit .gate) := by
  by_cases hg : s.P.gate = ⟨false, false⟩
  · refine .atom h fun ms x c => ⟨(Config.freeRegs s.E.drawn).clkm, ?_⟩
    have e : (drifted s ms x c).P.gate = ⟨false, false⟩ := hg
    unfold clockGateOnOp
    rw [if_pos e, if_pos hg]; rfl
  · refine .atom h fun ms x c => ⟨c, ?_⟩
    have e : (drifted s ms x c).P.gate ≠ ⟨false, false⟩ := hg
    unfold clockGateOnOp
    rw [if_neg e, if_neg hg]; rfl

/-- A register write, of `CLKM` or of any other register. -/
theorem Yields.regWrite {s : State} (h : Still s) (v : RegImage) :
    Yields (regWrite v) s () ((s.setRegs (s.P.regs.put v)).emit (.regWr v)) :=
  .atom h fun ms x c => by
    rw [regWriteOp_ok ((Still_drifted h ms x c).regHazard v)]
    cases v with
    | clkm w => exact ⟨w, rfl⟩
    | _ => exact ⟨c, rfl⟩

theorem Yields.modeWrite {s : State} (h : Still s) (a v : Word) :
    Yields (modeWrite a v) s () ((s.setModeRegs (s.P.modeRegs ++ [(a, v)])).emit (.modeWr a v)) :=
  .atom h fun _ _ c => ⟨c, rfl⟩

theorem Yields.descFree {s : State} (h : Still s) : Yields (Machine.atom descFreeOp) s () (s.emit (.free s.S.desc.addr)) :=
  .atom h fun ms x c => ⟨c, by
    unfold descFreeOp
    rw [if_neg (show ¬ (drifted s ms x c).P.dma.loaded = true by rw [show (drifted s ms x c).P.dma = s.P.dma from rfl, h.2.2]; simp)]
    rfl⟩

theorem Yields.descAlloc {s : State} (h : Still s) (n : Nat) {a : Word} {as : List (Option Word)}
    (ha : s.E.allocs = some a :: as) : Yields (Machine.atom (descAllocOp n)) s ()
      (((s.setAllocs as).setDesc { s.S.desc with capacity := n, addr := a }).emit (.alloc n a)) :=
  .atom h fun ms x c => ⟨c, by
    have e1 : (drifted s ms x c).P.dma.loaded = false := h.2.2
    have e2 : (drifted s ms x c).allocAnswer = some a := by
      show s.E.allocs.headD _ = some a
      rw [ha]; rfl
    have e3 : (drifted s ms x c).afterAlloc = drifted (s.setAllocs as) ms x c := by
      unfold State.afterAlloc
      rw [show (drifted s ms x c).E.allocs = some a :: as from ha]
      rfl
    unfold descAllocOp
    simp only [e1, e2, e3, Bool.false_eq_true, if_false]
    rfl⟩

end Sys2Proof.Machine
end

