-- ==== Sys2Proof/Tests/Slice0.lean ====
section
/-!
SUPPORT. The model's own tests: ill-formed terms the well-formedness check refuses, words written out from the spec's
encodings, one-step tests with results taken from the spec's examples and vectors (spec/95_test_vectors.md and the
examples of the rules), and a witness for the hypotheses of every statement.
-/

namespace Sys2Proof.Tests

set_option Elab.async false

open Sys2Proof Sys2Proof.Machine

/-! ## WellFormed: one ill-formed term for each check -/

theorem test_wf_config_inst : (Instr.config (2 ^ 32) (Vector.replicate 8 0) 0 0 0 0).wellFormed = false := by decide
theorem test_wf_config_data_pin : (Instr.config 0 (Vector.replicate 8 256) 0 0 0 0).wellFormed = false := by decide
theorem test_wf_config_pin_rd : (Instr.config 0 (Vector.replicate 8 0) 256 0 0 0).wellFormed = false := by decide
theorem test_wf_config_pin_wr : (Instr.config 0 (Vector.replicate 8 0) 0 256 0 0).wellFormed = false := by decide
theorem test_wf_config_pin_rs : (Instr.config 0 (Vector.replicate 8 0) 0 0 256 0).wellFormed = false := by decide
theorem test_wf_config_freq : (Instr.config 0 (Vector.replicate 8 0) 0 0 0 (2 ^ 32)).wellFormed = false := by decide
theorem test_wf_writeCommand : (Instr.writeCommand 0#32 256).wellFormed = false := by decide
theorem test_wf_writeData : (Instr.writeData 0#32 256).wellFormed = false := by decide
theorem test_wf_repeat_blen : (Instr.writeDataRepeat 0#32 256 1).wellFormed = false := by decide
theorem test_wf_repeat_count : (Instr.writeDataRepeat 0#32 16 (2 ^ 32)).wellFormed = false := by decide
theorem test_wf_writeBytes_buffer : (Instr.writeBytes (2 ^ 32) 1 true).wellFormed = false := by decide
theorem test_wf_writeBytes_length : (Instr.writeBytes 0 (2 ^ 32) true).wellFormed = false := by decide
theorem test_wf_writePixels_producer : (Instr.writePixels (2 ^ 32) 1).wellFormed = false := by decide
theorem test_wf_writePixels_length : (Instr.writePixels 1 (2 ^ 32)).wellFormed = false := by decide
theorem test_wf_readData : (Instr.readData 256).wellFormed = false := by decide
theorem test_wf_readBytes_dst : (Instr.readBytes (2 ^ 32) 1 false).wellFormed = false := by decide
theorem test_wf_readBytes_length : (Instr.readBytes 0 (2 ^ 32) false).wellFormed = false := by decide
theorem test_wf_readPixels_dst : (Instr.readPixels (2 ^ 32) 1 1).wellFormed = false := by decide
theorem test_wf_readPixels_producer : (Instr.readPixels 1 (2 ^ 32) 1).wellFormed = false := by decide
theorem test_wf_readPixels_length : (Instr.readPixels 1 1 (2 ^ 32)).wellFormed = false := by decide

/-! ## Decoding: words written from the fields of R64 to R66 (`rsv`, `f`, `blen`, `op`) -/

/-- A header word written field by field: 15 bits `rsv`, 1 bit `f`, 8 bits `blen`, 8 bits `op`. -/
def headerBits (rsv : BitVec 15) (f : BitVec 1) (blen op : BitVec 8) : Word := rsv ++ f ++ blen ++ op

/-- The words of the common prologue's `config` (spec/95_test_vectors.md section 3). -/
def configWords : List Word :=
  [headerBits 0 0 0 0x01#8, 0#32, 15#8 ++ 14#8 ++ 13#8 ++ 12#8, 19#8 ++ 18#8 ++ 17#8 ++ 16#8, 0#8 ++ 6#8 ++ 5#8 ++ 4#8,
    0x00F42400#32]

theorem test_decode_config : decodeInstr configWords =
    some (.config 0 #v[12, 13, 14, 15, 16, 17, 18, 19] 4 5 6 16000000) := by decide
theorem test_decode_init : decodeInstr [headerBits 0 0 0 0x02#8] = some .init := by decide
theorem test_decode_release : decodeInstr [headerBits 0 0 0 0x03#8] = some .release := by decide
theorem test_decode_beginTransaction : decodeInstr [headerBits 0 0 0 0x04#8] = some .beginTransaction := by decide
theorem test_decode_endTransaction : decodeInstr [headerBits 0 0 0 0x05#8] = some .endTransaction := by decide
theorem test_decode_wait : decodeInstr [headerBits 0 0 0 0x06#8] = some .wait := by decide
theorem test_decode_busy : decodeInstr [headerBits 0 0 0 0x07#8] = some .busy := by decide
theorem test_decode_writeCommand :
    decodeInstr [headerBits 0 0 8#8 0x10#8, 0x2A#32] = some (.writeCommand 0x2A#32 8) := by decide
theorem test_decode_writeData :
    decodeInstr [headerBits 0 0 16#8 0x11#8, 0x1234#32] = some (.writeData 0x1234#32 16) := by decide
theorem test_decode_writeDataRepeat :
    decodeInstr [headerBits 0 0 24#8 0x12#8, 0x563412#32, 3#32] = some (.writeDataRepeat 0x563412#32 24 3) := by decide
theorem test_decode_writeBytes :
    decodeInstr [headerBits 0 1 0 0x13#8, 0x1000#32, 5#32] = some (.writeBytes 0x1000 5 true) := by decide
theorem test_decode_writePixels :
    decodeInstr [headerBits 0 0 0 0x14#8, 1#32, 3#32] = some (.writePixels 1 3) := by decide
theorem test_decode_beginRead : decodeInstr [headerBits 0 0 0 0x20#8] = some .beginRead := by decide
theorem test_decode_endRead : decodeInstr [headerBits 0 0 0 0x21#8] = some .endRead := by decide
theorem test_decode_readData : decodeInstr [headerBits 0 0 32#8 0x22#8] = some (.readData 32) := by decide
theorem test_decode_readBytes :
    decodeInstr [headerBits 0 0 0 0x23#8, 0x2000#32, 0xC8#32] = some (.readBytes 0x2000 200 false) := by decide
theorem test_decode_readPixels :
    decodeInstr [headerBits 0 0 0 0x24#8, 7#32, 1#32, 40#32] = some (.readPixels 7 1 40) := by decide

/-- Why the decoder rejects the words, if it does. -/
def rejection (ws : List Word) : Option Reject :=
  match decode ws with
  | .ok _ => none
  | .error e => some e

/-- The illegal and truncated words of V-DEC. -/
theorem test_decode_rejects :
    rejection [0x00000000#32] = some .unknownOpcode ∧ rejection [0x00000015#32] = some .unknownOpcode ∧
    rejection [0x000000FF#32] = some .unknownOpcode ∧ rejection [0x00000102#32] = some .unusedBitLength ∧
    rejection [0x00010011#32, 0#32] = some .unusedFlag ∧ rejection [0x00020002#32] = some .reservedBits ∧
    rejection [0x80000004#32] = some .reservedBits ∧
    rejection [1#32, 0#32, 0x0F0E0D0C#32, 0x13121110#32, 0x01060504#32, 0x00F42400#32] = some .configReserved ∧
    rejection [0x00001011#32] = some .truncated ∧ rejection [1#32, 0#32, 0#32, 0#32] = some .truncated ∧
    rejection [] = some .empty := by decide

/-- The table word of `writeBytes 0x1000, 5, 1`, word 0 in the low bits. -/
theorem test_decodeTableWord :
    decodeTableWord 96 0x000000050000100000010013 = some (.writeBytes 0x1000 5 true) ∧
    decodeTableWord 32 0x00000013 = some (.writeBytes 0 0 false) := by decide

/-! ## Pure functions: V-ENC, V-CLK, V-READ -/

theorem test_transmit_words :
    WS true 0x12#8 = 0x01120000#32 ∧ WS false 0xFF#8 = 0x00FF0000#32 ∧ WB 0x00#8 0x00#8 = 0x01000100#32 ∧
    WR2 0xF800#32 = 0x010001F8#32 ∧ WR3 0xFFFFFF#32 = [0x01FF01FF#32, 0x01FF01FF#32, 0x01FF01FF#32] ∧
    SD 0x00#8 = 0x0100#16 := by decide

theorem test_cycles :
    (samplesOf .w32 0x01340000#32).map cycleOf = [.wr true 0x34#8] ∧
    (samplesOf .w16 0x01AB01CD#32).map cycleOf = [.wr true 0xAB#8, .wr true 0xCD#8] ∧
    (samplesOf .w16 0x00120034#32).map cycleOf = [.wr false 0x12#8, .wr false 0x34#8] := by decide

theorem test_divider :
    divider 80000000 20000000 = 4 ∧ divider 80000000 16000000 = 5 ∧ divider 240000000 16000000 = 15 ∧
    divider 80000000 1000000 = 32 ∧ divider 61 1 = 31 ∧ divider 62 1 = 32 ∧ divider 4294967295 4294967294 = 4 ∧
    divider 109 10 = 10 := by decide

theorem test_unscramble :
    unscramble #v[12, 13, 14, 15, 16, 17, 18, 19] 0x000AB000#32 = 0xAB#8 ∧
    unscramble #v[12, 13, 14, 15, 16, 17, 18, 19] 0xFFF00FFF#32 = 0x00#8 ∧
    unscramble #v[5, 3, 7, 1, 0, 2, 4, 6] 0x000000A5#32 = 0x35#8 ∧
    unscramble #v[31, 30, 29, 28, 27, 26, 25, 24] 0x80000000#32 = 0x01#8 := by decide

/-! ## A small machine -/

/-- The parameters of the tests: those of L0 with a DMA threshold of 2 bytes. -/
def par : Params := { Params.l0 with tDma := 2 }

/-- The configuration of the common prologue. -/
def cfg : Cfg := ⟨0, #v[12, 13, 14, 15, 16, 17, 18, 19], 4, 5, 6, 16000000⟩

/-- The pads in write routing (R131). -/
def writePads : Pads where
  d := #v[⟨true, .output, false, .parOut 0⟩, ⟨true, .output, false, .parOut 1⟩, ⟨true, .output, false, .parOut 2⟩,
    ⟨true, .output, false, .parOut 3⟩, ⟨true, .output, false, .parOut 4⟩, ⟨true, .output, false, .parOut 5⟩,
    ⟨true, .output, false, .parOut 6⟩, ⟨true, .output, false, .parOut 7⟩]
  rd := ⟨true, .output, true, .gpio⟩
  wr := ⟨true, .output, true, .wordClkInv⟩
  rs := ⟨true, .output, true, .parOut 8⟩

/-- The pads in read mode (R170). -/
def readPads : Pads where
  d := Vector.replicate 8 ⟨true, .input, false, .null⟩
  rd := ⟨true, .output, true, .gpio⟩
  wr := ⟨true, .output, true, .gpio⟩
  rs := ⟨true, .output, true, .gpio⟩

/-- A configured machine. -/
def configured : State :=
  { State.reset with
    S := { State.reset.S with life := .configured, cfg := cfg }
    E := { Env.free with allocs := [some 0xA0#32], busClock := [80000000#32] }
    par := par }

/-- An initialised machine outside a transaction. -/
def initialised : State :=
  { configured with
    S := { configured.S with life := .initialised, desc := ⟨true, 0, 0xA0#32⟩, handles := some 0 }
    P := { configured.P with gate := ⟨true, true⟩ }
    G := writePads }

/-- An open transaction in scalar-32, idle. -/
def idle : State :=
  { initialised with
    S := { initialised.S with txn := true, mode := .scalar32, cache := ⟨true, 80000000#32, ⟨true, 0, 0, 5⟩⟩ }
    P := { initialised.P with regs := { initialised.P.regs with clkm := ⟨true, 0, 0, 5⟩, src := .w32 } }
    M := [(0x1000, 0x11#8), (0x1001, 0x22#8), (0x1002, 0x33#8), (0x1003, 0x44#8), (0x1004, 0x55#8)] }

/-- A transmission running, latched, with one scalar word queued. -/
def running : State := { idle with P := { idle.P with tx := ⟨true, false⟩, fifo := [0x01340000#32] } }

/-- Read mode, idle, with two raw words to come. -/
def reading : State :=
  { idle with
    S := { idle.S with read := true }
    G := readPads
    E := { idle.E with device := ⟨[0xFFFFFFFF#32, 0x000AB000#32], none⟩ } }

/-- Read mode with a loopback device that holds four bytes. -/
def looped : State :=
  { reading with E := { reading.E with device := ⟨List.replicate 8 0#32, some [0x11#8, 0x22#8, 0x33#8, 0x44#8]⟩ } }

/-- A producer of 2-byte pixels whose pull for `[0, 3)` answers 3 (P4). -/
def withProducer (s : State) (next : Nat) : State :=
  s.setProducers [⟨1, 16, [⟨next, [0x1F#8, 0x00#8, 0xE0#8, 0x07#8, 0x00#8, 0xF8#8], [(0x2000, 0x77#8)]⟩]⟩]

/-- The state after a command. -/
def after (i : Instr) (s : State) : State :=
  match exec i s with
  | .next t => t
  | .fault _ => s
  | .refused _ => s

/-- The state after a step. -/
def stepped (s : State) : State :=
  match step s with
  | .next t => t
  | .fault _ => s
  | .refused _ => s

/-- A command always has a next state. -/
theorem exec_after (i : Instr) (s : State) : exec i s = .next (after i s) := by
  obtain ⟨t, e⟩ := exec_next i s
  simp only [after, e]

/-- The events a command records, without their command pointers. -/
def events (i : Instr) (s : State) : List Event := ((after i s).hist.drop s.hist.length).map Prod.snd

/-- Everything sent once a command is followed by a `wait`. -/
def sent (i : Instr) (s : State) : List BusEvent := (after .wait (after i s)).bus

/-! ## One command at a time -/

theorem test_config : (after (.config 0 cfg.pinD 4 5 6 16000000) State.reset).S =
    { State.reset.S with life := .configured, cfg := cfg, pc := 6 } := by decide +kernel
theorem test_config_equal_pins : (after (.config 0 (cfg.pinD.set 0 13) 4 5 6 16000000) State.reset).S.fault =
    some (.config, 0) := by decide +kernel
theorem test_init : (after .init configured).S =
    { configured.S with life := .initialised, handles := some 0, desc := ⟨true, 0, 0xA0#32⟩, pc := 1 } := by decide +kernel
theorem test_init_pins : (after .init configured).G = writePads := by decide +kernel
theorem test_release : after .release idle = { idle with S := { idle.S with pc := 1 } } := by decide +kernel
theorem test_beginTransaction : events .beginTransaction initialised =
    [.wait, .clock 80000000#32, .regWr (.clkm ⟨true, 0, 0, 5⟩), .regWr (.src .w32), .regWr (.fconf ⟨.scalar, false⟩)] := by
  decide +kernel
theorem test_beginTransaction_nested : (after .beginTransaction idle).S.fault = some (.nested, 0) := by decide +kernel
theorem test_endTransaction : (after .endTransaction running).S = { running.S with txn := false, pc := 1 } := by decide +kernel
theorem test_endTransaction_reading : (after .endTransaction reading).S.fault = some (.readMode, 0) := by decide +kernel
theorem test_wait : (after .wait running).bus = [.wr true 0x34#8] ∧ (after .wait running).P.tx = ⟨false, false⟩ := by decide +kernel
theorem test_busy_running : (after .busy running).S.res = 1#32 := by decide +kernel
theorem test_busy_idle : (after .busy idle).S.res = 0#32 := by decide +kernel
theorem test_writeCommand : events (.writeCommand 0x2A#32 8) idle = [.wait, .push 0x002A0000#32, .start] := by decide +kernel
theorem test_writeCommand_sent : sent (.writeCommand 0xBEEF#32 12) idle = [.wr false 0xEF#8, .wr false 0xBE#8] := by decide +kernel
theorem test_writeData : events (.writeData 0x1234#32 16) idle =
    [.wait, .push 0x01340000#32, .push 0x01120000#32, .start] := by decide +kernel
theorem test_writeData_sent : sent (.writeData 0x12345#32 8) idle = [.wr true 0x45#8] := by decide +kernel
theorem test_writeDataRepeat2 : events (.writeDataRepeat 0xFFFF#32 16 5) idle =
    [.wait, .regWr (.src .w16), .regWr (.fconf ⟨.bulk, false⟩), .push 0x01FF01FF#32, .push 0x01FF01FF#32,
      .push 0x01FF01FF#32, .push 0x01FF01FF#32, .push 0x01FF01FF#32, .start] := by decide +kernel
theorem test_writeDataRepeat3 : events (.writeDataRepeat 0x563412#32 24 3) idle =
    [.wait, .push 0x01120000#32, .push 0x01340000#32, .push 0x01560000#32, .start, .wait, .regWr (.src .w16),
      .regWr (.fconf ⟨.bulk, false⟩), .push 0x01120134#32, .push 0x01560112#32, .push 0x01340156#32, .start] := by decide +kernel
theorem test_writeBytes : events (.writeBytes 0x1000 5 false) idle =
    [.mRd 0x1000 0x11#8, .wait, .push 0x01110000#32, .start, .wait, .regWr (.src .w16), .regWr (.fconf ⟨.bulk, false⟩),
      .mRd 0x1001 0x22#8, .mRd 0x1002 0x33#8, .push 0x01220133#32, .mRd 0x1003 0x44#8, .mRd 0x1004 0x55#8,
      .push 0x01440155#32, .start] := by decide +kernel
theorem test_writeBytes_dma : (after (.writeBytes 0x1000 66 true) idle).S.desc = ⟨true, 128, 0xA0#32⟩ ∧
    (after (.writeBytes 0x1000 66 true) idle).S.mode = .bulk16Dma ∧
    (after (.writeBytes 0x1000 66 true) idle).P.desc = ⟨0#32, 128, 128, true, true, 0#32⟩ := by decide +kernel
theorem test_writePixels : events (.writePixels 1 3) (withProducer idle 3) =
    [.pull 1 0 3 3, .wait, .regWr (.src .w16), .regWr (.fconf ⟨.bulk, false⟩), .push 0x011F0100#32, .push 0x01E00107#32,
      .push 0x010001F8#32, .start] := by decide +kernel
theorem test_writePixels_producer : (after (.writePixels 1 3) (withProducer idle 2)).S.fault = some (.producer, 0) := by
  decide +kernel
theorem test_beginRead : (after .beginRead idle).bus = [.lvl .rd true, .lvl .wr true, .lvl .rs true] ∧
    (after .beginRead idle).G = { readPads with d := readPads.d.map fun p => { p with level := false } } := by decide +kernel
theorem test_endRead : (after .endRead reading).bus = [.lvl .rd true, .lvl .wr true, .lvl .rs true] ∧
    (after .endRead reading).G = writePads := by decide +kernel
theorem test_readData : events (.readData 8) reading =
    [.sample 0xFFFFFFFF#32, .sample 0x000AB000#32, .level .rd true, .level .rd false] ∧
    (after (.readData 8) reading).S.res = 0xAB#32 := by decide +kernel
theorem test_readData_loopback : (after (.readData 24) looped).S.res = 0x00332211#32 := by decide +kernel
theorem test_readBytes : ((after (.readBytes 0x2000 1 false) reading).M.read 0x2000) = 0xAB#8 := by decide +kernel
theorem test_readBytes_loopback : (after (.readBytes 0x2000 2 true) looped).M.read 0x2001 = 0x22#8 := by decide +kernel
theorem test_readPixels : (after (.readPixels 9 1 1) (withProducer looped 1)).E.handed =
    [⟨1, 9, 0, 1, [0x11#8, 0x22#8]⟩] := by decide +kernel
theorem test_readPixels_batches :
    batchRanges 40 16 = [(0, 16), (16, 32), (32, 40)] ∧ batchRanges 25 10 = [(0, 10), (10, 20), (20, 25)] := by decide +kernel

/-- An overwrite of `CLKM` before its write in `beginTransaction` is undone, one after it stays (R39, R102, R135). -/
theorem test_beginTransaction_overwritten : (after .beginTransaction (initialised.setSched
    [.clkm ⟨false, 1, 1, 9⟩, .seq, .seq, .seq, .clkm ⟨false, 2, 2, 8⟩, .seq, .seq])).P.regs.clkm = ⟨false, 2, 2, 8⟩ := by
  decide +kernel

/-- Log entry 19: after a refused packet, a transmission that is never finished ends the run as `stalled`; a finished one
as `truncatedPacket`. -/
theorem test_refused_ends :
    (match step { running.refuse with par := { par with hwProgress := false } } with
      | .fault f => some f
      | .next _ => none
      | .refused _ => none) = some .stalled ∧
    (match step idle.refuse with
      | .refused r => some r
      | .next _ => none
      | .fault _ => none) = some .truncatedPacket := by decide +kernel

/-! ## Deciding the invariants of a concrete state -/

/-- `a` implies `b`. -/
def imp (a b : Bool) : Bool := !a || b

def controlOk (s : State) : Bool :=
  imp s.S.txn (s.S.life == .initialised) && imp s.S.read s.S.txn && imp s.S.txn (s.S.mode != .none) &&
  imp (s.S.mode != .none) (s.S.life == .initialised) && imp s.S.cache.valid (s.S.life == .initialised) &&
  imp s.S.cache.valid (s.S.cache.clkm == clkmImage s.par (divider s.S.cache.freq.toNat s.S.cfg.freqWrite)) &&
  imp (s.S.life == .initialised) (s.P.gate == ⟨true, true⟩) &&
  imp (s.S.life == .initialised) (s.S.handles == some s.S.cfg.inst) &&
  imp (s.S.life == .initialised) s.S.desc.allocated &&
  imp (s.S.fault == none && s.S.mode != .none) (s.P.regs.src == s.S.mode.width && s.P.regs.fconf == s.S.mode.fconf)

theorem control_of {s : State} (h : controlOk s = true) : ControlInv s := by
  simp only [controlOk, imp, Bool.and_eq_true, Bool.or_eq_true, Bool.not_eq_true', bne_iff_ne, beq_iff_eq, ne_eq,
    Bool.and_eq_false_iff, bne_eq_false_iff_eq, beq_eq_false_iff_ne] at h
  obtain ⟨⟨⟨⟨⟨⟨⟨⟨⟨h1, h2⟩, h3⟩, h4⟩, h5⟩, h6⟩, h7⟩, h8⟩, h9⟩, h10⟩ := h
  constructor
  · intro h; simpa [h] using h1
  · intro h; simpa [h] using h2
  · intro h; simpa [h] using h3
  · intro h; simpa [h] using h4
  · intro h; simpa [h] using h5
  · intro h; simpa [h] using h6
  · intro h; simpa [h] using h7
  · intro h; simpa [h] using h8
  · intro h; simpa [h] using h9
  · intro h k; simpa [h, k] using h10

def rdOk (g : Pads) : Bool := g.rd.route == .gpio && g.rd.dir == .output

theorem rd_of {g : Pads} (h : rdOk g = true) : g.rdOutput := by
  simpa [rdOk, Pads.rdOutput] using h

def readPinsOk (g : Pads) : Bool :=
  rdOk g && g.wr.route == .gpio && g.wr.dir == .output && g.wr.level && g.rs.route == .gpio && g.rs.dir == .output &&
  g.rs.level && (List.finRange 8).all fun i => g.d[i].route == .null && g.d[i].dir == .input

theorem readPins_of {g : Pads} (h : readPinsOk g = true) : g.readRouting := by
  simp only [readPinsOk, Bool.and_eq_true, beq_iff_eq, List.all_eq_true] at h
  obtain ⟨⟨⟨⟨⟨⟨⟨h1, h2⟩, h3⟩, h4⟩, h5⟩, h6⟩, h7⟩, h8⟩ := h
  exact ⟨rd_of h1, h2, h3, h4, h5, h6, h7, fun i => h8 i (List.mem_finRange i)⟩

def pinOk (s : State) : Bool :=
  controlOk s && imp s.P.tx.latchPending s.P.tx.running && imp s.P.dma.latched s.P.dma.loaded &&
  imp s.P.tx.running (s.S.life == .initialised && !s.S.read && s.G.writeRouting) &&
  imp (s.S.fault == none && s.S.life == .initialised && !s.S.read) (s.G.writeRouting && rdOk s.G) &&
  imp (s.S.fault == none && s.S.read) (readPinsOk s.G)

theorem pin_of {s : State} (h : pinOk s = true) : PinInv s := by
  simp only [pinOk, Bool.and_eq_true] at h
  obtain ⟨⟨⟨⟨⟨h1, h2⟩, h3⟩, h4⟩, h5⟩, h6⟩ := h
  refine ⟨control_of h1, ?_, ?_, ?_, ?_, ?_, ?_, ?_⟩
  · intro h; simpa [imp, h] using h2
  · intro h; simpa [imp, h] using h3
  · intro h; simp only [imp, h, Bool.not_true, Bool.false_or, Bool.and_eq_true, beq_iff_eq] at h4; exact h4.1.1
  · intro h; simp [imp, h] at h4; exact h4.1.2
  · intro h; simp [imp, h] at h4; exact h4.2
  · intro f l r
    simp only [imp, f, l, r, beq_self_eq_true, Bool.not_false, Bool.and_self, Bool.not_true, Bool.false_or,
      Bool.and_eq_true] at h5
    exact ⟨h5.1, rd_of h5.2⟩
  · intro f r
    simp only [imp, f, r, beq_self_eq_true, Bool.and_self, Bool.not_true, Bool.false_or] at h6
    exact readPins_of h6

def boundaryOk (s : State) : Bool :=
  pinOk s && imp (!s.P.tx.running) (s.P.fifo == [] && !s.P.dma.loaded) && imp (s.S.mode == .bulk16Dma) (s.P.fifo == []) &&
  imp s.P.dma.loaded (s.S.mode == .bulk16Dma) && imp s.P.tx.running (s.S.mode != .none)

theorem boundary_of {s : State} (h : boundaryOk s = true) : BoundaryInv s := by
  simp only [boundaryOk, Bool.and_eq_true] at h
  obtain ⟨⟨⟨⟨h1, h2⟩, h3⟩, h4⟩, h5⟩ := h
  refine ⟨pin_of h1, ?_, ?_, ?_, ?_⟩
  · intro _ h; simpa [imp, h] using h2
  · intro _ h; simpa [imp, h] using h3
  · intro _ h; simpa [imp, h] using h4
  · intro _ h; simpa [imp, h] using h5

/-! ## Witnesses: for every statement with hypotheses, states and operands that meet them -/

/-- `idle` with the words `ws` to fetch and the moves `ms` to come. -/
def fetching (ws : List Word) (ms : List Move) : State := { idle.setSched ms with stream := ws }

/-- `idle` in another mode. -/
def idleIn (m : Mode) : State :=
  { idle with
    S := { idle.S with mode := m }
    P := { idle.P with regs := { idle.P.regs with src := m.width, fconf := m.fconf } } }

/-- `idle` with an allocator that answers, a radio switched off again and some other moves to come. -/
def busyAround : State :=
  (idle.setAllocs (List.replicate 70 (some 0xB0#32))).setSched [.tx, .seq, .radio 0#32, .dma, .clkm ⟨true, 0, 0, 9⟩]

/-- A DMA load being transmitted, not yet latched by the engine's step. -/
def loading : State :=
  { idleIn .bulk16Dma with
    P := { (idleIn .bulk16Dma).P with
      tx := ⟨true, false⟩, dma := ⟨true, false, [], false⟩, scratch0 := [0x0112#16, 0x0134#16]
      desc := ⟨0#32, 4, 4, true, true, 0#32⟩ } }

/-- The same, latched. -/
def draining : State := { loading with P := { loading.P with dma := ⟨true, true, [0x0112#16, 0x0134#16], false⟩ } }

theorem step_stepped {s : State} (h : (match step s with | .next _ => true | _ => false) = true) :
    step s = .next (stepped s) := by
  unfold stepped
  cases e : step s with
  | next t => rfl
  | fault r => simp [e] at h
  | refused r => simp [e] at h

theorem turn_first (ws : List Word) (h : 0 < ws.length) : SequencerTurn (fetching ws []) (fetching ws []) :=
  ⟨rfl, rfl, rfl, h, .inl ⟨rfl, rfl⟩⟩

theorem turn_listed (ws : List Word) (ms : List Move) (h : 0 < ws.length) :
    SequencerTurn (fetching ws (.seq :: ms)) ((fetching ws (.seq :: ms)).setSched ms) :=
  ⟨rfl, rfl, rfl, h, .inr ⟨ms, rfl, rfl⟩⟩

theorem idle_control : ControlInv idle := control_of (by decide +kernel)
theorem idle_boundary : BoundaryInv idle := boundary_of (by decide +kernel)
theorem running_boundary : BoundaryInv running := boundary_of (by decide +kernel)
theorem draining_boundary : BoundaryInv draining := boundary_of (by decide +kernel)
theorem reading_pins : PinInv reading := pin_of (by decide +kernel)
theorem idle_live : idle.live := ⟨rfl, rfl⟩
theorem par_sound : par.sound := ⟨by decide, rfl, rfl, rfl, by decide⟩
theorem idle_writeReady : WriteReady idle := ⟨⟨rfl, rfl, rfl, .inl rfl⟩, rfl, rfl, rfl, rfl⟩
theorem busyAround_writeReady : WriteReady busyAround := ⟨⟨rfl, rfl, rfl, .inl rfl⟩, rfl, rfl, rfl, rfl⟩
theorem bulk_writeReady : WriteReady (idleIn .bulk16) := ⟨⟨rfl, rfl, rfl, .inl rfl⟩, rfl, rfl, rfl, rfl⟩
theorem reading_ready : ReadReady reading := ⟨⟨rfl, rfl, rfl, .inl rfl⟩, rfl, rfl, rfl, readPins_of (by decide +kernel)⟩
theorem looped_ready : ReadReady looped := ⟨⟨rfl, rfl, rfl, .inl rfl⟩, rfl, rfl, rfl, readPins_of (by decide +kernel)⟩

theorem busyAround_burst : BurstReady busyAround where
  sound := par_sound
  boundary := boundary_of (by decide +kernel)
  live := ⟨rfl, rfl⟩
  life := rfl
  txn := rfl
  write := rfl
  radio := ⟨rfl, fun v h => by simpa [busyAround] using h⟩

theorem running_burst : BurstReady running where
  sound := par_sound
  boundary := running_boundary
  live := ⟨rfl, rfl⟩
  life := rfl
  txn := rfl
  write := rfl
  radio := ⟨rfl, fun v h => by simp [running, idle, initialised, configured, Env.free] at h⟩

theorem witness_DecodeEncodeRoundTrip : (Instr.readPixels (2 ^ 32 - 1) 0 (2 ^ 32 - 1)).wellFormed = true ∧
    (Instr.writeData 0#32 255).wellFormed = true := by decide

theorem witness_DecodedPacketIsTheEncoding :
    decode [0x00010013#32, 0x1000#32, 5#32, 7#32] = .ok (.writeBytes 0x1000 5 true, [7#32]) := by rfl

theorem witness_FetchFaults_opcode : SequencerTurn (fetching [0x25#32] []) (fetching [0x25#32] []) ∧
    ¬ LegalHeader 0x25#32 := ⟨turn_first _ (by decide), by decide⟩
theorem witness_FetchFaults_reserved : SequencerTurn (fetching [0x20002#32] [.seq])
    ((fetching [0x20002#32] [.seq]).setSched []) ∧ ¬ LegalHeader 0x20002#32 := ⟨turn_listed _ _ (by decide), by decide⟩
theorem witness_FetchFaults_unused : ¬ LegalHeader 0x0102#32 ∧ ¬ LegalHeader 0x10011#32 := by decide
theorem witness_FetchFaults_config :
    BadConfigWord 1#32 [0#32, 0x0F0E0D0C#32, 0x13121110#32, 0x01060504#32, 0x00F42400#32] := by decide
theorem witness_FetchRefuses : SequencerTurn (fetching [0x1011#32] []) (fetching [0x1011#32] []) ∧ LegalHeader 0x1011#32 ∧
    ([] : List Word).length + 1 < packetLength (opOf 0x1011#32) := ⟨turn_first _ (by decide), by decide, by decide⟩
/-- Where R70 and R80 meet (log entry 16): four operand words of five, the fourth with a non-zero reserved byte. -/
theorem witness_FetchRefuses_config :
    let ws := [0#32, 0x0F0E0D0C#32, 0x13121110#32, 0x01060504#32]
    SequencerTurn (fetching (1#32 :: ws) []) (fetching (1#32 :: ws) []) ∧ LegalHeader 1#32 ∧
    ws.length + 1 < packetLength (opOf 1#32) ∧ ¬ BadConfigWord 1#32 ws ∧ (ws.getD 3 0#32).toNat / 2 ^ 24 ≠ 0 :=
  ⟨turn_first _ (by decide), by decide, by decide, by decide, by decide⟩
theorem witness_FetchRuns : SequencerTurn (fetching [0x1011#32, 5#32] []) (fetching [0x1011#32, 5#32] []) ∧
    LegalHeader 0x1011#32 ∧ packetLength (opOf 0x1011#32) ≤ [5#32].length + 1 ∧ ¬ BadConfigWord 0x1011#32 [5#32] :=
  ⟨turn_first _ (by decide), by decide, by decide, by decide⟩

theorem witness_StepRunsTheDecodedCommand : SequencerTurn (fetching [6#32] [.seq, .tx])
    ((fetching [6#32] [.seq, .tx]).setSched [.tx]) ∧ decode ((fetching [6#32] [.seq, .tx]).stream.drop 0) = .ok (.wait, []) :=
  ⟨turn_listed _ _ (by decide), rfl⟩

theorem witness_FaultFreezesTheMachine : (idle.takeFault .operand).S.fault = some (.operand, 0) ∧
    txStartOp running = .raise .hazard ∧ (fun _ : State => false) idle = false := ⟨rfl, rfl, rfl⟩
theorem witness_FaultFreezes_move : draining.S.fault = none ∧
    ((draining.setRadio 1#32).moved .tx).S.fault = some (.radioDma, 0) := by decide +kernel

theorem witness_TransmitterSteps_latch : (running.setTx ⟨true, true⟩).P.tx.latchPending = true ∧
    ((running.setTx ⟨true, true⟩).setSched [.tx]).S.fault = none ∧ running.G.writeRouting = true := by decide +kernel
theorem witness_TransmitterSteps_fifo : running.P.tx.running = true ∧ running.P.tx.latchPending = false ∧
    running.P.regs.fconf.dscrEn = false ∧ running.P.fifo = [0x01340000#32] := by decide +kernel
theorem witness_TransmitterSteps_dma : draining.P.tx.running = true ∧ draining.P.tx.latchPending = false ∧
    draining.P.regs.fconf.dscrEn = true ∧ draining.P.dma.latched = true ∧ draining.P.dma.stream = [0x0112#16, 0x0134#16] ∧
    draining.E.radioClkEn = 0#32 ∧ (draining.setRadio 1#32).E.radioClkEn ≠ 0#32 := by decide +kernel
theorem witness_TransmitterSteps_finish : (running.setFifo []).P.fifo = [] ∧
    (draining.setDma ⟨true, true, [], false⟩).P.dma.stream = [] ∧
    (draining.setDma ⟨false, false, [], false⟩).P.dma.loaded = false := by decide +kernel

theorem witness_DmaEngineStep : (loading.setSched [.dma]).S.fault = none ∧ loading.P.dma.loaded = true ∧
    loading.P.dma.latched = false ∧ loading.P.regs.fconf.dscrEn = true ∧ loading.E.radioClkEn = 0#32 ∧
    (loading.setRadio 1#32).E.radioClkEn ≠ 0#32 := by decide +kernel

theorem witness_RunGoesOnToItsEnd : running.S.fault = none ∧ running.S.hold = none ∧ running.S.refused = false ∧
    running.E.sched = [] ∧ running.par.hwProgress = true ∧ running.stream.length ≤ running.S.pc ∧
    (hwStep running).isSome = true ∧ hwStep idle = none := by decide +kernel

/-- An initialised machine outside a transaction, around which the others overwrite `CLKM` and switch the radio. -/
def altered : State := initialised.setSched
  [.clkm ⟨false, 1, 1, 9⟩, .seq, .radio 1#32, .seq, .seq, .clkm ⟨false, 2, 2, 8⟩, .tx, .seq, .clkm ⟨false, 3, 3, 7⟩, .seq, .seq]

theorem witness_BusyCommand_idle : Still altered ∧ altered.S.life = .initialised := ⟨⟨rfl, rfl, rfl⟩, rfl⟩
theorem witness_BusyCommand_running : running.S.fault = none ∧ running.E.sched = [] ∧ running.P.tx.running = true ∧
    (running.setTx ⟨true, true⟩).par.pStartLatch = true ∧ (running.setTx ⟨true, true⟩).par.hwProgress = true := by
  decide +kernel

theorem witness_WaitCommand_idle : Still altered ∧ altered.S.life = .initialised := ⟨⟨rfl, rfl, rfl⟩, rfl⟩
theorem witness_WaitCommand_fifo : running.S.fault = none ∧ running.par.hwProgress = true ∧ running.P.tx.running = true ∧
    running.P.tx.latchPending = false ∧ running.G.writeRouting = true ∧ running.P.regs.fconf.dscrEn = false := by
  decide +kernel
theorem witness_WaitCommand_dma : draining.S.fault = none ∧ draining.par.hwProgress = true ∧ draining.P.tx.running = true ∧
    draining.par.pStartLatch = true ∧ draining.G.writeRouting = true ∧ RadioOff draining :=
  ⟨rfl, rfl, rfl, rfl, by decide +kernel, rfl, fun v h => by
    simp [draining, loading, idleIn, idle, initialised, configured, Env.free] at h⟩

/-- `s` without `HW_PROGRESS`. -/
def stuck (s : State) : State := { s with par := { s.par with hwProgress := false } }

theorem witness_HoldsForGood : (stuck running).S.fault = none ∧ (stuck running).S.life = .initialised ∧
    (stuck running).E.sched = [] ∧ (stuck running).par.hwProgress = false ∧ (stuck running).P.tx = ⟨true, false⟩ ∧
    (stuck running).par.pStartLatch = true ∧ ((stuck running).setTx ⟨true, true⟩).P.tx.latchPending = true ∧
    idle.par.admits 0x3000 = false ∧ hwStep idle = none ∧ 5 % 2 = 1 := by decide +kernel

theorem witness_ProgressLiftsPeripheralHolds : ControlInv running ∧ running.S.fault = none ∧
    running.par.hwProgress = true ∧ exec .wait running = .next (after .wait running) :=
  ⟨running_boundary.pins.control, rfl, rfl, exec_after _ _⟩

theorem witness_ConfigCommand : idle.S.life = .initialised ∧ State.reset.S.life ≠ .initialised ∧
    (cfg.pinD.toList ++ [4, 5, 6]).Nodup ∧ (∀ p ∈ cfg.pinD.toList ++ [4, 5, 6], p < State.reset.par.numGpio) ∧
    (∀ p ∈ cfg.pinD.toList, p < 32) ∧ 0 ∈ State.reset.par.instances ∧ 1 ≤ 2 ^ 32 - 2 ∧
    ¬ (cfg.pinD.toList ++ [4, 5, 5]).Nodup := by decide +kernel

theorem witness_InitCommand : Still (configured.setSched [.clkm ⟨false, 1, 1, 9⟩, .seq]) ∧
    configured.S.life = .configured ∧ configured.E.allocs = some 0xA0#32 :: [] ∧
    (configured.setAllocs [none]).E.allocs = none :: [] := ⟨⟨rfl, rfl, rfl⟩, rfl, rfl, rfl⟩

theorem witness_DividerLaws : 4 * (1 + 1) ≤ 8 ∧ 8 < 31 * (1 + 1) ∧ 8 ≤ 62 ∧ 1 ≤ 2 := by decide

theorem witness_BeginTransactionCommand_idle : altered.live ∧ altered.S.life = .initialised ∧ altered.S.txn = false ∧
    Still altered := ⟨⟨rfl, rfl⟩, rfl, rfl, rfl, rfl, rfl⟩

/-- A transmission that `endTransaction` left running (R140). -/
def ended : State := running.setTxn false

theorem witness_BeginTransactionCommand_waits : ended.live ∧ ended.S.life = .initialised ∧ ended.S.txn = false ∧
    BoundaryInv ended ∧ ended.par.hwProgress = true ∧ ended.P.tx.running = true ∧ ended.P.tx.latchPending = false ∧
    RadioOff ended ∧ exec .wait ended = .next (after .wait ended) ∧ (after .wait ended).live ∧ Still (after .wait ended) :=
  ⟨⟨rfl, rfl⟩, rfl, rfl, boundary_of (by decide +kernel), rfl, rfl, rfl,
    ⟨rfl, fun v h => by simp [ended, running, idle, initialised, configured, Env.free] at h⟩, exec_after _ _,
    ⟨by decide +kernel, by decide +kernel⟩, by decide +kernel, by decide +kernel, by decide +kernel⟩

theorem witness_BeginTransactionCommand_stops : (stuck ended).live ∧ (stuck ended).S.txn = false ∧
    exec .wait (stuck ended) = .next (after .wait (stuck ended)) ∧ ¬ (after .wait (stuck ended)).live :=
  ⟨⟨rfl, rfl⟩, rfl, exec_after _ _, fun h => absurd h.2 (by decide +kernel)⟩

theorem witness_BeginTransactionCommand_stale :
    let s := { ended.setTx ⟨true, true⟩ with par := { par with pStartLatch := false } }
    s.live ∧ s.S.life = .initialised ∧ s.S.txn = false ∧ s.E.sched = [] ∧ s.par.pStartLatch = false ∧
    s.P.tx = ⟨true, true⟩ := ⟨⟨rfl, rfl⟩, rfl, rfl, rfl, rfl, rfl⟩

theorem witness_ModeTransitions : ControlInv idle ∧
    exec (.writeBytes 0x1000 5 false) idle = .next (after (.writeBytes 0x1000 5 false) idle) :=
  ⟨idle_control, exec_after _ _⟩

theorem witness_ModeWritesFollowIdleWait : ModeWritesFollowWait (fetching [0x1011#32, 5#32] []).hist ∧
    step (fetching [0x1011#32, 5#32] []) = .next (stepped (fetching [0x1011#32, 5#32] [])) ∧
    (RegImage.src .w16).reg = .src ∧ running.P.tx.running = true :=
  ⟨fun b a pc i h => by simp [fetching, idle, initialised, configured, State.reset, State.powerOn] at h,
    step_stepped (by decide +kernel), rfl, rfl⟩

theorem witness_ScalarCommandsLeaveScalarMode :
    exec (.writeCommand 5#32 8) (idleIn .bulk16) = .next (after (.writeCommand 5#32 8) (idleIn .bulk16)) ∧
    (after (.writeCommand 5#32 8) (idleIn .bulk16)).S.pc ≠ 0 ∧ (after (.writeData 5#32 8) (idleIn .bulk16)).S.pc ≠ 0 :=
  ⟨exec_after _ _, by decide +kernel, by decide +kernel⟩

theorem witness_WriteCommandEffect : WriteReady busyAround ∧ 32 ≤ 32 ∧ 4 ≤ busyAround.par.fifoDepth :=
  ⟨busyAround_writeReady, by decide, by decide⟩
theorem witness_WriteDataEffect : WriteReady (idleIn .bulk16) ∧ 0 ≤ 32 ∧ 4 ≤ (idleIn .bulk16).par.fifoDepth :=
  ⟨bulk_writeReady, by decide, by decide⟩

theorem witness_ScalarWriteSendsItsBytes : BoundaryInv draining ∧ draining.live ∧
    exec (.writeData 5#32 8) draining = .next (after (.writeData 5#32 8) draining) ∧
    (after (.writeData 5#32 8) draining).live ∧ (after (.writeCommand 5#32 8) draining).live :=
  ⟨draining_boundary, ⟨rfl, rfl⟩, exec_after _ _, ⟨by decide +kernel, by decide +kernel⟩,
    ⟨by decide +kernel, by decide +kernel⟩⟩

/-- A start not yet latched, in a launch where polls can be stale. -/
def stale : State := { running.setTx ⟨true, true⟩ with par := { par with pStartLatch := false } }

theorem witness_StaleIdleRestartFaults : stale.S.fault = none ∧ stale.S.life = .initialised ∧ stale.S.txn = true ∧
    stale.S.read = false ∧ stale.E.sched = [] ∧ stale.par.pStartLatch = false ∧ stale.P.tx = ⟨true, true⟩ ∧
    stale.S.mode = .scalar32 ∧ stale.P.fifo.length + 4 ≤ stale.par.fifoDepth := by decide +kernel

theorem witness_RepeatTwoBytePixels : BurstReady busyAround ∧ BurstReady running ∧ 9 ≤ 9 ∧ 16 ≤ 16 ∧ 1 ≤ 65 :=
  ⟨busyAround_burst, running_burst, by decide⟩
theorem witness_RepeatThreeBytePixels : BurstReady busyAround ∧ BurstReady running ∧ 17 ≤ 17 ∧ 24 ≤ 24 ∧ 1 ≤ 1 :=
  ⟨busyAround_burst, running_burst, by decide⟩
theorem witness_BatchLaw : 1 ≤ 33 ∧ 1 ≤ 32 := by decide

theorem witness_WriteBytesSendsTheBuffer : BoundaryInv running ∧ running.live ∧
    running.par.scratchAddr0 ≠ running.par.scratchAddr1 ∧
    exec (.writeBytes 0x1000 5 true) running = .next (after (.writeBytes 0x1000 5 true) running) ∧
    (after (.writeBytes 0x1000 5 true) running).live :=
  ⟨running_boundary, ⟨rfl, rfl⟩, by decide, exec_after _ _, by decide +kernel, by decide +kernel⟩

theorem witness_WriteBytesCommand_fifo : BurstReady running ∧ 1 ≤ 70 ∧ admitsAll running.par 0x1000 70 ∧
    (false = true → running.E.allocs = ([] : List Word).map some ++ [] ∧ 70 ≤ ([] : List Word).length) :=
  ⟨running_burst, by decide, by unfold admitsAll; decide +kernel, fun h => absurd h (by decide)⟩
theorem witness_WriteBytesCommand_dma : BurstReady busyAround ∧ 1 ≤ 70 ∧ admitsAll busyAround.par 0x1000 70 ∧
    busyAround.E.allocs = (List.replicate 70 0xB0#32).map some ++ [] ∧ 70 ≤ (List.replicate 70 0xB0#32).length :=
  ⟨busyAround_burst, by decide, by unfold admitsAll; decide +kernel, by decide +kernel, by decide⟩

theorem witness_RadioOnKeepsTheFifoPath : (idle.setRadio 1#32).par.sound ∧ BoundaryInv (idle.setRadio 1#32) ∧
    (idle.setRadio 1#32).live ∧ (idle.setRadio 1#32).S.txn = true ∧ (idle.setRadio 1#32).P.tx.running = false ∧
    (idle.setRadio 1#32).E.radioClkEn ≠ 0#32 ∧ (∀ v, Move.radio v ∉ (idle.setRadio 1#32).E.sched) ∧
    admitsAll (idle.setRadio 1#32).par 0x1000 2 :=
  ⟨par_sound, boundary_of (by decide +kernel), ⟨rfl, rfl⟩, rfl, rfl, by decide,
    fun v h => by simp [idle, initialised, configured, Env.free] at h, by unfold admitsAll; decide +kernel⟩

/-- The answer of the producer of P4. -/
def answer (next : Nat) : PullAnswer := ⟨next, [0x1F#8, 0x00#8, 0xE0#8, 0x07#8, 0x00#8, 0xF8#8], [(0x2000, 0x77#8)]⟩

theorem withProducer_burst : BurstReady (withProducer busyAround 3) where
  sound := par_sound
  boundary := boundary_of (by decide +kernel)
  live := ⟨rfl, rfl⟩
  life := rfl
  txn := rfl
  write := rfl
  radio := ⟨rfl, fun v h => by simpa [busyAround, withProducer] using h⟩

theorem witness_WritePixelsCommand : BurstReady (withProducer busyAround 3) ∧
    (withProducer busyAround 3).E.producer 1 = some ⟨1, 16, [answer 3]⟩ ∧ [answer 3] = [answer 3] ++ [] ∧
    (16 + 7) / 8 = 2 ∧
    List.Forall₂ (fun r a => a.next = r.2 ∧ a.bytes.length = (r.2 - r.1) * 2) (chunkRanges 3 256) [answer 3] :=
  ⟨withProducer_burst, by decide +kernel, rfl, rfl, .cons ⟨rfl, rfl⟩ .nil⟩

theorem witness_WritePixelsProducerFault : WriteReady (withProducer idle 2) ∧
    (withProducer idle 2).E.producer 1 = some ⟨1, 16, answer 2 :: []⟩ ∧ 1 ≤ 3 ∧ 9 ≤ 16 ∧ 16 ≤ 24 ∧
    (answer 2).next ≠ 3 % 256 :=
  ⟨⟨⟨rfl, rfl, rfl, .inl rfl⟩, rfl, rfl, rfl, rfl⟩, by decide +kernel, by decide, by decide, by decide, by decide⟩

theorem witness_WritePixelsPullFault :
    let s := busyAround.setProducers [⟨1, 16, [⟨1, [0x1F#8, 0x00#8], []⟩] ++ answer 1 :: []⟩]
    BurstReady s ∧ s.E.producer 1 = some ⟨1, 16, [⟨1, [0x1F#8, 0x00#8], []⟩] ++ answer 1 :: []⟩ ∧ (16 + 7) / 8 = 2 ∧
    chunkRanges 257 256 = [(0, 1)] ++ (1, 257) :: [] ∧
    List.Forall₂ (fun r (a : PullAnswer) => a.next = r.2 ∧ a.bytes.length = (r.2 - r.1) * 2) [(0, 1)] [⟨1, [0x1F#8, 0x00#8], []⟩] ∧
    (answer 1).next ≠ 257 :=
  ⟨⟨par_sound, boundary_of (by decide +kernel), ⟨rfl, rfl⟩, rfl, rfl, rfl, rfl, fun v h => by simpa [busyAround] using h⟩,
    by decide +kernel, rfl, rfl, .cons ⟨rfl, rfl⟩ .nil, by decide⟩

theorem witness_ReadPixelsPullFault :
    let s := (reading.setProducers [⟨1, 24, [answer 10] ++ answer 10 :: []⟩]).setDevice ⟨List.replicate 66 0#32, none⟩
    ReadReady s ∧ s.E.producer 1 = some ⟨1, 24, [answer 10] ++ answer 10 :: []⟩ ∧ s.E.device.loopback = none ∧
    (24 + 7) / 8 = 3 ∧ batchRanges 11 10 = [(0, 10)] ++ (10, 11) :: [] ∧ [answer 10].map (·.next) = [(0, 10)].map Prod.snd ∧
    (answer 10).next ≠ 11 ∧ 2 * (11 * 3) ≤ s.E.device.script.length :=
  ⟨⟨⟨rfl, rfl, rfl, .inl rfl⟩, rfl, rfl, rfl, readPins_of (by decide +kernel)⟩, by decide +kernel, rfl, rfl, rfl, rfl,
    by decide, by decide +kernel⟩

theorem witness_BeginReadCommand : WriteReady busyAround ∧ busyAround.G.rdOutput := ⟨busyAround_writeReady, rd_of rfl⟩
theorem witness_EndReadCommand : ReadReady reading ∧ reading.P.gate = ⟨true, true⟩ := ⟨reading_ready, rfl⟩
theorem witness_ReadDataCommand : ReadReady reading ∧ 32 ≤ 32 ∧ reading.E.device.loopback = none :=
  ⟨reading_ready, by decide, rfl⟩
theorem witness_ReadDataFromLoopback : ReadReady looped ∧ looped.S.cfg.valid looped.par = true ∧
    looped.E.device.loopback = some [0x11#8, 0x22#8, 0x33#8, 0x44#8] ∧
    max 1 ((32 + 7) / 8) ≤ [0x11#8, 0x22#8, 0x33#8, 0x44#8].length :=
  ⟨looped_ready, by decide +kernel, rfl, by decide⟩
theorem witness_ReadBytesCommand : ReadReady reading ∧ reading.M.wf = true ∧ 1 ≤ 1 ∧ admitsAll reading.par 0x20FF 1 ∧
    reading.E.device.loopback = none :=
  ⟨reading_ready, by decide +kernel, by decide, by unfold admitsAll; decide +kernel, rfl⟩

theorem witness_ReadPixelsCommand :
    let s := (withProducer reading 1).setDevice ⟨List.replicate 4 0#32, none⟩
    ReadReady s ∧ s.E.producer 1 = some ⟨1, 16, [answer 1]⟩ ∧ s.E.device.loopback = none ∧ (16 + 7) / 8 = 2 ∧
    [answer 1].map (·.next) = (batchRanges 1 16).map Prod.snd ∧ 2 * (1 * 2) ≤ s.E.device.script.length :=
  ⟨⟨⟨rfl, rfl, rfl, .inl rfl⟩, rfl, rfl, rfl, readPins_of (by decide +kernel)⟩, by decide +kernel, rfl, rfl,
    by decide +kernel, by decide +kernel⟩

theorem witness_UnscrambleSelectsTheDataPins :
    ∀ i : Fin 8, (0xFFF00FFF#32).getLsbD cfg.pinD[i] = (0x00000000#32).getLsbD cfg.pinD[i] := by decide +kernel
theorem witness_UnscrambleInvertsScramble : cfg.pinD.toList.Nodup ∧ (∀ p ∈ cfg.pinD.toList, p < 32) ∧
    20 ∉ cfg.pinD.toList := by decide +kernel

theorem witness_ReadModeIsSilent : PinInv reading ∧ reading.live ∧ reading.S.read = true ∧
    step { reading with stream := [0x822#32] } = .next (stepped { reading with stream := [0x822#32] }) ∧
    (stepped { reading with stream := [0x822#32] }).S.fault = none ∧
    (stepped { reading with stream := [0x822#32] }).S.read = true :=
  ⟨reading_pins, ⟨rfl, rfl⟩, rfl, step_stepped (by decide +kernel), by decide +kernel, by decide +kernel⟩

/-- The states of a round trip of two bytes. -/
def trip0 : State := idle.setDevice ⟨List.replicate 8 0#32, some []⟩
def trip1 : State := after (.writeBytes 0x1000 2 true) trip0
def trip2 : State := after .beginRead trip1
def trip3 : State := after (.readBytes 0x2000 2 true) trip2

theorem witness_LoopbackRoundTrip : StorageInv trip0 ∧ BoundaryInv trip0 ∧ trip0.live ∧ trip0.P.tx.running = false ∧
    trip0.S.cfg.valid trip0.par = true ∧ trip0.par.scratchAddr0 ≠ trip0.par.scratchAddr1 ∧
    trip0.E.device.loopback = some [] ∧ exec (.writeBytes 0x1000 2 true) trip0 = .next trip1 ∧ trip1.live ∧
    exec .beginRead trip1 = .next trip2 ∧ trip2.live ∧ exec (.readBytes 0x2000 2 true) trip2 = .next trip3 ∧ trip3.live :=
  ⟨⟨by decide +kernel, by decide +kernel, by decide +kernel, by decide +kernel, by decide +kernel, by decide +kernel⟩,
    boundary_of (by decide +kernel), ⟨rfl, rfl⟩, rfl, by decide +kernel, by decide, rfl, exec_after _ _,
    ⟨by decide +kernel, by decide +kernel⟩, exec_after _ _, ⟨by decide +kernel, by decide +kernel⟩, exec_after _ _,
    ⟨by decide +kernel, by decide +kernel⟩⟩

/-- One failing check of every kind (V-FAULT, R185). -/
theorem witness_PreconditionChecks :
    firstFailing (checksOf State.reset .init) = some .lifecycle ∧
    firstFailing (checksOf State.reset (.writeData 0x55#32 33)) = some .lifecycle ∧
    firstFailing (checksOf State.reset (.config 0 (cfg.pinD.set 0 32) 4 5 6 1)) = some .config ∧
    firstFailing (checksOf State.reset (.config 0 cfg.pinD 4 5 6 (2 ^ 32 - 1))) = some .config ∧
    firstFailing (checksOf initialised (.writeData 0x55#32 33)) = some .noTxn ∧
    firstFailing (checksOf idle .beginTransaction) = some .nested ∧
    firstFailing (checksOf reading .beginRead) = some .readMode ∧
    firstFailing (checksOf idle .endRead) = some .notReadMode ∧
    firstFailing (checksOf idle (.writeDataRepeat 0#32 8 4)) = some .operand ∧
    firstFailing (checksOf idle (.writeDataRepeat 0#32 25 4)) = some .operand ∧
    firstFailing (checksOf idle (.writeBytes 0x1000 0 false)) = some .operand ∧
    firstFailing (checksOf idle (.writePixels 1 3)) = some .operand := by decide +kernel

theorem witness_CommandPointer : idle.live ∧ exec .busy idle = .next (after .busy idle) := ⟨idle_live, exec_after _ _⟩

/-- The step from `idle` at a `beginRead`, for the statements about every step. -/
theorem witness_steps : step (fetching [0x20#32] []) = .next (stepped (fetching [0x20#32] [])) ∧
    StorageInv (fetching [0x20#32] []) ∧ BoundaryInv (fetching [0x20#32] []) :=
  ⟨step_stepped (by decide +kernel),
    ⟨by decide +kernel, by decide +kernel, by decide +kernel, by decide +kernel, by decide +kernel, by decide +kernel⟩,
    boundary_of (by decide +kernel)⟩

theorem witness_PowerOnHasTheInvariants : (⟨Params.l0, [], [(5, 1#8)], Env.free⟩ : Launch).mem.wf = true ∧
    Residue.zero.scratch0.length ≤ 256 := by decide

theorem witness_HostMemoryFrame : exec (.readPixels 9 1 1) (withProducer looped 1) =
    .next (after (.readPixels 9 1 1) (withProducer looped 1)) ∧
    (∀ q, (withProducer looped 1).E.producer 1 = some q → ∀ x ∈ q.answers, ∀ c ∈ x.stores, c.1 ≠ 0x1000) ∧
    Instr.busy.opcode ≠ .readBytes ∧ exec (.readBytes 0x2000 1 true) looped = .next (after (.readBytes 0x2000 1 true) looped) :=
  ⟨exec_after _ _, fun q h x hx c hc => by
    have e : q = ⟨1, 16, [answer 1]⟩ := by
      have : (withProducer looped 1).E.producer 1 = some ⟨1, 16, [answer 1]⟩ := by decide +kernel
      simpa [this, eq_comm] using h
    subst e
    simp only [List.mem_singleton] at hx
    subst hx
    simp only [answer, List.mem_singleton] at hc
    subst hc
    decide, by decide, exec_after _ _⟩

theorem witness_LoopbackDevice : looped.S.cfg.valid looped.par = true ∧
    looped.E.device.loopback = some (0x11#8 :: [0x22#8, 0x33#8, 0x44#8]) ∧ looped.G.rdOutput ∧ looped.G.rd.level = true ∧
    looped.rawWord = 0x00011000#32 := by
  exact ⟨by decide +kernel, rfl, ⟨rfl, rfl⟩, by decide +kernel, by decide +kernel⟩

theorem witness_Frames : exec .wait running = .next (after .wait running) ∧ Instr.wait.opcode ∉ [Opcode.config, .init] ∧
    Instr.wait.opcode ≠ .writeBytes ∧ running.S.txn = true := ⟨exec_after _ _, by decide, by decide, rfl⟩

end Sys2Proof.Tests
end

section
/-!
PROOFS. What a command and a step leave unchanged, and the invariants that every micro-operation keeps by itself: storage,
the traces, the command pointer.
* `Marks`, `exec_frame`: a relation that every move, every micro-operation and every mark of a stop has, exec has.
* One lemma per relation on what a micro-operation does (`Performs`); each statement follows by `exec_frame`.
-/

namespace Sys2Proof.Machine

/-- `t` differs from `s` only in the marks a stop leaves and in the command pointer. -/
structure Marks (s t : State) : Prop where
  S : t.S = { s.S with fault := t.S.fault, hold := t.S.hold, pc := t.S.pc }
  P : t.P = s.P
  G : t.G = s.G
  E : t.E = { s.E with sched := t.E.sched }
  M : t.M = s.M
  bus : t.bus = s.bus
  hist : t.hist = s.hist
  par : t.par = s.par

theorem setSched_marks (s : State) (ms : List Move) : Marks s (s.setSched ms) := by constructor <;> rfl
theorem takeFault_marks (s : State) (c : FaultCode) : Marks s (s.takeFault c) := by constructor <;> rfl
theorem setHold_marks (s : State) (x : Hold) : Marks s (s.setHold x) := by constructor <;> rfl
theorem advance_marks (s : State) (n : Nat) : Marks s (s.advance n) := by constructor <;> rfl

theorem exec_frame {R : State → State → Prop} (refl : ∀ s, R s s) (trans : ∀ s t u, R s t → R t u → R s u)
    (marks : ∀ s t, Marks s t → R s t) (moves : ∀ s m, R s (s.moved m)) {i : Instr}
    (ops : ∀ s t, Performs i s t → R s t) {s t : State} (h : exec i s = .next t) : R s t :=
  exec_relates refl trans (fun u ms => marks _ _ (setSched_marks u ms)) moves (fun u c => marks _ _ (takeFault_marks u c))
    (fun u x => marks _ _ (setHold_marks u x)) (fun u n => marks _ _ (advance_marks u n)) ops h

/-! ## Storage (R31, R35, R47, R182) -/

/-- The storage invariant of a state with the same stores. -/
theorem StorageInv.of_eq {s t : State} (h : StorageInv s) (hM : t.M = s.M) (hP : t.P = s.P) (hpar : t.par = s.par)
    (hpix : t.S.pixbuf = s.S.pixbuf) (hrd : t.S.rdbuf = s.S.rdbuf) : StorageInv t :=
  ⟨by rw [hM]; exact h.memory, by rw [hP, hpar]; exact h.fifo, by rw [hP]; exact h.scratch0, by rw [hP]; exact h.scratch1,
    by rw [hpix]; exact h.pixbuf, by rw [hrd]; exact h.rdbuf⟩

theorem Marks.storage {s t : State} (k : Marks s t) (h : StorageInv s) : StorageInv t :=
  h.of_eq k.M k.P k.par (by rw [k.S]) (by rw [k.S])

theorem moved_storage {s : State} (m : Move) (h : StorageInv s) : StorageInv (s.moved m) := by
  have b := moved_beside s m
  refine ⟨?_, ?_, ?_, ?_, ?_, ?_⟩
  · rw [b.M]; exact h.memory
  · rw [b.par]; exact b.fifo.length_le.trans h.fifo
  · rw [b.scratch0]; exact h.scratch0
  · rw [b.scratch1]; exact h.scratch1
  · rw [b.S]; exact h.pixbuf
  · rw [b.S]; exact h.rdbuf

/-- Each store is bounded where it is written: the FIFO by the overflow check, a scratch copy and the buffers by the size
of a load, a chunk and a batch. -/
theorem Performs_storage {i : Instr} {s t : State} (p : Performs i s t) (h : StorageInv s) : StorageInv t := by
  obtain ⟨hm, hf, h0, h1, hp, hr⟩ := h
  cases p with
  | push _ w hz =>
    refine ⟨hm, ?_, h0, h1, hp, hr⟩
    simp only [emit_P, emit_par, setFifo_P_fifo, setFifo_par, List.length_append, List.length_singleton]
    omega
  | bufWr _ copy v hv => cases copy <;> constructor <;> assumption
  | pullWrite p a b n len _ hn => exact ⟨hm, hf, h0, h1, by simpa [State.answerBytes] using hn, hr⟩
  | pullRead => exact ⟨Memory_writeAll_wf _ hm, hf, h0, h1, hp, hr⟩
  | memWrite => exact ⟨Memory_write_wf hm _ _, hf, h0, h1, hp, hr⟩
  | setRdbuf _ v hv => exact ⟨hm, hf, h0, h1, hp, hv⟩
  | gate =>
    split
    · exact ⟨hm, Nat.zero_le _, h0, h1, hp, hr⟩
    · exact ⟨hm, hf, h0, h1, hp, hr⟩
  | _ => constructor <;> simpa

theorem exec_storage {i : Instr} {s t : State} (h : exec i s = .next t) (hs : StorageInv s) : StorageInv t :=
  exec_frame (R := fun s t => StorageInv s → StorageInv t) (fun _ => id) (fun _ _ _ f g => g ∘ f) (fun _ _ k => k.storage)
    (fun _ m => moved_storage m) (fun _ _ => Performs_storage) h hs

/-- Settles O51: every move and every micro-operation keeps the storage invariant. -/
theorem stepKeepsStorage : Obligations.StepKeepsStorage := by
  unfold Obligations.StepKeepsStorage
  intro s t hs h
  exact step_keeps (fun u ms => (setSched_marks u ms).storage) (fun _ m => moved_storage m)
    (fun u c => (takeFault_marks u c).storage) (fun _ k => k.of_eq rfl rfl rfl rfl rfl)
    (fun _ _ _ k _ h => exec_storage h k) hs h

/-! ## The sequencer's registers (R13) -/

/-- The registers of the sequencer that R13's table does not give to the opcode `o` are the same. -/
structure SequencerFramed (o : Opcode) (s t : State) : Prop where
  life : o ∉ [.config, .init] → t.S.life = s.S.life
  cfg : o ≠ .config → t.S.cfg = s.S.cfg
  txn : o ∉ [.beginTransaction, .endTransaction] → t.S.txn = s.S.txn
  read : o ∉ [.beginRead, .endRead] → t.S.read = s.S.read
  mode : o ∉ [.beginTransaction, .writeCommand, .writeData, .writeDataRepeat, .writeBytes, .writePixels] →
    t.S.mode = s.S.mode
  cache : o ≠ .beginTransaction → t.S.cache = s.S.cache
  res : o ∉ [.busy, .readData] → t.S.res = s.S.res
  desc : o ∉ [.init, .writeBytes] → t.S.desc = s.S.desc
  flip : o ≠ .writeBytes → t.S.flip = s.S.flip
  pixbuf : o ≠ .writePixels → t.S.pixbuf = s.S.pixbuf
  rdbuf : o ≠ .readPixels → t.S.rdbuf = s.S.rdbuf
  handles : o ≠ .init → t.S.handles = s.S.handles
  refused : t.S.refused = s.S.refused

theorem SequencerFramed.of_S {o : Opcode} {s t : State}
    (h : t.S = { s.S with fault := t.S.fault, hold := t.S.hold, pc := t.S.pc }) : SequencerFramed o s t := by
  constructor <;> rw [h] <;> exact fun _ => rfl

theorem SequencerFramed.trans {o : Opcode} {s t u : State} (h : SequencerFramed o s t) (k : SequencerFramed o t u) :
    SequencerFramed o s u where
  life ho := (k.life ho).trans (h.life ho)
  cfg ho := (k.cfg ho).trans (h.cfg ho)
  txn ho := (k.txn ho).trans (h.txn ho)
  read ho := (k.read ho).trans (h.read ho)
  mode ho := (k.mode ho).trans (h.mode ho)
  cache ho := (k.cache ho).trans (h.cache ho)
  res ho := (k.res ho).trans (h.res ho)
  desc ho := (k.desc ho).trans (h.desc ho)
  flip ho := (k.flip ho).trans (h.flip ho)
  pixbuf ho := (k.pixbuf ho).trans (h.pixbuf ho)
  rdbuf ho := (k.rdbuf ho).trans (h.rdbuf ho)
  handles ho := (k.handles ho).trans (h.handles ho)
  refused := k.refused.trans h.refused

theorem Performs_sequencer {i : Instr} {s t : State} (p : Performs i s t) : SequencerFramed i.opcode s t := by
  cases p
  case pullWrite h _ => subst h; constructor <;> simp [Instr.opcode]
  case setMode h => constructor <;> simp_all [writers]
  case gate => exact .of_S (by split <;> rfl)
  case alloc h _ _ => constructor <;> simp_all
  case beginTxn h => constructor <;> simp_all
  case endTxn h => constructor <;> simp_all
  case setCache h => constructor <;> simp_all
  case setCfg h => constructor <;> simp_all
  case setHandles h => constructor <;> simp_all
  case initialised h => constructor <;> simp_all
  case setRead v h => rcases h with ⟨h, -⟩ | ⟨h, -⟩ <;> constructor <;> simp_all
  case setRes h _ => rcases h with h | h <;> constructor <;> simp_all
  case setFlip h => constructor <;> simp_all
  case setRdbuf h _ _ => constructor <;> simp_all
  all_goals exact .of_S (by simp)

theorem exec_sequencer {i : Instr} {s t : State} (h : exec i s = .next t) : SequencerFramed i.opcode s t :=
  exec_frame (fun _ => .of_S rfl) (fun _ _ _ => .trans) (fun _ _ k => .of_S k.S)
    (fun u m => .of_S (by rw [(moved_beside u m).S])) (fun _ _ => Performs_sequencer) h

/-- Settles O57: what a micro-operation writes, R13's table gives to its instruction. -/
theorem sequencerFrame : Obligations.SequencerFrame := by
  unfold Obligations.SequencerFrame
  refine ⟨fun i s t h => ?_, fun s m => (moved_beside s m).S⟩
  obtain ⟨h1, h2, h3, h4, h5, h6, h7, h8, h9, h10, h11, h12, h13⟩ := exec_sequencer h
  exact ⟨h1, h2, h3, h4, h5, h6, h7, h8, h9, h10, h11, h12, h13⟩

/-! ## The peripheral, the pads and the environment (R22 to R30, R34 to R36, R39) -/

/-- A command's first check: it takes the fault and nothing else, or it goes on. -/
theorem command_check_cases {o : Opcode} {c : State → Bool} {f : FaultCode} {m : Unit → Act Unit} {s t : State}
    (h : command o (check c f >>= m) s = .next t) : t = s.takeFault f ∨ c s = true ∧ command o (m ()) s = .next t := by
  rw [command_check] at h
  split at h
  · next hc => exact .inr ⟨hc, h⟩
  · simp only [Host.Outcome.next.injEq] at h; exact .inl h.symm

/-- The first three checks of a write command (R185). -/
theorem command_writeChecks_cases {o : Opcode} {m : Unit → Act Unit} {s t : State}
    (h : command o (writeChecks >>= m) s = .next t) : (∃ c, t = s.takeFault c) ∨
      (s.S.life = .initialised ∧ s.S.txn = true ∧ s.S.read = false) ∧ command o (m ()) s = .next t := by
  rw [writeChecks_bind] at h
  rcases command_check_cases h with e | ⟨hl, h⟩
  · exact .inl ⟨_, e⟩
  rcases command_check_cases h with e | ⟨ht, h⟩
  · exact .inl ⟨_, e⟩
  rcases command_check_cases h with e | ⟨hr, h⟩
  · exact .inl ⟨_, e⟩
  exact .inr ⟨⟨by simpa using hl, ht, by simpa using hr⟩, h⟩

/-- `endTransaction` faults in its checks, or closes the transaction and does nothing else (R140). -/
theorem exec_endTransaction_cases {s t : State} (h : exec .endTransaction s = .next t) : (∃ c, t = s.takeFault c) ∨
    s.S.read = false ∧ t = (s.setTxn false).advance 1 := by
  have e : exec .endTransaction s = command .endTransaction (writeChecks >>= fun _ => update fun t => t.setTxn false) s := by
    rw [writeChecks_bind]; rfl
  rw [e] at h
  rcases command_writeChecks_cases h with ⟨c, e⟩ | ⟨⟨-, -, hr⟩, h⟩
  · exact .inl ⟨c, e⟩
  · rw [command_update, Host.Outcome.next.injEq] at h
    exact .inr ⟨hr, h.symm⟩

/-- Where the pads differ, `o` routes pads; in the level of `RD` it may sample them instead. -/
structure PadsFramed (o : Opcode) (s t : State) : Prop where
  pads : o ∉ routers → t.G = { s.G with rd := { s.G.rd with level := t.G.rd.level } }
  rd : o ∉ routers → o ∉ readers → t.G.rd = s.G.rd

theorem PadsFramed.of_G {o : Opcode} {s t : State} (h : t.G = s.G) : PadsFramed o s t :=
  ⟨fun _ => by rw [h], fun _ _ => by rw [h]⟩

theorem PadsFramed.of_router {o : Opcode} {s t : State} (h : o ∈ routers) : PadsFramed o s t :=
  ⟨fun k => absurd h k, fun k => absurd h k⟩

theorem PadsFramed.trans {o : Opcode} {s t u : State} (h : PadsFramed o s t) (k : PadsFramed o t u) : PadsFramed o s u where
  pads ho := by rw [k.pads ho, h.pads ho]
  rd ho ho' := (k.rd ho ho').trans (h.rd ho ho')

theorem Performs_pads {i : Instr} {s t : State} (p : Performs i s t) : PadsFramed i.opcode s t := by
  cases p with
  | claim h => exact .of_router (by simp only [List.mem_cons, List.not_mem_nil, or_false, routers] at h ⊢; tauto)
  | dir h => exact .of_router h
  | route h => exact .of_router h
  | level r l h =>
    rcases h with h | ⟨h, rfl⟩
    · exact .of_router h
    · exact ⟨fun _ => by simp [Pads.put, Pads.get], fun _ k => absurd h k⟩
  | gate => exact .of_G (by split <;> rfl)
  | _ => exact .of_G (by simp)

theorem exec_pads {i : Instr} {s t : State} (h : exec i s = .next t) : PadsFramed i.opcode s t :=
  exec_frame (fun _ => .of_G rfl) (fun _ _ _ => .trans) (fun _ _ k => .of_G k.G)
    (fun u m => .of_G (moved_beside u m).G) (fun _ _ => Performs_pads) h

/-- The lists of the environment that R39 does not let `o` use up or extend are the same. -/
structure EnvFramed (o : Opcode) (s t : State) : Prop where
  producers : o ∉ [.writePixels, .readPixels] → t.E.producers = s.E.producers
  handed : o ≠ .readPixels → t.E.handed = s.E.handed
  busClock : o ≠ .beginTransaction → t.E.busClock = s.E.busClock
  allocs : o ∉ [.init, .writeBytes] → t.E.allocs = s.E.allocs

theorem EnvFramed.of_E {o : Opcode} {s t : State} (h : t.E = { s.E with
    radioClkEn := t.E.radioClkEn, device := t.E.device, sched := t.E.sched }) : EnvFramed o s t := by
  constructor <;> rw [h] <;> exact fun _ => rfl

theorem EnvFramed.trans {o : Opcode} {s t u : State} (h : EnvFramed o s t) (k : EnvFramed o t u) : EnvFramed o s u where
  producers ho := (k.producers ho).trans (h.producers ho)
  handed ho := (k.handed ho).trans (h.handed ho)
  busClock ho := (k.busClock ho).trans (h.busClock ho)
  allocs ho := (k.allocs ho).trans (h.allocs ho)

theorem Performs_env {i : Instr} {s t : State} (p : Performs i s t) : EnvFramed i.opcode s t := by
  cases p with
  | pullWrite p a b n len h =>
    subst h
    exact ⟨fun k => absurd (by simp [Instr.opcode]) k, fun _ => rfl, fun _ => rfl, fun _ => rfl⟩
  | pullRead p dst a b len h =>
    subst h
    exact ⟨fun k => absurd (by simp [Instr.opcode]) k, fun k => absurd rfl k, fun _ => rfl, fun _ => rfl⟩
  | clock h => exact ⟨by simp, by simp, fun k => absurd h k, by simp⟩
  | alloc h => exact ⟨by simp, by simp, by simp, fun k => absurd h k⟩
  | sample => constructor <;> simp
  | level => exact .of_E (by simp only [emit_E, setPad_E]; rw [showLevel_E])
  | gate => split <;> constructor <;> exact fun _ => rfl
  | bufWr => exact .of_E (by simp)
  | _ => exact .of_E rfl

/-- The fields of the peripheral that the rules do not let `o` write are the same; `CLKM` while a transaction is open. -/
structure PeripheralFramed (o : Opcode) (s t : State) : Prop where
  gate : o ∉ [.init, .endRead] → t.P.gate = s.P.gate ∧ t.P.regs.intEna = s.P.regs.intEna
  modeRegs : o ≠ .init → t.P.modeRegs = s.P.modeRegs
  outlink : o ∉ [.init, .endRead, .writeBytes] → t.P.regs.outlink = s.P.regs.outlink
  clkm : o ∉ [.init, .endRead, .beginTransaction, .endTransaction] → s.S.txn = true →
    t.S.txn = true ∧ t.P.regs.clkm = s.P.regs.clkm
  desc : o ≠ .writeBytes → { t.P.desc with owner := s.P.desc.owner } = s.P.desc
  scratch : o ≠ .writeBytes → t.P.scratch0 = s.P.scratch0 ∧ t.P.scratch1 = s.P.scratch1

theorem PeripheralFramed.of_regs {o : Opcode} {s t : State} (hS : t.S.txn = s.S.txn) (hg : t.P.gate = s.P.gate)
    (hm : t.P.modeRegs = s.P.modeRegs) (hr : t.P.regs.outlink = s.P.regs.outlink ∧ t.P.regs.intEna = s.P.regs.intEna)
    (hc : s.S.txn = true → t.P.regs.clkm = s.P.regs.clkm) (hd : t.P.desc = { s.P.desc with owner := t.P.desc.owner })
    (h0 : t.P.scratch0 = s.P.scratch0) (h1 : t.P.scratch1 = s.P.scratch1) : PeripheralFramed o s t where
  gate _ := ⟨hg, hr.2⟩
  modeRegs _ := hm
  outlink _ := hr.1
  clkm _ ht := ⟨hS.trans ht, hc ht⟩
  desc _ := by rw [hd]
  scratch _ := ⟨h0, h1⟩

theorem PeripheralFramed.of_P {o : Opcode} {s t : State} (hS : t.S.txn = s.S.txn) (h : t.P = s.P) :
    PeripheralFramed o s t := by
  apply PeripheralFramed.of_regs hS <;> simp [h]

theorem PeripheralFramed.trans {o : Opcode} {s t u : State} (h : PeripheralFramed o s t) (k : PeripheralFramed o t u) :
    PeripheralFramed o s u where
  gate ho := ⟨(k.gate ho).1.trans (h.gate ho).1, (k.gate ho).2.trans (h.gate ho).2⟩
  modeRegs ho := (k.modeRegs ho).trans (h.modeRegs ho)
  outlink ho := (k.outlink ho).trans (h.outlink ho)
  clkm ho ht := ⟨(k.clkm ho (h.clkm ho ht).1).1, (k.clkm ho (h.clkm ho ht).1).2.trans (h.clkm ho ht).2⟩
  desc ho := by rw [← h.desc ho, ← k.desc ho]
  scratch ho := ⟨(k.scratch ho).1.trans (h.scratch ho).1, (k.scratch ho).2.trans (h.scratch ho).2⟩

theorem Performs_peripheral {i : Instr} {s t : State} (p : Performs i s t) : PeripheralFramed i.opcode s t := by
  cases p with
  | modeReg h v hv =>
    cases v <;> simp only [RegImage.reg, reduceCtorEq, or_false, or_self] at hv <;> apply PeripheralFramed.of_regs <;>
      simp [Regs.put]
  | clkm h | intEna h | modeWr h | bufWr h | descWr h | beginTxn h | endTxn h => constructor <;> simp [h]
  | link h => constructor <;> simp [h, State.linked]
  | gate h =>
    simp only [List.mem_cons, List.not_mem_nil, or_false] at h
    rcases h with h | h <;> split <;> constructor <;> simp [h, State.released]
  | _ => apply PeripheralFramed.of_regs <;> simp

theorem moved_peripheral {o : Opcode} (s : State) (m : Move) : PeripheralFramed o s (s.moved m) :=
  have b := moved_beside s m
  .of_regs (by rw [b.S]) b.gate b.modeRegs (by rw [b.regs]; exact ⟨rfl, rfl⟩) b.clkm b.desc b.scratch0 b.scratch1

/-- Settles O58: the fields of the peripheral, the pads and the environment are framed one by one, and `exec_frame` lifts each. -/
theorem peripheralAndPinsFrame : Obligations.PeripheralAndPinsFrame := by
  unfold Obligations.PeripheralAndPinsFrame
  intro i s t h
  obtain ⟨hpads, hrd⟩ := exec_pads h
  obtain ⟨hprod, hhand, hclock, halloc⟩ : EnvFramed i.opcode s t := exec_frame (fun _ => .of_E rfl) (fun _ _ _ => .trans)
    (fun _ _ k => .of_E (by rw [k.E])) (fun u m => .of_E (moved_beside u m).env) (fun _ _ => Performs_env) h
  obtain ⟨hgate, hmode, hout, hclkm, hdesc, hscr⟩ : PeripheralFramed i.opcode s t :=
    exec_frame (fun _ => .of_P rfl rfl) (fun _ _ _ => .trans) (fun _ _ k => .of_P (by rw [k.S]) k.P) moved_peripheral
      (fun _ _ => Performs_peripheral) h
  refine ⟨hgate, hmode, hout, fun ho ht => ?_, fun ho => ⟨hdesc ho, hscr ho⟩, fun ho => ?_, fun ho => ?_, hprod, hhand,
    hclock, halloc⟩
  · by_cases he : i.opcode = .endTransaction
    · have e : i = .endTransaction := by cases i <;> cases he; rfl
      subst e
      rcases exec_endTransaction_cases h with ⟨c, rfl⟩ | ⟨-, rfl⟩ <;> simp
    · exact (hclkm (by simpa [he] using ho) ht).2
  · rw [hpads ho]; exact ⟨rfl, rfl, rfl, rfl⟩
  · simp only [List.mem_cons, List.not_mem_nil, or_false, not_or] at ho
    exact hrd (by simp [routers, ho]) (by simp [readers, ho])

/-! ## Host memory (R38, R59, R123) -/

theorem Performs_memory {i : Instr} {s t : State} (p : Performs i s t) (hb : i.opcode ≠ .readBytes)
    (hp : i.opcode ≠ .readPixels) : t.M = s.M := by
  cases p with
  | memWrite dst len dma h => exact absurd (by rw [h]; rfl) hb
  | pullRead p dst a b len h => exact absurd (by rw [h]; rfl) hp
  | gate => split <;> rfl
  | _ => simp

theorem Performs_readBytes_memory {dst len : Nat} {dma : Bool} {s t : State} (p : Performs (.readBytes dst len dma) s t)
    {a : Nat} (ha : a < dst ∨ dst + len ≤ a) : t.M.read a = s.M.read a := by
  cases p with
  | memWrite dst' len' dma' h b v _ h1 h2 =>
    cases h
    exact Memory_read_write_other _ _ (by omega)
  | pullRead p dst a b len h => cases h
  | gate => split <;> rfl
  | _ => simp

theorem Memory_read_writeAll_other {cs : List Host.Cell} {a : Nat} (h : ∀ c ∈ cs, c.1 ≠ a) (m : Memory) :
    (m.writeAll cs).read a = m.read a := by
  induction cs generalizing m with
  | nil => rfl
  | cons c cs ih =>
    rw [Memory.writeAll, ih fun x hx => h x (by simp [hx])]
    split
    · exact Memory_read_write_other m c.2 (h c (by simp)).symm
    · rfl

/-- No answer that producer `p` has to come stores at `a`. -/
def StoresOff (p a : Nat) (s : State) : Prop :=
  ∀ q, s.E.producer p = some q → ∀ x ∈ q.answers, ∀ c ∈ x.stores, c.1 ≠ a

theorem StoresOff.of_producers {p a : Nat} {s t : State} (h : StoresOff p a s) (e : t.E.producers = s.E.producers) :
    StoresOff p a t := by
  unfold StoresOff Env.producer
  rw [e]
  exact h

theorem StoresOff.pullAnswer {p a : Nat} {s : State} (h : StoresOff p a s) : ∀ c ∈ (s.pullAnswer p).stores, c.1 ≠ a := by
  unfold State.pullAnswer
  cases hq : s.E.producer p with
  | none => simp
  | some q =>
    cases hx : q.answers.head? with
    | none => simp [hx]
    | some x => simpa [hx] using h q hq x (List.mem_of_mem_head? hx)

/-- The producer that answered has its next answer first. -/
theorem find_dropAnswer (p : Nat) (qs : List Producer) :
    (dropAnswer p qs).find? (fun q => q.handle == p) =
      (qs.find? fun q => q.handle == p).map fun q => { q with answers := q.answers.tail } := by
  induction qs with
  | nil => rfl
  | cons q qs ih =>
    unfold dropAnswer
    cases hq : q.handle == p <;> simp [hq, ih]

theorem StoresOff.afterPull {p a : Nat} {s : State} (h : StoresOff p a s) : StoresOff p a (s.afterPull p) := by
  intro q hq x hx
  change (dropAnswer p s.E.producers).find? _ = some q at hq
  rw [find_dropAnswer, Option.map_eq_some_iff] at hq
  obtain ⟨q', hq', rfl⟩ := hq
  exact h q' hq' x (List.mem_of_mem_tail hx)

theorem Performs_readPixels_memory {dst p len : Nat} {s t : State} (h : Performs (.readPixels dst p len) s t)
    {a : Nat} (ha : StoresOff p a s) : StoresOff p a t ∧ t.M.read a = s.M.read a := by
  cases h with
  | memWrite dst' len' dma' h => cases h
  | pullWrite p' a b n len' h => cases h
  | pullRead p' dst' a' b' len' h =>
    cases h
    exact ⟨ha.afterPull.of_producers rfl, Memory_read_writeAll_other ha.pullAnswer _⟩
  | gate h => cases h with | tail _ h => cases h with | tail _ h => cases h
  | sample => exact ⟨ha.of_producers (by simp), by simp⟩
  | level => exact ⟨ha.of_producers (by simp), by simp⟩
  | clock h => cases h
  | alloc h => simp [Instr.opcode] at h
  | bufWr h => cases h
  | _ => exact ⟨ha, rfl⟩

/-- Settles O56: a store is made by `memWrite` inside the destination, or by `pullRead` from the answers to come. -/
theorem hostMemoryFrame : Obligations.HostMemoryFrame := by
  unfold Obligations.HostMemoryFrame
  refine ⟨fun i s t h hb hp => ?_, fun s t dst length f h a ha => ?_, fun s t dst p length h a ha => ?_,
    fun s m => (moved_beside s m).M⟩
  · exact exec_frame (R := fun s t => t.M = s.M) (fun _ => rfl) (fun _ _ _ h k => k.trans h) (fun _ _ k => k.M)
      (fun s m => (moved_beside s m).M) (fun _ _ p => Performs_memory p hb hp) h
  · exact exec_frame (R := fun s t => t.M.read a = s.M.read a) (fun _ => rfl) (fun _ _ _ h k => k.trans h)
      (fun _ _ k => by rw [k.M]) (fun s m => by rw [(moved_beside s m).M]) (fun _ _ p => Performs_readBytes_memory p ha) h
  · exact (exec_frame (R := fun s t => StoresOff p a s → StoresOff p a t ∧ t.M.read a = s.M.read a) (fun _ k => ⟨k, rfl⟩)
      (fun _ _ _ h k ha => ⟨(k (h ha).1).1, (k (h ha).1).2.trans (h ha).2⟩)
      (fun _ _ k ha => ⟨ha.of_producers (by rw [k.E]), by rw [k.M]⟩)
      (fun s m ha => ⟨ha.of_producers (by rw [(moved_beside s m).env]), by rw [(moved_beside s m).M]⟩)
      (fun _ _ p ha => Performs_readPixels_memory p ha) h ha).2

/-! ## Both traces (R37) and the command pointer (R16) -/

theorem Performs_hist {i : Instr} {s t : State} (p : Performs i s t) :
    t.hist = s.hist ∨ ∃ e, t.hist = s.hist ++ [(s.S.pc, e)] := by
  cases p with
  | gate => split <;> simp
  | link => exact .inr ⟨_, rfl⟩
  | _ => simp

theorem Performs_bus {i : Instr} {s t : State} (p : Performs i s t) : s.bus <+: t.bus := by
  cases p with
  | level => simp [showLevel_bus]
  | gate => split <;> simp
  | _ => simp

/-- A micro-operation leaves the command pointer and the marks of a stop alone. -/
theorem Performs_pointer {i : Instr} {s t : State} (p : Performs i s t) :
    t.S.pc = s.S.pc ∧ t.S.fault = s.S.fault ∧ t.S.hold = s.S.hold := by
  cases p with
  | gate => split <;> simp
  | _ => simp

/-- The old traces are beginnings of the new ones. -/
def Extends (s t : State) : Prop := s.hist <+: t.hist ∧ s.bus <+: t.bus

theorem Extends.of_eq {s t : State} (hh : t.hist = s.hist) (hb : t.bus = s.bus) : Extends s t := by
  simp [Extends, hh, hb]

theorem Extends.trans {s t u : State} (h : Extends s t) (k : Extends t u) : Extends s u :=
  ⟨h.1.trans k.1, h.2.trans k.2⟩

theorem moved_extends (s : State) (m : Move) : Extends s (s.moved m) :=
  ⟨by rw [(moved_beside s m).hist], (moved_beside s m).bus⟩

theorem Performs_extends {i : Instr} {s t : State} (p : Performs i s t) : Extends s t := by
  refine ⟨?_, Performs_bus p⟩
  rcases Performs_hist p with e | ⟨e, he⟩
  · rw [e]
  · rw [he]; exact List.prefix_append _ _

theorem exec_extends {i : Instr} {s t : State} (h : exec i s = .next t) : Extends s t :=
  exec_frame (fun _ => .of_eq rfl rfl) (fun _ _ _ => .trans) (fun _ _ k => .of_eq k.hist k.bus) moved_extends
    (fun _ _ => Performs_extends) h

/-- Settles O49: a micro-operation appends to a trace or leaves it alone. -/
theorem tracesOnlyGrow : Obligations.TracesOnlyGrow := by
  unfold Obligations.TracesOnlyGrow
  intro s t h
  have keep : ∀ u v : State, v.hist = u.hist → v.bus = u.bus → Extends s u → Extends s v :=
    fun _ _ hh hb k => k.trans (.of_eq hh hb)
  exact step_keeps (I := Extends s) (fun u _ => keep u _ rfl rfl) (fun u m k => k.trans (moved_extends u m))
    (fun u _ => keep u _ rfl rfl) (fun u => keep u _ rfl rfl) (fun _ _ _ k _ h => k.trans (exec_extends h))
    (.of_eq rfl rfl) h

/-- A command that began in `s` is still running in `t`: the command pointer holds its header, and so does every event. -/
structure Underway (s t : State) : Prop where
  pc : t.S.pc = s.S.pc
  live : t.live
  hist : ∃ es, t.hist = s.hist ++ es ∧ ∀ e ∈ es, e.1 = s.S.pc

theorem Did_underway {i : Instr} {s t : State} (h : Did i s t) (hs : s.live) : Underway s t := by
  refine h.keeps (I := Underway s) ⟨rfl, hs, [], by simp, by simp⟩ (fun u ms k => ⟨k.pc, k.live, k.hist⟩) (fun u m k hf => ?_)
    fun u v k p => ?_
  · exact ⟨by rw [moved_S_of_fault hf]; exact k.pc, live_moved k.live hf, by rw [(moved_beside u m).hist]; exact k.hist⟩
  · obtain ⟨hpc, hfault, hhold⟩ := Performs_pointer p
    obtain ⟨es, he, hes⟩ := k.hist
    refine ⟨hpc.trans k.pc, ⟨hfault.trans k.live.1, hhold.trans k.live.2⟩, ?_⟩
    rcases Performs_hist p with e | ⟨e, hv⟩
    · exact ⟨es, e.trans he, hes⟩
    · refine ⟨es ++ [(u.S.pc, e)], by rw [hv, he, List.append_assoc], fun x hx => ?_⟩
      rcases List.mem_append.mp hx with hx | hx
      · exact hes x hx
      · rw [List.mem_singleton.mp hx]; exact k.pc

/-- What stopped a command leaves the command pointer at the header, with a fault recorded there or a hold. -/
theorem Halted_stopped {i : Instr} {s t : State} (h : Halted i s t) (hs : s.live) :
    (∃ es, t.hist = s.hist ++ es ∧ ∀ e ∈ es, e.1 = s.S.pc) ∧ t.S.pc = s.S.pc ∧
      ((∃ c, t.S.fault = some (c, s.S.pc) ∧ t.S.hold = none) ∨ (t.S.fault = none ∧ t.S.hold ≠ none)) := by
  cases h with
  | raised d c =>
    have k := Did_underway d hs
    exact ⟨k.hist, k.pc, .inl ⟨c, by simp [k.pc], k.live.2⟩⟩
  | moved d m hf =>
    have k := Did_underway d hs
    rw [moved_fault k.live.1 hf]
    exact ⟨k.hist, k.pc, .inl ⟨.radioDma, by simp [k.pc], k.live.2⟩⟩
  | held d x =>
    have k := Did_underway d hs
    exact ⟨k.hist, k.pc, .inr ⟨k.live.1, by simp⟩⟩

theorem packetLength_row (o : Opcode) : packetLength o.row.byte = o.row.len := by cases o <;> rfl

/-- Settles O48: a command keeps the pointer at its header while it runs (`Underway`). -/
theorem commandPointer : Obligations.CommandPointer := by
  unfold Obligations.CommandPointer
  intro i s t hs h
  rcases exec_did h with ⟨u, d, rfl⟩ | k
  · have k := Did_underway d hs
    exact ⟨k.hist, .inl ⟨k.live, by simp [k.pc, packetLength_row]⟩⟩
  · obtain ⟨hhist, hstop⟩ := Halted_stopped k hs
    exact ⟨hhist, .inr hstop⟩

/-! ## The step (R125) and power-on (R41) -/

/-- Settles O6: both forms of the turn leave the stream and the pointer alone, so the fetch decodes the same words. -/
theorem stepRunsTheDecodedCommand : Obligations.StepRunsTheDecodedCommand := by
  unfold Obligations.StepRunsTheDecodedCommand
  rintro s t i rest ⟨hfault, hhold, href, hpc, hturn⟩ hd
  have hnot : s.sequencerDone = false := by simp [State.sequencerDone, hhold, href, hpc]
  have hrun : t.fetchTurn = .run i t := by
    have hw : t.fetchWords = s.stream.drop s.S.pc := by rcases hturn with ⟨-, rfl⟩ | ⟨ms, -, rfl⟩ <;> rfl
    simp [State.fetchTurn, hw, hd]
  rcases hturn with ⟨hq, rfl⟩ | ⟨ms, hq, rfl⟩
  · simp [step, State.nextTurn, hfault, hq, hnot, hrun]
  · simp [step, State.nextTurn, hfault, hq, hnot, hrun]

theorem powerOn_boundary (l : Launch) (u : Residue) : BoundaryInv (State.powerOn l u) := by
  refine ⟨⟨⟨?_, ?_, ?_, ?_, ?_, ?_, ?_, ?_, ?_, ?_⟩, ?_, ?_, ?_, ?_, ?_, ?_, ?_⟩, ?_, ?_, ?_, ?_⟩ <;> simp [State.powerOn]

theorem powerOn_storage {l : Launch} {u : Residue} (hm : l.mem.wf = true) (h0 : u.scratch0.length ≤ 256)
    (h1 : u.scratch1.length ≤ 256) : StorageInv (State.powerOn l u) :=
  ⟨hm, Nat.zero_le _, h0, h1, Nat.zero_le _, Nat.zero_le _⟩

/-- Settles O50: every clause reads fields that power-on sets. -/
theorem powerOnHasTheInvariants : Obligations.PowerOnHasTheInvariants := by
  unfold Obligations.PowerOnHasTheInvariants
  exact ⟨fun l u hm h0 h1 => ⟨powerOn_storage hm h0 h1, powerOn_boundary l u⟩,
    powerOn_storage rfl (Nat.zero_le _) (Nat.zero_le _), powerOn_boundary _ _⟩

end Sys2Proof.Machine
end

section
/-!
PROOFS. Sequences that keep a property, and the control invariant.
* `Lasting I E`: the other agents' moves keep `I`, and a fault taken in `I` ends in `E`; the rule for one micro-operation
  (`Lasting.micro`) and for everything an instruction did (`Lasting.doing`).
* `Flags`, `ModeRegs`: the control invariant in two parts: the second one fails between the two register writes of a mode
  switch, where a command can fault but not be held.
* `Ready b`: a state between two batches of a write command; with `b`, also that nothing is queued or loaded but what is
  being transmitted (`Tidy`).
-/

namespace Sys2Proof.Machine

variable {α β : Type}

/-! ## Properties that last -/

/-- The other agents' moves keep `I`, and a fault taken in `I` ends in `E`. -/
structure Lasting (I E : State → Prop) : Prop where
  fault : ∀ {s}, I s → s.S.fault = none
  took : ∀ {s} ms, I s → I (s.setSched ms)
  moved : ∀ {s} m, I s → (s.moved m).S.fault = none → I (s.moved m)
  raised : ∀ {s} c, I s → E (s.takeFault c)

theorem Lasting.faulted {I E : State → Prop} (h : Lasting I E) {s : State} {m : Move} (hs : I s)
    (hf : (s.moved m).S.fault ≠ none) : E (s.moved m) := by
  rw [moved_fault (h.fault hs) hf]
  exact h.raised _ hs

theorem Lasting.reaches {I E : State → Prop} (h : Lasting I E) {s t : State} (r : Reaches s t) (hs : I s) : I t := by
  induction r with
  | here => exact hs
  | took _ ms ih => exact h.took ms ih
  | moved _ m hf ih => exact h.moved m ih hf

theorem Lasting.and {I J E : State → Prop} (h : Lasting I E) (hs : ∀ s ms, J s → J (s.setSched ms))
    (hm : ∀ s m, J s → (s.moved m).S.fault = none → J (s.moved m)) : Lasting (fun s => I s ∧ J s) E where
  fault k := h.fault k.1
  took ms k := ⟨h.took ms k.1, hs _ ms k.2⟩
  moved m k hf := ⟨h.moved m k.1 hf, hm _ m k.2 hf⟩
  raised c k := h.raised c k.1

/-- A micro-operation. -/
theorem Lasting.micro {I E : State → Prop} (h : Lasting I E) {Q : α → State → Prop} {blocked : State → Option Hold}
    {op : State → Effect α} (done : ∀ s a t, I s → blocked s = none → op s = .done a t → Q a t)
    (held : ∀ s x, I s → blocked s = some x → E (s.setHold x)) : Runs I (micro blocked op) Q E := by
  intro s hs
  rcases micro_cases blocked op s with ⟨t, a, u, e, r, b, o⟩ | ⟨t, c, e, r, -, -⟩ | ⟨t, m, e, r, hf⟩ | ⟨t, x, e, r, b⟩
  · rw [e]; exact done t a u (h.reaches r hs) b o
  · rw [e]; exact h.raised c (h.reaches r hs)
  · rw [e]; exact h.faulted (h.reaches r hs) hf
  · rw [e]; exact held t x (h.reaches r hs) b

/-- A micro-operation that nothing blocks. -/
theorem Lasting.atom {I E : State → Prop} (h : Lasting I E) {Q : α → State → Prop} {op : State → Effect α}
    (done : ∀ s a t, I s → op s = .done a t → Q a t) : Runs I (Machine.atom op) Q E :=
  h.micro (fun s a t k _ => done s a t k) fun _ _ _ b => nomatch b

/-- Everything an instruction did. -/
theorem Lasting.did {I E : State → Prop} (h : Lasting I E) {i : Instr}
    (performs : ∀ s t, I s → Performs i s t → I t) {s t : State} (d : Did i s t) (hs : I s) : I t :=
  d.keeps hs (fun _ ms => h.took ms) (fun _ m => h.moved m) performs

theorem Lasting.halted {I E : State → Prop} (h : Lasting I E) {i : Instr}
    (performs : ∀ s t, I s → Performs i s t → I t) (held : ∀ s x, I s → E (s.setHold x)) {s t : State}
    (k : Halted i s t) (hs : I s) : E t := by
  cases k with
  | raised d c => exact h.raised c (h.did performs d hs)
  | moved d m hf => exact h.faulted (h.did performs d hs) hf
  | held d x => exact held _ x (h.did performs d hs)

/-- A sequence that does what an instruction may do. -/
theorem Lasting.doing {I E : State → Prop} (h : Lasting I E) {i : Instr} {m : Act α} (hd : Doing i m)
    (performs : ∀ s t, I s → Performs i s t → I t) (held : ∀ s x, I s → E (s.setHold x)) :
    Runs I m (fun _ => I) E := by
  intro s hs
  have k := hd s trivial
  cases hr : m s with
  | ok a t => simp only [hr] at k; exact h.did performs k.1 hs
  | error e t => simp only [hr] at k; exact h.halted performs held k hs

theorem Runs_and {P P' : State → Prop} {m : Act α} {Q Q' : α → State → Prop} {E E' : State → Prop} (h : Runs P m Q E)
    (k : Runs P' m Q' E') : Runs (fun s => P s ∧ P' s) m (fun a s => Q a s ∧ Q' a s) (fun s => E s ∧ E' s) := by
  intro s hs
  have h := h s hs.1
  have k := k s hs.2
  cases hr : m s with
  | ok a t => simp only [hr] at h k; exact ⟨h, k⟩
  | error e t => simp only [hr] at h k; exact ⟨h, k⟩

/-- Answering a value changes nothing. -/
theorem Runs_return {P : State → Prop} {E : State → Prop} (a : α) : Runs P (pure a : Act α) (fun _ => P) E := fun _ h => h

/-- A fact known before a sequence is known of the state it starts in. -/
theorem Runs_get_bind {P : State → Prop} {f : State → Act β} {Q : β → State → Prop} {E : State → Prop}
    (h : ∀ s, P s → Runs (fun t => P t ∧ t = s) (f s) Q E) : Runs P ((get : Act State) >>= f) Q E := by
  intro s hs
  rw [get_bind]
  exact h s hs s ⟨hs, rfl⟩

/-! ## The control invariant in two parts -/

/-- The control invariant apart from the mode registers: what it says once a fault is set. -/
def Flags (s : State) : Prop := ControlInv (s.takeFault .illegal)

/-- The mode registers hold the images of the active mode. -/
def ModeRegs (s : State) : Prop := s.S.mode ≠ .none → InMode s

theorem control_iff {s : State} : ControlInv s ↔ Flags s ∧ (s.S.fault = none → ModeRegs s) := by
  refine ⟨fun h => ⟨?_, fun hf hm => h.registers hf hm⟩, fun ⟨h, k⟩ => ?_⟩
  · exact ⟨h.txn_life, h.read_txn, h.txn_mode, h.mode_life, h.cache_life, h.cache_image, h.gate_on, h.handles, h.allocated,
      fun hf => by simp at hf⟩
  · exact ⟨h.txn_life, h.read_txn, h.txn_mode, h.mode_life, h.cache_life, h.cache_image, h.gate_on, h.handles, h.allocated, k⟩

/-- The fields that `Flags` depends on. -/
def State.flags (s : State) : Life × Cfg × Bool × Bool × Mode × Cache × Option Nat × Bool × Gate × Params :=
  (s.S.life, s.S.cfg, s.S.txn, s.S.read, s.S.mode, s.S.cache, s.S.handles, s.S.desc.allocated, s.P.gate, s.par)

theorem Flags.congr {s t : State} (h : Flags s) (e : t.flags = s.flags) : Flags t := by
  simp only [State.flags, Prod.mk.injEq] at e
  obtain ⟨elife, ecfg, etxn, eread, emode, ecache, ehandles, ealloc, egate, epar⟩ := e
  obtain ⟨h1, h2, h3, h4, h5, h6, h7, h8, h9, -⟩ := h
  constructor <;> simp_all

theorem moved_flags (s : State) (m : Move) : (s.moved m).flags = s.flags := by
  have b := moved_beside s m
  simp only [State.flags, b.gate, b.par]
  rw [b.S]

theorem Flags.control {s : State} (h : Flags s) (c : FaultCode) : ControlInv (s.takeFault c) :=
  control_iff.mpr ⟨h.congr rfl, fun hf => by simp at hf⟩

/-- In mode `m` nothing is queued or loaded but what is being transmitted, each in its own mode. -/
structure Tidy (m : Mode) (p : Peripheral) : Prop where
  idle : p.tx.running = false → p.fifo = [] ∧ p.dma.loaded = false
  dma_fifo : m = .bulk16Dma → p.fifo = []
  load_mode : p.dma.loaded = true → m = .bulk16Dma
  running_mode : p.tx.running = true → m ≠ .none

theorem Tidy.of_eq {m : Mode} {p q : Peripheral} (h : Tidy m p) (ht : q.tx.running = p.tx.running) (hf : q.fifo = p.fifo)
    (hl : q.dma.loaded = p.dma.loaded) : Tidy m q := by
  obtain ⟨h1, h2, h3, h4⟩ := h
  constructor <;> simpa only [ht, hf, hl]

/-- The transmitter drains the FIFO in a FIFO mode only, and finishes when what its mode sends is sent. -/
theorem Tidy_moved {s : State} (m : Move) (h : Tidy s.S.mode s.P) (hr : ModeRegs s) : Tidy s.S.mode (s.moved m).P := by
  have hd : s.P.tx.running = true → s.P.regs.fconf.dscrEn = (s.S.mode == .bulk16Dma) := fun hn => by
    rw [(hr (h.running_mode hn)).2, Mode.fconf_dscrEn]
  have p := moved_P s m
  generalize (s.moved m).P = q at p
  cases p with
  | pop w ws hn hd' hq =>
    have hm : s.S.mode ≠ .bulk16Dma := by simpa [hd'] using hd hn
    exact ⟨fun k => by simp [hn] at k, fun k => absurd k hm, h.load_mode, h.running_mode⟩
  | finishFifo hn _ hd' hq =>
    have hm : s.S.mode ≠ .bulk16Dma := by simpa [hd'] using hd hn
    refine ⟨fun _ => ⟨hq, ?_⟩, fun k => absurd k hm, h.load_mode, (nomatch ·)⟩
    simpa using mt h.load_mode hm
  | finishDma hn _ hd' =>
    have hm : s.S.mode = .bulk16Dma := by simpa [hd'] using hd hn
    exact ⟨fun _ => ⟨h.dma_fifo hm, rfl⟩, h.dma_fifo, (nomatch ·), (nomatch ·)⟩
  | _ => exact h.of_eq rfl rfl rfl

theorem ModeRegs_moved {s : State} {m : Move} (h : ModeRegs s) (hf : (s.moved m).S.fault = none) : ModeRegs (s.moved m) :=
  fun k => InMode_moved (h (by rwa [moved_S_of_fault hf] at k)) hf

/-- A state between two batches of a write command, or between commands; with `b`, nothing is queued or loaded but what is
being transmitted. -/
structure Ready (b : Prop) (s : State) : Prop where
  fault : s.S.fault = none
  flags : Flags s
  regs : ModeRegs s
  tidy : b → Tidy s.S.mode s.P

/-- `t` has the control fields, the mode registers and what is queued, loaded and running as `s`. -/
structure SameControls (s t : State) : Prop where
  flags : t.flags = s.flags
  fault : t.S.fault = s.S.fault
  src : t.P.regs.src = s.P.regs.src
  fconf : t.P.regs.fconf = s.P.regs.fconf
  fifo : t.P.fifo = s.P.fifo
  loaded : t.P.dma.loaded = s.P.dma.loaded
  running : t.P.tx.running = s.P.tx.running

theorem SameControls.of_eq {s t : State} (hS : t.S = s.S) (hP : t.P = s.P) (hp : t.par = s.par) : SameControls s t := by
  constructor <;> simp only [State.flags, hS, hP, hp]

theorem mode_of_flags {s t : State} (e : t.flags = s.flags) : t.S.mode = s.S.mode := congrArg (·.2.2.2.2.1) e
theorem txn_of_flags {s t : State} (e : t.flags = s.flags) : t.S.txn = s.S.txn := congrArg (·.2.2.1) e
theorem life_of_flags {s t : State} (e : t.flags = s.flags) : t.S.life = s.S.life := congrArg (·.1) e

theorem SameControls.inMode {s t : State} (k : SameControls s t) (h : InMode s) : InMode t := by
  unfold InMode
  rw [k.src, k.fconf, mode_of_flags k.flags]
  exact h

theorem SameControls.modeRegs {s t : State} (k : SameControls s t) (h : ModeRegs s) : ModeRegs t :=
  fun hm => k.inMode (h (by rwa [mode_of_flags k.flags] at hm))

theorem SameControls.ready {b : Prop} {s t : State} (k : SameControls s t) (h : Ready b s) : Ready b t where
  fault := k.fault.trans h.fault
  flags := h.flags.congr k.flags
  regs := k.modeRegs h.regs
  tidy hb := by rw [mode_of_flags k.flags]; exact (h.tidy hb).of_eq k.running k.fifo k.loaded

/-- Where a command that was stopped left the state. -/
def Stopped (s : State) : Prop := ControlInv s ∧ ¬ s.live

theorem Flags.stopped {s : State} (h : Flags s) (c : FaultCode) : Stopped (s.takeFault c) :=
  ⟨h.control c, takeFault_not_live s c⟩

theorem Flags.held {s : State} (h : Flags s) (hr : ModeRegs s) (x : Hold) : Stopped (s.setHold x) :=
  ⟨control_iff.mpr ⟨h.congr rfl, fun _ => hr⟩, setHold_not_live s x⟩

theorem Ready_lasting {b : Prop} : Lasting (Ready b) Stopped where
  fault h := h.fault
  took ms h := ⟨h.fault, h.flags.congr rfl, h.regs, h.tidy⟩
  moved m h hf := ⟨hf, h.flags.congr (moved_flags _ m), ModeRegs_moved h.regs hf, fun hb => by
    rw [moved_S_of_fault hf]; exact Tidy_moved m (h.tidy hb) h.regs⟩
  raised c h := h.flags.stopped c

theorem Ready_held {b : Prop} (s : State) (x : Hold) (h : Ready b s) : Stopped (s.setHold x) := h.flags.held h.regs x

/-- The advance of the command pointer (R16). -/
theorem advance_controls (s : State) (n : Nat) : SameControls s (s.advance n) := by constructor <;> rfl

theorem Ready.control {b : Prop} {s : State} (h : Ready b s) : ControlInv s := control_iff.mpr ⟨h.flags, fun _ => h.regs⟩

/-! ## Where a write command stands -/

/-- Between two batches, in a transaction. -/
def Between (b : Prop) (s : State) : Prop := Ready b s ∧ s.S.txn = true

/-- In mode `m`, on the way to a start; with `b`, no load is held in a FIFO mode and nothing is queued in DMA mode. -/
structure Prepared (b : Prop) (m : Mode) (s : State) : Prop where
  fault : s.S.fault = none
  flags : Flags s
  txn : s.S.txn = true
  mode : s.S.mode = m
  regs : InMode s
  queued : b → m = .bulk16Dma → s.P.fifo = []
  loaded : b → m ≠ .bulk16Dma → s.P.dma.loaded = false

/-- The moves, a stop and every micro-operation that leaves the control fields alone keep `P`. -/
structure Steady (P : State → Prop) : Prop where
  lasting : Lasting P Stopped
  held : ∀ s x, P s → Stopped (s.setHold x)
  congr : ∀ {s t}, SameControls s t → P s → P t

theorem Between_steady {b : Prop} : Steady (Between b) where
  lasting := Ready_lasting.and (fun _ _ h => h) fun _ _ h hf => by rw [moved_S_of_fault hf]; exact h
  held s x h := Ready_held s x h.1
  congr k h := ⟨k.ready h.1, (txn_of_flags k.flags).trans h.2⟩

theorem Prepared_steady {b : Prop} {m : Mode} : Steady (Prepared b m) where
  lasting := {
    fault := fun h => h.fault
    took := fun ms h => ⟨h.fault, h.flags.congr rfl, h.txn, h.mode, h.regs, h.queued, h.loaded⟩
    moved := fun {s} m h hf => by
      have e := moved_S_of_fault hf
      refine ⟨hf, h.flags.congr (moved_flags _ m), by rw [e]; exact h.txn, by rw [e]; exact h.mode, InMode_moved h.regs hf,
        fun hb hm => ?_, fun hb hm => moved_not_loaded m (h.loaded hb hm)⟩
      exact List.suffix_nil.mp (h.queued hb hm ▸ (moved_beside s m).fifo)
    raised := fun c h => h.flags.stopped c }
  held s x h := h.flags.held (fun _ => h.regs) x
  congr k h := ⟨k.fault.trans h.fault, h.flags.congr k.flags, (txn_of_flags k.flags).trans h.txn,
    (mode_of_flags k.flags).trans h.mode, k.inMode h.regs, fun hb hm => k.fifo.trans (h.queued hb hm),
    fun hb hm => k.loaded.trans (h.loaded hb hm)⟩

/-- A micro-operation that leaves the control fields alone. -/
theorem Steady.micro {P : State → Prop} (hP : Steady P) {blocked : State → Option Hold} {op : State → Effect α}
    (same : ∀ s a t, op s = .done a t → SameControls s t) : Runs P (micro blocked op) (fun _ => P) Stopped :=
  hP.lasting.micro (fun s a t h _ o => hP.congr (same s a t o) h) fun s x h _ => hP.held s x h

theorem Steady.check {P : State → Prop} (hP : Steady P) (c : State → Bool) (f : FaultCode) :
    Runs P (check c f) (fun _ => P) Stopped :=
  Runs_check (fun _ h _ => h) fun _ h _ => hP.lasting.raised f h

/-! ## The micro-operations that leave the control fields alone -/

theorem emit_controls (s : State) (e : Event) : SameControls s (s.emit e) := .of_eq rfl rfl rfl

theorem Runs_keeps_waitIdle {P : State → Prop} (hP : Steady P) : Runs P waitIdle (fun _ => P) Stopped :=
  hP.micro fun s _ _ o => by cases o; exact emit_controls s _

theorem Runs_keeps_spin {P : State → Prop} (hP : Steady P) (blocked : State → Option Hold) (k : State → Nat) :
    Runs P (micro blocked (spinOp k)) (fun _ => P) Stopped :=
  hP.micro fun s _ _ o => by cases o; exact emit_controls s _

theorem Runs_keeps_radioPoll {P : State → Prop} (hP : Steady P) : Runs P radioPoll (fun _ => P) Stopped :=
  hP.micro fun s _ _ o => by cases o; exact emit_controls s _

theorem Runs_keeps_memRead {P : State → Prop} (hP : Steady P) (a : Nat) : Runs P (memRead a) (fun _ => P) Stopped :=
  hP.micro fun s _ _ o => by cases o; exact emit_controls s _

theorem Runs_keeps_pullWrite {P : State → Prop} (hP : Steady P) (p i j n : Nat) :
    Runs P (pullWrite p i j n) (fun _ => P) Stopped :=
  hP.micro fun s _ _ o => by cases o; constructor <;> rfl

theorem Runs_keeps_queryBusClock {P : State → Prop} (hP : Steady P) : Runs P queryBusClock (fun _ => P) Stopped :=
  hP.micro fun s _ _ o => by cases o; exact .of_eq (by simp) (by simp) (by simp)

theorem Runs_keeps_bufWrite {P : State → Prop} (hP : Steady P) (copy : Bool) (v : List Sample) :
    Runs P (bufWrite copy v) (fun _ => P) Stopped :=
  hP.micro fun s _ _ o => by obtain ⟨-, rfl⟩ := bufWriteOp_done o; cases copy <;> constructor <;> rfl

theorem Runs_keeps_descWrite {P : State → Prop} (hP : Steady P) (d : Descriptor) :
    Runs P (descWrite d) (fun _ => P) Stopped :=
  hP.micro fun s _ _ o => by obtain ⟨-, rfl⟩ := descWriteOp_done o; constructor <;> rfl

theorem Runs_keeps_regWrite {P : State → Prop} (hP : Steady P) {v : RegImage} (hs : v.reg ≠ .src) (hf : v.reg ≠ .fconf) :
    Runs P (regWrite v) (fun _ => P) Stopped :=
  hP.micro fun s _ _ o => by
    obtain ⟨-, rfl⟩ := regWriteOp_done o
    cases v <;> simp only [RegImage.reg, ne_eq, reduceCtorEq, not_true_eq_false, not_false_eq_true] at hs hf <;>
      constructor <;> rfl

theorem Runs_keeps_descRealloc {P : State → Prop} (hP : Steady P) (n : Nat) :
    Runs P (descRealloc n) (fun _ => P) Stopped := by
  refine Runs_bind (R := fun _ => P) (Runs_get_bind fun s _ => ?_) fun _ => hP.micro fun s _ _ o => by
    obtain ⟨-, a, -, rfl⟩ := descAllocOp_done o
    constructor <;> simp [State.flags]
  split
  · exact Runs_weaken (hP.micro fun s _ _ o => by obtain ⟨-, rfl⟩ := descFreeOp_done o; exact emit_controls s _)
      (fun _ h => h.1) (fun _ _ h => h) fun _ h => h
  · exact fun _ h => h.1

theorem Runs_keeps_ensureCapacity {P : State → Prop} (hP : Steady P) (n : Nat) :
    Runs P (ensureCapacity n) (fun _ => P) Stopped := by
  refine Runs_get_bind fun s _ => ?_
  split
  · exact fun _ h => h.1
  · exact Runs_weaken (Runs_keeps_descRealloc hP n) (fun _ h => h.1) (fun _ _ h => h) fun _ h => h

/-! ## The switch of the mode registers -/

/-- Nothing is transmitted, queued or loaded, if nothing is but in its own mode; the mode registers may hold anything. -/
structure Unset (b : Prop) (txn : Bool) (s : State) : Prop where
  fault : s.S.fault = none
  flags : Flags s
  life : s.S.life = .initialised
  txn : s.S.txn = txn
  still : b → s.P.fifo = [] ∧ s.P.dma.loaded = false

theorem Unset_lasting {b : Prop} {x : Bool} : Lasting (Unset b x) Stopped where
  fault h := h.fault
  took ms h := ⟨h.fault, h.flags.congr rfl, h.life, h.txn, h.still⟩
  moved {s} m h hf := by
    have e := moved_S_of_fault hf
    refine ⟨hf, h.flags.congr (moved_flags _ m), by rw [e]; exact h.life, by rw [e]; exact h.txn, fun hb => ⟨?_, ?_⟩⟩
    · exact List.suffix_nil.mp ((h.still hb).1 ▸ (moved_beside s m).fifo)
    · exact moved_not_loaded m (h.still hb).2
  raised c h := h.flags.stopped c

/-- The two register writes of a mode switch: `SRC`, then `FCONF` (R138, R139). -/
theorem Runs_modeSwitch {b : Prop} (x : Bool) (m : Mode) :
    Runs (fun s => Ready b s ∧ s.S.life = .initialised ∧ s.S.txn = x)
      (regWrite (.src m.width) >>= fun _ => regWrite (.fconf m.fconf))
      (fun _ s => Unset b x s ∧ s.P.regs.src = m.width ∧ s.P.regs.fconf = m.fconf) Stopped := by
  have hS : Lasting (fun s => Ready b s ∧ s.S.life = .initialised ∧ s.S.txn = x) Stopped :=
    Ready_lasting.and (fun _ _ h => h) fun _ _ h hf => by rw [moved_S_of_fault hf]; exact h
  have hU : Lasting (fun s => Unset b x s ∧ s.P.regs.src = m.width) Stopped :=
    Unset_lasting.and (fun _ _ h => h) fun s m' h _ => by rw [(moved_beside s m').regs]; exact h
  have idle : ∀ {s : State} {v : RegImage}, s.regHazard v = false → v.reg = .src ∨ v.reg = .fconf →
      s.P.tx.running = false := fun {s v} hz hv => by
    rcases hv with hv | hv <;> simpa [State.regHazard, hv] using hz
  refine Runs_bind (R := fun _ s => Unset b x s ∧ s.P.regs.src = m.width) ?_ fun _ => ?_
  · refine hS.atom fun s _ t ⟨hr, hl, ht⟩ o => ?_
    obtain ⟨hz, rfl⟩ := regWriteOp_done o
    exact ⟨⟨hr.fault, hr.flags.congr rfl, hl, ht, fun hb => (hr.tidy hb).idle (idle hz (.inl rfl))⟩, rfl⟩
  · refine hU.atom fun s _ t ⟨hu, hsrc⟩ o => ?_
    obtain ⟨-, rfl⟩ := regWriteOp_done o
    exact ⟨⟨hu.fault, hu.flags.congr rfl, hu.life, hu.txn, hu.still⟩, hsrc, rfl⟩

/-- `Flags` in a mode a transaction may have. -/
theorem Flags.setMode {s : State} (h : Flags s) (hl : s.S.life = .initialised) {m : Mode} (hm : m ≠ .none) :
    Flags (s.setMode m) :=
  ⟨h.txn_life, h.read_txn, fun _ => hm, fun _ => hl, h.cache_life, h.cache_image, h.gate_on, h.handles, h.allocated,
    fun hf => by simp at hf⟩

/-- `EnsureMode` (R138). -/
theorem Runs_keeps_ensureMode {b : Prop} {m : Mode} (hm : m ≠ .none) :
    Runs (Between b) (ensureMode m) (fun _ => Prepared b m) Stopped := by
  intro s ⟨hr, ht⟩
  have hl : s.S.life = .initialised := hr.flags.txn_life ht
  by_cases e : s.S.mode = m
  · rw [ensureMode_same e]
    refine ⟨hr.fault, hr.flags, ht, e, hr.regs (by rw [e]; exact hm), fun hb k => (hr.tidy hb).dma_fifo (e.trans k), fun hb k => ?_⟩
    simpa [e, k] using mt (hr.tidy hb).load_mode
  · have h := Runs_bind (Runs_modeSwitch (b := b) true m) fun _ => Runs_weaken (E := Stopped)
      (Runs_update (Q := fun _ => Prepared b m) fun t => t.setMode m) (fun t (k : _ ∧ _) => by
        obtain ⟨hu, hsrc, hfc⟩ := k
        exact ⟨hu.fault, hu.flags.setMode hu.life hm, hu.txn, rfl, ⟨hsrc, hfc⟩, fun hb _ => (hu.still hb).1,
          fun hb _ => (hu.still hb).2⟩) (fun _ _ k => k) fun _ k => k
    rw [ensureMode_switch e]
    rw [bind_assoc] at h
    exact h s ⟨hr, hl, ht⟩

/-! ## A batch -/

theorem Runs_keeps_fifoPush {b : Prop} {m : Mode} (hm : m ≠ .bulk16Dma) (w : Word) :
    Runs (Prepared b m) (fifoPush w) (fun _ => Prepared b m) Stopped :=
  Prepared_steady.lasting.atom fun s _ _ h o => by
    obtain ⟨-, rfl⟩ := fifoPushOp_done o
    exact ⟨h.fault, h.flags.congr rfl, h.txn, h.mode, h.regs, fun _ k => absurd k hm, h.loaded⟩

theorem Runs_keeps_outLinkStart {b : Prop} :
    Runs (Prepared b .bulk16Dma) outLinkStart (fun _ => Prepared b .bulk16Dma) Stopped :=
  Prepared_steady.lasting.atom fun s _ _ h o => by
    obtain ⟨-, -, rfl⟩ := outLinkStartOp_done o
    exact ⟨h.fault, h.flags.congr rfl, h.txn, h.mode, h.regs, h.queued, fun _ k => absurd rfl k⟩

/-- `TxStart` (R107): what was queued or loaded is being transmitted from now on. -/
theorem Runs_keeps_txStart {b : Prop} {m : Mode} : Runs (Prepared b m) txStart (fun _ => Between b) Stopped :=
  Prepared_steady.lasting.atom fun s _ _ h o => by
    obtain ⟨-, -, rfl⟩ := txStartOp_done o
    refine ⟨⟨h.fault, h.flags.congr rfl, fun _ => h.regs, fun hb => ⟨(nomatch ·), fun k => h.queued hb (h.mode.symm.trans k),
      fun k => ?_, fun _ => h.flags.txn_mode h.txn⟩⟩, h.txn⟩
    by_contra hm
    have := h.loaded hb fun e => hm (h.mode.trans e)
    rw [show s.P.dma.loaded = true from k] at this
    cases this

theorem Runs_keeps_scalarWrite {b : Prop} (t : Bool) (v : Word) (n : Nat) :
    Runs (Between b) (scalarWrite t v n) (fun _ => Between b) Stopped :=
  Runs_bind (Runs_keeps_waitIdle Between_steady) fun _ => Runs_bind (Runs_keeps_ensureMode (by decide)) fun _ =>
    Runs_bind (Runs_forEach fun w _ => Runs_keeps_fifoPush (by decide) w) fun _ => Runs_keeps_txStart

theorem Runs_keeps_repeatLoop {b : Prop} (unit : List Word) (full rounds rem len : Nat) :
    Runs (Between b) (repeatLoop unit full rounds rem len) (fun _ => Between b) Stopped := by
  induction rounds generalizing rem len with
  | zero => exact Runs_return ()
  | succ n ih =>
    refine Runs_bind (Runs_keeps_waitIdle Between_steady) fun _ => Runs_bind (Runs_keeps_ensureMode (m := .bulk16) (by decide))
      fun _ => Runs_bind (Runs_forEach fun w _ => Runs_keeps_fifoPush (by decide) w) fun _ =>
      Runs_bind Runs_keeps_txStart fun _ => ?_
    split
    · exact Runs_return ()
    · exact Runs_bind (Runs_keeps_spin Between_steady _ _) fun _ => ih _ _

/-! ## writeBytes and writePixels, over any way of reading the buffer's bytes -/

/-- Reading a byte of the buffer leaves the control fields alone. -/
def ReadsSteadily (rd : Nat → Act Byte) : Prop := ∀ {P : State → Prop}, Steady P → ∀ k, Runs P (rd k) (fun _ => P) Stopped

theorem readPixbuf_steady : ReadsSteadily readPixbuf := fun _ _ _ h => h

theorem memRead_steady (buffer : Nat) : ReadsSteadily fun k => memRead (buffer + k) :=
  fun hP k => Runs_keeps_memRead hP (buffer + k)

variable {rd : Nat → Act Byte}

theorem Runs_keeps_readMany (hr : ReadsSteadily rd) {P : State → Prop} (hP : Steady P) (n k : Nat) :
    Runs P (readMany rd n k) (fun _ => P) Stopped := by
  induction n generalizing k with
  | zero => exact Runs_return []
  | succ n ih => exact Runs_bind (hr hP k) fun x => Runs_bind (ih (k + 1)) fun xs => Runs_return (x :: xs)

theorem Runs_keeps_pushPairs (hr : ReadsSteadily rd) {b : Prop} (len k : Nat) :
    Runs (Prepared b .bulk16) (pushPairs rd len k) (fun _ => Prepared b .bulk16) Stopped := by
  induction len generalizing k with
  | zero => exact Runs_return ()
  | succ n ih =>
    exact Runs_bind (hr Prepared_steady _) fun _ => Runs_bind (hr Prepared_steady _) fun _ =>
      Runs_bind (Runs_keeps_fifoPush (by decide) _) fun _ => ih _

theorem Runs_keeps_dmaLoad (hr : ReadsSteadily rd) {b : Prop} (k n : Nat) :
    Runs (Between b) (dmaLoad rd k n) (fun _ => Between b) Stopped := by
  refine Runs_bind (Runs_keeps_readMany hr Between_steady n k) fun bs => Runs_get_bind fun s _ => ?_
  refine Runs_weaken (P := Between b) ?_ (fun _ h => h.1) (fun _ _ h => h) fun _ h => h
  refine Runs_bind (Runs_keeps_bufWrite Between_steady _ _) fun _ => Runs_bind (Runs_keeps_waitIdle Between_steady) fun _ =>
    Runs_bind (Runs_keeps_ensureMode (m := .bulk16Dma) (by decide)) fun _ =>
    Runs_bind (Runs_keeps_ensureCapacity Prepared_steady _) fun _ => Runs_bind (Runs_keeps_descWrite Prepared_steady _) fun _ =>
    Runs_bind Runs_keeps_outLinkStart fun _ => Runs_bind (Runs_keeps_spin Prepared_steady _ _) fun _ =>
    Runs_bind Runs_keeps_txStart fun _ => fun s h => ?_
  exact Between_steady.congr (t := s.setFlip (!s.S.flip)) (by constructor <;> rfl) h

theorem Runs_keeps_dmaPhase (hr : ReadsSteadily rd) {b : Prop} (rounds k rem load : Nat) :
    Runs (Between b) (dmaPhase rd rounds k rem load) (fun _ => Between b) Stopped := by
  induction rounds generalizing k rem load with
  | zero => exact Runs_return ()
  | succ n ih =>
    refine Runs_bind (Runs_keeps_dmaLoad hr k _) fun _ => ?_
    split
    · exact Runs_return ()
    · exact ih _ _ _

theorem Runs_keeps_dmaEntry {b : Prop} (useDma : Bool) (done : Nat) :
    Runs (Between b) (dmaEntry useDma done) (fun _ => Between b) Stopped := by
  refine Runs_get_bind fun s _ => Runs_weaken (P := Between b) ?_ (fun _ h => h.1) (fun _ _ h => h) fun _ h => h
  split
  · exact Runs_bind (Runs_keeps_radioPoll Between_steady) fun on => Runs_return (!on)
  · exact Runs_return false

theorem Runs_keeps_fifoPhase (hr : ReadsSteadily rd) {b : Prop} (useDma : Bool) (rounds k pairs done len : Nat) :
    Runs (Between b) (fifoPhase rd useDma rounds k pairs done len) (fun _ => Between b) Stopped := by
  induction rounds generalizing k pairs done len with
  | zero => exact Runs_return ()
  | succ n ih =>
    refine Runs_bind (Runs_keeps_waitIdle Between_steady) fun _ => Runs_bind (Runs_keeps_ensureMode (by decide)) fun _ =>
      Runs_bind (Runs_keeps_pushPairs hr len k) fun _ => Runs_bind Runs_keeps_txStart fun _ => ?_
    split
    · exact Runs_return ()
    · refine Runs_bind (Runs_keeps_dmaEntry useDma _) fun go => ?_
      split
      · exact Runs_keeps_dmaPhase hr _ _ _ _
      · exact Runs_bind (Runs_keeps_spin Between_steady _ _) fun _ => ih _ _ _ _

theorem Runs_keeps_bytesBody (hr : ReadsSteadily rd) {b : Prop} (length : Nat) (useDma : Bool) :
    Runs (Between b) (bytesBody rd length useDma) (fun _ => Between b) Stopped := by
  have hp : ∀ k pairs, Runs (Between b) (pairsBody rd k pairs useDma) (fun _ => Between b) Stopped := fun k pairs => by
    unfold pairsBody
    split
    · exact Runs_return ()
    · exact Runs_keeps_fifoPhase hr _ _ _ _ _ _
  unfold bytesBody
  split
  · exact Runs_bind (hr Between_steady 0) fun _ => Runs_bind (Runs_keeps_scalarWrite _ _ _) fun _ => hp _ _
  · exact hp _ _

theorem Runs_keeps_pixelLoop {b : Prop} (p bpp limit length rounds start chunk : Nat) :
    Runs (Between b) (pixelLoop p bpp limit length rounds start chunk) (fun _ => Between b) Stopped := by
  induction rounds generalizing start chunk with
  | zero => exact Runs_return ()
  | succ n ih =>
    unfold pixelLoop
    split
    · exact Runs_bind (Runs_keeps_pullWrite Between_steady _ _ _ _) fun _ => Runs_bind (Between_steady.check _ _) fun _ =>
        Runs_bind (Runs_keeps_bytesBody readPixbuf_steady _ _) fun _ => ih _ _
    · exact Runs_return ()

end Sys2Proof.Machine
end

section
/-!
PROOFS. Where `InitPins` (R131) and the pins of read mode (R170) leave the pads.
`Pinned X`: no fault is taken and the pads have `X`; the rules for the pad operations say what they do to the pads alone.
-/

namespace Sys2Proof.Machine

variable {α : Type}

/-! ## Pads read after a write -/

theorem get_put (g : Pads) (r r' : Role) (p : Pad) : (g.put r p).get r' = if r' = r then p else g.get r' := by
  by_cases h : r' = r
  · subst h; simp
  · rw [get_put_other g p h, if_neg h]

theorem writeRouting_iff {g : Pads} : g.writeRouting = true ↔
    (∀ i : Fin 8, (g.get (.d i)).route = .parOut i.val) ∧ (g.get .rs).route = .parOut 8 ∧
      (g.get .wr).route = .wordClkInv := by
  simp [Pads.writeRouting, Pads.get, and_assoc]

theorem readRouting_iff {g : Pads} : g.readRouting ↔ g.rdOutput ∧
    (∀ r ∈ [Role.wr, .rs], (g.get r).route = .gpio ∧ (g.get r).dir = .output ∧ (g.get r).level = true) ∧
    ∀ r ∈ dataRoles, (g.get r).route = .null ∧ (g.get r).dir = .input := by
  simp [Pads.readRouting, dataRoles, Pads.get, and_assoc]

/-- The two routings exclude each other. -/
theorem not_writeRouting_of_readRouting {g : Pads} (h : g.readRouting) : g.writeRouting = false := by
  obtain ⟨-, hwr, -⟩ := h
  simp [Pads.writeRouting, hwr]

/-- The pins outside read mode (R131). -/
def Pads.writePins (g : Pads) : Prop := g.writeRouting = true ∧ g.rdOutput

/-! ## Pad operations -/

/-- A fault is set. -/
def Faulted (s : State) : Prop := s.S.fault ≠ none

/-- No fault is set, and the pads have `X`. -/
def Pinned (X : Pads → Prop) (s : State) : Prop := s.S.fault = none ∧ X s.G

theorem Pinned_lasting {X : Pads → Prop} : Lasting (Pinned X) Faulted where
  fault h := h.1
  took _ h := h
  moved {s} m h hf := ⟨hf, by rw [(moved_beside s m).G]; exact h.2⟩
  raised c _ := by simp [Faulted]

variable {X Y : Pads → Prop}

theorem Runs_pins_gpioClaim {r : Role} (h : ∀ g, X g → Y (g.put r { g.get r with claimed := true, route := .gpio })) :
    Runs (Pinned X) (gpioClaim r) (fun _ => Pinned Y) Faulted :=
  Pinned_lasting.atom fun s _ _ k o => by obtain ⟨-, rfl⟩ := gpioClaimOp_done o; exact ⟨k.1, h _ k.2⟩

theorem Runs_pins_gpioLevel {r : Role} {l : Bool} (h : ∀ g, X g → Y (g.put r { g.get r with level := l })) :
    Runs (Pinned X) (gpioLevel r l) (fun _ => Pinned Y) Faulted :=
  Pinned_lasting.atom fun s _ _ k o => by
    obtain ⟨-, rfl⟩ := gpioLevelOp_done o
    exact ⟨by simpa using k.1, by simpa using h _ k.2⟩

theorem Runs_pins_gpioDir {r : Role} {d : Dir} (h : ∀ g, X g → Y (g.put r { g.get r with dir := d })) :
    Runs (Pinned X) (gpioDir r d) (fun _ => Pinned Y) Faulted :=
  Pinned_lasting.atom fun s _ _ k o => by obtain ⟨-, rfl⟩ := gpioDirOp_done o; exact ⟨k.1, h _ k.2⟩

theorem Runs_pins_route {r : Role} {x : Route} (h : ∀ g, X g → Y (g.put r ((g.get r).routed x))) :
    Runs (Pinned X) (route r x) (fun _ => Pinned Y) Faulted :=
  Pinned_lasting.atom fun s _ _ k o => by obtain ⟨-, rfl⟩ := routeOp_done o; exact ⟨k.1, h _ k.2⟩

/-- An action for each element of a list, each of which gives its element `q` and takes it from no other. -/
theorem Runs_pins_forEach {q : α → Pads → Prop} {f : α → Act Unit} {as : List α} (h : ∀ a ∈ as, ∀ D : α → Prop,
    Runs (Pinned fun g => X g ∧ ∀ b, D b → q b g) (f a) (fun _ => Pinned fun g => X g ∧ ∀ b, D b ∨ b = a → q b g) Faulted) :
    Runs (Pinned X) (forEach f as) (fun _ => Pinned fun g => X g ∧ ∀ a ∈ as, q a g) Faulted := by
  have key : ∀ D : α → Prop, Runs (Pinned fun g => X g ∧ ∀ b, D b → q b g) (forEach f as)
      (fun _ => Pinned fun g => X g ∧ ∀ b, D b ∨ b ∈ as → q b g) Faulted := by
    induction as with
    | nil => exact fun D s k => ⟨k.1, k.2.1, fun b hb => k.2.2 b (by simpa using hb)⟩
    | cons a as ih =>
      intro D
      refine Runs_bind (h a (by simp) D) fun _ => Runs_weaken (ih (fun b hb => h b (by simp [hb])) fun b => D b ∨ b = a)
        (fun _ k => k) (fun _ s k => ⟨k.1, k.2.1, fun b hb => k.2.2 b ?_⟩) fun _ k => k
      simpa [or_assoc] using hb
  exact Runs_weaken (key fun _ => False) (fun s k => ⟨k.1, k.2, fun _ hb => hb.elim⟩)
    (fun _ s k => ⟨k.1, k.2.1, fun b hb => k.2.2 b (.inr hb)⟩) fun _ k => k

@[simp] theorem routed_route (p : Pad) (x : Route) : (p.routed x).route = x := by cases x <;> rfl

theorem rdOutput_get {g : Pads} : g.rdOutput ↔ (g.get .rd).route = .gpio ∧ (g.get .rd).dir = .output := Iff.rfl

/-- A property of each pad by itself, given to pad `r` by a write and kept by the other pads. -/
theorem forall_get_put {q : Role → Pad → Prop} {D : Role → Prop} {g : Pads} {r : Role} {p : Pad} (hp : q r p)
    (h : ∀ b, D b → q b (g.get b)) : ∀ b, D b ∨ b = r → q b ((g.put r p).get b) := by
  intro b hb
  rw [get_put]
  split
  · next e => rw [e]; exact hp
  · next hne => exact h b (hb.resolve_right hne)

/-- A property of each pad by itself, kept by a write that keeps it of its own pad. -/
theorem forall_get_put_keep {q : Role → Pad → Prop} {D : Role → Prop} {g : Pads} {r : Role} {p : Pad}
    (hp : q r (g.get r) → q r p) (h : ∀ b, D b → q b (g.get b)) : ∀ b, D b → q b ((g.put r p).get b) := by
  intro b hb
  rw [get_put]
  split
  · next e => subst e; exact hp (h b hb)
  · exact h b hb

theorem rdOutput_put {g : Pads} {r : Role} (h : r ≠ .rd) (p : Pad) : (g.put r p).rdOutput ↔ g.rdOutput := by
  rw [rdOutput_get, rdOutput_get, get_put_other g p h.symm]

/-- The claims of `InitPins` give every pad its GPIO level. -/
theorem Runs_pins_claims : Runs (Pinned fun _ => True) (forEach gpioClaim (dataRoles ++ [.rd, .wr, .rs]))
    (fun _ => Pinned fun g => (g.get .rd).route = .gpio) Faulted :=
  Runs_weaken (Runs_pins_forEach (X := fun _ => True) (q := fun r g => (g.get r).route = .gpio) fun r _ D =>
      Runs_pins_gpioClaim fun g hg => ⟨trivial, forall_get_put (q := fun _ p => p.route = .gpio) rfl hg.2⟩)
    (fun _ h => h) (fun _ s h => ⟨h.1, h.2.2 .rd (by simp)⟩) fun _ h => h

/-- The strobes of `InitPins` become outputs. -/
theorem Runs_pins_strobes : Runs (Pinned fun g => (g.get .rd).route = .gpio)
    (forEach (fun r => do
      gpioLevel r true
      gpioDir r .output) [.rd, .wr, .rs])
    (fun _ => Pinned fun g => g.rdOutput) Faulted := by
  have hrd : ∀ {g : Pads} {r : Role} {p : Pad}, p.route = (g.get r).route → (g.get .rd).route = .gpio →
      ((g.put r p).get .rd).route = .gpio := fun {g r p} hp h => by
    rw [get_put]
    split
    · next e => rw [hp, ← e]; exact h
    · exact h
  exact Runs_weaken (Runs_pins_forEach (X := fun g => (g.get .rd).route = .gpio) (q := fun r g => (g.get r).dir = .output)
      fun r _ D => Runs_bind
        (Runs_pins_gpioLevel (Y := fun g => (g.get .rd).route = .gpio ∧ ∀ b, D b → (g.get b).dir = .output)
          fun g hg => ⟨hrd rfl hg.1, forall_get_put_keep (q := fun _ p => p.dir = .output) id hg.2⟩) fun _ =>
        Runs_pins_gpioDir fun g hg => ⟨hrd rfl hg.1, forall_get_put (q := fun _ p => p.dir = .output) rfl hg.2⟩)
    (fun _ h => h) (fun _ s h => ⟨h.1, h.2.1, h.2.2 .rd (by simp)⟩) fun _ h => h

/-- `InitPins` routes the data lines to their slots. -/
theorem Runs_pins_dataRoutes : Runs (Pinned fun g => g.rdOutput)
    (forEach (fun i : Fin 8 => route (.d i) (.parOut i.val)) (List.finRange 8))
    (fun _ => Pinned fun g => g.rdOutput ∧ ∀ i : Fin 8, (g.get (.d i)).route = .parOut i.val) Faulted := by
  refine Runs_weaken (Runs_pins_forEach (X := fun g => g.rdOutput) (q := fun i g => (g.get (.d i)).route = .parOut i.val)
      fun i _ D => Runs_pins_route fun g hg => ⟨hg.1, fun b hb => ?_⟩)
    (fun _ h => h) (fun _ s h => ⟨h.1, h.2.1, fun i => h.2.2 i (List.mem_finRange i)⟩) fun _ h => h
  rw [get_put]; split
  · next e => cases e; rfl
  · next hne => exact hg.2 b (hb.resolve_right fun e => hne (by rw [e]))

/-- `InitPins` (R131): write routing, `RD` a GPIO output, the clock gate on. -/
theorem Runs_pins_initPins : Runs (Pinned fun _ => True) initPins
    (fun _ s => Pinned (·.writePins) s ∧ s.P.gate = ⟨true, true⟩) Faulted := by
  refine Runs_bind Runs_pins_claims fun _ => Runs_bind Runs_pins_strobes fun _ => Runs_bind Runs_pins_dataRoutes fun _ => ?_
  refine Runs_bind (Runs_pins_route (Y := fun g => (g.rdOutput ∧ ∀ i : Fin 8, (g.get (.d i)).route = .parOut i.val) ∧
    (g.get .rs).route = .parOut 8) fun g hg => ⟨hg, rfl⟩) fun _ => ?_
  refine Runs_bind (Runs_pins_route (Y := (·.writePins)) fun g hg =>
    ⟨writeRouting_iff.mpr ⟨hg.1.2, hg.2, rfl⟩, hg.1.1⟩) fun _ => ?_
  exact Pinned_lasting.atom fun s _ _ k o => by
    cases o
    split <;> exact ⟨k, rfl⟩

/-- A GPIO output at level 1. -/
def Pad.strobe (p : Pad) : Prop := p.route = .gpio ∧ p.dir = .output ∧ p.level = true

/-- An input driven by nothing. -/
def Pad.floating (p : Pad) : Prop := p.route = .null ∧ p.dir = .input

/-- The write strobes of read mode. -/
theorem Runs_pins_readStrobes : Runs (Pinned fun g => g.rdOutput)
    (forEach (fun r => do
      route r .gpio
      gpioDir r .output
      gpioLevel r true) [.wr, .rs])
    (fun _ => Pinned fun g => g.rdOutput ∧ ∀ r ∈ [Role.wr, .rs], (g.get r).strobe) Faulted := by
  refine Runs_pins_forEach (X := fun g => g.rdOutput) (q := fun r g => (g.get r).strobe) fun r hr D => ?_
  have hne : r ≠ .rd := by rintro rfl; simp at hr
  refine Runs_bind (Runs_pins_route (Y := fun g => (g.rdOutput ∧ ∀ b, D b → (g.get b).strobe) ∧ (g.get r).route = .gpio)
    fun g hg => ⟨⟨(rdOutput_put hne _).mpr hg.1, ?_⟩, by simp⟩) fun _ => ?_
  · exact forall_get_put_keep (q := fun _ p => p.strobe) (fun k => ⟨rfl, k.2⟩) hg.2
  refine Runs_bind (Runs_pins_gpioDir (Y := fun g => (g.rdOutput ∧ ∀ b, D b → (g.get b).strobe) ∧
    (g.get r).route = .gpio ∧ (g.get r).dir = .output) fun g hg => ⟨⟨(rdOutput_put hne _).mpr hg.1.1, ?_⟩, ?_⟩) fun _ => ?_
  · exact forall_get_put_keep (q := fun _ p => p.strobe) (fun k => ⟨k.1, rfl, k.2.2⟩) hg.1.2
  · simpa using hg.2
  refine Runs_pins_gpioLevel fun g hg => ⟨(rdOutput_put hne _).mpr hg.1.1, ?_⟩
  exact forall_get_put (q := fun _ p => p.strobe) ⟨hg.2.1, hg.2.2, rfl⟩ hg.1.2

/-- The data pads of read mode. -/
theorem Runs_pins_openData {X : Pads → Prop} (hX : ∀ g r p, r ∈ dataRoles → X g → X (g.put r p)) :
    Runs (Pinned X) (forEach (fun r => do
      route r .null
      gpioDir r .input) dataRoles) (fun _ => Pinned fun g => X g ∧ ∀ r ∈ dataRoles, (g.get r).floating) Faulted := by
  refine Runs_pins_forEach (q := fun r g => (g.get r).floating) fun r hr D => ?_
  refine Runs_bind (Runs_pins_route (Y := fun g => (X g ∧ ∀ b, D b → (g.get b).floating) ∧ (g.get r).route = .null)
    fun g hg => ⟨⟨hX g r _ hr hg.1, ?_⟩, by simp⟩) fun _ => ?_
  · exact forall_get_put_keep (q := fun _ p => p.floating) (fun k => ⟨rfl, k.2⟩) hg.2
  · exact Runs_pins_gpioDir fun g hg => ⟨hX g r _ hr hg.1.1, forall_get_put (q := fun _ p => p.floating) ⟨hg.2, rfl⟩ hg.1.2⟩

/-- The pins of read mode (R170), from `RD` a GPIO output. -/
theorem Runs_pins_readPins : Runs (Pinned fun g => g.rdOutput) readPins (fun _ => Pinned fun g => g.readRouting) Faulted := by
  refine Runs_bind (Runs_pins_gpioLevel (Y := fun g => g.rdOutput) fun _ h => h) fun _ =>
    Runs_bind (Runs_pins_gpioDir (Y := fun g => g.rdOutput) fun _ h => ⟨h.1, rfl⟩) fun _ =>
    Runs_bind Runs_pins_readStrobes fun _ => ?_
  refine Runs_weaken (Runs_pins_openData (X := fun g => g.rdOutput ∧ ∀ r ∈ [Role.wr, .rs], (g.get r).strobe) ?_)
    (fun _ h => h) (fun _ s h => ⟨h.1, readRouting_iff.mpr ⟨h.2.1.1, h.2.1.2, h.2.2⟩⟩) fun _ h => h
  intro g r p hr hg
  obtain ⟨i, -, rfl⟩ := List.mem_map.mp hr
  refine ⟨(rdOutput_put (by simp) p).mpr hg.1, fun b hb => ?_⟩
  have hne : b ≠ .d i := by rintro rfl; simp at hb
  rw [get_put_other g p hne]
  exact hg.2 b hb

end Sys2Proof.Machine
end

section
/-!
PROOFS. Every command from a `Ready` state ends in one, or stops with the control invariant; so every step keeps the control
invariant.
-/

namespace Sys2Proof.Machine

/-- Where a command leaves the state, stopped or not. -/
structure After (b : Prop) (t : State) : Prop where
  control : ControlInv t
  tidy : b → t.live → Tidy t.S.mode t.P

theorem Ready.after {b : Prop} {s : State} (h : Ready b s) : After b s := ⟨h.control, fun hb _ => h.tidy hb⟩

theorem Stopped.after {b : Prop} {s : State} (h : Stopped s) : After b s := ⟨h.1, fun _ k => absurd k h.2⟩

theorem Ready.advance {b : Prop} {s : State} (h : Ready b s) (n : Nat) : Ready b (s.advance n) := (advance_controls s n).ready h

/-- A command ends where its sequence does, the command pointer advanced or not. -/
theorem command_leaves {P Q E R : State → Prop} {c : Act Unit} (h : Runs P c (fun _ => Q) E)
    (hQ : ∀ u n, Q u → R (u.advance n)) (hE : ∀ u, E u → R u) {o : Opcode} {s t : State} (hs : P s)
    (he : command o c s = .next t) : R t := by
  rcases command_runs h o hs with ⟨u, e, k⟩ | ⟨u, e, k⟩ <;> rw [he, Host.Outcome.next.injEq] at e <;> subst e
  · exact hQ u _ k
  · exact hE _ k

/-- A command whose sequence keeps the state ready. -/
theorem command_after {b : Prop} {P : State → Prop} {c : Act Unit} (h : Runs P c (fun _ => Ready b) Stopped) {o : Opcode}
    {s t : State} (hs : P s) (he : command o c s = .next t) : After b t :=
  command_leaves h (fun _ n k => (k.advance n).after) (fun _ k => k.after) hs he

theorem command_after_between {b : Prop} {c : Act Unit} (h : Runs (Between b) c (fun _ => Between b) Stopped) {o : Opcode}
    {s t : State} (hs : Between b s) (he : command o c s = .next t) : After b t :=
  command_after (Runs_weaken h (fun _ k => k) (fun _ _ k => k.1) fun _ k => k) hs he

/-! ## The commands that leave the mode registers and the FIFO alone -/

/-- The commands that change none of the control flags but read mode. -/
def observers : List Opcode := [.release, .wait, .busy, .beginRead, .endRead, .readData, .readBytes, .readPixels]

theorem not_observer_of_writer {o : Opcode} (h : o ∈ .beginTransaction :: writers) : o ∉ observers := by
  revert h; cases o <;> decide

theorem Flags.setRead {s : State} (h : Flags s) (v : Bool) (ht : s.S.txn = true) : Flags (s.setRead v) :=
  ⟨h.txn_life, fun _ => ht, h.txn_mode, h.mode_life, h.cache_life, h.cache_image, h.gate_on, h.handles, h.allocated,
    fun hf => by simp at hf⟩

/-- The gate's effect (R114), as `InitPins` has it. -/
def State.gated (s : State) : State :=
  ((if s.P.gate = ⟨false, false⟩ then s.released else s).setGate ⟨true, true⟩).emit .gate

theorem gated_controls {s : State} (h : s.P.gate = ⟨true, true⟩) : SameControls s s.gated := by
  unfold State.gated
  rw [if_neg (by simp [h])]
  constructor <;> simp [State.flags, h]

/-- What one of these commands does leaves the control fields alone, or sets `S.read`, or opens the gate. -/
theorem Performs_observer {i : Instr} {s t : State} (p : Performs i s t) (ho : i.opcode ∈ observers) :
    SameControls s t ∨
      (i.opcode ∈ [.beginRead, .endRead] ∧ ∃ v, t = s.setRead v ∧ (i.opcode = .endRead → v = false)) ∨
      i.opcode = .endRead ∧ t = s.gated := by
  cases p with
  | setRead v hv =>
    refine .inr (.inl ⟨?_, v, rfl, ?_⟩) <;> rcases hv with ⟨hi, hv⟩ | ⟨hi, hv⟩ <;> simp [hi, hv]
  | gate hi =>
    simp only [List.mem_cons, List.not_mem_nil, or_false] at hi
    rcases hi with hi | hi
    · exact absurd ho (by rw [hi]; decide)
    · exact .inr (.inr ⟨hi, rfl⟩)
  | modeReg h => exact absurd ho (not_observer_of_writer h)
  | push h => exact absurd ho (not_observer_of_writer (.tail _ h))
  | start h => exact absurd ho (not_observer_of_writer (.tail _ h))
  | setMode h => exact absurd ho (not_observer_of_writer (.tail _ h))
  | link h => exact absurd ho (by rw [h]; decide)
  | beginTxn h => exact absurd ho (by rw [h]; decide)
  | endTxn h => exact absurd ho (by rw [h]; decide)
  | setCache h => exact absurd ho (by rw [h]; decide)
  | setCfg h => exact absurd ho (by rw [h]; decide)
  | setHandles h => exact absurd ho (by rw [h]; decide)
  | initialised h => exact absurd ho (by rw [h]; decide)
  | _ => left; constructor <;> simp [State.flags]

/-- These commands end ready, from a state that is, in a transaction if they set `S.read`. -/
theorem exec_observer_after {b : Prop} {i : Instr} {s t : State} (ho : i.opcode ∈ observers)
    (ht : i.opcode ∈ [.beginRead, .endRead] → s.S.txn = true) (h : Ready b s) (he : exec i s = .next t) : After b t := by
  have hL : Lasting (fun s => Ready b s ∧ (i.opcode ∈ [.beginRead, .endRead] → s.S.txn = true)) Stopped :=
    Ready_lasting.and (fun _ _ k => k) fun _ _ k hf => by rw [moved_S_of_fault hf]; exact k
  have hp : ∀ u v, Ready b u ∧ (i.opcode ∈ [.beginRead, .endRead] → u.S.txn = true) → Performs i u v →
      Ready b v ∧ (i.opcode ∈ [.beginRead, .endRead] → v.S.txn = true) := by
    intro u v ⟨hr, hx⟩ p
    have same : SameControls u v → Ready b v ∧ (i.opcode ∈ [.beginRead, .endRead] → v.S.txn = true) := fun k =>
      ⟨k.ready hr, fun hi => (txn_of_flags k.flags).trans (hx hi)⟩
    rcases Performs_observer p ho with k | ⟨hi, v', rfl, -⟩ | ⟨hi, rfl⟩
    · exact same k
    · exact ⟨⟨hr.fault, hr.flags.setRead v' (hx hi), hr.regs, hr.tidy⟩, hx⟩
    · exact same (gated_controls (hr.flags.gate_on (hr.flags.txn_life (hx (by simp [hi])))))
  rcases exec_did he with ⟨u, d, rfl⟩ | k
  · exact ((hL.did hp d ⟨h, ht⟩).1.advance _).after
  · exact (hL.halted hp (fun u x k => Ready_held u x k.1) k ⟨h, ht⟩).after

/-! ## Checks and the commands without micro-operations -/

/-- The first three checks of a read command (R185). -/
theorem command_readChecks_cases {o : Opcode} {m : Unit → Act Unit} {s t : State}
    (h : command o (readChecks >>= m) s = .next t) : (∃ c, t = s.takeFault c) ∨
      (s.S.life = .initialised ∧ s.S.txn = true ∧ s.S.read = true) ∧ command o (m ()) s = .next t := by
  rw [readChecks_bind] at h
  rcases command_check_cases h with e | ⟨hl, h⟩
  · exact .inl ⟨_, e⟩
  rcases command_check_cases h with e | ⟨ht, h⟩
  · exact .inl ⟨_, e⟩
  rcases command_check_cases h with e | ⟨hr, h⟩
  · exact .inl ⟨_, e⟩
  exact .inr ⟨⟨by simpa using hl, ht, hr⟩, h⟩

/-- `config` faults in its checks, or sets the configuration before `init` and does nothing else (R126). -/
theorem exec_config_cases {inst : Nat} {d : Vector Nat 8} {rd wr rs freq : Nat} {s t : State}
    (h : exec (.config inst d rd wr rs freq) s = .next t) : (∃ c, t = s.takeFault c) ∨
      s.S.life ≠ .initialised ∧ t = ((s.setCfg ⟨inst, d, rd, wr, rs, freq⟩).setLife .configured).advance 6 := by
  rcases command_check_cases h with e | ⟨hl, h⟩
  · exact .inl ⟨_, e⟩
  rcases command_check_cases h with e | ⟨-, h⟩
  · exact .inl ⟨_, e⟩
  · rw [command_update, Host.Outcome.next.injEq] at h
    exact .inr ⟨fun e => by simp [e] at hl, h.symm⟩

theorem takeFault_after {b : Prop} {s : State} (h : Ready b s) (c : FaultCode) : After b (s.takeFault c) :=
  (h.flags.stopped c).after

/-- Before `init` no flag is set. -/
theorem Flags.unset {s : State} (h : Flags s) (hl : s.S.life ≠ .initialised) :
    s.S.txn = false ∧ s.S.read = false ∧ s.S.mode = .none ∧ s.S.cache.valid = false := by
  have ht : s.S.txn = false := by simpa using mt h.txn_life hl
  refine ⟨ht, ?_, ?_, ?_⟩
  · simpa [ht] using mt h.read_txn
  · by_contra hm; exact hl (h.mode_life hm)
  · simpa using mt h.cache_life hl

theorem exec_config_after {b : Prop} {inst : Nat} {d : Vector Nat 8} {rd wr rs freq : Nat} {s t : State} (h : Ready b s)
    (he : exec (.config inst d rd wr rs freq) s = .next t) : After b t := by
  rcases exec_config_cases he with ⟨c, rfl⟩ | ⟨hl, rfl⟩
  · exact takeFault_after h c
  · obtain ⟨ht, hr, hm, hc⟩ := h.flags.unset hl
    suffices k : Ready b ((s.setCfg ⟨inst, d, rd, wr, rs, freq⟩).setLife .configured) from (k.advance _).after
    refine ⟨h.fault, ?_, h.regs, h.tidy⟩
    constructor <;> simp [ht, hr, hm, hc]

theorem exec_endTransaction_after {b : Prop} {s t : State} (h : Ready b s) (he : exec .endTransaction s = .next t) :
    After b t := by
  rcases exec_endTransaction_cases he with ⟨c, rfl⟩ | ⟨hr, rfl⟩
  · exact takeFault_after h c
  · suffices k : Ready b (s.setTxn false) from (k.advance _).after
    refine ⟨h.fault, ?_, h.regs, h.tidy⟩
    obtain ⟨h1, h2, h3, h4, h5, h6, h7, h8, h9, -⟩ := h.flags
    constructor <;> simp_all

/-! ## beginTransaction (R139) -/

theorem Flags.setCache {s : State} (h : Flags s) (hl : s.S.life = .initialised) (f : Word) :
    Flags (s.setCache (s.cacheFor f)) := by
  refine ⟨h.txn_life, h.read_txn, h.txn_mode, h.mode_life, fun _ => hl, fun hv => ?_, h.gate_on, h.handles, h.allocated,
    fun hf => by simp at hf⟩
  simp only [takeFault_S_cache, setCache_S_cache, State.cacheFor] at hv ⊢
  split
  · rfl
  · next hc => rw [if_neg hc] at hv; exact h.cache_image hv

theorem Flags.begin {s : State} (h : Flags s) (hl : s.S.life = .initialised) : Flags ((s.setMode .scalar32).setTxn true) :=
  ⟨fun _ => hl, fun _ => rfl, fun _ => by simp, fun _ => hl, h.cache_life, h.cache_image, h.gate_on, h.handles, h.allocated,
    fun hf => by simp at hf⟩

/-- Outside a transaction, after `init`. -/
def Outside (b : Prop) (s : State) : Prop := Ready b s ∧ s.S.life = .initialised ∧ s.S.txn = false

theorem Outside_steady {b : Prop} : Steady (Outside b) where
  lasting := Ready_lasting.and (fun _ _ h => h) fun _ _ h hf => by rw [moved_S_of_fault hf]; exact h
  held s x h := Ready_held s x h.1
  congr k h := ⟨k.ready h.1, (life_of_flags k.flags).trans h.2.1, (txn_of_flags k.flags).trans h.2.2⟩

theorem exec_beginTransaction_after {b : Prop} {s t : State} (h : Ready b s) (he : exec .beginTransaction s = .next t) :
    After b t := by
  rcases command_check_cases he with rfl | ⟨hl, he⟩
  · exact takeFault_after h _
  rcases command_check_cases he with rfl | ⟨ht, he⟩
  · exact takeFault_after h _
  refine command_after (P := Outside b) (Runs_bind (Runs_keeps_waitIdle Outside_steady) fun _ =>
    Runs_bind (Runs_keeps_queryBusClock Outside_steady) fun f => Runs_bind (R := fun _ => Outside b) ?_ fun _ =>
    Runs_get_bind fun u _ => ?_) ⟨h, by simpa using hl, by simpa using ht⟩ he
  · exact fun u k => ⟨⟨k.1.fault, k.1.flags.setCache k.2.1 f, k.1.regs, k.1.tidy⟩, k.2⟩
  refine Runs_weaken (P := Outside b) (Runs_bind (Runs_keeps_regWrite Outside_steady (by simp [RegImage.reg])
    (by simp [RegImage.reg])) fun _ => ?_) (fun _ k => k.1) (fun _ _ k => k) fun _ k => k
  rw [← bind_assoc]
  refine Runs_bind (Runs_modeSwitch false .scalar32) fun _ v ⟨hu, hsrc, hfc⟩ => ?_
  exact ⟨hu.fault, hu.flags.begin hu.life, fun _ => ⟨hsrc, hfc⟩, fun hb => ⟨fun _ => hu.still hb, (nomatch ·),
    fun k => by simp [(hu.still hb).2] at k, fun _ => by simp⟩⟩

/-! ## init (R128) -/

/-- During `init`: the handles are bound, no flag is set and nothing is transmitted, queued or loaded. -/
structure Initialising (b : Prop) (s : State) : Prop where
  fault : s.S.fault = none
  life : s.S.life = .configured
  handles : s.S.handles = some s.S.cfg.inst
  txn : s.S.txn = false
  read : s.S.read = false
  mode : s.S.mode = .none
  cache : s.S.cache.valid = false
  still : b → s.P.tx.running = false ∧ s.P.fifo = [] ∧ s.P.dma.loaded = false

theorem Initialising.flags {b : Prop} {s : State} (h : Initialising b s) : Flags s := by
  obtain ⟨-, hl, hh, ht, hr, hm, hc, -⟩ := h
  constructor <;> simp [hl, hh, ht, hr, hm, hc]

theorem Initialising.modeRegs {b : Prop} {s : State} (h : Initialising b s) : ModeRegs s := fun k => absurd h.mode k

/-- The sequencer's registers are the same, and the peripheral is as still. -/
theorem Initialising.of_S {b : Prop} {s t : State} (h : Initialising b s) (hS : t.S = s.S)
    (hP : b → t.P.tx.running = false ∧ t.P.fifo = [] ∧ t.P.dma.loaded = false) : Initialising b t := by
  obtain ⟨hf, hl, hh, ht, hr, hm, hc, -⟩ := h
  constructor <;> simpa only [hS]

theorem Initialising_lasting {b : Prop} : Lasting (Initialising b) Stopped where
  fault h := h.fault
  took _ h := h.of_S rfl h.still
  moved {s} m h hf := by
    refine h.of_S (moved_S_of_fault hf) fun hb => ?_
    obtain ⟨hrun, hfifo, hload⟩ := h.still hb
    refine ⟨?_, List.suffix_nil.mp (hfifo ▸ (moved_beside s m).fifo), moved_not_loaded m hload⟩
    by_contra hn
    have := moved_running (by simpa using hn)
    rw [hrun] at this
    cases this
  raised c h := h.flags.stopped c

theorem Initialising_steady {b : Prop} : Steady (Initialising b) where
  lasting := Initialising_lasting
  held s x h := h.flags.held h.modeRegs x
  congr {s t} k h := by
    have e := k.flags
    simp only [State.flags, Prod.mk.injEq] at e
    obtain ⟨elife, ecfg, etxn, eread, emode, ecache, ehandles, -⟩ := e
    obtain ⟨hf, hl, hh, ht, hr, hm, hc, hs⟩ := h
    constructor
    case still => rw [k.running, k.fifo, k.loaded]; exact hs
    case fault => rw [k.fault]; exact hf
    all_goals simp only [*]

theorem Initialising_gate_steady {b : Prop} : Steady fun s => Initialising b s ∧ s.P.gate = ⟨true, true⟩ where
  lasting := Initialising_lasting.and (fun _ _ h => h) fun s m h _ => by rw [(moved_beside s m).gate]; exact h
  held s x h := Initialising_steady.held s x h.1
  congr k h := ⟨Initialising_steady.congr k h.1, (congrArg (·.2.2.2.2.2.2.2.2.1) k.flags : _).trans h.2⟩

/-- `InitPins` during `init`: what `endRead` may do keeps its flags too. -/
theorem Performs_initialising {b : Prop} {s t : State} (p : Performs .endRead s t) (h : Initialising b s) :
    Initialising b t := by
  rcases Performs_observer p (by decide) with k | ⟨-, v, rfl, hv⟩ | ⟨-, rfl⟩
  · exact Initialising_steady.congr k h
  · rw [hv rfl]
    exact ⟨h.fault, h.life, h.handles, h.txn, rfl, h.mode, h.cache, h.still⟩
  · unfold State.gated
    split
    · exact h.of_S rfl fun _ => ⟨rfl, rfl, rfl⟩
    · exact h.of_S rfl h.still

theorem exec_init_after {b : Prop} {s t : State} (h : Ready b s) (he : exec .init s = .next t) : After b t := by
  rcases command_check_cases he with rfl | ⟨hl, he⟩
  · exact takeFault_after h _
  have hl : s.S.life = .configured := by simpa using hl
  obtain ⟨ht, hr, hm, hc⟩ := h.flags.unset (by simp [hl])
  have hstart : Initialising b (s.setHandles (some s.S.cfg.inst)) := by
    refine ⟨h.fault, hl, rfl, ht, hr, hm, hc, fun hb => ?_⟩
    have hrun : s.P.tx.running = false := by simpa [hm] using mt (h.tidy hb).running_mode (by simp [hm])
    exact ⟨hrun, (h.tidy hb).idle hrun⟩
  have hpins : Runs (Initialising b) initPins (fun _ s => Initialising b s ∧ s.P.gate = ⟨true, true⟩) Stopped :=
    Runs_weaken (Runs_and (Initialising_lasting.doing (i := .endRead) (Doing_initPins (by simp [Instr.opcode]))
        (fun _ _ k p => Performs_initialising p k) Initialising_steady.held) Runs_pins_initPins)
      (fun s k => ⟨k, k.fault, trivial⟩) (fun _ s k => ⟨k.1, k.2.2⟩) fun _ k => k.1
  refine command_after (P := fun u => u = s) (Runs_bind (R := fun _ => Initialising b) (fun u hu => hu ▸ hstart) fun _ =>
    Runs_bind hpins fun _ => Runs_get_bind fun u _ => Runs_weaken (P := fun s => Initialising b s ∧ s.P.gate = ⟨true, true⟩)
      (Runs_bind (Runs_keeps_regWrite Initialising_gate_steady (by simp [RegImage.reg]) (by simp [RegImage.reg])) fun _ =>
        Runs_bind (Runs_forEach fun w _ => Initialising_gate_steady.micro fun s _ _ o => by cases o; constructor <;> rfl)
          fun _ => Runs_bind (Runs_keeps_descRealloc Initialising_gate_steady 0) fun _ => ?_)
      (fun _ k => k.1) (fun _ _ k => k) fun _ k => k) rfl he
  intro v ⟨⟨hf, hl, hh, ht, hr, hm, hc, hs⟩, hg⟩
  refine ⟨hf, ?_, fun k => absurd hm k, fun hb => ?_⟩
  · constructor <;> simp [hh, ht, hr, hm, hc, hg]
  · obtain ⟨hrun, hfifo, hload⟩ := hs hb
    refine ⟨fun _ => ⟨hfifo, hload⟩, fun _ => hfifo, fun k => ?_, fun k => ?_⟩
    · simp [hload] at k
    · simp [hrun] at k

/-! ## The write commands -/

/-- A write command: its checks, then a sequence of batches. -/
theorem writeChecks_after {b : Prop} {m : Unit → Act Unit} (hm : Runs (Between b) (m ()) (fun _ => Between b) Stopped)
    {o : Opcode} {s t : State} (h : Ready b s) (he : command o (writeChecks >>= m) s = .next t) : After b t := by
  rcases command_writeChecks_cases he with ⟨c, rfl⟩ | ⟨⟨-, ht, -⟩, he⟩
  · exact takeFault_after h c
  · exact command_after_between hm ⟨h, ht⟩ he

/-- An operand check, then batches. -/
theorem Runs_keeps_operand {b : Prop} (c : State → Bool) {m : Unit → Act Unit}
    (hm : Runs (Between b) (m ()) (fun _ => Between b) Stopped) :
    Runs (Between b) (needOperand c >>= m) (fun _ => Between b) Stopped :=
  Runs_bind (Between_steady.check c .operand) fun _ => hm

theorem Runs_keeps_repeat3 {b : Prop} (c : Word) (blen count : Nat) :
    Runs (Between b) (repeat3 c blen count) (fun _ => Between b) Stopped := by
  refine Runs_bind (R := fun _ => Between b) ?_ fun _ => ?_
  · unfold leftoverPixel
    split
    · exact Runs_keeps_scalarWrite _ _ _
    · exact Runs_return ()
  · unfold repeatPairs
    split
    · exact Runs_return ()
    · exact Runs_keeps_repeatLoop _ _ _ _ _

theorem Runs_keeps_pixels {b : Prop} (p length : Nat) :
    Runs (Between b) (producerChecks p >>= fun _ => (get : Act State) >>= fun t => pixelLoop p (t.E.bpp p)
      (pixLimit (t.E.bpp p)) length length 0 (leadingChunk length (pixLimit (t.E.bpp p)))) (fun _ => Between b) Stopped := by
  rw [producerChecks_bind]
  refine Runs_keeps_operand _ (Runs_keeps_operand _ (Runs_get_bind fun s _ => ?_))
  exact Runs_weaken (Runs_keeps_pixelLoop _ _ _ _ _ _ _) (fun _ k => k.1) (fun _ _ k => k) fun _ k => k

theorem exec_writer_after {b : Prop} {i : Instr} {s t : State} (hi : i.opcode ∈ writers) (h : Ready b s)
    (he : exec i s = .next t) : After b t := by
  cases i with
  | writeCommand v n => exact writeChecks_after (Runs_keeps_operand _ (Runs_keeps_scalarWrite false v n)) h he
  | writeData v n => exact writeChecks_after (Runs_keeps_operand _ (Runs_keeps_scalarWrite true v n)) h he
  | writeDataRepeat v n count =>
    refine writeChecks_after (Runs_keeps_operand _ (Runs_keeps_operand _ ?_)) h he
    split
    · exact Runs_keeps_repeatLoop _ _ _ _ _
    · exact Runs_keeps_repeat3 _ _ _
  | writeBytes buffer n dma =>
    exact writeChecks_after (Runs_keeps_operand _ (Runs_keeps_bytesBody (memRead_steady buffer) n dma)) h he
  | writePixels p n => exact writeChecks_after (Runs_keeps_pixels p n) h he
  | _ => simp [Instr.opcode, writers] at hi

/-! ## Every command, every step -/

theorem exec_beginRead_after {b : Prop} {s t : State} (h : Ready b s) (he : exec .beginRead s = .next t) : After b t := by
  have he' : command .beginRead (writeChecks >>= fun _ => _) s = .next t := he
  rcases command_writeChecks_cases he' with ⟨c, rfl⟩ | ⟨⟨-, ht, -⟩, -⟩
  · exact takeFault_after h c
  · exact exec_observer_after (by decide) (fun _ => ht) h he

theorem exec_endRead_after {b : Prop} {s t : State} (h : Ready b s) (he : exec .endRead s = .next t) : After b t := by
  have he' : command .endRead (readChecks >>= fun _ => _) s = .next t := he
  rcases command_readChecks_cases he' with ⟨c, rfl⟩ | ⟨⟨-, ht, -⟩, -⟩
  · exact takeFault_after h c
  · exact exec_observer_after (by decide) (fun _ => ht) h he

/-- Every command ends ready, or stops with the control invariant. -/
theorem exec_after {b : Prop} {i : Instr} {s t : State} (h : Ready b s) (he : exec i s = .next t) : After b t := by
  cases i with
  | config => exact exec_config_after h he
  | init => exact exec_init_after h he
  | beginTransaction => exact exec_beginTransaction_after h he
  | endTransaction => exact exec_endTransaction_after h he
  | beginRead => exact exec_beginRead_after h he
  | endRead => exact exec_endRead_after h he
  | writeCommand | writeData | writeDataRepeat | writeBytes | writePixels =>
    exact exec_writer_after (by simp [Instr.opcode, writers]) h he
  | release | wait | busy | readData | readBytes | readPixels =>
    exact exec_observer_after (by simp [Instr.opcode, observers]) (by simp [Instr.opcode]) h he

/-- The control invariant depends on the control fields and the mode registers only. -/
theorem ControlInv.of_eq {s t : State} (h : ControlInv s) (e : t.flags = s.flags) (hf : t.S.fault = s.S.fault)
    (hs : t.P.regs.src = s.P.regs.src) (hc : t.P.regs.fconf = s.P.regs.fconf) : ControlInv t := by
  obtain ⟨k, hm⟩ := control_iff.mp h
  refine control_iff.mpr ⟨k.congr e, fun hf' hm' => ?_⟩
  have := hm (hf ▸ hf')
  simp only [ModeRegs, InMode, hs, hc, mode_of_flags e] at this hm' ⊢
  exact this hm'

theorem ControlInv.takeFault {s : State} (h : ControlInv s) (c : FaultCode) : ControlInv (s.takeFault c) :=
  (control_iff.mp h).1.control c

theorem ControlInv.moved {s : State} (h : ControlInv s) (m : Move) : ControlInv (s.moved m) := by
  rcases moved_S s m with e | e
  · exact h.of_eq (moved_flags s m) (by rw [e]) (by rw [(moved_beside s m).regs]) (by rw [(moved_beside s m).regs])
  · rw [e]
    exact h.takeFault _

theorem ControlInv.ready {s : State} (h : ControlInv s) (hl : s.live) : Ready False s := by
  obtain ⟨hf, hr⟩ := control_iff.mp h
  exact ⟨hl.1, hf, hr hl.1, False.elim⟩

/-- Settles O52: every command ends ready or stops with the control invariant, and the other agents write none of its
fields. -/
theorem stepKeepsControl : Obligations.StepKeepsControl := by
  unfold Obligations.StepKeepsControl
  intro s t hs h
  exact step_keeps (fun _ _ k => k.of_eq rfl rfl rfl rfl) (fun _ m k => k.moved m) (fun _ c k => k.takeFault c)
    (fun _ k => k.of_eq rfl rfl rfl rfl) (fun _ _ _ k hl he => (exec_after (k.ready hl) he).control) hs h

end Sys2Proof.Machine
end

section
/-!
PROOFS. Every step keeps the boundary invariant: its clauses on the pins here, its clauses on what is queued and loaded by
`exec_after`.
* `Wired`: what every micro-operation keeps of the pin invariant, given that a write command runs in write routing.
* `PinsRouted`: what holds of the pads between commands; `beginRead`, `endRead` and `init` lose it and set it up again.
-/

namespace Sys2Proof.Machine

/-! ## The pin invariant in parts -/

/-- The transmitter runs in write routing only, after `init` and outside read mode. -/
structure Wired (s : State) : Prop where
  latch_running : s.P.tx.latchPending = true → s.P.tx.running = true
  latched_loaded : s.P.dma.latched = true → s.P.dma.loaded = true
  running_life : s.P.tx.running = true → s.S.life = .initialised
  running_write : s.P.tx.running = true → s.S.read = false
  running_pins : s.P.tx.running = true → s.G.writeRouting = true

/-- After `init` the pads are in write routing outside read mode and in read routing inside it. -/
structure PinsRouted (s : State) : Prop where
  write : s.S.life = .initialised → s.S.read = false → s.G.writePins
  read : s.S.read = true → s.G.readRouting

theorem pinInv_iff {s : State} : PinInv s ↔ ControlInv s ∧ Wired s ∧ (s.S.fault = none → PinsRouted s) := by
  constructor
  · rintro ⟨hc, h1, h2, h3, h4, h5, hw, hr⟩
    exact ⟨hc, ⟨h1, h2, h3, h4, h5⟩, fun hf => ⟨hw hf, hr hf⟩⟩
  · rintro ⟨hc, ⟨h1, h2, h3, h4, h5⟩, h⟩
    exact ⟨hc, h1, h2, h3, h4, h5, fun hf => (h hf).write, fun hf => (h hf).read⟩

/-- Nothing but the transmitter, the DMA engine, the routing and two of the sequencer's registers matters. -/
theorem Wired.of_eq {s t : State} (h : Wired s) (hl : t.S.life = s.S.life) (hr : t.S.read = s.S.read) (hG : t.G = s.G)
    (ht : t.P.tx = s.P.tx) (hd : t.P.dma = s.P.dma) : Wired t := by
  obtain ⟨h1, h2, h3, h4, h5⟩ := h
  constructor <;> simpa only [hl, hr, hG, ht, hd]

theorem Wired.marks {s t : State} (k : Marks s t) (h : Wired s) : Wired t :=
  h.of_eq (by rw [k.S]) (by rw [k.S]) k.G (by rw [k.P]) (by rw [k.P])

theorem PinsRouted.of_eq {s t : State} (h : PinsRouted s) (hl : t.S.life = s.S.life) (hr : t.S.read = s.S.read)
    (hG : t.G = s.G) : PinsRouted t := by
  obtain ⟨hw, hr'⟩ := h
  constructor <;> simpa only [hl, hr, hG]

theorem PinsRouted.moved {s : State} (h : PinsRouted s) (m : Move) : PinsRouted (s.moved m) :=
  have b := moved_beside s m
  h.of_eq (by rw [b.S]) (by rw [b.S]) b.G

/-- The other agents never start the transmitter or hold a load. -/
theorem Wired.moved {s : State} (h : Wired s) (m : Move) : Wired (s.moved m) := by
  have b := moved_beside s m
  have hrun := moved_running (s := s) (m := m)
  suffices k : ((s.moved m).P.tx.latchPending = true → (s.moved m).P.tx.running = true) ∧
      ((s.moved m).P.dma.latched = true → (s.moved m).P.dma.loaded = true) by
    refine ⟨k.1, k.2, fun hr => ?_, fun hr => ?_, fun hr => ?_⟩
    · rw [b.S]; exact h.running_life (hrun hr)
    · rw [b.S]; exact h.running_write (hrun hr)
    · rw [b.G]; exact h.running_pins (hrun hr)
  have p := moved_P s m
  generalize (s.moved m).P = q at p
  cases p with
  | latch => exact ⟨(nomatch ·), h.latched_loaded⟩
  | finishFifo _ hp => exact ⟨fun k => by simp [hp] at k, h.latched_loaded⟩
  | finishDma _ hp => exact ⟨fun k => by simp [hp] at k, (nomatch ·)⟩
  | load hl => exact ⟨h.latch_running, fun _ => hl⟩
  | _ => exact ⟨h.latch_running, h.latched_loaded⟩

theorem PinInv.moved {s : State} (h : PinInv s) (m : Move) : PinInv (s.moved m) := by
  obtain ⟨hc, hw, hr⟩ := pinInv_iff.mp h
  refine pinInv_iff.mpr ⟨hc.moved m, hw.moved m, fun hf => (hr ?_).moved m⟩
  rw [moved_S_of_fault hf] at hf
  exact hf

/-! ## What a micro-operation keeps -/

/-- After `init`, outside read mode, in write routing. -/
def MayTransmit (s : State) : Prop := s.S.life = .initialised ∧ s.S.read = false ∧ s.G.writeRouting = true

/-- While the transmitter runs, `RD` is the only pad an operation reaches. -/
theorem Wired.setPad {s : State} (h : Wired s) {r : Role} (hz : s.padHazard r = false) (p : Pad) : Wired (s.setPad r p) := by
  refine ⟨h.latch_running, h.latched_loaded, h.running_life, h.running_write, fun hr => ?_⟩
  have hd : r.driven = false := by simpa [State.padHazard, show s.P.tx.running = true from hr] using hz
  cases r with
  | rd => exact h.running_pins hr
  | d i | wr | rs => simp [Role.driven] at hd

/-- Opening the gate leaves the transmitter as it is, or resets it. -/
theorem Wired.gated {s : State} (h : Wired s) : Wired s.gated := by
  unfold State.gated
  split
  · exact ⟨(nomatch ·), (nomatch ·), (nomatch ·), (nomatch ·), (nomatch ·)⟩
  · exact h.of_eq rfl rfl rfl rfl rfl

/-- A write command starts the transmitter in write routing; `beginRead` alone sets `S.read`, `config` alone undoes `init`. -/
theorem Performs_wired {i : Instr} {s t : State} (p : Performs i s t) (hb : i.opcode ≠ .beginRead) (hc : i.opcode ≠ .config)
    (hw : i.opcode ∈ writers → MayTransmit s) (h : Wired s) : Wired t := by
  cases p with
  | start hi =>
    obtain ⟨hl, hr, hg⟩ := hw hi
    exact ⟨fun _ => rfl, h.latched_loaded, fun _ => hl, fun _ => hr, fun _ => hg⟩
  | claim _ r hz | dir _ r d hz | route _ r x hz => exact (h.setPad hz _).of_eq rfl rfl rfl rfl rfl
  | level r l _ hz => exact (h.setPad hz { s.G.get r with level := l }).of_eq (by simp) (by simp) (by simp) (by simp) (by simp)
  | link => exact ⟨h.latch_running, (nomatch ·), h.running_life, h.running_write, h.running_pins⟩
  | gate => exact h.gated
  | setCfg hi => exact absurd hi hc
  | initialised => exact ⟨h.latch_running, h.latched_loaded, fun _ => rfl, h.running_write, h.running_pins⟩
  | setRead v hv =>
    rcases hv with ⟨hi, -⟩ | ⟨-, rfl⟩
    · exact absurd hi hb
    · exact ⟨h.latch_running, h.latched_loaded, h.running_life, fun _ => rfl, h.running_pins⟩
  | _ => exact h.of_eq (by simp) (by simp) (by simp) (by simp) (by simp)

/-- While `i` runs. -/
def WiredDuring (i : Instr) (s : State) : Prop := s.S.fault = none ∧ Wired s ∧ (i.opcode ∈ writers → MayTransmit s)

theorem WiredDuring_lasting (i : Instr) : Lasting (WiredDuring i) Wired where
  fault h := h.1
  took ms h := ⟨h.1, h.2.1.marks (setSched_marks _ ms), h.2.2⟩
  moved {s} m h hf := by
    have e := moved_S_of_fault hf
    refine ⟨hf, h.2.1.moved m, fun hi => ?_⟩
    rw [MayTransmit, e, (moved_beside s m).G]
    exact h.2.2 hi
  raised c h := h.2.1.marks (takeFault_marks _ c)

theorem WiredDuring_held (i : Instr) (s : State) (x : Hold) (h : WiredDuring i s) : Wired (s.setHold x) :=
  h.2.1.marks (setHold_marks s x)

theorem not_router_of_writer {o : Opcode} (h : o ∈ writers) : o ∉ routers ∧ o ∉ [.config, .init] ∧ o ∉ readers := by
  revert h; cases o <;> decide

theorem Performs_wiredDuring {i : Instr} (hb : i.opcode ≠ .beginRead) (hc : i.opcode ≠ .config) (s t : State)
    (h : WiredDuring i s) (p : Performs i s t) : WiredDuring i t := by
  refine ⟨(Performs_pointer p).2.1.trans h.1, Performs_wired p hb hc h.2.2 h.2.1, fun hi => ?_⟩
  obtain ⟨hl, hr, hg⟩ := h.2.2 hi
  obtain ⟨hro, hci, -⟩ := not_router_of_writer hi
  refine ⟨((Performs_sequencer p).life hci).trans hl, ((Performs_sequencer p).read ?_).trans hr, ?_⟩
  · revert hro; cases i.opcode <;> decide
  · rw [(Performs_pads p).pads hro]; exact hg

/-- A write command's checks (R185). -/
theorem exec_writer_cases {i : Instr} (hi : i.opcode ∈ writers) {s t : State} (h : exec i s = .next t) :
    (∃ c, t = s.takeFault c) ∨ s.S.life = .initialised ∧ s.S.read = false := by
  have key : ∀ {o : Opcode} {m : Unit → Act Unit}, command o (writeChecks >>= m) s = .next t →
      (∃ c, t = s.takeFault c) ∨ s.S.life = .initialised ∧ s.S.read = false := fun h =>
    (command_writeChecks_cases h).imp id fun ⟨⟨hl, _, hr⟩, _⟩ => ⟨hl, hr⟩
  cases i with
  | writeCommand | writeData | writeDataRepeat | writeBytes | writePixels => exact key h
  | _ => simp [Instr.opcode, writers] at hi

/-- Every command but `beginRead` keeps the transmitter in write routing. -/
theorem exec_wired {i : Instr} (hb : i.opcode ≠ .beginRead) {s t : State} (hf : s.S.fault = none) (hw : Wired s)
    (hp : PinsRouted s) (h : exec i s = .next t) : Wired t := by
  by_cases hc : i.opcode = .config
  · cases i with
    | config =>
      rcases exec_config_cases h with ⟨c, rfl⟩ | ⟨hl, rfl⟩
      · exact hw.marks (takeFault_marks s c)
      · have hn : s.P.tx.running ≠ true := mt hw.running_life hl
        exact ⟨hw.latch_running, hw.latched_loaded, fun k => absurd k hn, hw.running_write, hw.running_pins⟩
    | _ => simp [Instr.opcode] at hc
  suffices hs : (i.opcode ∈ writers → MayTransmit s) ∨ Wired t by
    rcases hs with hs | hs
    · rcases exec_did h with ⟨u, d, rfl⟩ | k
      · exact ((WiredDuring_lasting i).did (Performs_wiredDuring hb hc) d ⟨hf, hw, hs⟩).2.1.marks (advance_marks u _)
      · exact (WiredDuring_lasting i).halted (Performs_wiredDuring hb hc) (WiredDuring_held i) k ⟨hf, hw, hs⟩
    · exact hs
  by_cases hi : i.opcode ∈ writers
  · rcases exec_writer_cases hi h with ⟨c, rfl⟩ | ⟨hl, hr⟩
    · exact .inr (hw.marks (takeFault_marks s c))
    · exact .inl fun _ => ⟨hl, hr, (hp.write hl hr).1⟩
  · exact .inl fun k => absurd k hi

/-! ## Where a command leaves the pads -/

/-- No fault is set, and the pads stand as between commands, in read mode or outside it. -/
def Standing (x : Bool) (s : State) : Prop :=
  s.S.fault = none ∧ PinsRouted s ∧ s.S.life = .initialised ∧ s.S.read = x

/-- Where a stop leaves the pads. -/
def FaultedOrRouted (s : State) : Prop := s.S.fault = none → PinsRouted s

theorem Faulted.or_routed {s : State} (h : Faulted s) : FaultedOrRouted s := fun k => absurd k h

theorem takeFault_or_routed (s : State) (c : FaultCode) : FaultedOrRouted (s.takeFault c) := fun k => by simp at k

theorem Standing_lasting {x : Bool} : Lasting (Standing x) FaultedOrRouted where
  fault h := h.1
  took ms h := ⟨h.1, h.2.1.of_eq rfl rfl rfl, h.2.2⟩
  moved m h hf := ⟨hf, h.2.1.moved m, by rw [moved_S_of_fault hf]; exact h.2.2⟩
  raised c _ := takeFault_or_routed _ c

theorem Runs_stands_waitIdle {x : Bool} : Runs (Standing x) waitIdle (fun _ => Standing x) FaultedOrRouted :=
  Standing_lasting.micro (fun s _ _ h _ o => by cases o; exact ⟨h.1, h.2.1.of_eq rfl rfl rfl, h.2.2⟩)
    fun s _ h _ _ => h.2.1.of_eq rfl rfl rfl

/-- A command that touches no pad but the level of `RD` leaves the routing. -/
theorem exec_unrouted {i : Instr} (hi : i.opcode ∉ routers) (hc : i.opcode ≠ .config) {s t : State} (hp : PinsRouted s)
    (h : exec i s = .next t) : PinsRouted t := by
  have hl : t.S.life = s.S.life := (exec_sequencer h).life (by simp [routers] at hi; simp [hi, hc])
  have hr : t.S.read = s.S.read := (exec_sequencer h).read (by simp [routers] at hi; simp [hi])
  have hg := (exec_pads h).pads hi
  refine ⟨fun k k' => ?_, fun k => ?_⟩
  · rw [hg]; exact hp.write (hl ▸ k) (hr ▸ k')
  · rw [hg]; exact hp.read (hr ▸ k)

theorem exec_config_routed {inst : Nat} {d : Vector Nat 8} {rd wr rs freq : Nat} {s t : State} (hp : PinsRouted s)
    (h : exec (.config inst d rd wr rs freq) s = .next t) : PinsRouted t := by
  rcases exec_config_cases h with ⟨c, rfl⟩ | ⟨hl, rfl⟩
  · exact hp.of_eq rfl rfl rfl
  · exact ⟨fun k => (nomatch k), hp.read⟩

/-- Micro-operations that leave the pads alone. -/
theorem Runs_pins_same {α : Type} {X : Pads → Prop} {op : State → Effect α}
    (same : ∀ s a t, op s = .done a t → t.S.fault = s.S.fault ∧ t.G = s.G) :
    Runs (Pinned X) (Machine.atom op) (fun _ => Pinned X) Faulted :=
  Pinned_lasting.atom fun s a t k o => ⟨(same s a t o).1.trans k.1, by rw [(same s a t o).2]; exact k.2⟩

theorem Runs_pins_descRealloc {X : Pads → Prop} (n : Nat) :
    Runs (Pinned X) (descRealloc n) (fun _ => Pinned X) Faulted := by
  refine Runs_bind (R := fun _ => Pinned X) (Runs_get_bind fun s _ => ?_) fun _ => Runs_pins_same fun s _ _ o => by
    obtain ⟨-, a, -, rfl⟩ := descAllocOp_done o
    simp
  split
  · exact Runs_weaken (Runs_pins_same fun s _ _ o => by obtain ⟨-, rfl⟩ := descFreeOp_done o; simp) (fun _ h => h.1)
      (fun _ _ h => h) fun _ h => h
  · exact fun _ h => h.1

/-- What `init` does after `InitPins`. -/
theorem Runs_pins_afterInitPins {X : Pads → Prop} (v : Word) (ws : List (Word × Word)) (f : State → State)
    (hS : ∀ s, (f s).S.fault = s.S.fault) (hG : ∀ s, (f s).G = s.G) :
    Runs (Pinned X) (regWrite (.intEna v) >>= fun _ => forEach (fun w => modeWrite w.1 w.2) ws >>= fun _ =>
      descRealloc 0 >>= fun _ => update f) (fun _ => Pinned X) Faulted := by
  refine Runs_bind (R := fun _ => Pinned X) (Runs_pins_same fun s _ _ o => ?_) fun _ => Runs_bind (R := fun _ => Pinned X)
    (Runs_forEach fun w _ => Runs_pins_same fun s _ _ o => ?_) fun _ => Runs_bind (Runs_pins_descRealloc 0) fun _ u k => ?_
  · obtain ⟨-, rfl⟩ := regWriteOp_done o
    simp
  · cases o
    simp
  · exact ⟨(hS u).trans k.1, by rw [hG]; exact k.2⟩

/-- `init` leaves the pads as `InitPins` does. -/
theorem exec_init_routed {s t : State} (hf : s.S.fault = none) (hl : s.S.life ≠ .initialised → s.S.read = false)
    (h : exec .init s = .next t) : FaultedOrRouted t := by
  have hread : t.S.read = s.S.read := (exec_sequencer h).read (by simp [Instr.opcode])
  rcases command_check_cases h with rfl | ⟨hc, h⟩
  · exact takeFault_or_routed _ _
  have hr : t.S.read = false := hread.trans (hl (by rintro e; simp [e] at hc))
  refine command_leaves (P := Pinned fun _ => True) (Q := Pinned (·.writePins)) (R := fun t => t.S.read = false →
    FaultedOrRouted t) ?_ (fun u n k hr _ => ⟨fun _ _ => k.2, fun k' => ?_⟩) (fun u (k : Faulted u) _ => k.or_routed)
    ⟨hf, trivial⟩ h hr
  · exact Runs_bind (R := fun _ => Pinned fun _ => True) (fun u hu => hu) fun _ => Runs_bind Runs_pins_initPins fun _ =>
      Runs_get_bind fun u _ => Runs_weaken (Runs_pins_afterInitPins _ _ _ (fun _ => rfl) fun _ => rfl)
        (fun _ k => k.1.1) (fun _ _ k => k) fun _ k => k
  · exact absurd (hr.symm.trans k') (by decide)

/-- `endRead` leaves the pads as `InitPins` does, outside read mode. -/
theorem exec_endRead_routed {s t : State} (hf : s.S.fault = none) (hp : PinsRouted s) (h : exec .endRead s = .next t) :
    FaultedOrRouted t := by
  have h' : command .endRead (readChecks >>= fun _ => _) s = .next t := h
  rcases command_readChecks_cases h' with ⟨c, rfl⟩ | ⟨⟨hl, -, hr⟩, h⟩
  · exact takeFault_or_routed _ _
  refine command_leaves (P := Standing true) (Q := PinsRouted) (R := FaultedOrRouted)
    (Runs_bind Runs_stands_waitIdle fun _ => Runs_bind (Runs_weaken Runs_pins_initPins (fun u k => ⟨k.1, trivial⟩)
      (fun _ _ k => k.1) fun _ k => k.or_routed) fun _ u k => ?_)
    (fun u n k _ => k.of_eq rfl rfl rfl) (fun _ k => k) ⟨hf, hp, hl, hr⟩ h
  exact ⟨fun _ _ => k.2, (nomatch ·)⟩

/-- `beginRead` leaves the pads in read routing, the transmitter still. -/
theorem exec_beginRead_pins {s t : State} (hf : s.S.fault = none) (hw : Wired s) (hp : PinsRouted s)
    (h : exec .beginRead s = .next t) : Wired t ∧ FaultedOrRouted t := by
  have h' : command .beginRead (writeChecks >>= fun _ => _) s = .next t := h
  rcases command_writeChecks_cases h' with ⟨c, rfl⟩ | ⟨⟨hl, -, hr⟩, h⟩
  · exact ⟨hw.marks (takeFault_marks s c), takeFault_or_routed _ _⟩
  have hpins : Runs (Standing false) (waitIdle >>= fun _ => readPins) (fun _ => Pinned (·.readRouting)) FaultedOrRouted :=
    Runs_bind Runs_stands_waitIdle fun _ => Runs_weaken Runs_pins_readPins
      (fun u k => ⟨k.1, (k.2.1.write k.2.2.1 k.2.2.2).2⟩) (fun _ _ k => k) fun _ k => k.or_routed
  have hwired : Runs (WiredDuring .endRead) (waitIdle >>= fun _ => readPins) (fun _ => WiredDuring .endRead) Wired :=
    (WiredDuring_lasting .endRead).doing (Doing_bind (Doing_waitIdle (by decide)) fun _ => Doing_readPins (by decide))
      (Performs_wiredDuring (by decide) (by decide)) (WiredDuring_held .endRead)
  have hseq := Runs_and hwired hpins
  rw [← bind_assoc] at h
  refine command_leaves (Q := fun u => Wired u ∧ PinsRouted u) (Runs_bind hseq fun _ u ⟨⟨_, ku, _⟩, kp⟩ => ?_)
    (fun u n k => ⟨k.1.marks (advance_marks u n), fun _ => k.2.of_eq rfl rfl rfl⟩) (fun _ k => k)
    ⟨⟨hf, hw, fun k => absurd k (by decide)⟩, hf, hp, hl, hr⟩ h
  have hn : u.P.tx.running ≠ true := fun k => by
    have := not_writeRouting_of_readRouting kp.2
    rw [ku.running_pins k] at this
    cases this
  exact ⟨⟨ku.latch_running, ku.latched_loaded, ku.running_life, fun k => absurd k hn, ku.running_pins⟩,
    ⟨fun _ => (nomatch ·), fun _ => kp.2⟩⟩

/-! ## Every command, every step -/

/-- Every command keeps the pin invariant. -/
theorem exec_pinInv {i : Instr} {s t : State} (h : PinInv s) (hl : s.live) (he : exec i s = .next t) : PinInv t := by
  obtain ⟨hc, hw, hp⟩ := pinInv_iff.mp h
  have hp := hp hl.1
  suffices k : Wired t ∧ FaultedOrRouted t from pinInv_iff.mpr ⟨(exec_after (hc.ready hl) he).control, k⟩
  cases i with
  | beginRead => exact exec_beginRead_pins hl.1 hw hp he
  | endRead => exact ⟨exec_wired (by simp [Instr.opcode]) hl.1 hw hp he, exec_endRead_routed hl.1 hp he⟩
  | init =>
    refine ⟨exec_wired (by simp [Instr.opcode]) hl.1 hw hp he, exec_init_routed hl.1 (fun k => ?_) he⟩
    exact ((control_iff.mp hc).1.unset k).2.1
  | config => exact ⟨exec_wired (by simp [Instr.opcode]) hl.1 hw hp he, fun _ => exec_config_routed hp he⟩
  | _ =>
    exact ⟨exec_wired (by simp [Instr.opcode]) hl.1 hw hp he,
      fun _ => exec_unrouted (by simp [Instr.opcode, routers]) (by simp [Instr.opcode]) hp he⟩

theorem BoundaryInv.ready {s : State} (h : BoundaryInv s) (hl : s.live) : Ready True s := by
  obtain ⟨hf, hr⟩ := control_iff.mp h.pins.control
  exact ⟨hl.1, hf, hr hl.1, fun _ => ⟨h.idle_empty hl, h.dma_fifo hl, h.load_mode hl, h.running_mode hl⟩⟩

theorem PinInv.boundary {s : State} (h : PinInv s) (ht : s.live → Tidy s.S.mode s.P) : BoundaryInv s :=
  ⟨h, fun hl => (ht hl).idle, fun hl => (ht hl).dma_fifo, fun hl => (ht hl).load_mode, fun hl => (ht hl).running_mode⟩

theorem PinInv.of_eq {s t : State} (h : PinInv s) (e : t.flags = s.flags) (hf : t.S.fault = s.S.fault) (hP : t.P = s.P)
    (hG : t.G = s.G) : PinInv t := by
  obtain ⟨hc, hw, hp⟩ := pinInv_iff.mp h
  have hl := life_of_flags e
  have hr : t.S.read = s.S.read := congrArg (·.2.2.2.1) e
  exact pinInv_iff.mpr ⟨hc.of_eq e hf (by rw [hP]) (by rw [hP]), hw.of_eq hl hr hG (by rw [hP]) (by rw [hP]),
    fun k => (hp (hf ▸ k)).of_eq hl hr hG⟩

theorem PinInv.takeFault {s : State} (h : PinInv s) (c : FaultCode) : PinInv (s.takeFault c) := by
  obtain ⟨hc, hw, -⟩ := pinInv_iff.mp h
  exact pinInv_iff.mpr ⟨hc.takeFault c, hw.marks (takeFault_marks s c), fun k => by simp at k⟩

theorem BoundaryInv.moved {s : State} (h : BoundaryInv s) (m : Move) : BoundaryInv (s.moved m) := by
  refine (h.pins.moved m).boundary fun hl => ?_
  have e := moved_S_of_fault hl.1
  have hs : s.live := by unfold State.live at hl ⊢; rwa [e] at hl
  have k := h.ready hs
  rw [e]
  exact Tidy_moved m (k.tidy trivial) k.regs

theorem exec_boundary {i : Instr} {s t : State} (h : BoundaryInv s) (hl : s.live) (he : exec i s = .next t) : BoundaryInv t :=
  (exec_pinInv h.pins hl he).boundary ((exec_after (h.ready hl) he).tidy trivial)

/-- Settles O54: a start transmits what was queued or loaded, a mode switch comes when nothing is, and the transmitter
finishes when its mode's queue or load is sent. -/
theorem stepKeepsBoundary : Obligations.StepKeepsBoundary := by
  unfold Obligations.StepKeepsBoundary
  intro s t hs h
  refine step_keeps (fun u ms k => ?_) (fun _ m k => k.moved m) (fun u c k => ?_) (fun u k => ?_)
    (fun _ _ _ k hl he => exec_boundary k hl he) hs h
  · exact PinInv.boundary (s := u.setSched ms) (k.pins.of_eq rfl rfl rfl rfl) fun hl => (k.ready hl).tidy trivial
  · exact (k.pins.takeFault c).boundary fun hl => absurd hl (takeFault_not_live u c)
  · exact PinInv.boundary (s := u.refuse) (k.pins.of_eq rfl rfl rfl rfl) fun hl => (k.ready hl).tidy trivial

end Sys2Proof.Machine
end

section
/-!
PROOFS. The launch, which no agent writes (R46, R212), and the bytes of a scalar write (R48, R151).
* `SameLaunch`: every move, micro-operation and mark of a stop leaves the stream and the parameters alone.
* `scalarCommand_sends`: after its checks a scalar command runs `ScalarWrite` from a state that is `Sending`, and the rule
  `Runs_scalarWrite` gives what it adds to the view, under any interleaving.
-/

namespace Sys2Proof.Machine

/-! ## The launch (R46, R212) -/

/-- The command stream and the launch parameters are the same. -/
def SameLaunch (s t : State) : Prop := t.stream = s.stream ∧ t.par = s.par

theorem SameLaunch.trans {s t u : State} (h : SameLaunch s t) (k : SameLaunch t u) : SameLaunch s u :=
  ⟨k.1.trans h.1, k.2.trans h.2⟩

theorem moved_sameLaunch (s : State) (m : Move) : SameLaunch s (s.moved m) :=
  ⟨(moved_beside s m).stream, (moved_beside s m).par⟩

theorem Performs_sameLaunch {i : Instr} {s t : State} (p : Performs i s t) : SameLaunch s t := by
  cases p with
  | gate => split <;> exact ⟨rfl, rfl⟩
  | _ => constructor <;> simp

theorem exec_sameLaunch {i : Instr} {s t : State} (h : exec i s = .next t) : SameLaunch s t :=
  exec_relates (fun _ => ⟨rfl, rfl⟩) (fun _ _ _ => .trans) (fun _ _ => ⟨rfl, rfl⟩) moved_sameLaunch
    (fun _ _ => ⟨rfl, rfl⟩) (fun _ _ => ⟨rfl, rfl⟩) (fun _ _ => ⟨rfl, rfl⟩) (fun _ _ => Performs_sameLaunch) h

/-- Settles O55: every agent's step and every micro-operation leaves the stream and the parameters alone. -/
theorem stepKeepsTheLaunch : Obligations.StepKeepsTheLaunch := by
  unfold Obligations.StepKeepsTheLaunch
  intro s t h
  exact step_keeps (I := SameLaunch s) (fun _ _ k => k) (fun u m k => k.trans (moved_sameLaunch u m)) (fun _ _ k => k)
    (fun _ k => k) (fun _ _ _ k _ h => k.trans (exec_sameLaunch h)) ⟨rfl, rfl⟩ h

/-! ## The bytes of a scalar write (R48, R147, R151) -/

/-- `ScalarWrite` between commands, inside a transaction: unless it is stopped it adds its bytes' cycles to the output. -/
theorem command_scalarWrite_output {s t : State} {o : Opcode} {tag : Bool} {v : Word} {b : Nat} (hs : Sending False True s)
    (hb : b ≤ 32) (h : command o (scalarWrite tag v b) s = .next t) (ht : t.live) :
    t.output = s.output ++ cyclesOf .w32 (scalarWords tag v b) := by
  refine command_leaves (R := fun t => t.live → t.output = s.output ++ cyclesOf .w32 (scalarWords tag v b))
    (Runs_scalarWrite (γ := s.view) tag v hb) ?_ ?_ ⟨hs, rfl⟩ h ht
  · rintro u n ⟨-, hview⟩ -
    exact congrArg View.output hview
  · exact fun u hu hl => absurd hl hu.1

/-- A scalar command: its checks, then `ScalarWrite`. -/
theorem scalarCommand_sends {s t : State} {o : Opcode} {tag : Bool} {v : Word} {b : Nat} (hs : BoundaryInv s) (hl : s.live)
    (ht : t.live) (h : command o (writeChecks >>= fun _ => needOperand (fun _ => legalBitLength b) >>= fun _ =>
      scalarWrite tag v b) s = .next t) :
    t.output = s.output ++ (pixelBytes v (max 1 ((b + 7) / 8))).map (BusEvent.wr tag) := by
  obtain ⟨c, rfl⟩ | ⟨⟨-, htxn, hread⟩, h⟩ := command_writeChecks_cases h
  · exact absurd ht (takeFault_not_live s c)
  obtain rfl | ⟨hb, h⟩ := command_check_cases h
  · exact absurd ht (takeFault_not_live s .operand)
  rw [← scalarWords_cycles]
  exact command_scalarWrite_output (hs.sending hl htxn hread False.elim) (of_decide_eq_true hb) h ht

/-- Settles O27: the two commands are the scalar command of tag 0 and of tag 1. -/
theorem scalarWriteSendsItsBytes : Obligations.ScalarWriteSendsItsBytes := by
  unfold Obligations.ScalarWriteSendsItsBytes
  exact fun s t v b hs hl ht => ⟨scalarCommand_sends hs hl ht, scalarCommand_sends hs hl ht⟩

end Sys2Proof.Machine
end

section
/-!
PROOFS. The encoding (spec/30_encoding.md): the decoder and the encoder are inverse to each other on well-formed
instructions.
* `checkHeader_eq_ok_iff`, `header_of_checkHeader`: a legal header is its fields, and nothing else.
* `encode_assembles` and `encode_of_assemble`: a packet's words assemble to its instruction, and back.
* `decode_eq_ok_iff`: a packet that decodes is a legal header, its operand words and the words left.
-/

namespace Sys2Proof

/-! ## The fields of words (R64, R66, R67) -/

theorem fitsWord_iff {n : Nat} : fitsWord n = true ↔ n < 2 ^ 32 := decide_eq_true_iff
theorem fitsByte_iff {n : Nat} : fitsByte n = true ↔ n < 2 ^ 8 := decide_eq_true_iff

@[simp] theorem fitsWord_toNat (w : Word) : fitsWord w.toNat = true := fitsWord_iff.mpr w.isLt

@[simp] theorem fitsByte_bits (v lo : Nat) : fitsByte (bits v lo 8) = true :=
  fitsByte_iff.mpr (Nat.mod_lt _ (by decide))

theorem toNat_bit (v k : Nat) : (bits v k 1 == 1).toNat = bits v k 1 := by
  obtain hz | hz : bits v k 1 = 0 ∨ bits v k 1 = 1 := Nat.mod_two_eq_zero_or_one _ <;> rw [hz] <;> rfl

@[simp] theorem natWord_toNat (w : Word) : natWord w.toNat = w := by simp [natWord]

theorem toNat_natWord {n : Nat} (h : fitsWord n = true) : (natWord n).toNat = n :=
  Nat.mod_eq_of_lt (fitsWord_iff.mp h)

/-- Four bytes of an operand word make it up again (R66). -/
@[simp] theorem pinsWord_pinByte (ws : List Word) (k : Nat) :
    pinsWord (pinByte ws k 0) (pinByte ws k 1) (pinByte ws k 2) (pinByte ws k 3) = operandWord ws k := by
  have hw := (operandWord ws k).isLt
  apply BitVec.eq_of_toNat_eq
  simp only [pinByte, operandNat, bits, pinsWord, BitVec.toNat_ofNat]
  omega

@[simp] theorem natWord_operandNat (ws : List Word) (k : Nat) : natWord (operandNat ws k) = operandWord ws k :=
  natWord_toNat _

theorem map_operandWord {ws : List Word} {n : Nat} (hl : ws.length = n) : (List.range n).map (operandWord ws) = ws := by
  refine List.ext_getElem (by simp [hl]) fun k _ hk => ?_
  simp [operandWord, hk]

theorem pinByte_of_operandWord {ws : List Word} {k a b c d : Nat} (hw : operandWord ws k = pinsWord a b c d)
    (ha : fitsByte a = true) (hb : fitsByte b = true) (hc : fitsByte c = true) (hd : fitsByte d = true) :
    pinByte ws k 0 = a ∧ pinByte ws k 1 = b ∧ pinByte ws k 2 = c ∧ pinByte ws k 3 = d := by
  rw [fitsByte_iff] at ha hb hc hd
  simp only [pinByte, operandNat, hw, bits, pinsWord, BitVec.toNat_ofNat]
  omega

/-- The eight data pins of a configuration, one by one. -/
theorem dataPins_eta (d : Vector Nat 8) : #v[d[0], d[1], d[2], d[3], d[4], d[5], d[6], d[7]] = d := by
  ext i hi
  match i, hi with
  | 0, _ | 1, _ | 2, _ | 3, _ | 4, _ | 5, _ | 6, _ | 7, _ => rfl

/-! ## Headers (R64, R65, R70) -/

theorem opcodeOf_eq_some_iff {b : Nat} {o : Opcode} : opcodeOf b = some o ↔ o.row.byte = b := by
  constructor
  · intro h
    simpa using List.find?_some h
  · rintro rfl
    cases o <;> rfl

/-- The fields of a legal header with opcode `o` (R64, R65, R70). -/
theorem checkHeader_eq_ok_iff {h : Word} {o : Opcode} : checkHeader h = .ok o ↔
    o.row.byte = bits h.toNat 0 8 ∧ bits h.toNat 17 15 = 0 ∧ (o.row.usesBlen = false → bits h.toNat 8 8 = 0) ∧
      (o.row.usesF = false → bits h.toNat 16 1 = 0) := by
  unfold checkHeader
  rw [← opcodeOf_eq_some_iff]
  cases opcodeOf (bits h.toNat 0 8) with
  | none => simp
  | some p =>
    simp only [Option.some.injEq]
    split_ifs <;> grind

/-- A header that `checkHeader` rejects is illegal (R70), not truncated. -/
theorem checkHeader_error {h : Word} {e : Reject} (he : checkHeader h = .error e) : e ≠ .truncated ∧ e ≠ .empty := by
  unfold checkHeader at he
  repeat' split at he
  all_goals cases he <;> decide

theorem row_byte_lt (o : Opcode) : o.row.byte < 2 ^ 8 := by cases o <;> decide

theorem bits_of_header (o : Opcode) {blen : Nat} (hb : fitsByte blen = true) (f : Bool) :
    bits (header o blen f).toNat 0 8 = o.row.byte ∧ bits (header o blen f).toNat 8 8 = blen ∧
      bits (header o blen f).toNat 16 1 = f.toNat ∧ bits (header o blen f).toNat 17 15 = 0 := by
  rw [fitsByte_iff] at hb
  have ho := row_byte_lt o
  have hf := f.toNat_le
  simp only [bits, header, BitVec.toNat_ofNat]
  omega

theorem header_blen (o : Opcode) {blen : Nat} (hb : fitsByte blen = true) (f : Bool) :
    bits (header o blen f).toNat 8 8 = blen := (bits_of_header o hb f).2.1

theorem header_flag (o : Opcode) (f : Bool) : (bits (header o 0 f).toNat 16 1 == 1) = f := by
  obtain ⟨-, -, hflag, -⟩ := bits_of_header o (blen := 0) rfl f
  rw [hflag]
  cases f <;> rfl

theorem checkHeader_header {o : Opcode} {blen : Nat} {f : Bool} (hfit : fitsByte blen = true)
    (hb : o.row.usesBlen = false → blen = 0) (hf : o.row.usesF = false → f = false) :
    checkHeader (header o blen f) = .ok o := by
  obtain ⟨hop, hblen, hflag, hrsv⟩ := bits_of_header o hfit f
  exact checkHeader_eq_ok_iff.mpr ⟨hop.symm, hrsv, fun hu => hblen.trans (hb hu), fun hu => by rw [hflag, hf hu]; rfl⟩

/-- A legal header is the one made of the fields its opcode uses: no other bit is set. -/
theorem header_of_checkHeader {h : Word} {o : Opcode} (hc : checkHeader h = .ok o) :
    header o (if o.row.usesBlen then bits h.toNat 8 8 else 0) (o.row.usesF && bits h.toNat 16 1 == 1) = h := by
  obtain ⟨hop, hrsv, hb, hf⟩ := checkHeader_eq_ok_iff.mp hc
  have hblen : (if o.row.usesBlen then bits h.toNat 8 8 else 0) = bits h.toNat 8 8 := by
    cases hu : o.row.usesBlen with
    | true => rfl
    | false => exact (hb hu).symm
  have hflag : (o.row.usesF && bits h.toNat 16 1 == 1).toNat = bits h.toNat 16 1 := by
    cases hu : o.row.usesF with
    | true => exact toNat_bit _ _
    | false => exact (hf hu).symm
  have hh := h.isLt
  apply BitVec.eq_of_toNat_eq
  simp only [header, hblen, hflag, hop, BitVec.toNat_ofNat]
  simp only [bits] at hrsv ⊢
  omega

/-! ## Operand assembly (R66, R67): byte 3 of `config`'s fourth operand word is reserved -/

theorem assemble_reserved {h : Word} {ws : List Word} (hr : pinByte ws 3 3 ≠ 0) :
    assemble .config h ws = .error .configReserved := if_pos hr

theorem exists_assemble_eq_ok {o : Opcode} (h : Word) {ws : List Word} (hr : o = .config → pinByte ws 3 3 = 0) :
    ∃ i, assemble o h ws = .ok i ∧ i.opcode = o := by
  cases o with
  | config => exact ⟨_, if_neg (not_not.mpr (hr rfl)), rfl⟩
  | _ => exact ⟨_, rfl, rfl⟩

theorem assemble_config_eq_ok_iff {h : Word} {ws : List Word} {i : Instr} : assemble .config h ws = .ok i ↔
    pinByte ws 3 3 = 0 ∧ .config (operandNat ws 0)
      #v[pinByte ws 1 0, pinByte ws 1 1, pinByte ws 1 2, pinByte ws 1 3,
        pinByte ws 2 0, pinByte ws 2 1, pinByte ws 2 2, pinByte ws 2 3]
      (pinByte ws 3 0) (pinByte ws 3 1) (pinByte ws 3 2) (operandNat ws 4) = i := by
  by_cases hr : pinByte ws 3 3 = 0
  · rw [show assemble .config h ws = .ok _ from if_neg (not_not.mpr hr), Except.ok.injEq]
    simp [hr]
  · simp [assemble_reserved hr, hr]

theorem assemble_wellFormed {o : Opcode} {h : Word} {ws : List Word} {i : Instr} (ha : assemble o h ws = .ok i) :
    i.wellFormed = true := by
  cases o with
  | config =>
    obtain ⟨-, rfl⟩ := assemble_config_eq_ok_iff.mp ha
    simp [Instr.wellFormed, pinByte, operandNat]
  | _ =>
    cases ha
    simp [Instr.wellFormed, operandNat]

/-- The encoder writes an assembled packet's words again. -/
theorem encode_of_assemble {o : Opcode} {h : Word} {ws : List Word} {i : Instr} (hc : checkHeader h = .ok o)
    (hl : ws.length = o.row.len - 1) (ha : assemble o h ws = .ok i) : encode i = h :: ws := by
  have hpacket := congrArg₂ List.cons (header_of_checkHeader hc) (map_operandWord hl)
  cases o with
  | config =>
    obtain ⟨hr, rfl⟩ := assemble_config_eq_ok_iff.mp ha
    have hpins := pinsWord_pinByte ws 3
    rw [hr] at hpins
    simp only [encode, natWord_operandNat, Vector.getElem_mk, List.getElem_toArray, List.getElem_cons_zero,
      List.getElem_cons_succ, pinsWord_pinByte, hpins]
    exact hpacket
  | _ =>
    cases ha
    simp only [encode, natWord_operandNat]
    exact hpacket

/-- A `config` packet's words assemble to it: four pin identifiers in each pin word, the last byte of the fourth zero. -/
theorem assemble_config {inst rd wr rs freq : Nat} {d : Vector Nat 8} (h : Word)
    (hi : (Instr.config inst d rd wr rs freq).wellFormed = true) :
    assemble .config h [natWord inst, pinsWord d[0] d[1] d[2] d[3], pinsWord d[4] d[5] d[6] d[7],
      pinsWord rd wr rs 0, natWord freq] = .ok (.config inst d rd wr rs freq) := by
  simp only [Instr.wellFormed, Bool.and_eq_true, Vector.all_toList, Vector.all_eq_true] at hi
  obtain ⟨⟨⟨⟨⟨hinst, hd⟩, hrd⟩, hwr⟩, hrs⟩, hfreq⟩ := hi
  generalize hws : [natWord inst, _, _, _, _] = ws
  have h1 : operandWord ws 1 = pinsWord d[0] d[1] d[2] d[3] := by rw [← hws]; rfl
  have h2 : operandWord ws 2 = pinsWord d[4] d[5] d[6] d[7] := by rw [← hws]; rfl
  have h3 : operandWord ws 3 = pinsWord rd wr rs 0 := by rw [← hws]; rfl
  obtain ⟨p0, p1, p2, p3⟩ := pinByte_of_operandWord h1 (hd 0 _) (hd 1 _) (hd 2 _) (hd 3 _)
  obtain ⟨p4, p5, p6, p7⟩ := pinByte_of_operandWord h2 (hd 4 _) (hd 5 _) (hd 6 _) (hd 7 _)
  obtain ⟨prd, pwr, prs, hr⟩ := pinByte_of_operandWord h3 hrd hwr hrs rfl
  have hin : operandNat ws 0 = inst := by rw [← hws]; exact toNat_natWord hinst
  have hfr : operandNat ws 4 = freq := by rw [← hws]; exact toNat_natWord hfreq
  refine assemble_config_eq_ok_iff.mpr ⟨hr, ?_⟩
  rw [p0, p1, p2, p3, p4, p5, p6, p7, prd, pwr, prs, hin, hfr, dataPins_eta]

/-- A well-formed instruction's packet: a legal header, and the operand words that assemble to it. -/
theorem encode_assembles {i : Instr} (hi : i.wellFormed = true) : ∃ h ws, encode i = h :: ws ∧
    checkHeader h = .ok i.opcode ∧ ws.length = i.len - 1 ∧ assemble i.opcode h ws = .ok i := by
  cases i with
  | config inst d rd wr rs freq =>
    exact ⟨_, _, rfl, checkHeader_header rfl (fun _ => rfl) (fun _ => rfl), rfl, assemble_config _ hi⟩
  | writeCommand v blen | writeData v blen | readData blen =>
    exact ⟨_, _, rfl, checkHeader_header hi nofun (fun _ => rfl), rfl, by
      simp [assemble, Instr.opcode, operandWord, header_blen _ hi]⟩
  | writeDataRepeat v blen count =>
    obtain ⟨hb, hn⟩ := Bool.and_eq_true_iff.mp hi
    refine ⟨_, _, rfl, checkHeader_header hb nofun (fun _ => rfl), rfl, ?_⟩
    simp [assemble, Instr.opcode, header_blen, operandNat, operandWord, toNat_natWord, hb, hn]
  | writeBytes a n f | readBytes a n f =>
    obtain ⟨ha, hn⟩ := Bool.and_eq_true_iff.mp hi
    refine ⟨_, _, rfl, checkHeader_header rfl (fun _ => rfl) nofun, rfl, ?_⟩
    simp [assemble, Instr.opcode, header_flag, operandNat, operandWord, toNat_natWord, ha, hn]
  | writePixels | readPixels =>
    simp only [Instr.wellFormed, Bool.and_eq_true] at hi
    refine ⟨_, _, rfl, checkHeader_header rfl (fun _ => rfl) (fun _ => rfl), rfl, ?_⟩
    simp [assemble, Instr.opcode, operandNat, operandWord, toNat_natWord, hi]
  | _ => exact ⟨_, _, rfl, checkHeader_header rfl (fun _ => rfl) (fun _ => rfl), rfl, rfl⟩

/-! ## Whole packets (R63, R64) -/

theorem decode_of_illegal_header {h : Word} {e : Reject} (hc : checkHeader h = .error e) (ws : List Word) :
    decode (h :: ws) = .error e := by
  simp [decode, hc]

theorem decode_of_short {h : Word} {o : Opcode} {ws : List Word} (hc : checkHeader h = .ok o)
    (hlen : ws.length < o.row.len - 1) : decode (h :: ws) = .error .truncated := by
  simp [decode, hc, hlen]

theorem decode_of_whole {h : Word} {o : Opcode} {ws : List Word} (hc : checkHeader h = .ok o)
    (hlen : o.row.len - 1 ≤ ws.length) :
    decode (h :: ws) = (assemble o h (ws.take (o.row.len - 1))).map fun i => (i, ws.drop (o.row.len - 1)) := by
  simp only [decode, hc, not_lt.mpr hlen, if_false]
  cases assemble o h (ws.take (o.row.len - 1)) <;> rfl

/-- A packet that decodes is a legal header, as many operand words as its opcode takes, and the words left. -/
theorem decode_eq_ok_iff {ws rest : List Word} {i : Instr} : decode ws = .ok (i, rest) ↔
    ∃ h args o, ws = h :: (args ++ rest) ∧ checkHeader h = .ok o ∧ args.length = o.row.len - 1 ∧
      assemble o h args = .ok i := by
  constructor
  · intro hd
    match ws with
    | h :: ws =>
      cases hc : checkHeader h with
      | error e => simp [decode_of_illegal_header hc] at hd
      | ok o =>
        obtain hlen | hlen := lt_or_ge ws.length (o.row.len - 1)
        · simp [decode_of_short hc hlen] at hd
        rw [decode_of_whole hc hlen] at hd
        cases ha : assemble o h (ws.take (o.row.len - 1)) with
        | error e => simp [ha, Except.map] at hd
        | ok j =>
          rw [ha] at hd
          cases hd
          exact ⟨h, _, o, by rw [List.take_append_drop], hc, List.length_take_of_le hlen, ha⟩
  · rintro ⟨h, args, o, rfl, hc, hlen, ha⟩
    simp [decode_of_whole hc, ← hlen, ha, Except.map]

/-- Settles O1: the packet's header and operand words assemble to the instruction. -/
theorem decodeEncodeRoundTrip : Obligations.DecodeEncodeRoundTrip := by
  unfold Obligations.DecodeEncodeRoundTrip
  intro i rest hi
  obtain ⟨h, args, he, hc, hlen, ha⟩ := encode_assembles hi
  exact decode_eq_ok_iff.mpr ⟨h, args, i.opcode, by rw [he, List.cons_append], hc, hlen, ha⟩

/-- Settles O2: the encoder writes the header and the operand words again. -/
theorem decodedPacketIsTheEncoding : Obligations.DecodedPacketIsTheEncoding := by
  unfold Obligations.DecodedPacketIsTheEncoding
  intro ws rest i hd
  obtain ⟨h, args, o, rfl, hc, hlen, ha⟩ := decode_eq_ok_iff.mp hd
  exact ⟨assemble_wellFormed ha, by rw [encode_of_assemble hc hlen ha, List.cons_append]⟩

/-- Settles O4: each packet's words are the encoding of the command. -/
theorem examplePacketsDecode : Obligations.ExamplePacketsDecode := by
  unfold Obligations.ExamplePacketsDecode
  exact ⟨decodeEncodeRoundTrip .init [] rfl,
    decodeEncodeRoundTrip .beginTransaction [] rfl,
    decodeEncodeRoundTrip (.writeCommand 0x2A#32 8) [] rfl,
    decodeEncodeRoundTrip (.writeData 0x1234#32 16) [] rfl,
    decodeEncodeRoundTrip (.writeDataRepeat 0xFFFF#32 16 5) [] rfl,
    decodeEncodeRoundTrip (.writeBytes 0x1000 5 true) [] rfl,
    decodeEncodeRoundTrip (.readData 8) [] rfl⟩

end Sys2Proof
end

section
/-!
PROOFS. The fetch (spec/30_encoding.md R64, R70, R80; R125): which headers are legal, in the spec's numbers, and what the
sequencer's turn makes of the words at the command pointer.
* `legalHeader_iff`: the spec's legal headers are those the decoder accepts.
* `decode_illegal`, `decode_truncated`, `decode_runs`: what the decoder answers to each kind of packet.
* `nextTurn_of_turn`: at its turn the sequencer fetches, so the step is the decoder's answer.
-/

namespace Sys2Proof.Machine

/-! ## Legal headers and the three kinds of packet -/

theorem mem_opcodeBytes_iff {b : Nat} : b ∈ opcodeBytes ↔ ∃ o : Opcode, o.row.byte = b := by
  constructor
  · intro h
    have hall : opcodeBytes = Opcode.all.map fun o => o.row.byte := rfl
    rw [hall, List.mem_map] at h
    obtain ⟨o, -, ho⟩ := h
    exact ⟨o, ho⟩
  · rintro ⟨o, rfl⟩
    cases o <;> decide

theorem usesBlen_eq_false_iff (o : Opcode) : o.row.usesBlen = false ↔ o.row.byte ∉ [0x10, 0x11, 0x12, 0x22] := by
  cases o <;> decide

theorem usesF_eq_false_iff (o : Opcode) : o.row.usesF = false ↔ o.row.byte ∉ [0x13, 0x23] := by
  cases o <;> decide

theorem bits_opcode (h : Word) : bits h.toNat 0 8 = opOf h := by simp [bits, opOf]

theorem bits_reserved (h : Word) : bits h.toNat 17 15 = h.toNat / 2 ^ 17 := by
  have := h.isLt
  simp only [bits]
  omega

theorem opOf_of_checkHeader {h : Word} {o : Opcode} (hc : checkHeader h = .ok o) : opOf h = o.row.byte := by
  rw [(checkHeader_eq_ok_iff.mp hc).1, bits_opcode]

theorem legalHeader_iff {h : Word} : LegalHeader h ↔ ∃ o, checkHeader h = .ok o := by
  simp only [checkHeader_eq_ok_iff, usesBlen_eq_false_iff, usesF_eq_false_iff, bits_opcode, bits_reserved]
  constructor
  · rintro ⟨hop, hfields⟩
    obtain ⟨o, ho⟩ := mem_opcodeBytes_iff.mp hop
    exact ⟨o, ho, ho ▸ hfields⟩
  · rintro ⟨o, ho, hfields⟩
    exact ⟨mem_opcodeBytes_iff.mpr ⟨o, ho⟩, ho ▸ hfields⟩

/-- The reserved byte of a `config` packet's operand words (R66). -/
theorem pinByte_take_reserved (ws : List Word) : pinByte (ws.take 5) 3 3 = (ws.getD 3 0#32).toNat / 2 ^ 24 := by
  have hw := (ws.getD 3 0#32).isLt
  have htake : operandWord (ws.take 5) 3 = ws.getD 3 0#32 := by simp [operandWord]
  simp only [pinByte, operandNat, htake, bits]
  omega

theorem row_byte_eq_one_iff (o : Opcode) : o.row.byte = 0x01 ↔ o = .config := by cases o <;> decide

theorem badConfigWord_iff {h : Word} {o : Opcode} (hc : checkHeader h = .ok o) (ws : List Word) :
    BadConfigWord h ws ↔ o = .config ∧ 5 ≤ ws.length ∧ pinByte (ws.take 5) 3 3 ≠ 0 := by
  rw [BadConfigWord, opOf_of_checkHeader hc, row_byte_eq_one_iff, pinByte_take_reserved]

theorem decode_illegal {h : Word} {ws : List Word} (hill : ¬ LegalHeader h ∨ BadConfigWord h ws) :
    ∃ e, decode (h :: ws) = .error e ∧ e ≠ .truncated ∧ e ≠ .empty := by
  cases hc : checkHeader h with
  | error e => exact ⟨e, decode_of_illegal_header hc ws, checkHeader_error hc⟩
  | ok o =>
    have hbad := hill.resolve_left (not_not.mpr (legalHeader_iff.mpr ⟨o, hc⟩))
    obtain ⟨rfl, hlen, hr⟩ := (badConfigWord_iff hc ws).mp hbad
    refine ⟨.configReserved, ?_, by decide, by decide⟩
    rw [decode_of_whole hc hlen, show Opcode.config.row.len - 1 = 5 from rfl, assemble_reserved hr]
    rfl

theorem decode_truncated {h : Word} {ws : List Word} (hl : LegalHeader h) (hlen : ws.length + 1 < packetLength (opOf h)) :
    decode (h :: ws) = .error .truncated := by
  obtain ⟨o, hc⟩ := legalHeader_iff.mp hl
  rw [opOf_of_checkHeader hc, packetLength_row] at hlen
  exact decode_of_short hc (by omega)

theorem decode_runs {h : Word} {ws : List Word} (hl : LegalHeader h) (hlen : packetLength (opOf h) ≤ ws.length + 1)
    (hbad : ¬ BadConfigWord h ws) :
    ∃ i, decode (h :: ws) = .ok (i, ws.drop (packetLength (opOf h) - 1)) ∧ i.opcode.row.byte = opOf h := by
  obtain ⟨o, hc⟩ := legalHeader_iff.mp hl
  rw [opOf_of_checkHeader hc, packetLength_row] at hlen ⊢
  have hwhole : o.row.len - 1 ≤ ws.length := by omega
  obtain ⟨i, ha, rfl⟩ := exists_assemble_eq_ok (o := o) h (ws := ws.take (o.row.len - 1)) fun ho => by
    subst ho
    by_contra hr
    exact hbad ((badConfigWord_iff hc ws).mpr ⟨rfl, hwhole, hr⟩)
  exact ⟨i, by rw [decode_of_whole hc hwhole, ha]; rfl, rfl⟩

/-! ## The sequencer's turn (R125) -/

theorem nextTurn_of_turn {s t : State} (h : SequencerTurn s t) : s.nextTurn = t.fetchTurn := by
  obtain ⟨hfault, hhold, href, hpc, ⟨hq, rfl⟩ | ⟨ms, hq, rfl⟩⟩ := h
  all_goals simp [State.nextTurn, State.sequencerDone, hfault, hhold, href, hpc, hq]

theorem turn_S {s t : State} (h : SequencerTurn s t) : t.S = s.S := by
  obtain ⟨-, -, -, -, ⟨-, rfl⟩ | ⟨ms, -, rfl⟩⟩ := h <;> rfl

theorem turn_fetchWords {s t : State} (h : SequencerTurn s t) : t.fetchWords = s.stream.drop s.S.pc := by
  obtain ⟨-, -, -, -, ⟨-, rfl⟩ | ⟨ms, -, rfl⟩⟩ := h <;> rfl

theorem step_of_illegal {s t : State} {e : Reject} (h : SequencerTurn s t) (hd : decode (s.stream.drop s.S.pc) = .error e)
    (ht : e ≠ .truncated) (he : e ≠ .empty) : step s = .next (t.takeFault .illegal) := by
  have hf : t.fetchTurn = .moved (t.takeFault .illegal) := by
    unfold State.fetchTurn
    rw [turn_fetchWords h, hd]
    cases e <;> simp_all
  simp [step, nextTurn_of_turn h, hf]

theorem step_of_truncated {s t : State} (h : SequencerTurn s t) (hd : decode (s.stream.drop s.S.pc) = .error .truncated) :
    step s = .next t.refuse := by
  have hf : t.fetchTurn = .moved t.refuse := by simp [State.fetchTurn, turn_fetchWords h, hd]
  simp [step, nextTurn_of_turn h, hf]

/-- Settles O3: the turn's step is the decoder's answer, and the decoder answers by the header and the length. -/
theorem fetchFaultsRefusesOrRuns : Obligations.FetchFaultsRefusesOrRuns := by
  unfold Obligations.FetchFaultsRefusesOrRuns
  intro s t h ws ht hw
  refine ⟨fun hill => ?_, fun hl hlen => ⟨?_, fun ms => ?_⟩, fun hl hlen hbad => ?_⟩
  · obtain ⟨e, hd, hne⟩ := decode_illegal hill
    rw [step_of_illegal ht (hw ▸ hd) hne.1 hne.2, State.takeFault, turn_S ht]
  · exact step_of_truncated ht (hw ▸ decode_truncated hl hlen)
  · simp [State.sequencerDone]
  · obtain ⟨i, hd, hop⟩ := decode_runs hl hlen hbad
    obtain ⟨hwf, henc⟩ := decodedPacketIsTheEncoding _ _ _ hd
    exact ⟨i, hd, hwf, henc, hop, by rw [← hop, packetLength_row]; rfl,
      stepRunsTheDecodedCommand s t i _ ht (hw ▸ hd)⟩

/-! ## Example transmit words (R72 to R76, R85) -/

/-- Settles O5: the transmit words and the sample are computed from the bytes. -/
theorem exampleTransmitWords : Obligations.ExampleTransmitWords := by
  unfold Obligations.ExampleTransmitWords
  decide

end Sys2Proof.Machine
end

section
/-!
PROOFS. The peripheral's agents: the pin invariant, the transmitter's and the DMA engine's step as a listed move, and the
faults a micro-operation raises.
* `step_listed`: a listed move of another agent is the step; one equation of `txStep` and `dmaStep` per branch.
* `raise_iff_of_ite`: a micro-operation with one fault raises it exactly under its condition.
-/

namespace Sys2Proof.Machine

variable {α : Type}

/-! ## The pin invariant (R90, R104, R131, R170) -/

/-- Settles O53: every command keeps the invariant (`exec_pinInv`), the other agents write none of its fields but the
transmitter's and the DMA engine's, and a fault or a refusal leaves what it says. -/
theorem stepKeepsPins : Obligations.StepKeepsPins := by
  unfold Obligations.StepKeepsPins
  intro s t hs h
  exact step_keeps (fun _ _ k => k.of_eq rfl rfl rfl rfl) (fun _ m k => k.moved m) (fun _ c k => k.takeFault c)
    (fun _ k => k.of_eq rfl rfl rfl rfl) (fun _ _ _ => exec_pinInv) hs h

/-! ## The transmitter and the DMA engine, branch by branch (R87 to R91, R97) -/

/-- A listed move of another agent is the whole step. -/
theorem step_listed {s : State} {m : Move} {ms : List Move} (hf : s.S.fault = none) (hq : s.E.sched = m :: ms)
    (hm : m ≠ .seq) : step s = .next ((s.setSched ms).moved m) := by
  simp [step, State.nextTurn, hf, hq, hm]

theorem step_tx {s t : State} {ms : List Move} (hf : s.S.fault = none) (hq : s.E.sched = .tx :: ms)
    (ht : txStep (s.setSched ms) = some t) : step s = .next t := by
  rw [step_listed hf hq (by decide), State.moved, ht, Option.getD_some]

theorem step_dma {s t : State} {ms : List Move} (hf : s.S.fault = none) (hq : s.E.sched = .dma :: ms)
    (ht : dmaStep (s.setSched ms) = some t) : step s = .next t := by
  rw [step_listed hf hq (by decide), State.moved, ht, Option.getD_some]

theorem radioOn_iff {s : State} : s.radioOn = true ↔ s.E.radioClkEn ≠ 0#32 := by simp [State.radioOn]

theorem txStep_latch {s : State} (hp : s.P.tx.latchPending = true) :
    txStep s = some (s.setTx { s.P.tx with latchPending := false }) := by
  simp [txStep, hp]

section
variable {s : State} (hr : s.P.tx.running = true) (hp : s.P.tx.latchPending = false)
include hr hp

theorem txStep_fifo {w : Word} {ws : List Word} (hd : s.P.regs.fconf.dscrEn = false) (hq : s.P.fifo = w :: ws) :
    txStep s = some ((s.setFifo ws).cycles (samplesOf s.P.regs.src w)) := by
  simp [txStep, hr, hp, hd, hq]

theorem txStep_load {x : Sample} {xs : List Sample} (hd : s.P.regs.fconf.dscrEn = true)
    (hl : s.P.dma.latched = true) (hq : s.P.dma.stream = x :: xs) :
    txStep s = some (if s.radioOn then s.takeFault .radioDma else (s.setDma { s.P.dma with stream := xs }).cycle x) := by
  simp [txStep, hr, hp, hd, hl, hq]

theorem txStep_finish (h : s.drained) : txStep s = some s.finish := by
  obtain ⟨hd, hq⟩ | ⟨hd, ⟨hl, hq⟩ | ⟨hl, ho⟩⟩ := h
  · simp [txStep, hr, hp, hd, hq]
  · simp [txStep, hr, hp, hd, hl, hq]
  · simp [txStep, hr, hp, hd, hl, ho]

end

theorem dmaStep_load {s : State} (hl : s.P.dma.loaded = true) (ha : s.P.dma.latched = false)
    (hd : s.P.regs.fconf.dscrEn = true) :
    dmaStep s = some (if s.radioOn then s.takeFault .radioDma else s.setDma { s.P.dma with
      latched := true, stream := (s.P.scratch s.P.dma.buf).take (s.P.desc.length / 2) }) := by
  simp [dmaStep, hl, ha, hd]

theorem finish_fifoMode {s : State} (hd : s.P.regs.fconf.dscrEn = false) :
    s.finish = s.setTx { s.P.tx with running := false } := by
  simp [State.finish, hd]

theorem finish_dmaMode {s : State} (hd : s.P.regs.fconf.dscrEn = true) :
    s.finish = ((s.setTx { s.P.tx with running := false }).setDma
      { s.P.dma with loaded := false, latched := false }).setDescriptor { s.P.desc with owner := false } := by
  simp [State.finish, hd]

theorem extractLsb'_low {n k i j : Nat} {w : BitVec n} (h : j ≤ k) :
    (w.extractLsb' i k).extractLsb' 0 j = w.extractLsb' i j := by
  ext l hl
  simp [show l < k by omega]

/-- The write cycles of one transmit word, by the sample width (R73, R74). -/
theorem samplesOf_cycles (width : Width) (w : Word) : (samplesOf width w).map cycleOf = match width with
    | .w32 => [.wr (w.getLsbD 24) (w.extractLsb' 16 8)]
    | .w16 => [.wr (w.getLsbD 24) (w.extractLsb' 16 8), .wr (w.getLsbD 8) (w.extractLsb' 0 8)] := by
  have high : cycleOf (w.extractLsb' 16 16) = .wr (w.getLsbD 24) (w.extractLsb' 16 8) := by
    rw [cycleOf, extractLsb'_low (by decide)]
    simp
  have low : cycleOf (w.extractLsb' 0 16) = .wr (w.getLsbD 8) (w.extractLsb' 0 8) := by
    rw [cycleOf, extractLsb'_low (by decide)]
    simp
  cases width <;> simp [samplesOf, high, low]

/-- Settles O8: each clause is one branch of `txStep`, and in write routing a drained sample puts its cycle on the bus. -/
theorem transmitterSteps : Obligations.TransmitterSteps := by
  unfold Obligations.TransmitterSteps
  rintro s u ms hf hq hw rfl
  refine ⟨fun hp => step_tx hf hq (txStep_latch hp), fun hr hp => ⟨fun w ws hd hfifo => ?_, fun h hs hd hl hstream => ?_,
    fun hd hfifo => ?_, fun hd h => ?_⟩⟩
  · refine ⟨_, step_tx hf hq (txStep_fifo (s := s.setSched ms) hr hp hd hfifo), ?_⟩
    have hbus := cycles_bus (s := (s.setSched ms).setFifo ws) hw (samplesOf s.P.regs.src w)
    rw [samplesOf_cycles] at hbus
    exact ⟨by simp, by simp [State.setFifo], by simp, by simp, by simp, hbus⟩
  · have ht := step_tx hf hq (txStep_load (s := s.setSched ms) hr hp hd hl hstream)
    have hradio := radioOn_iff (s := s.setSched ms)
    refine ⟨fun hon => ?_, fun hoff => ?_⟩
    · rwa [if_pos (hradio.mpr hon)] at ht
    · rw [if_neg (mt hradio.mp (not_not_intro hoff))] at ht
      exact ⟨_, ht, by simp, by simp [State.setDma], by simp, by simp, by simp, by simp [cycle_bus, hw, cycleOf]⟩
  · have ht := step_tx hf hq (txStep_finish (s := s.setSched ms) hr hp (.inl ⟨hd, hfifo⟩))
    rwa [finish_fifoMode (s := s.setSched ms) hd] at ht
  · have ht := step_tx hf hq (txStep_finish (s := s.setSched ms) hr hp (.inr ⟨hd, h.symm.imp id And.symm⟩))
    rwa [finish_dmaMode (s := s.setSched ms) hd] at ht

/-- Settles O9: the engine's one branch, with the radio on and off. -/
theorem dmaEngineStep : Obligations.DmaEngineStep := by
  unfold Obligations.DmaEngineStep
  rintro s u ms hf hq rfl hl ha hd
  have ht := step_dma hf hq (dmaStep_load (s := s.setSched ms) hl ha hd)
  have hradio := radioOn_iff (s := s.setSched ms)
  refine ⟨fun hon => ?_, fun hoff => ?_⟩
  · rwa [if_pos (hradio.mpr hon)] at ht
  · rwa [if_neg (mt hradio.mp (not_not_intro hoff))] at ht

/-! ## The faults of the micro-operations (R92, R104 to R119) -/

/-- A micro-operation with one fault raises that fault, exactly under its condition. -/
theorem raise_iff_of_ite {p : Prop} [Decidable p] {d c : FaultCode} {a : α} {t : State} :
    (if p then Effect.raise d else .done a t) = .raise c ↔ c = d ∧ p := by
  by_cases h : p <;> simp [h, eq_comm (a := c)]

theorem regHazard_iff {s : State} {v : RegImage} : s.regHazard v = true ↔
    v.reg ∈ [.src, .fconf, .clkm, .outlink] ∧ s.P.tx.running = true ∨ v.reg = .outlink ∧ s.P.dma.loaded = true := by
  cases v <;> simp [State.regHazard, RegImage.reg]

theorem padHazard_iff {s : State} {r : Role} : s.padHazard r = true ↔ r ≠ .rd ∧ s.P.tx.running = true := by
  cases r <;> simp [State.padHazard, Role.driven]

theorem regWriteOp_raise_iff {s : State} {c : FaultCode} (v : RegImage) :
    regWriteOp v s = .raise c ↔ c = .hazard ∧ s.regHazard v = true := raise_iff_of_ite

/-- The output-link start raises what its register write raises (R118). -/
theorem outLinkStartOp_raise_iff {s : State} {c : FaultCode} :
    outLinkStartOp s = .raise c ↔ c = .hazard ∧ (s.P.tx.running = true ∨ s.P.dma.loaded = true) := by
  have hreg := regWriteOp_raise_iff (s := s) (c := c) (.outlink ⟨Config.physAddr s.S.desc.addr, true⟩)
  simp only [regHazard_iff, RegImage.reg] at hreg
  unfold outLinkStartOp
  cases h : regWriteOp (.outlink ⟨Config.physAddr s.S.desc.addr, true⟩) s <;> simpa [h] using hreg

theorem txStartOp_raise_iff {s : State} {c : FaultCode} :
    txStartOp s = .raise c ↔ c = .hazard ∧ s.P.tx.running = true ∨ c = .dmaLatch ∧ s.P.tx.running = false ∧
      s.P.regs.fconf.dscrEn = true ∧ s.P.dma.loaded = true ∧ s.P.dma.latched = false := by
  unfold txStartOp
  cases hr : s.P.tx.running with
  | true => simp [eq_comm (a := c)]
  | false => simp only [Bool.false_eq_true, if_false, raise_iff_of_ite, and_false, false_or, Bool.and_eq_true,
      Bool.not_eq_true', true_and, and_assoc]

theorem descAllocOp_raise_iff {s : State} {c : FaultCode} (n : Nat) :
    descAllocOp n s = .raise c ↔ c = .hazard ∧ s.P.dma.loaded = true ∨
      c = .alloc ∧ s.P.dma.loaded = false ∧ s.allocAnswer = none := by
  unfold descAllocOp
  cases hl : s.P.dma.loaded with
  | true => simp [eq_comm (a := c)]
  | false => cases s.allocAnswer <;> simp [eq_comm (a := c)]

/-- A pad operation raises the routing hazard (R104). -/
theorem padOp_raise_iff {s t : State} {r : Role} {c : FaultCode} :
    (if s.padHazard r then Effect.raise .hazard else .done () t) = .raise c ↔
      c = .hazard ∧ r ≠ .rd ∧ s.P.tx.running = true := by
  rw [raise_iff_of_ite, padHazard_iff]

/-- Settles O11: one lemma per micro-operation that can fault; the others answer a state. -/
theorem hazardsFault : Obligations.HazardsFault := by
  unfold Obligations.HazardsFault
  intro s c
  refine ⟨fun v => ?_, outLinkStartOp_raise_iff, fun w => raise_iff_of_ite, txStartOp_raise_iff,
    fun r slot => padOp_raise_iff, fun r l => padOp_raise_iff, fun r d => padOp_raise_iff, fun r => padOp_raise_iff,
    fun copy v => ?_, fun d => raise_iff_of_ite, raise_iff_of_ite, descAllocOp_raise_iff, ?_⟩
  · rw [regWriteOp_raise_iff, regHazard_iff]
  · rw [bufWriteOp, raise_iff_of_ite, Bool.and_eq_true, beq_iff_eq]
  · exact ⟨(nomatch ·), (nomatch ·), fun _ => (nomatch ·), (nomatch ·), (nomatch ·), (nomatch ·), (nomatch ·),
      fun _ _ => (nomatch ·), fun _ => (nomatch ·), fun _ _ => (nomatch ·), fun _ _ _ _ => (nomatch ·),
      fun _ _ _ _ => (nomatch ·)⟩

end Sys2Proof.Machine
end

section
/-!
PROOFS. A scalar write right after a start, with polls that can be stale (R92 to R94).
* `micro_unblocked`: with no move listed a micro-operation that nothing blocks is performed at once.
* `scalarWrite_stale`: the wait passes on the stale flag, the words are queued, the start faults.
-/

namespace Sys2Proof.Machine

variable {α : Type}

/-- With no move listed, a micro-operation that nothing blocks is performed at once. -/
theorem micro_unblocked {blocked : State → Option Hold} {op : State → Effect α} {s : State} (hq : s.E.sched = [])
    (hb : blocked s = none) : micro blocked op s = perform op s := by
  simp [micro, hq, await, hwFuel, settle, hb]

theorem atom_unblocked {op : State → Effect α} {s : State} (hq : s.E.sched = []) : atom op s = perform op s :=
  micro_unblocked hq rfl

/-- Without `P_START_LATCH` a wait passes on a start that is not latched: the idle flag is stale (R93, R94). -/
theorem waitIdle_stale {s : State} (hq : s.E.sched = []) (hlatch : s.par.pStartLatch = false)
    (hp : s.P.tx.latchPending = true) : waitIdle s = .ok () (s.emit .wait) := by
  refine (micro_unblocked hq ?_).trans (perform_done rfl)
  simp [State.waitReady, State.pollReady, State.idleFlag, hlatch, hp]

/-- Words pushed where the FIFO has room for them, with no move listed. -/
theorem forEach_fifoPush {s : State} {ws : List Word} (hq : s.E.sched = [])
    (hn : s.P.fifo.length + ws.length ≤ s.par.fifoDepth) :
    forEach fifoPush ws s = .ok () ((s.setFifo (s.P.fifo ++ ws)).logged (ws.map .push)) := by
  induction ws generalizing s with
  | nil => simp [forEach, State.logged, State.setFifo]
  | cons w ws ih =>
    rw [List.length_cons] at hn
    have hpush : fifoPush w s = .ok () ((s.setFifo (s.P.fifo ++ [w])).emit (.push w)) :=
      (atom_unblocked hq).trans (perform_done (if_neg (by omega)))
    have hrest := ih (s := (s.setFifo (s.P.fifo ++ [w])).emit (.push w)) hq (by simp; omega)
    refine (Act_bind_ok hpush).trans (hrest.trans ?_)
    simp [State.logged, State.setFifo, State.emit]

theorem txStart_running {s : State} (hq : s.E.sched = []) (hr : s.P.tx.running = true) :
    txStart s = .error .faulted (s.takeFault .hazard) :=
  (atom_unblocked hq).trans (perform_raise (txStartOp_raise_iff.mpr (.inl ⟨rfl, hr⟩)))

/-- `ScalarWrite` right after a start: only its `Start` meets the running transmission. -/
theorem scalarWrite_stale {s : State} {tag : Bool} {v : Word} {b : Nat} (hq : s.E.sched = [])
    (hlatch : s.par.pStartLatch = false) (htx : s.P.tx = ⟨true, true⟩) (hm : s.S.mode = .scalar32)
    (hn : s.P.fifo.length + scalarBytes b ≤ s.par.fifoDepth) :
    scalarWrite tag v b s = .error .faulted (((s.emit .wait).setFifo (s.P.fifo ++ scalarWords tag v b)).logged
      ((scalarWords tag v b).map .push) |>.takeFault .hazard) := by
  have hwords : (s.emit .wait).P.fifo.length + (scalarWords tag v b).length ≤ (s.emit .wait).par.fifoDepth := by
    simpa [scalarWords] using hn
  exact (Act_bind_ok (waitIdle_stale hq hlatch (by rw [htx]))).trans <|
    (Act_bind_ok (ensureMode_same (s := s.emit .wait) hm)).trans <|
    (Act_bind_ok (forEach_fifoPush (s := s.emit .wait) hq hwords)).trans <| txStart_running hq (congrArg Tx.running htx)

theorem scalarBytes_le {b : Nat} (hb : b ≤ 32) : scalarBytes b ≤ 4 := by
  unfold scalarBytes ceil8
  omega

theorem scalarWords_data (v : Word) (b : Nat) : scalarWords true v b =
    (List.range (max 1 ((b + 7) / 8))).map fun i => upperWord 1 (byteAt v i) := by
  simp [scalarWords, scalarBytes, ceil8, WS_byteOf]

/-- Settles O28: the command's checks pass, and `ScalarWrite` is `scalarWrite_stale`. -/
theorem staleIdleRestartFaults : Obligations.StaleIdleRestartFaults := by
  unfold Obligations.StaleIdleRestartFaults
  intro s v b _ hlife htxn hread hq hlatch htx hmode hb hroom
  have hn : s.P.fifo.length + scalarBytes b ≤ s.par.fifoDepth := by
    have := scalarBytes_le hb
    omega
  have hbody := scalarWrite_stale (tag := true) (v := v) hq hlatch htx hmode hn
  have hchecks : exec (.writeData v b) s = command .writeData (scalarWrite true v b) s := by
    show command .writeData (writeChecks >>= fun _ => _) s = _
    rw [writeChecks_bind, needInitialised, needTxn, needNotReading, needOperand]
    simp only [command_check, hlife, htxn, hread, legalBitLength, hb]
    rfl
  rw [hchecks, command, hbody, scalarWords_data]
  simp [State.logged, State.emit, State.setFifo, State.takeFault]

end Sys2Proof.Machine
end

section
/-!
PROOFS. The commands without a micro-operation, `config` and `release` (R126, R127), and the clock divider (R134, R136).
* `cfgValid_iff`: the validity check of a configuration, as R14 writes it.
* `divider_eq`: the divider is `1 + f div (1 + w)` clamped to 4 and 32; its laws are those of the quotient.
-/

namespace Sys2Proof.Machine

/-! ## config and release (R14, R126, R127) -/

theorem pairwiseDistinct_iff {ps : List Nat} : pairwiseDistinct ps = true ↔ ps.Nodup := by
  induction ps with
  | nil => simp [pairwiseDistinct]
  | cons p ps ih => simp [pairwiseDistinct, ih]

/-- The validity check of a configuration (R14). -/
theorem cfgValid_iff {c : Cfg} {p : Params} : c.valid p = true ↔
    c.pins.Nodup ∧ (∀ k ∈ c.pins, k < p.numGpio) ∧ (∀ k ∈ c.pinD.toList, k < 32) ∧ c.inst ∈ p.instances ∧
      1 ≤ c.freqWrite ∧ c.freqWrite ≤ 2 ^ 32 - 2 := by
  simp only [Cfg.valid, Bool.and_eq_true, pairwiseDistinct_iff, List.all_eq_true, decide_eq_true_eq,
    List.contains_iff_mem, and_assoc]

/-- `config` is its two checks in order and the effect. -/
theorem exec_config (s : State) (inst : Nat) (d : Vector Nat 8) (rd wr rs freq : Nat) :
    exec (.config inst d rd wr rs freq) s = .next (
      if s.S.life = .initialised then s.takeFault .lifecycle
      else if Cfg.valid ⟨inst, d, rd, wr, rs, freq⟩ s.par = true then
        ((s.setCfg ⟨inst, d, rd, wr, rs, freq⟩).setLife .configured).advance 6
      else s.takeFault .config) := by
  refine (command_check _ _ _ _ _).trans ?_
  rw [command_check, command_update]
  cases s.S.life with
  | initialised => simp
  | reset | configured => simp; split <;> rfl

/-- Settles O16: one branch of `exec_config` per clause. -/
theorem configCommand : Obligations.ConfigCommand := by
  unfold Obligations.ConfigCommand
  intro s inst d rd wr rs freq valid
  have hvalid : Cfg.valid ⟨inst, d, rd, wr, rs, freq⟩ s.par = true ↔ valid := cfgValid_iff
  rw [exec_config]
  refine ⟨fun hlife => ?_, fun hlife hv => ?_, fun hlife hv => ?_⟩
  · rw [if_pos hlife]; rfl
  · rw [if_neg hlife, if_neg (mt hvalid.mp hv)]; rfl
  · rw [if_neg hlife, if_pos (hvalid.mpr hv)]; rfl

/-- Settles O17: no check and no micro-operation, so the advance is all. -/
theorem releaseCommand : Obligations.ReleaseCommand := by
  unfold Obligations.ReleaseCommand
  exact fun s => command_pure .release s

/-! ## The clock divider (R134, R136) -/

theorem divider_eq (f w : Nat) : divider f w = min (max (1 + f / (1 + w)) 4) 32 := rfl

/-- The clamp keeps the order of the quotients. -/
theorem divider_le_of_quotient_le {f w f' w' : Nat} (h : f / (1 + w) ≤ f' / (1 + w')) :
    divider f w ≤ divider f' w' := by
  rw [divider_eq, divider_eq]
  omega

/-- Settles O19: a bound on `f` is a bound on the quotient, and the clamp decides the rest. -/
theorem dividerLaws : Obligations.DividerLaws := by
  unfold Obligations.DividerLaws
  intro f w
  have hpos : 0 < 1 + w := by omega
  have hlow : f / (1 + w) < 4 ↔ f < 4 * (1 + w) := Nat.div_lt_iff_lt_mul hpos
  have hhigh : 31 ≤ f / (1 + w) ↔ 31 * (1 + w) ≤ f := Nat.le_div_iff_mul_le hpos
  refine ⟨?_, ?_, fun h4 h31 => ?_, fun f' hf => ?_, fun w' hw => ?_⟩
  · rw [← hlow, divider_eq]; omega
  · rw [← hhigh, divider_eq]; omega
  · have hq4 := mt hlow.mp (Nat.not_lt.mpr h4)
    have hq31 := mt hhigh.mp (Nat.not_le.mpr h31)
    rw [divider_eq]; omega
  · exact divider_le_of_quotient_le (Nat.div_le_div_right hf)
  · exact divider_le_of_quotient_le (Nat.div_le_div_left (by omega) hpos)

end Sys2Proof.Machine
end

section
/-!
PROOFS. `beginTransaction` (R139): the wait, then the cache and the registers.
* `command_bind_ok`, `command_bind_error`: a command whose first part is known.
* `command_beginTail_still`: with nothing transmitted, what follows the wait ends in `State.begun`, exactly.
* `waitIdle_ends`, `waitIdle_progress`: all a wait can do, and where it ends when nothing hinders it.
* `command_beginTail_running`: after a stale wait the first register write meets the running transmission.
-/

namespace Sys2Proof.Machine

variable {α : Type}

theorem command_bind_ok {o : Opcode} {m : Act α} {f : α → Act Unit} {s t : State} {a : α} (h : m s = .ok a t) :
    command o (m >>= f) s = command o (f a) t := by
  simp only [command, Act_bind_ok h]

theorem command_bind_error {o : Opcode} {m : Act α} {f : α → Act Unit} {s t : State} {e : Stop} (h : m s = .error e t) :
    command o (m >>= f) s = .next t := by
  simp only [command, Act_bind_error h]

/-- What `beginTransaction` writes once its cache is up to date. -/
def beginWrites (c : ClkmImage) : Act Unit := do
  regWrite (.clkm c)
  regWrite (.src .w32)
  regWrite (.fconf ⟨.scalar, false⟩)

/-- What `beginTransaction` does after its wait. -/
def beginTail : Act Unit := do
  let f ← queryBusClock
  update fun t => t.setCache (t.cacheFor f)
  let t ← get
  beginWrites t.S.cache.clkm
  update fun u => (u.setMode .scalar32).setTxn true

/-- `beginTransaction` outside a transaction. -/
theorem exec_beginTransaction {s : State} (hl : s.S.life = .initialised) (ht : s.S.txn = false) :
    exec .beginTransaction s = command .beginTransaction (waitIdle >>= fun _ => beginTail) s := by
  refine (command_check _ _ _ _ _).trans ?_
  rw [command_check]
  simp only [hl, ht, beginTail, beginWrites, bind_assoc]
  rfl

/-- `wait` after `init`. -/
theorem exec_wait {s : State} (hl : s.S.life = .initialised) : exec .wait s = command .wait waitIdle s := by
  refine (command_check _ _ _ _ _).trans ?_
  simp only [hl]
  rfl

/-- Once the clock has answered, the cache is updated and written. -/
theorem command_beginTail {o : Opcode} {s t : State} (h : queryBusClock s = .ok s.clockAnswer t) (hS : t.S = s.S)
    (hp : t.par = s.par) : command o beginTail s =
      command o (beginWrites (s.cacheAt s.clockAnswer).clkm >>= fun _ =>
        update fun u => (u.setMode .scalar32).setTxn true) (t.setCache (s.cacheAt s.clockAnswer)) := by
  have hc : t.cacheFor s.clockAnswer = s.cacheAt s.clockAnswer := by
    rw [cacheAt_eq, State.cacheFor, State.cacheFor, hS, hp]
  rw [← hc]
  exact command_bind_ok h

/-- From a state in which nothing is transmitted, outside a transaction: the state of the rules. -/
theorem command_beginTail_still {s : State} (h : Still s) (ht : s.S.txn = false) :
    command .beginTransaction beginTail s = .next s.begun := by
  have hstill : Still ((s.turned.afterClock.emit (.clock s.clockAnswer)).setCache (s.cacheAt s.clockAnswer)) :=
    Still_setCache (Still_emit (Still_afterClock (Still_turned h)) _) _
  have hwrites : beginWrites (s.cacheAt s.clockAnswer).clkm _ = _ :=
    regWrites_still hstill (by simpa using ht) (s.cacheAt s.clockAnswer).clkm .w32 ⟨.scalar, false⟩
  rw [command_beginTail (queryBusClock_still h) (by simp) (by simp), command_bind_ok hwrites, command_update,
    turned_afterClock]
  simp [State.begun, State.turned, passed, State.setSched, State.setRadio, State.emit, State.logged, State.setCache,
    State.setMode, State.setTxn, State.advance, turnsLeft, movesIn, radioAfter_append, Opcode.row]

/-- After a wait that ended with nothing transmitted. -/
theorem exec_beginTransaction_waited {s t : State} (hl : s.S.life = .initialised) (ht : s.S.txn = false)
    (hw : waitIdle s = .ok () t) (hS : t.S = s.S) (h : Still t) : exec .beginTransaction s = .next t.begun := by
  rw [exec_beginTransaction hl ht, command_bind_ok hw, command_beginTail_still h (by rw [hS, ht])]

/-! ## The wait (R109, R140) -/

/-- A wait ends with the sequencer's registers as they were, or stops. -/
theorem waitIdle_ends {s : State} (h : s.live) :
    (∃ t, waitIdle s = .ok () t ∧ t.live ∧ t.S = s.S) ∨ ∃ e t, waitIdle s = .error e t ∧ ¬ t.live := by
  rcases micro_cases (fun s => if s.waitReady then none else some .waitIdle) waitIdleOp s with
    ⟨t, _, u, hw, hr, -, ho⟩ | ⟨t, c, hw, -⟩ | ⟨t, m, hw, -, hf⟩ | ⟨t, x, hw, -⟩
  · cases ho
    have hS : t.S = s.S := Reaches_S hr
    exact .inl ⟨_, hw, by simpa [State.live, hS] using h, hS⟩
  · exact .inr ⟨_, _, hw, takeFault_not_live t c⟩
  · exact .inr ⟨_, _, hw, fun hl => hf hl.1⟩
  · exact .inr ⟨_, _, hw, setHold_not_live t x⟩

/-- `wait` stops where its one micro-operation stops, and else advances the command pointer. -/
theorem exec_wait_of_ok {s t : State} (hl : s.S.life = .initialised) (hw : waitIdle s = .ok () t) :
    exec .wait s = .next (t.advance 1) := by
  rw [exec_wait hl, command, hw]; rfl

theorem exec_wait_of_error {s t : State} {e : Stop} (hl : s.S.life = .initialised) (hw : waitIdle s = .error e t) :
    exec .wait s = .next t := by
  rw [exec_wait hl, command, hw]

theorem advance_with_pc {s t : State} (h : t.S = s.S) (n : Nat) :
    ({ t.advance n with S := { (t.advance n).S with pc := s.S.pc } } : State) = t := by
  rw [← h]; rfl

/-- `beginTransaction` goes on where `wait` ends, and stops where it stops. -/
theorem exec_beginTransaction_of_wait {s u : State} (h : s.live) (hl : s.S.life = .initialised) (ht : s.S.txn = false)
    (hu : exec .wait s = .next u) :
    (u.live → Still u → exec .beginTransaction s = .next ({ u with S := { u.S with pc := s.S.pc } } : State).begun) ∧
    (¬ u.live → exec .beginTransaction s = .next u) := by
  obtain ⟨t, hw, htl, hS⟩ | ⟨e, t, hw, htl⟩ := waitIdle_ends h
  · rw [exec_wait_of_ok hl hw] at hu
    cases hu
    rw [advance_with_pc hS]
    exact ⟨fun _ hstill => exec_beginTransaction_waited hl ht hw hS hstill, fun hn => absurd htl hn⟩
  · rw [exec_wait_of_error hl hw] at hu
    cases hu
    exact ⟨fun hul => absurd hul htl, fun _ => by rw [exec_beginTransaction hl ht, command_bind_error hw]⟩

/-! ## A wait on a running transmission (R94, R109) -/

/-- No poll is stale, the peripheral's steps are taken, and a load meets a quiet radio. -/
structure Unhindered (s : State) : Prop where
  latch : s.par.pStartLatch = true ∨ s.P.tx.latchPending = false
  progress : s.par.hwProgress = true
  radio : s.P.regs.fconf.dscrEn = true → RadioOff s

/-- No move sets the latch mark. -/
theorem moved_latchPending {s : State} (m : Move) (h : s.P.tx.latchPending = false) :
    (s.moved m).P.tx.latchPending = false := by
  have p := moved_P s m
  generalize (s.moved m).P = Q at p
  cases p <;> simp_all

theorem Unhindered.moved {s : State} {m : Move} (hl : s.par.pStartLatch = true ∨ s.P.tx.latchPending = false)
    (hp : s.par.hwProgress = true) (hr : s.P.regs.fconf.dscrEn = true → RadioOff (s.moved m)) :
    Unhindered (s.moved m) := by
  have b := moved_beside s m
  refine ⟨?_, by rw [b.par]; exact hp, fun hd => hr (by rw [b.regs] at hd; exact hd)⟩
  rw [b.par]
  exact hl.imp_right (moved_latchPending m)

theorem Unhindered_stable : Stable Unhindered where
  took h e := ⟨h.latch, h.progress, fun hd => RadioOff_took (h.radio hd) e⟩
  listed {u _ ms} h e _ := .moved (s := u.setSched ms) h.latch h.progress fun hd => RadioOff_listed (h.radio hd) e
  settled h _ _ hw _ := by
    obtain ⟨m, rfl⟩ := hwStep_moved hw
    exact .moved h.latch h.progress fun hd => RadioOff_settled (h.radio hd) hw

/-- An unhindered poll answers idle only when the transmitter has finished. -/
theorem Unhindered.finished {s : State} (h : Unhindered s) (hw : s.waitReady = true) :
    s.P.tx.latchPending = false ∧ s.P.tx.running = false := by
  simp only [State.waitReady, State.pollReady, State.idleFlag, Bool.and_eq_true, Bool.not_eq_true',
    Bool.and_eq_false_iff, Bool.or_eq_true] at hw
  obtain ⟨hpoll, hidle⟩ := hw
  have hp : s.P.tx.latchPending = false := by
    rcases h.latch with hl | hp
    · simpa [hl] using hpoll
    · exact hp
  exact ⟨hp, by simpa [hp] using hidle⟩

/-- A write command's state from which no move takes a fault. -/
theorem Sending.not_fails {g r : Prop} {s t : State} (h : Sending g r s) (hu : Unhindered s) : ¬ Fails s t := by
  refine not_Fails ?_ h.writing.live.1
  cases hd : s.P.regs.fconf.dscrEn with
  | true => exact .inl (hu.radio hd)
  | false =>
    have hl : s.P.dma.loaded ≠ true := fun k => by simp [h.writing.load_mode k] at hd
    exact .inr ⟨by simpa using hl, by simpa using mt h.writing.latched_loaded hl⟩

theorem tx_idle {s : State} (hp : s.P.tx.latchPending = false) (hr : s.P.tx.running = false) :
    s.P.tx = ⟨false, false⟩ := by
  cases h : s.P.tx
  simp_all

/-- An unhindered wait comes to its turn with everything sent and the peripheral idle. -/
theorem waitIdle_progress {s : State} (h : Sending False True s) (hu : Unhindered s) :
    ∃ t, waitIdle s = .ok () (t.emit .wait) ∧ t.S = s.S ∧ Still t ∧ t.bus = s.bus ++ s.pending := by
  have hstable := ((Sending_stable (g := False) (r := True)).with_view (fun _ k => k.writing) s.view).and
    Unhindered_stable
  rcases micro_waits (blocked := fun s => if s.waitReady then none else some .waitIdle) (op := waitIdleOp)
    h.writing.live.1 with ⟨t, _, u, hw, w, hb, ho⟩ | ⟨t, c, -, -, -, ho⟩ | ⟨t, v, -, w, hf⟩ | ⟨t, x, -, w, hb, -, hn⟩
  · cases ho
    obtain ⟨⟨hs, hv⟩, hut⟩ := hstable.waits w ⟨⟨h, rfl⟩, hu⟩
    obtain ⟨hp, hr⟩ := hut.finished (by simpa using hb)
    obtain ⟨hf, hl⟩ := hs.idle hr
    have hout : t.output = s.output := congrArg View.output hv
    rw [State.output, pending_idle hs.writing hf hl, List.append_nil] at hout
    exact ⟨t, hw, congrArg View.S hv, ⟨hs.writing.live.1, tx_idle hp hr, hl⟩, hout⟩
  · cases ho
  · obtain ⟨⟨hs, -⟩, hut⟩ := hstable.waits w ⟨⟨h, rfl⟩, hu⟩
    exact absurd hf (hs.not_fails hut)
  · obtain ⟨-, hut⟩ := hstable.waits w ⟨⟨h, rfl⟩, hu⟩
    obtain ⟨hp, hr⟩ := hwStep_none (hn hut.progress)
    simp [State.waitReady, State.pollReady, State.idleFlag, hp, hr] at hb

/-- Between commands, while a transmission runs, in or out of a transaction. -/
theorem BoundaryInv.sending_running {s : State} (h : BoundaryInv s) (hl : s.live) (hr : s.P.tx.running = true) :
    Sending False True s := by
  have hmode : InMode s := h.pins.control.registers hl.1 (h.running_mode hl hr)
  refine ⟨⟨hl, h.pins.running_pins hr, h.pins.latch_running, h.pins.latched_loaded, fun k => ?_, fun k => ?_,
    False.elim⟩, hmode, h.idle_empty hl⟩
  · rw [hmode.2, h.load_mode hl k]; rfl
  · rw [hmode.2, Mode.fconf_dscrEn] at k
    exact h.dma_fifo hl (by simpa using k)

/-- Under `HW_PROGRESS`, between commands, everything still to be sent is sent first. -/
theorem exec_beginTransaction_running {s : State} (h : BoundaryInv s) (hlive : s.live) (hl : s.S.life = .initialised)
    (ht : s.S.txn = false) (hr : s.P.tx.running = true) (hu : Unhindered s) :
    ∃ u, exec .wait s = .next u ∧ u.live ∧ Still u ∧ u.bus = s.bus ++ s.pending ∧
      exec .beginTransaction s = .next ({ u with S := { u.S with pc := s.S.pc } } : State).begun := by
  obtain ⟨t, hw, hS, hstill, hbus⟩ := waitIdle_progress (h.sending_running hlive hr) hu
  refine ⟨_, exec_wait_of_ok hl hw, ?_, hstill, hbus, ?_⟩
  · simpa [State.live, hS] using hlive
  · rw [advance_with_pc (t := t.emit .wait) hS]
    exact exec_beginTransaction_waited hl ht hw hS hstill

/-! ## A stale wait (R94) -/

theorem queryBusClock_unblocked {s : State} (hq : s.E.sched = []) :
    queryBusClock s = .ok s.clockAnswer (s.afterClock.emit (.clock s.clockAnswer)) :=
  (atom_unblocked hq).trans rfl

theorem beginWrites_running {s : State} (hq : s.E.sched = []) (hr : s.P.tx.running = true) (c : ClkmImage) :
    beginWrites c s = .error .faulted (s.takeFault .hazard) :=
  Act_bind_error ((atom_unblocked hq).trans
    (perform_raise ((regWriteOp_raise_iff _).mpr ⟨rfl, by simp [State.regHazard, RegImage.reg, hr]⟩)))

/-- While a transmission runs, the clock register write faults. -/
theorem command_beginTail_running {o : Opcode} {s : State} (hq : s.E.sched = []) (hr : s.P.tx.running = true) :
    command o beginTail s = .next (((s.afterClock.emit (.clock s.clockAnswer)).setCache
      (s.cacheAt s.clockAnswer)).takeFault .hazard) := by
  rw [command_beginTail (queryBusClock_unblocked hq) (by simp) (by simp),
    command_bind_error (beginWrites_running (by simpa using hq) (by simpa using hr) _)]

/-- After a stale idle reading (R94) the wait passes, and the registers meet the running transmission. -/
theorem exec_beginTransaction_stale {s : State} (hl : s.S.life = .initialised) (ht : s.S.txn = false)
    (hq : s.E.sched = []) (hlatch : s.par.pStartLatch = false) (htx : s.P.tx = ⟨true, true⟩) :
    exec .beginTransaction s = .next { s.afterClock with
      S := { s.S with cache := s.cacheAt s.clockAnswer, fault := some (.hazard, s.S.pc) }
      hist := (s.logged [.wait, .clock s.clockAnswer]).hist } := by
  have hclock : (s.emit .wait).afterClock = s.afterClock.emit .wait := by
    rw [State.afterClock, State.afterClock, emit_E]
    split <;> rfl
  rw [exec_beginTransaction hl ht, command_bind_ok (waitIdle_stale hq hlatch (by rw [htx])),
    command_beginTail_running (s := s.emit .wait) hq (congrArg Tx.running htx), hclock]
  simp [State.takeFault, State.setCache, State.emit, State.logged, State.clockAnswer, State.cacheAt]

/-- Settles O20: `beginTransaction` is its wait and `beginTail`; each clause says how the wait ends, and `beginTail`
runs from there. -/
theorem beginTransactionCommand : Obligations.BeginTransactionCommand := by
  unfold Obligations.BeginTransactionCommand
  intro s hlive hl ht
  refine ⟨fun h => ?_, fun u hu => exec_beginTransaction_of_wait hlive hl ht hu, fun hb hp hr hlatch hradio => ?_,
    fun hq hlatch htx => exec_beginTransaction_stale hl ht hq hlatch htx⟩
  · exact exec_beginTransaction_waited hl ht (waitIdle_still h) rfl (Still_turned h)
  · exact exec_beginTransaction_running hb hlive hl ht hr ⟨hlatch, hp, hradio⟩

end Sys2Proof.Machine
end

section
/-!
PROOFS. The pin router `InitPins` (R131) where nothing is transmitted: the state it ends in, exactly in a calm state
(`Gives.initPins`) and up to overwrites of `CLKM` (`Yields.initPins`).
* `PadOp`: the pad operations that `InitPins` and the pins of read mode consist of, as data; `PadOp.apply` says all that
  one of them does, and a list of them does that in order (`foldl_apply`).
* `initPins_eq`: `InitPins` is the list `initPinOps`, then the clock gate.
* `padsAfter_get`: a pad after a list of operations is what those of its own role make of it.
-/

namespace Sys2Proof.Machine

/-! ## Pad operations as data -/

/-- A pad operation (R111 to R113); the only level written is 1. -/
inductive PadOp where
  | claim (r : Role)
  | raise (r : Role)
  | dir (r : Role) (d : Dir)
  | route (r : Role) (x : Route)
  deriving DecidableEq

namespace PadOp

/-- The micro-operation. -/
def act : PadOp → Act Unit
  | claim r => gpioClaim r
  | raise r => gpioLevel r true
  | dir r d => gpioDir r d
  | route r x => Machine.route r x

def role : PadOp → Role
  | claim r => r
  | raise r => r
  | dir r _ => r
  | route r _ => r

def event : PadOp → Event
  | claim r => .claim r
  | raise r => .level r true
  | dir r d => .dir r d
  | route r x => .route r x

/-- What it makes of its pad. -/
def pad : PadOp → Pad → Pad
  | claim _, p => { p with claimed := true, route := .gpio }
  | raise _, p => { p with level := true }
  | dir _ d, p => { p with dir := d }
  | route _ x, p => p.routed x

/-- What the bus sees of it: a level write on a GPIO output. -/
def shown : PadOp → Pads → List BusEvent
  | raise r, g => if (g.get r).route = .gpio ∧ (g.get r).dir = .output then [.lvl r true] else []
  | claim _, _ => []
  | dir _ _, _ => []
  | route _ _, _ => []

/-- The pads after it. -/
def pads (o : PadOp) (g : Pads) : Pads := g.put o.role (o.pad (g.get o.role))

/-- The state after it. -/
def apply (s : State) (o : PadOp) : State :=
  { s with G := o.pads s.G, bus := s.bus ++ o.shown s.G, hist := s.hist ++ [(s.S.pc, o.event)] }

end PadOp

/-- A rising level has no effect but its event on the bus. -/
theorem showLevel_true (s : State) (r : Role) :
    s.showLevel r true = { s with bus := s.bus ++ (PadOp.raise r).shown s.G } := by
  simp only [State.showLevel, PadOp.shown]
  split
  · simp [State.pushBus]
  · simp

theorem apply_raise (s : State) (r : Role) : ((s.showLevel r true).setPad r { s.G.get r with level := true }).emit
    (.level r true) = (PadOp.raise r).apply s := by
  rw [showLevel_true]; rfl

theorem apply_quiet {s : State} {o : PadOp} (h : o.shown s.G = []) :
    (s.setPad o.role (o.pad (s.G.get o.role))).emit o.event = o.apply s := by
  rw [PadOp.apply, h, List.append_nil]; rfl

theorem Gives.padOp {s : State} (h : Calm s) (o : PadOp) : Gives o.act s () (o.apply s) := by
  cases o with
  | claim r => exact (Gives.gpioClaim h r).congr (apply_quiet (o := .claim r) rfl)
  | raise r => exact (Gives.gpioLevel h r true).congr (apply_raise s r)
  | dir r d => exact (Gives.gpioDir h r d).congr (apply_quiet (o := .dir r d) rfl)
  | route r x => exact (Gives.route h r x).congr (apply_quiet (o := .route r x) rfl)

theorem Yields.padOp {s : State} (h : Still s) (o : PadOp) : Yields o.act s () (o.apply s) := by
  cases o with
  | claim r => exact (Yields.gpioClaim h r).congr (apply_quiet (o := .claim r) rfl)
  | raise r => exact (Yields.gpioLevel h r true).congr (apply_raise s r)
  | dir r d => exact (Yields.gpioDir h r d).congr (apply_quiet (o := .dir r d) rfl)
  | route r x => exact (Yields.route h r x).congr (apply_quiet (o := .route r x) rfl)

/-! ## Lists of pad operations -/

/-- The pads after a list of operations. -/
def padsAfter (os : List PadOp) (g : Pads) : Pads := os.foldl (fun g o => o.pads g) g

/-- What the bus sees of a list of operations. -/
def shownBy : List PadOp → Pads → List BusEvent
  | [], _ => []
  | o :: os, g => o.shown g ++ shownBy os (o.pads g)

/-- The state after a list of operations. -/
def State.padded (s : State) (os : List PadOp) : State :=
  { s with G := padsAfter os s.G, bus := s.bus ++ shownBy os s.G, hist := (s.logged (os.map PadOp.event)).hist }

theorem foldl_apply (os : List PadOp) (s : State) : os.foldl (fun s o => o.apply s) s = s.padded os := by
  induction os generalizing s with
  | nil => simp [State.padded, padsAfter, shownBy, State.logged]
  | cons o os ih =>
    rw [List.foldl_cons, ih]
    simp [State.padded, padsAfter, shownBy, State.logged, PadOp.apply]

theorem Calm_padded {s : State} (h : Calm s) (os : List PadOp) : Calm (s.padded os) := h
theorem Still_padded {s : State} (h : Still s) (os : List PadOp) : Still (s.padded os) := h

theorem Gives.padOps {s : State} (h : Calm s) (os : List PadOp) :
    Gives (Machine.forEach PadOp.act os) s () (s.padded os) :=
  (Gives.forEach Calm (fun _ o k => ⟨.padOp k o, k, rfl⟩) os s h).congr (foldl_apply os s)

theorem Yields.padOps {s : State} (h : Still s) (os : List PadOp) :
    Yields (Machine.forEach PadOp.act os) s () (s.padded os) :=
  (Yields.forEach Still (fun _ o k => ⟨.padOp k o, k⟩) os s h).congr (foldl_apply os s)

/-- A pad after a list of operations: what the operations of its own role make of it, in order. -/
theorem padsAfter_get (os : List PadOp) (g : Pads) (r : Role) :
    (padsAfter os g).get r = (os.filter (·.role = r)).foldl (fun p o => o.pad p) (g.get r) := by
  induction os generalizing g with
  | nil => rfl
  | cons o os ih =>
    have hstep : (padsAfter (o :: os) g).get r = _ := ih (o.pads g)
    rw [hstep, PadOp.pads, get_put]
    by_cases h : o.role = r
    · subst h; simp
    · simp [h, Ne.symm h]

theorem shownBy_append (os os' : List PadOp) (g : Pads) :
    shownBy (os ++ os') g = shownBy os g ++ shownBy os' (padsAfter os g) := by
  induction os generalizing g with
  | nil => rfl
  | cons o os ih => simp [shownBy, ih, padsAfter]

/-- Nothing is seen of operations that write no level. -/
theorem shownBy_quiet {os : List PadOp} (h : ∀ r, PadOp.raise r ∉ os) (g : Pads) : shownBy os g = [] := by
  induction os generalizing g with
  | nil => rfl
  | cons o os ih =>
    have hrest : shownBy os (o.pads g) = [] := ih (fun r hr => h r (List.mem_cons_of_mem o hr)) _
    cases o with
    | raise r => exact absurd List.mem_cons_self (h r)
    | _ => exact hrest

/-! ## InitPins (R131) -/

def claimOps : List PadOp := (dataRoles ++ [Role.rd, .wr, .rs]).map .claim

def strobeOps : List PadOp := [Role.rd, .wr, .rs].flatMap fun r => [.raise r, .dir r .output]

def routeOps : List PadOp :=
  (List.finRange 8).map (fun i => .route (.d i) (.parOut i.val)) ++ [.route .rs (.parOut 8), .route .wr .wordClkInv]

/-- The pad operations of `InitPins`, in order. -/
def initPinOps : List PadOp := claimOps ++ (strobeOps ++ routeOps)

theorem forEach_append {α : Type} (f : α → Act Unit) (as bs : List α) :
    forEach f (as ++ bs) = forEach f as >>= fun _ => forEach f bs := by
  induction as with
  | nil => simp [forEach]
  | cons a as ih => simp [forEach, ih, bind_assoc]

theorem forEach_map {α β : Type} (f : β → Act Unit) (g : α → β) (as : List α) :
    forEach f (as.map g) = forEach (fun a => f (g a)) as := by
  induction as with
  | nil => rfl
  | cons a as ih => simp [forEach, ih]

theorem forEach_pair {α β : Type} (f : β → Act Unit) (g g' : α → β) (as : List α) :
    forEach f (as.flatMap fun a => [g a, g' a]) = forEach (fun a => f (g a) >>= fun _ => f (g' a)) as := by
  induction as with
  | nil => rfl
  | cons a as ih => simp [forEach, ih, bind_assoc]

/-- `InitPins` is its pad operations, then the clock gate. -/
theorem initPins_eq : initPins = forEach PadOp.act initPinOps >>= fun _ => clockGateOn := by
  simp only [initPins, initPinOps, claimOps, strobeOps, routeOps, forEach_append, forEach_map, forEach_pair, PadOp.act,
    forEach, bind_assoc, pure_bind]

theorem initPinOps_events : initPinOps.map PadOp.event ++ [.gate] = initPinsEvents := by decide

/-- The pads after `InitPins` (R131). -/
def Pads.initialised (g : Pads) : Pads where
  d := Vector.ofFn fun i => ⟨true, .output, g.d[i].level, .parOut i.val⟩
  rd := ⟨true, .output, true, .gpio⟩
  wr := ⟨true, .output, true, .wordClkInv⟩
  rs := ⟨true, .output, true, .parOut 8⟩

theorem initPinOps_of_data : ∀ i : Fin 8,
    initPinOps.filter (·.role = .d i) = [.claim (.d i), .route (.d i) (.parOut i.val)] := by decide

theorem padsAfter_initPinOps (g : Pads) : padsAfter initPinOps g = g.initialised := by
  have hd : (padsAfter initPinOps g).d = g.initialised.d := by
    ext i hi : 1
    have h := padsAfter_get initPinOps g (.d ⟨i, hi⟩)
    rw [initPinOps_of_data] at h
    exact h.trans (by simp [Pads.initialised, PadOp.pad, Pad.routed, Pads.get])
  have hrd : (padsAfter initPinOps g).rd = g.initialised.rd := padsAfter_get initPinOps g .rd
  have hwr : (padsAfter initPinOps g).wr = g.initialised.wr := padsAfter_get initPinOps g .wr
  have hrs : (padsAfter initPinOps g).rs = g.initialised.rs := padsAfter_get initPinOps g .rs
  cases h : padsAfter initPinOps g
  simp_all [Pads.initialised]

theorem claimOps_of_data : ∀ i : Fin 8, claimOps.filter (·.role = .d i) = [.claim (.d i)] := by decide

theorem claimed_get (g : Pads) (r : Role) :
    (padsAfter claimOps g).get r = { g.get r with claimed := true, route := .gpio } := by
  rw [padsAfter_get]
  cases r with
  | d i => rw [claimOps_of_data]; rfl
  | _ => rfl

/-- The bus sees the level writes of `InitPins` on the strobes that are outputs already: every pad has its GPIO level by
then. -/
theorem shownBy_initPinOps (g : Pads) : shownBy initPinOps g = initLevels g := by
  have hclaims : shownBy claimOps g = [] := shownBy_quiet (by simp [claimOps]) g
  have hroutes : ∀ g, shownBy routeOps g = [] := shownBy_quiet (by simp [routeOps])
  rw [initPinOps, shownBy_append, shownBy_append, hclaims, hroutes, List.append_nil, List.nil_append]
  simp [strobeOps, shownBy, PadOp.shown, PadOp.pads, PadOp.role, PadOp.pad, get_put, claimed_get, initLevels]
    <;> rfl

@[simp] theorem padded_initPinOps (s : State) : s.padded initPinOps = { s with
    G := s.G.initialised
    bus := s.bus ++ initLevels s.G
    hist := (s.logged (initPinOps.map PadOp.event)).hist } := by
  rw [State.padded, padsAfter_initPinOps, shownBy_initPinOps]

/-! ## The clock gate (R122) -/

@[simp] theorem gated_S (s : State) : s.gated.S = s.S := by unfold State.gated; split <;> rfl
@[simp] theorem gated_G (s : State) : s.gated.G = s.G := by unfold State.gated; split <;> rfl
@[simp] theorem gated_M (s : State) : s.gated.M = s.M := by unfold State.gated; split <;> rfl
@[simp] theorem gated_bus (s : State) : s.gated.bus = s.bus := by unfold State.gated; split <;> rfl
@[simp] theorem gated_hist (s : State) : s.gated.hist = s.hist ++ [(s.S.pc, .gate)] := by
  unfold State.gated; split <;> rfl
@[simp] theorem gated_par (s : State) : s.gated.par = s.par := by unfold State.gated; split <;> rfl
@[simp] theorem gated_allocs (s : State) : s.gated.E.allocs = s.E.allocs := by unfold State.gated; split <;> rfl
@[simp] theorem gated_gate (s : State) : s.gated.P.gate = ⟨true, true⟩ := rfl
@[simp] theorem gated_modeRegs (s : State) : s.gated.P.modeRegs = s.P.modeRegs := by unfold State.gated; split <;> rfl
theorem Still_gated {s : State} (h : Still s) : Still s.gated := by
  unfold State.gated
  split
  · exact ⟨h.1, rfl, rfl⟩
  · exact h

/-- The first call of the clock gate empties the peripheral (R122). -/
theorem gated_of_off {s : State} (h : s.P.gate = ⟨false, false⟩) :
    s.gated.P.fifo = [] ∧ s.gated.P.dma.latched = false ∧ s.gated.P.dma.stream = [] := by
  rw [State.gated, if_pos h]
  exact ⟨rfl, rfl, rfl⟩

/-- Where the gate is on already, only the event is left. -/
theorem gated_of_on {s : State} (hg : s.P.gate = ⟨true, true⟩) : s.gated = s.emit .gate := by
  have hset : s.setGate ⟨true, true⟩ = s := by rw [← hg]; rfl
  rw [State.gated, if_neg (by rw [hg]; decide), hset]

theorem Gives.clockGateOn {s : State} (h : Calm s) (hg : s.P.gate = ⟨true, true⟩) :
    Gives clockGateOn s () (s.emit .gate) :=
  .atom h fun ms r => congrArg (Effect.done ()) (gated_of_on (s := passed s ms r) hg)

/-! ## InitPins, exactly -/

/-- The state after `InitPins`. -/
def State.pinned (s : State) : State := (s.padded initPinOps).gated

theorem Yields.initPins {s : State} (h : Still s) : Yields initPins s () s.pinned := by
  rw [initPins_eq]
  exact (Yields.padOps h initPinOps).bind (Yields.clockGateOn (Still_padded h initPinOps))

theorem Still_pinned {s : State} (h : Still s) : Still s.pinned := Still_gated (Still_padded h _)

theorem Gives.initPins {s : State} (h : Calm s) (hg : s.P.gate = ⟨true, true⟩) :
    Gives initPins s () ((s.padded initPinOps).emit .gate) := by
  rw [initPins_eq]
  exact (Gives.padOps h initPinOps).bind rfl (Gives.clockGateOn (Calm_padded h initPinOps) hg)

end Sys2Proof.Machine
end

section
/-!
PROOFS. The two commands that call `InitPins`: `endRead` (R132, R171) and `init` (R128).
* `endReadCommand`: the checks, the wait, the pins and the flag, each exact in a calm state.
* `Yields.initHead`: all `init` does before its allocation.
* `exec_init_allocates`, `exec_init_fails`: the allocator's two answers.
-/

namespace Sys2Proof.Machine

/-! ## endRead (R132, R171) -/

theorem initLevels_readRouting {g : Pads} (h : g.readRouting) :
    initLevels g = [.lvl .rd true, .lvl .wr true, .lvl .rs true] := by
  obtain ⟨⟨-, hrd⟩, -, hwr, -, -, hrs, -⟩ := h
  simp [initLevels, hrd, hwr, hrs]

/-- The checks of a read command pass. -/
theorem Gives.readChecks {s : State} (h : ReadReady s) : Gives readChecks s () s := by
  unfold Machine.readChecks
  refine (Gives.check fun ms r => ?_).bind rfl ((Gives.check fun ms r => ?_).bind rfl (Gives.check fun ms r => ?_))
  · show (s.S.life == .initialised) = true
    simp [h.life]
  · exact h.txn
  · exact h.reading

/-- Settles O38: the checks pass, the wait only records itself, and from the pins of read mode the bus sees all three levels
of `InitPins`. -/
theorem endReadCommand : Obligations.EndReadCommand := by
  unfold Obligations.EndReadCommand
  intro s h hg
  have hrun : Gives (readChecks >>= fun _ => waitIdle >>= fun _ => initPins >>= fun _ =>
      update fun t => t.setRead false) s () _ :=
    (Gives.readChecks h).bind rfl <| (Gives.waitIdle h.calm).bind rfl <|
      (Gives.initPins (Calm_emit h.calm .wait) hg).bind rfl <| Gives.update fun _ _ => rfl
  obtain ⟨ms, r, hms, he⟩ := hrun.command .endRead
  refine ⟨ms, r, hms, he.trans ?_⟩
  rw [padded_initPinOps, emit_G, initLevels_readRouting h.pins, ← initPinOps_events]
  simp [State.logged, State.emit, State.setRead, State.advance, Opcode.row, Pads.initialised]

/-! ## init (R128) -/

/-- What `init` does between its check and the allocation. -/
def initHead : Act Unit := do
  update fun t => t.setHandles (some t.S.cfg.inst)
  initPins
  let t ← get
  regWrite (.intEna t.par.intEnaValue)
  forEach (fun w => modeWrite w.1 w.2) t.par.initMode
  descRelease

/-- `init` after `config`. -/
theorem exec_init {s : State} (h : s.S.life = .configured) :
    exec .init s = command .init (initHead >>= fun _ => atom (descAllocOp 0) >>= fun _ =>
      update fun u => (u.setDesc { u.S.desc with allocated := true }).setLife .initialised) s := by
  refine (command_check _ _ _ _ _).trans ?_
  simp only [h, initHead, descRealloc, bind_assoc]
  rfl

/-- The writes of `InitPeripheralMode` (D43). -/
@[simp] def State.modeWritten (s : State) (ws : List (Word × Word)) : State :=
  { s with P := { s.P with modeRegs := s.P.modeRegs ++ ws }, hist := (s.logged (ws.map fun w => .modeWr w.1 w.2)).hist }

theorem Yields.modeWrites {s : State} (h : Still s) (ws : List (Word × Word)) :
    Yields (Machine.forEach (fun w => Machine.modeWrite w.1 w.2) ws) s () (s.modeWritten ws) := by
  induction ws generalizing s with
  | nil => exact (Yields.pure () s).congr (by simp [State.modeWritten, State.logged])
  | cons w ws ih =>
    have hnext : Still ((s.setModeRegs (s.P.modeRegs ++ [w])).emit (.modeWr w.1 w.2)) := h
    refine ((Yields.modeWrite h w.1 w.2).bind (ih hnext)).congr ?_
    simp [State.modeWritten, State.logged, State.setModeRegs, State.emit]

/-- The release of a record that is allocated (R119). -/
def State.freed (s : State) : State := if s.S.desc.allocated then s.emit (.free s.S.desc.addr) else s

theorem Yields.descRelease {s : State} (h : Still s) : Yields descRelease s () s.freed := by
  unfold Machine.descRelease State.freed
  refine .gets (fun _ _ _ => rfl) ?_
  split
  · exact .descFree h
  · exact .pure () s

@[simp] theorem freed_S (s : State) : s.freed.S = s.S := by unfold State.freed; split <;> rfl
@[simp] theorem freed_P (s : State) : s.freed.P = s.P := by unfold State.freed; split <;> rfl
@[simp] theorem freed_G (s : State) : s.freed.G = s.G := by unfold State.freed; split <;> rfl
@[simp] theorem freed_E (s : State) : s.freed.E = s.E := by unfold State.freed; split <;> rfl
@[simp] theorem freed_M (s : State) : s.freed.M = s.M := by unfold State.freed; split <;> rfl
@[simp] theorem freed_bus (s : State) : s.freed.bus = s.bus := by unfold State.freed; split <;> rfl
@[simp] theorem freed_hist (s : State) :
    s.freed.hist = (s.logged (if s.S.desc.allocated then [.free s.S.desc.addr] else [])).hist := by
  unfold State.freed; split <;> simp [State.logged]

/-- The interrupt-enable word and the mode registers written (R128). -/
@[simp] def State.enabled (s : State) : State :=
  ((s.setRegs { s.P.regs with intEna := s.par.intEnaValue }).emit (.regWr (.intEna s.par.intEnaValue))).modeWritten
    s.par.initMode

theorem Still_enabled {s : State} (h : Still s) : Still s.enabled := h

theorem Still_freed {s : State} (h : Still s) : Still s.freed := by simpa [Still] using h

/-- The state in which `init` allocates the descriptor record. -/
def State.initHeaded (s : State) : State := (s.setHandles (some s.S.cfg.inst)).pinned.enabled.freed

theorem Still_initHeaded {s : State} (h : Still s) : Still s.initHeaded :=
  have hbound : Still (s.setHandles (some s.S.cfg.inst)) := h
  Still_freed (Still_enabled (Still_pinned hbound))

theorem Yields.initHead {s : State} (h : Still s) : Yields initHead s () s.initHeaded := by
  have hbound : Still (s.setHandles (some s.S.cfg.inst)) := h
  have hpinned := Still_pinned hbound
  have hrest : ∀ t, Still t → Yields (Machine.regWrite (.intEna t.par.intEnaValue) >>= fun _ =>
      Machine.forEach (fun w => Machine.modeWrite w.1 w.2) t.par.initMode >>= fun _ => Machine.descRelease) t ()
      t.enabled.freed := fun t ht =>
    (Yields.regWrite ht _).bind <| (Yields.modeWrites (Still_emit (Still_setRegs ht _) _) _).bind <|
      .descRelease (Still_enabled ht)
  have hbind : Yields (Machine.update fun t => t.setHandles (some t.S.cfg.inst)) s ()
      (s.setHandles (some s.S.cfg.inst)) :=
    Yields.update (f := fun t => t.setHandles (some t.S.cfg.inst)) fun _ _ _ => rfl
  exact hbind.bind <| (Yields.initPins hbound).bind <| .gets (fun _ _ _ => rfl) (hrest _ hpinned)

@[simp] theorem initHeaded_S (s : State) : s.initHeaded.S = { s.S with handles := some s.S.cfg.inst } := by
  simp [State.initHeaded, State.pinned, State.setHandles]
@[simp] theorem initHeaded_G (s : State) : s.initHeaded.G = s.G.initialised := by
  simp [State.initHeaded, State.pinned]
@[simp] theorem initHeaded_M (s : State) : s.initHeaded.M = s.M := by simp [State.initHeaded, State.pinned]
@[simp] theorem initHeaded_bus (s : State) : s.initHeaded.bus = s.bus ++ initLevels s.G := by
  simp [State.initHeaded, State.pinned]
@[simp] theorem initHeaded_allocs (s : State) : s.initHeaded.E.allocs = s.E.allocs := by
  simp [State.initHeaded, State.pinned]
@[simp] theorem initHeaded_gate (s : State) : s.initHeaded.P.gate = ⟨true, true⟩ := by
  simp [State.initHeaded, State.pinned]
@[simp] theorem initHeaded_intEna (s : State) : s.initHeaded.P.regs.intEna = s.par.intEnaValue := by
  simp [State.initHeaded, State.pinned]
@[simp] theorem initHeaded_modeRegs (s : State) : s.initHeaded.P.modeRegs = s.P.modeRegs ++ s.par.initMode := by
  simp [State.initHeaded, State.pinned]

/-- The first `init` empties the peripheral (R122). -/
theorem initHeaded_of_off {s : State} (h : s.P.gate = ⟨false, false⟩) :
    s.initHeaded.P.fifo = [] ∧ s.initHeaded.P.dma.latched = false ∧ s.initHeaded.P.dma.stream = [] := by
  simpa [State.initHeaded, State.pinned] using
    gated_of_off (s := (s.setHandles (some s.S.cfg.inst)).padded initPinOps) h

/-- The history of `init` (R128) is that of its head and the allocation. -/
theorem initHeaded_hist (s : State) (a : Word) :
    s.initHeaded.hist ++ [(s.S.pc, .alloc 0 a)] = (s.logged (initEvents s a)).hist := by
  simp [State.initHeaded, State.pinned, State.logged, initEvents, ← initPinOps_events] <;> rfl

/-- When the allocator answers, `init` is done. -/
theorem exec_init_allocates {s : State} {a : Word} {as : List (Option Word)} (h : Still s) (hl : s.S.life = .configured)
    (ha : s.initHeaded.E.allocs = some a :: as) : ∃ ms r c, exec .init s = .next (drifted
      (((((s.initHeaded.setAllocs as).setDesc ⟨true, 0, a⟩).emit (.alloc 0 a)).setLife .initialised).advance 1)
      ms r c) := by
  rw [exec_init hl]
  have halloc := Yields.descAlloc (Still_initHeaded h) 0 ha
  have hdone : Yields (initHead >>= fun _ => atom (descAllocOp 0) >>= fun _ =>
      update fun u => (u.setDesc { u.S.desc with allocated := true }).setLife .initialised) s () _ :=
    (Yields.initHead h).bind <| halloc.bind <| .update fun _ _ _ => rfl
  exact hdone.command .init

/-- When the allocator fails, `init` faults where it is. -/
theorem exec_init_fails {s : State} {as : List (Option Word)} (h : Still s) (hl : s.S.life = .configured)
    (ha : s.initHeaded.E.allocs = none :: as) :
    ∃ ms r c, exec .init s = .next ((drifted s.initHeaded ms r c).takeFault .alloc) := by
  obtain ⟨ms, r, c, hhead⟩ := Yields.initHead h s.E.sched s.E.radioClkEn s.P.regs.clkm
  rw [drifted_self] at hhead
  have hstill : Still (drifted s.initHeaded ms r c) := Still_initHeaded h
  have hanswer : (drifted s.initHeaded ms r c).turned.allocAnswer = none := by
    show s.initHeaded.E.allocs.headD _ = none
    rw [ha]; rfl
  have hraise : descAllocOp 0 (drifted s.initHeaded ms r c).turned = .raise .alloc :=
    (descAllocOp_raise_iff 0).mpr (.inr ⟨rfl, hstill.2.2, hanswer⟩)
  have halloc := (atom_still hstill).trans (perform_raise hraise)
  rw [exec_init hl, command_bind_ok hhead, command_bind_error halloc, turned_drifted, drifted_drifted]
  exact ⟨_, _, _, rfl⟩

theorem initialised_afterInitPins (g : Pads) : g.afterInitPins g.initialised :=
  ⟨fun i => by simp [Pads.initialised], rfl, rfl, rfl⟩

theorem initialised_writeRouting (g : Pads) : g.initialised.writeRouting = true := by
  simp [Pads.writeRouting, Pads.initialised]

/-- Settles O18: the head of `init` runs to `State.initHeaded` under every interleaving, and there the allocator answers
or fails. -/
theorem initCommand : Obligations.InitCommand := by
  unfold Obligations.InitCommand
  intro s as h hl
  refine ⟨fun a ha => ?_, fun ha => ?_⟩
  · obtain ⟨ms, r, c, he⟩ := exec_init_allocates h hl ((initHeaded_allocs s).trans ha)
    obtain ⟨-, htx, hload⟩ := Still_initHeaded h
    refine ⟨_, he, ?_, ?_, ?_, initHeaded_gate s, initHeaded_intEna s, initHeaded_modeRegs s, htx, hload,
      initHeaded_of_off, rfl, initHeaded_M s, initHeaded_bus s, ?_⟩
    · show { s.initHeaded.S with life := .initialised, desc := ⟨true, 0, a⟩, pc := s.initHeaded.S.pc + 1 } = _
      rw [initHeaded_S]
    · exact (initHeaded_G s).symm ▸ initialised_afterInitPins s.G
    · exact (congrArg Pads.writeRouting (initHeaded_G s)).trans (initialised_writeRouting s.G)
    · rw [← initHeaded_hist]
      show s.initHeaded.hist ++ [(s.initHeaded.S.pc, .alloc 0 a)] = _
      rw [initHeaded_S]
  · obtain ⟨ms, r, c, he⟩ := exec_init_fails h hl ((initHeaded_allocs s).trans ha)
    have hS : (drifted s.initHeaded ms r c).S = { s.S with handles := some s.S.cfg.inst } := initHeaded_S s
    exact ⟨_, he, by simp [hS], by simp [hS, hl], by simp [hS]⟩

end Sys2Proof.Machine
end

section
/-!
PROOFS. Transfer modes along a command: the micro-operations (R138, R143, R146).
* `Along tr s₀ w A s`: the command that began in `s₀` stands in `s`, mode register writes followed waits, and the modes
  entered form a path of `tr` to the present mode.
* `Runs_along_plain`: a micro-operation whose event is neither a mode register write nor a start.
* `Runs_along_switch`, `Runs_along_ensureMode`: the two register writes after a wait.
-/

namespace Sys2Proof.Machine

variable {α : Type}

/-! ## Histories -/

/-- A write of a mode register. -/
def ModeWrite (e : Event) : Prop := ∃ img, e = .regWr img ∧ (img.reg = .src ∨ img.reg = .fconf)

/-- The history has a wait with no start after it. -/
def Waited (h : List (Nat × Event)) : Prop := ∃ a b pc, h = a ++ (pc, Event.wait) :: b ∧ ∀ e ∈ b, e.2 ≠ .start

theorem modeWritesFollowWait_of_none {h : List (Nat × Event)} (hn : ∀ e ∈ h, ¬ ModeWrite e.2) :
    ModeWritesFollowWait h := by
  rintro before after pc img rfl hreg
  exact absurd ⟨img, rfl, hreg⟩ (hn (pc, .regWr img) (by simp))

theorem Waited.of_wait (h : List (Nat × Event)) (pc : Nat) : Waited (h ++ [(pc, .wait)]) := ⟨h, [], pc, rfl, by simp⟩

theorem Waited.concat {h : List (Nat × Event)} (hw : Waited h) (pc : Nat) {e : Event} (he : e ≠ .start) :
    Waited (h ++ [(pc, e)]) := by
  obtain ⟨a, b, p, rfl, hb⟩ := hw
  refine ⟨a, b ++ [(pc, e)], p, by simp, fun x hx => ?_⟩
  rcases List.mem_append.mp hx with hx | hx
  · exact hb x hx
  · rw [List.mem_singleton.mp hx]; exact he

/-- One more event: a mode register write needs a wait before it. -/
theorem ModeWritesFollowWait.concat {h : List (Nat × Event)} (hh : ModeWritesFollowWait h) (pc : Nat) {e : Event}
    (he : ModeWrite e → Waited h) : ModeWritesFollowWait (h ++ [(pc, e)]) := by
  intro before after pc' img heq hreg
  rcases List.eq_nil_or_concat after with rfl | ⟨after', x, rfl⟩
  · obtain ⟨rfl, hlast⟩ := List.append_inj' heq rfl
    cases hlast
    exact he ⟨img, rfl, hreg⟩
  · rw [List.concat_eq_append, ← List.cons_append, ← List.append_assoc] at heq
    exact hh before after' pc' img (List.append_inj' heq rfl).1 hreg

theorem ModeWritesFollowWait.append {h es : List (Nat × Event)} (hh : ModeWritesFollowWait h)
    (he : ModeWritesFollowWait es) : ModeWritesFollowWait (h ++ es) := by
  intro before after pc img heq hreg
  rcases List.append_eq_append_iff.mp heq with ⟨c, rfl, hes⟩ | ⟨c, rfl, hc⟩
  · obtain ⟨a, b, p, rfl, hb⟩ := he c after pc img hes hreg
    exact ⟨h ++ a, b, p, by simp, hb⟩
  · cases c with
    | nil =>
      obtain ⟨a, b, p, hnil, -⟩ := he [] after pc img hc.symm hreg
      simp at hnil
    | cons x c =>
      rw [List.cons_append, List.cons.injEq] at hc
      obtain ⟨rfl, -⟩ := hc
      exact hh before c pc img rfl hreg

theorem ModePath.concat {tr : Mode → Mode → Bool} {a b c : Mode} {ms : List Mode} (h : ModePath tr a ms b)
    (hc : tr b c = true) : ModePath tr a (ms ++ [c]) c := by
  induction ms generalizing a with
  | nil => cases h; exact ⟨hc, rfl⟩
  | cons m ms ih => exact ⟨h.1, ih h.2⟩

@[simp] theorem modesOf_append (h es : List (Nat × Event)) : modesOf (h ++ es) = modesOf h ++ modesOf es :=
  List.filterMap_append ..

/-- Only an `FCONF` write enters a mode. -/
theorem modesOf_singleton (pc : Nat) {e : Event} (he : ∀ f, e ≠ .regWr (.fconf f)) : modesOf [(pc, e)] = [] := by
  cases e with
  | regWr img =>
    cases img with
    | fconf f => exact absurd rfl (he f)
    | _ => rfl
  | _ => rfl

theorem modesOf_fconf (pc : Nat) {m : Mode} (hm : m ≠ .none) : modesOf [(pc, .regWr (.fconf m.fconf))] = [m] := by
  cases m with
  | none => exact absurd rfl hm
  | _ => rfl

theorem modesOf_eq_nil {h : List (Nat × Event)} (hn : ∀ e ∈ h, ¬ ModeWrite e.2) : modesOf h = [] := by
  induction h with
  | nil => rfl
  | cons e h ih =>
    have hhead : modesOf [e] = [] := modesOf_singleton e.1 fun f hf => hn e (by simp) ⟨_, hf, .inr rfl⟩
    rw [← List.singleton_append, modesOf_append, hhead, ih fun x hx => hn x (by simp [hx]), List.nil_append]

/-! ## Where a command stands -/

/-- Since `s₀`, mode register writes followed waits and the modes entered form a path of `tr` to the present mode, which has
`A`; with `w`, a wait has come after the last start. -/
def Along (tr : Mode → Mode → Bool) (s₀ : State) (w : Prop) (A : Mode → Prop) (s : State) : Prop :=
  A s.S.mode ∧ ∃ es, s.hist = s₀.hist ++ es ∧ ModeWritesFollowWait es ∧ (w → Waited es) ∧
    ModePath tr s₀.S.mode (modesOf es) s.S.mode

/-- Where a command ends or is stopped. -/
abbrev Ended (tr : Mode → Mode → Bool) (s₀ : State) : State → Prop := Along tr s₀ False fun _ => True

variable {tr : Mode → Mode → Bool} {s₀ : State} {w : Prop} {A B : Mode → Prop}

theorem Along.start {s : State} (h : A s.S.mode) : Along tr s False A s :=
  ⟨h, [], by simp, modeWritesFollowWait_of_none (by simp), False.elim, rfl⟩

theorem Along.congr {s t : State} (h : Along tr s₀ w A s) (hm : t.S.mode = s.S.mode) (hh : t.hist = s.hist) :
    Along tr s₀ w A t := by
  unfold Along
  rw [hm, hh]; exact h

theorem Along.weaken {s : State} (h : Along tr s₀ w A s) (hA : ∀ m, A m → B m) : Along tr s₀ False B s := by
  obtain ⟨ha, es, he, hf, -, hp⟩ := h
  exact ⟨hA _ ha, es, he, hf, False.elim, hp⟩

theorem Along.ended {s : State} (h : Along tr s₀ w A s) : Ended tr s₀ s := h.weaken fun _ _ => trivial

/-- One more event, which enters no mode: a mode register write needs the wait, and a start uses it up. -/
theorem Along.logs {w' : Prop} {s t : State} {pc : Nat} (e : Event) (h : Along tr s₀ w A s) (hm : t.S.mode = s.S.mode)
    (hh : t.hist = s.hist ++ [(pc, e)]) (he : ModeWrite e → w) (hf : ∀ f, e ≠ .regWr (.fconf f))
    (hw : w' → e = .wait ∨ w ∧ e ≠ .start) : Along tr s₀ w' A t := by
  obtain ⟨ha, es, hes, hmodes, hwait, hp⟩ := h
  refine ⟨hm ▸ ha, es ++ [(pc, e)], by rw [hh, hes, List.append_assoc], hmodes.concat pc fun k => hwait (he k),
    fun k => ?_, ?_⟩
  · rcases hw k with rfl | ⟨k, hne⟩
    · exact .of_wait es pc
    · exact (hwait k).concat pc hne
  · rw [modesOf_append, modesOf_singleton pc hf, List.append_nil, hm]
    exact hp

/-- An `FCONF` write after a wait enters its mode. -/
theorem Along.enters {s t : State} {pc : Nat} {m : Mode} (h : Along tr s₀ True A s) (hm : m ≠ .none)
    (htr : ∀ a, A a → tr a m = true) (hh : t.hist = s.hist ++ [(pc, .regWr (.fconf m.fconf))]) (ht : t.S.mode = m) :
    Along tr s₀ False (· = m) t := by
  obtain ⟨ha, es, hes, hmodes, hwait, hp⟩ := h
  refine ⟨ht, es ++ [(pc, .regWr (.fconf m.fconf))], by rw [hh, hes, List.append_assoc],
    hmodes.concat pc fun _ => hwait trivial, False.elim, ?_⟩
  rw [modesOf_append, modesOf_fconf pc hm, ht]
  exact hp.concat (htr _ ha)

theorem Along.moved {s : State} (m : Move) (h : Along tr s₀ w A s) : Along tr s₀ w A (s.moved m) :=
  h.congr (by rw [(moved_beside s m).S]) (moved_beside s m).hist

/-! ## The micro-operations -/

/-- A micro-operation: the other agents' moves, and what stops it, change neither the history nor the mode. -/
theorem Runs_along_micro {Q : α → State → Prop} {blocked : State → Option Hold} {op : State → Effect α}
    (done : ∀ s a t, Along tr s₀ w A s → op s = .done a t → Q a t) :
    Runs (Along tr s₀ w A) (micro blocked op) Q (Ended tr s₀) := by
  intro s hs
  have hreach : ∀ {t}, Reaches s t → Along tr s₀ w A t := fun r =>
    Reaches_keeps (fun _ m k => k.moved m) (fun _ _ k => k.congr rfl rfl) r hs
  rcases micro_cases blocked op s with ⟨t, a, u, e, r, -, o⟩ | ⟨t, c, e, r, -, -⟩ | ⟨t, m, e, r, -⟩ | ⟨t, x, e, r, -⟩
  · rw [e]; exact done t a u (hreach r) o
  · rw [e]; exact (hreach r).ended.congr rfl rfl
  · rw [e]; exact (hreach r).ended.moved m
  · rw [e]; exact (hreach r).ended.congr rfl rfl

/-- An event that is no mode register write and no start. -/
def Plain (e : Event) : Prop := ¬ ModeWrite e ∧ e ≠ .start

/-- A micro-operation that records a plain event and leaves the mode alone. -/
def LogsPlain (op : State → Effect α) : Prop :=
  ∀ s a t, op s = .done a t → t.S.mode = s.S.mode ∧ ∃ e, t.hist = s.hist ++ [(s.S.pc, e)] ∧ Plain e

theorem Runs_along_plain {op : State → Effect α} (h : LogsPlain op) (blocked : State → Option Hold) :
    Runs (Along tr s₀ w A) (micro blocked op) (fun _ => Along tr s₀ w A) (Ended tr s₀) :=
  Runs_along_micro fun s a t k o => by
    obtain ⟨hm, e, hh, hmode, hstart⟩ := h s a t o
    exact k.logs e hm hh (fun k => absurd k hmode) (fun f hf => hmode ⟨_, hf, .inr rfl⟩) fun hw => .inr ⟨hw, hstart⟩

theorem fifoPushOp_plain (w : Word) : LogsPlain (fifoPushOp w) := fun s _ _ o => by
  obtain ⟨-, rfl⟩ := fifoPushOp_done o
  exact ⟨rfl, _, rfl, by simp [Plain, ModeWrite]⟩

theorem spinOp_plain (k : State → Nat) : LogsPlain (spinOp k) := fun s _ _ o => by
  cases o; exact ⟨rfl, _, rfl, by simp [Plain, ModeWrite]⟩

theorem memReadOp_plain (a : Nat) : LogsPlain (memReadOp a) := fun s _ _ o => by
  cases o; exact ⟨rfl, _, rfl, by simp [Plain, ModeWrite]⟩

theorem pullWriteOp_plain (p i j n : Nat) : LogsPlain (pullWriteOp p i j n) := fun s _ _ o => by
  cases o; exact ⟨rfl, _, rfl, by simp [Plain, ModeWrite]⟩

theorem radioPollOp_plain : LogsPlain radioPollOp := fun s _ _ o => by
  cases o; exact ⟨rfl, _, rfl, by simp [Plain, ModeWrite]⟩

theorem queryBusClockOp_plain : LogsPlain queryBusClockOp := fun s _ _ o => by
  cases o; exact ⟨by simp, .clock s.clockAnswer, by simp, by simp [Plain, ModeWrite]⟩

theorem bufWriteOp_plain (copy : Bool) (v : List Sample) : LogsPlain (bufWriteOp copy v) := fun s _ _ o => by
  obtain ⟨-, rfl⟩ := bufWriteOp_done o
  exact ⟨by simp, .bufWr copy v.length, by simp, by simp [Plain, ModeWrite]⟩

theorem descFreeOp_plain : LogsPlain descFreeOp := fun s _ _ o => by
  obtain ⟨-, rfl⟩ := descFreeOp_done o
  exact ⟨rfl, _, rfl, by simp [Plain, ModeWrite]⟩

theorem descAllocOp_plain (n : Nat) : LogsPlain (descAllocOp n) := fun s _ _ o => by
  obtain ⟨-, a, -, rfl⟩ := descAllocOp_done o
  exact ⟨by simp, .alloc n a, by simp, by simp [Plain, ModeWrite]⟩

theorem descWriteOp_plain (d : Descriptor) : LogsPlain (descWriteOp d) := fun s _ _ o => by
  obtain ⟨-, rfl⟩ := descWriteOp_done o
  exact ⟨rfl, _, rfl, by simp [Plain, ModeWrite]⟩

theorem outLinkStartOp_plain : LogsPlain outLinkStartOp := fun s _ _ o => by
  obtain ⟨-, -, rfl⟩ := outLinkStartOp_done o
  exact ⟨rfl, _, rfl, by simp [Plain, ModeWrite, RegImage.reg]⟩

/-- A register write, but of `SRC` and `FCONF`. -/
theorem regWriteOp_plain {v : RegImage} (hsrc : v.reg ≠ .src) (hfconf : v.reg ≠ .fconf) : LogsPlain (regWriteOp v) :=
  fun s _ _ o => by
  obtain ⟨-, rfl⟩ := regWriteOp_done o
  exact ⟨rfl, _, rfl, by simp [Plain, ModeWrite, hsrc, hfconf]⟩

theorem Runs_along_waitIdle : Runs (Along tr s₀ w A) waitIdle (fun _ => Along tr s₀ True A) (Ended tr s₀) :=
  Runs_along_micro fun s _ t k o => by
    cases o; exact k.logs .wait rfl rfl (by simp [ModeWrite]) (by simp) fun _ => .inl rfl

theorem Runs_along_txStart (hB : ∀ m, A m → B m) :
    Runs (Along tr s₀ w A) txStart (fun _ => Along tr s₀ False B) (Ended tr s₀) :=
  Runs_along_micro fun s _ t k o => by
    obtain ⟨-, -, rfl⟩ := txStartOp_done o
    exact (k.weaken hB).logs .start rfl rfl (by simp [ModeWrite]) (by simp) False.elim

theorem Runs_along_check (c : State → Bool) (f : FaultCode) :
    Runs (Along tr s₀ w A) (check c f) (fun _ => Along tr s₀ w A) (Ended tr s₀) :=
  Runs_check (fun _ k _ => k) fun _ k _ => k.ended.congr rfl rfl

theorem Runs_along_get {f : State → Act α} {Q : α → State → Prop}
    (h : ∀ s, Runs (Along tr s₀ w A) (f s) Q (Ended tr s₀)) :
    Runs (Along tr s₀ w A) ((get : Act State) >>= f) Q (Ended tr s₀) := fun s hs => h s s hs

/-! ## The switch of the mode registers -/

/-- The two mode register writes and the change of mode in the step of the second one (R138, R139; log entry 24): after a
wait, from modes that `tr` leads out of into `m`. -/
theorem Runs_along_switch {m : Mode} (hm : m ≠ .none) {f : State → State} (hf : ∀ s, (f s).S.mode = m)
    (hh : ∀ s, (f s).hist = s.hist) (htr : ∀ a, A a → tr a m = true) :
    Runs (Along tr s₀ True A) (regWrite (.src m.width) >>= fun _ => regWrite (.fconf m.fconf) >>= fun _ => update f)
      (fun _ => Along tr s₀ False (· = m)) (Ended tr s₀) := by
  refine Runs_bind (R := fun _ => Along tr s₀ True A) ?_ fun _ =>
    Runs_bind (R := fun _ s => Along tr s₀ False (· = m) (s.setMode m)) ?_ fun _ s k => k.congr (hf s) (hh s)
  · refine Runs_along_micro fun s _ t k o => ?_
    obtain ⟨-, rfl⟩ := regWriteOp_done o
    exact k.logs (.regWr (.src m.width)) rfl rfl (fun _ => trivial) (by simp) fun _ => .inr ⟨trivial, by simp⟩
  · refine Runs_along_micro fun s _ t k o => ?_
    obtain ⟨-, rfl⟩ := regWriteOp_done o
    exact k.enters hm htr rfl rfl

/-- `EnsureMode` (R138). -/
theorem Runs_along_ensureMode {m : Mode} (hm : m ≠ .none) (htr : ∀ a, A a → a ≠ m → tr a m = true) :
    Runs (Along tr s₀ True A) (ensureMode m) (fun _ => Along tr s₀ False (· = m)) (Ended tr s₀) := by
  intro s k
  by_cases e : s.S.mode = m
  · rw [ensureMode_same e]
    exact ⟨e, k.ended.2⟩
  · rw [ensureMode_switch e]
    exact Runs_along_switch (A := fun a => A a ∧ a ≠ m) (f := fun t => t.setMode m) hm (fun _ => rfl) (fun _ => rfl)
      (fun a ha => htr a ha.1 ha.2) s ⟨⟨k.1, e⟩, k.2⟩

end Sys2Proof.Machine
end

section
/-!
PROOFS. Transfer modes along a command: the sequences and the commands (R143, R145, R146, R167).
* `KeepsCourse tr s₀ A m`: `m` stays along `tr` from a mode with `A` to a mode with `A`, or is stopped along `tr`; one
  lemma per sequence of the write path.
* `exec_course`: what every command's history says, from every state.
* `command_completes`: a command that advances the command pointer ran to its end.
-/

namespace Sys2Proof.Machine

variable {α : Type} {tr : Mode → Mode → Bool} {s₀ : State} {w : Prop} {A B : Mode → Prop}

/-! ## The sequences of the write path -/

/-- From a mode with `A`, `m` ends in a mode with `A`, and all along, also where it is stopped, mode register writes follow
waits and the modes entered form a path of `tr`. -/
abbrev KeepsCourse (tr : Mode → Mode → Bool) (s₀ : State) (A : Mode → Prop) (m : Act α) : Prop :=
  Runs (Along tr s₀ False A) m (fun _ => Along tr s₀ False A) (Ended tr s₀)

/-- `m` has `A`, and `tr` leads into it from every other mode with `A`. -/
def Leads (tr : Mode → Mode → Bool) (A : Mode → Prop) (m : Mode) : Prop :=
  A m ∧ ∀ a, A a → a ≠ m → tr a m = true

/-- `ScalarWrite` (R147) ends in scalar-32. -/
theorem Runs_along_scalarWrite (h : ∀ a, A a → a ≠ .scalar32 → tr a .scalar32 = true) (hB : B .scalar32) (t : Bool)
    (v : Word) (n : Nat) : Runs (Along tr s₀ w A) (scalarWrite t v n) (fun _ => Along tr s₀ False B) (Ended tr s₀) :=
  Runs_bind Runs_along_waitIdle fun _ => Runs_bind (Runs_along_ensureMode (by decide) h) fun _ =>
    Runs_bind (Runs_forEach fun x _ => Runs_along_plain (fifoPushOp_plain x) _) fun _ =>
    Runs_along_txStart fun _ e => e ▸ hB

/-- The loop of `writeDataRepeat` (R153, R154). -/
theorem Runs_along_repeatLoop (h : Leads tr A .bulk16) (unit : List Word) (full rounds rem len : Nat) :
    KeepsCourse tr s₀ A (repeatLoop unit full rounds rem len) := by
  induction rounds generalizing rem len with
  | zero => exact Runs_return ()
  | succ n ih =>
    refine Runs_bind Runs_along_waitIdle fun _ => Runs_bind (Runs_along_ensureMode (by decide) h.2) fun _ =>
      Runs_bind (Runs_forEach fun x _ => Runs_along_plain (fifoPushOp_plain x) _) fun _ =>
      Runs_bind (Runs_along_txStart (B := A) fun _ e => e ▸ h.1) fun _ => ?_
    split
    · exact Runs_return ()
    · exact Runs_bind (Runs_along_plain (spinOp_plain _) _) fun _ => ih _ _

/-- `Repeat3` (R154). -/
theorem Runs_along_repeat3 (h32 : Leads tr A .scalar32) (h16 : Leads tr A .bulk16) (c : Word) (blen count : Nat) :
    KeepsCourse tr s₀ A (repeat3 c blen count) := by
  refine Runs_bind (R := fun _ => Along tr s₀ False A) ?_ fun _ => ?_
  · unfold leftoverPixel
    split
    · exact Runs_along_scalarWrite h32.2 h32.1 _ _ _
    · exact Runs_return ()
  · unfold repeatPairs
    split
    · exact Runs_return ()
    · exact Runs_along_repeatLoop h16 _ _ _ _ _

/-! ## writeBytes and writePixels, over any way of reading the buffer's bytes -/

/-- Reading a byte of the buffer records at most a plain event. -/
def ReadsPlainly (tr : Mode → Mode → Bool) (s₀ : State) (rd : Nat → Act Byte) : Prop :=
  ∀ A k, KeepsCourse tr s₀ A (rd k)

theorem readPixbuf_plain : ReadsPlainly tr s₀ readPixbuf := fun _ _ _ h => h

theorem memRead_plain (buffer : Nat) : ReadsPlainly tr s₀ fun k => memRead (buffer + k) := fun _ k =>
  Runs_along_plain (memReadOp_plain (buffer + k)) _

variable {rd : Nat → Act Byte}

theorem Runs_along_readMany (hr : ReadsPlainly tr s₀ rd) (n k : Nat) :
    KeepsCourse tr s₀ A (readMany rd n k) := by
  induction n generalizing k with
  | zero => exact Runs_return []
  | succ n ih => exact Runs_bind (hr A k) fun x => Runs_bind (ih (k + 1)) fun xs => Runs_return (x :: xs)

theorem Runs_along_pushPairs (hr : ReadsPlainly tr s₀ rd) (len k : Nat) :
    KeepsCourse tr s₀ A (pushPairs rd len k) := by
  induction len generalizing k with
  | zero => exact Runs_return ()
  | succ n ih =>
    exact Runs_bind (hr A _) fun _ => Runs_bind (hr A _) fun _ =>
      Runs_bind (Runs_along_plain (fifoPushOp_plain _) _) fun _ => ih _

theorem Runs_along_ensureCapacity (n : Nat) :
    Runs (Along tr s₀ w A) (ensureCapacity n) (fun _ => Along tr s₀ w A) (Ended tr s₀) := by
  refine Runs_along_get fun s => ?_
  split
  · exact Runs_return ()
  · refine Runs_bind (R := fun _ => Along tr s₀ w A) (Runs_along_get fun s => ?_) fun _ =>
      Runs_along_plain (descAllocOp_plain n) _
    split
    · exact Runs_along_plain descFreeOp_plain _
    · exact Runs_return ()

/-- The modes of a DMA phase: it is entered from bulk-16 (R159, R160). -/
def BulkMode (m : Mode) : Prop := m = .bulk16 ∨ m = .bulk16Dma

theorem Runs_along_dmaLoad (hr : ReadsPlainly tr s₀ rd) (hd : tr .bulk16 .bulk16Dma = true) (k n : Nat) :
    KeepsCourse tr s₀ BulkMode (dmaLoad rd k n) := by
  have hlead : ∀ a, BulkMode a → a ≠ .bulk16Dma → tr a .bulk16Dma = true := by
    rintro a (rfl | rfl) hne
    · exact hd
    · exact absurd rfl hne
  exact Runs_bind (Runs_along_readMany hr n k) fun bs => Runs_along_get fun s =>
    Runs_bind (Runs_along_plain (bufWriteOp_plain _ _) _) fun _ => Runs_bind Runs_along_waitIdle fun _ =>
    Runs_bind (Runs_along_ensureMode (by decide) hlead) fun _ => Runs_bind (Runs_along_ensureCapacity _) fun _ =>
    Runs_bind (Runs_along_plain (descWriteOp_plain _) _) fun _ => Runs_bind (Runs_along_plain outLinkStartOp_plain _) fun _ =>
    Runs_bind (Runs_along_plain (spinOp_plain _) _) fun _ =>
    Runs_bind (Runs_along_txStart (B := BulkMode) fun _ => .inr) fun _ u h =>
    h.congr (t := u.setFlip (!u.S.flip)) rfl rfl

theorem Runs_along_dmaPhase (hr : ReadsPlainly tr s₀ rd) (hd : tr .bulk16 .bulk16Dma = true) (rounds k rem load : Nat) :
    KeepsCourse tr s₀ BulkMode (dmaPhase rd rounds k rem load) := by
  induction rounds generalizing k rem load with
  | zero => exact Runs_return ()
  | succ n ih =>
    refine Runs_bind (Runs_along_dmaLoad hr hd k _) fun _ => ?_
    split
    · exact Runs_return ()
    · exact ih _ _ _

/-- The DMA phase is entered with `useDma` only (R161). -/
theorem Runs_along_dmaEntry (useDma : Bool) (done : Nat) :
    Runs (Along tr s₀ w A) (dmaEntry useDma done)
      (fun go s => (go = true → useDma = true) ∧ Along tr s₀ w A s) (Ended tr s₀) := by
  refine Runs_along_get fun s => ?_
  split
  · next h => exact Runs_bind (Runs_along_plain radioPollOp_plain _) fun on s k => ⟨fun _ => h.1, k⟩
  · exact fun s k => ⟨(nomatch ·), k⟩

theorem Runs_along_fifoPhase (hr : ReadsPlainly tr s₀ rd) {useDma : Bool} (h : Leads tr A .bulk16)
    (hd : useDma = true → A .bulk16Dma ∧ tr .bulk16 .bulk16Dma = true) (rounds k pairs done len : Nat) :
    KeepsCourse tr s₀ A (fifoPhase rd useDma rounds k pairs done len) := by
  induction rounds generalizing k pairs done len with
  | zero => exact Runs_return ()
  | succ n ih =>
    refine Runs_bind Runs_along_waitIdle fun _ => Runs_bind (Runs_along_ensureMode (by decide) h.2) fun _ =>
      Runs_bind (Runs_along_pushPairs hr len k) fun _ => ?_
    refine Runs_bind (Runs_along_txStart (B := (· = .bulk16)) fun _ => id) fun _ => ?_
    split
    · exact fun s k => k.weaken fun _ e => e ▸ h.1
    · refine Runs_bind (Runs_along_dmaEntry useDma _) fun go => ?_
      split
      · next hgo =>
        rintro s ⟨hu, hs⟩
        obtain ⟨hA, htr⟩ := hd (hu hgo)
        exact Runs_weaken (Runs_along_dmaPhase hr htr _ _ _ _) (fun _ k => k.weaken fun _ => .inl)
          (fun _ _ k => k.weaken (by rintro m (rfl | rfl); exacts [h.1, hA])) (fun _ k => k) s hs
      · exact Runs_weaken (Runs_bind (Runs_along_plain (spinOp_plain _) _) fun _ => ih _ _ _ _)
          (fun _ k => k.2.weaken fun _ e => e ▸ h.1) (fun _ _ k => k) fun _ k => k

theorem Runs_along_bytesBody (hr : ReadsPlainly tr s₀ rd) {useDma : Bool} (h32 : Leads tr A .scalar32)
    (h : Leads tr A .bulk16) (hd : useDma = true → A .bulk16Dma ∧ tr .bulk16 .bulk16Dma = true) (length : Nat) :
    KeepsCourse tr s₀ A (bytesBody rd length useDma) := by
  have hp : ∀ k pairs, KeepsCourse tr s₀ A (pairsBody rd k pairs useDma) := fun k pairs => by
    unfold pairsBody
    split
    · exact Runs_return ()
    · exact Runs_along_fifoPhase hr h hd _ _ _ _ _
  unfold bytesBody
  split
  · exact Runs_bind (hr A 0) fun _ => Runs_bind (Runs_along_scalarWrite h32.2 h32.1 _ _ _) fun _ => hp _ _
  · exact hp _ _

theorem Runs_along_pixelLoop (h32 : Leads tr A .scalar32) (h : Leads tr A .bulk16)
    (p bpp limit length rounds start chunk : Nat) :
    KeepsCourse tr s₀ A (pixelLoop p bpp limit length rounds start chunk) := by
  induction rounds generalizing start chunk with
  | zero => exact Runs_return ()
  | succ n ih =>
    unfold pixelLoop
    split
    · exact Runs_bind (Runs_along_plain (pullWriteOp_plain _ _ _ _) _) fun _ => Runs_bind (Runs_along_check _ _) fun _ =>
        Runs_bind (Runs_along_bytesBody readPixbuf_plain (useDma := false) h32 h (by simp) _) fun _ => ih _ _
    · exact Runs_return ()

/-! ## Whole commands -/

/-- Nothing is asked of a path that starts in mode `None`, or it does not start there. -/
def Startable (tr : Mode → Mode → Bool) (m : Mode) : Prop := m = .none → ∀ m', tr .none m' = true

theorem Leads.of_active {m : Mode} (hm : m ≠ .none) (htr : ∀ a, a ≠ .none → a ≠ m → tr a m = true) :
    Leads tr (Startable tr) m := by
  refine ⟨fun e => absurd e hm, fun a ha hne => ?_⟩
  by_cases h : a = .none
  · subst h; exact ha rfl m
  · exact htr a h hne

theorem bulkToScalar_active (a : Mode) (h : a ≠ .none) (hne : a ≠ .scalar32) : bulkToScalar a .scalar32 = true := by
  cases a <;> simp_all [bulkToScalar]

theorem anyToBulk_active (a : Mode) (h : a ≠ .none) (hne : a ≠ .bulk16) : anyToBulk a .bulk16 = true := by
  cases a <;> simp_all [anyToBulk]

/-- What the history since `s` says of the command that led to `t`. -/
def Course (tr : Mode → Mode → Bool) (s t : State) : Prop :=
  ∃ es, t.hist = s.hist ++ es ∧ ModeWritesFollowWait es ∧ ModePath tr s.S.mode (modesOf es) t.S.mode

theorem Along.course {s t : State} (h : Along tr s w A t) : Course tr s t := by
  obtain ⟨-, es, hes, hf, -, hp⟩ := h
  exact ⟨es, hes, hf, hp⟩

/-- An instruction that writes no mode register logs no write of one. -/
theorem Performs_quiet {i : Instr} {s t : State} (p : Performs i s t) (hi : i.opcode ∉ .beginTransaction :: writers) :
    t.hist = s.hist ∨ ∃ e, t.hist = s.hist ++ [(s.S.pc, e)] ∧ ¬ ModeWrite e := by
  cases p with
  | modeReg h => exact absurd h hi
  | clkm h => simp [h] at hi
  | link => exact .inr ⟨_, rfl, by simp [ModeWrite, RegImage.reg]⟩
  | gate => split <;> simp [ModeWrite]
  | _ => simp [ModeWrite, RegImage.reg]

/-- From `s` to `t` no mode register is written. -/
def ModeQuiet (s t : State) : Prop := ∃ es, t.hist = s.hist ++ es ∧ ∀ e ∈ es, ¬ ModeWrite e.2

theorem ModeQuiet.of_hist {s t : State} (h : t.hist = s.hist) : ModeQuiet s t := ⟨[], by simp [h]⟩

theorem ModeQuiet.trans {s t u : State} (h : ModeQuiet s t) (k : ModeQuiet t u) : ModeQuiet s u := by
  obtain ⟨es, hes, hn⟩ := h
  obtain ⟨fs, hfs, hk⟩ := k
  exact ⟨es ++ fs, by rw [hfs, hes, List.append_assoc], fun e he => (List.mem_append.mp he).elim (hn e) (hk e)⟩

/-- A command that writes no mode register. -/
theorem exec_quiet {i : Instr} {s t : State} (h : exec i s = .next t) (hi : i.opcode ∉ .beginTransaction :: writers) :
    ModeQuiet s t := by
  refine exec_frame (fun _ => .of_hist rfl) (fun _ _ _ => .trans) (fun _ _ k => .of_hist k.hist)
    (fun s m => .of_hist (moved_beside s m).hist) (fun s t p => ?_) h
  rcases Performs_quiet p hi with e | ⟨e, he, hn⟩
  · exact .of_hist e
  · exact ⟨_, he, by simpa using hn⟩

theorem quiet_course {i : Instr} {s t : State} (h : exec i s = .next t) (hi : i.opcode ∉ .beginTransaction :: writers) :
    Course tr s t := by
  obtain ⟨es, hes, hn⟩ := exec_quiet h hi
  refine ⟨es, hes, modeWritesFollowWait_of_none hn, ?_⟩
  rw [modesOf_eq_nil hn]
  exact ((exec_sequencer h).mode hi).symm

theorem command_course {o : Opcode} {m : Act Unit} {s t : State} (h : command o m s = .next t) (hA : A s.S.mode)
    (hm : Runs (Along tr s False A) m (fun _ => Along tr s False B) (Ended tr s)) : Course tr s t := by
  rcases command_runs hm o (Along.start hA) with ⟨u, he, hu⟩ | ⟨u, he, hu⟩
  · cases h.symm.trans he; exact (hu.congr (t := u.advance o.row.len) rfl rfl).course
  · cases h.symm.trans he; exact hu.course

/-- A write command: it is in a transaction once its checks have passed. -/
theorem writeCommand_course {o : Opcode} {m : Act Unit} {s t : State}
    (h : command o (writeChecks >>= fun _ => m) s = .next t) (hs : s.S.txn = true → Startable tr s.S.mode)
    (hm : Runs (Along tr s False (Startable tr)) m (fun _ => Along tr s False A) (Ended tr s)) : Course tr s t := by
  rcases command_writeChecks_cases h with ⟨c, rfl⟩ | ⟨⟨-, htxn, -⟩, h⟩
  · exact ⟨[], by simp, modeWritesFollowWait_of_none (by simp), rfl⟩
  · exact command_course h (hs htxn) hm

theorem beginTransaction_course {s t : State} (h : exec .beginTransaction s = .next t)
    (htr : ∀ m, tr m .scalar32 = true) : Course tr s t := by
  refine command_course (A := fun _ => True) (B := (· = .scalar32)) h trivial ?_
  exact Runs_bind (Runs_along_check _ _) fun _ => Runs_bind (Runs_along_check _ _) fun _ =>
    Runs_bind Runs_along_waitIdle fun _ => Runs_bind (Runs_along_plain queryBusClockOp_plain _) fun f =>
    Runs_bind (R := fun _ => Along tr s True fun _ => True)
      (fun u k => k.congr (t := u.setCache (u.cacheFor f)) rfl rfl) fun _ => Runs_along_get fun t =>
    Runs_bind (Runs_along_plain (regWriteOp_plain (by simp [RegImage.reg]) (by simp [RegImage.reg])) _) fun _ =>
    Runs_along_switch (m := .scalar32) (f := fun u => (u.setMode .scalar32).setTxn true) (by decide) (fun _ => rfl)
      (fun _ => rfl) fun a _ => htr a

/-- The history of every command, where `tr` allows what its table does, and in a transaction whatever starts in mode
`None`. -/
theorem exec_course {i : Instr} {s t : State} (h : exec i s = .next t)
    (htr : ∀ m m', transitionsOf i m m' = true → tr m m' = true) (hs : s.S.txn = true → Startable tr s.S.mode) :
    Course tr s t := by
  have hscalar : (∀ m m', bulkToScalar m m' = true → tr m m' = true) → Leads tr (Startable tr) .scalar32 := fun k =>
    .of_active (by decide) fun a ha hne => k _ _ (bulkToScalar_active a ha hne)
  have hbulk : (∀ m m', anyToBulk m m' = true → tr m m' = true) → Leads tr (Startable tr) .bulk16 := fun k =>
    .of_active (by decide) fun a ha hne => k _ _ (anyToBulk_active a ha hne)
  cases i with
  | beginTransaction => exact beginTransaction_course h fun m => htr m _ (by simp [transitionsOf])
  | writeCommand v b =>
    obtain ⟨hactive, hlead⟩ := hscalar htr
    exact writeCommand_course h hs (Runs_bind (Runs_along_check _ _) fun _ => Runs_along_scalarWrite hlead hactive _ _ _)
  | writeData v b =>
    obtain ⟨hactive, hlead⟩ := hscalar htr
    exact writeCommand_course h hs (Runs_bind (Runs_along_check _ _) fun _ => Runs_along_scalarWrite hlead hactive _ _ _)
  | writeDataRepeat v b n =>
    have h32 := hscalar fun m m' k => htr m m' (by simp [transitionsOf, k])
    have h16 := hbulk fun m m' k => htr m m' (by simp [transitionsOf, k])
    refine writeCommand_course (A := Startable tr) h hs (Runs_bind (Runs_along_check _ _) fun _ =>
      Runs_bind (Runs_along_check _ _) fun _ => ?_)
    split
    · exact Runs_along_repeatLoop h16 _ _ _ _ _
    · exact Runs_along_repeat3 h32 h16 _ _ _
  | writeBytes buffer len dma =>
    have h32 := hscalar fun m m' k => htr m m' (by simp [transitionsOf, k])
    have h16 := hbulk fun m m' k => htr m m' (by simp [transitionsOf, k])
    exact writeCommand_course h hs (Runs_bind (Runs_along_check _ _) fun _ =>
      Runs_along_bytesBody (memRead_plain buffer) h32 h16 (fun _ => ⟨(nomatch ·), htr _ _ (by simp [transitionsOf])⟩)
        len)
  | writePixels p len =>
    have h32 := hscalar fun m m' k => htr m m' (by simp [transitionsOf, k])
    have h16 := hbulk fun m m' k => htr m m' (by simp [transitionsOf, k])
    exact writeCommand_course h hs (Runs_bind (Runs_bind (Runs_along_check _ _) fun _ => Runs_along_check _ _) fun _ =>
      Runs_along_get fun _ => Runs_along_pixelLoop h32 h16 _ _ _ _ _ _ _)
  | _ => exact quiet_course h (by simp [Instr.opcode, writers])

/-- Settles O23: a step's new events are those of one command (`exec_course`), or none; the attempted write is the hazard of
R105. -/
theorem modeWritesFollowIdleWait : Obligations.ModeWritesFollowIdleWait := by
  unfold Obligations.ModeWritesFollowIdleWait
  refine ⟨fun s t hs h => ?_, fun s v hv hr => ?_⟩
  · refine step_keeps (I := fun s => ModeWritesFollowWait s.hist) (fun _ _ k => k)
      (fun s m k => by rw [(moved_beside s m).hist]; exact k) (fun _ _ k => k) (fun _ k => k) (fun i u v k _ h => ?_) hs h
    obtain ⟨es, hes, hf, -⟩ := exec_course (tr := fun _ _ => true) h (fun _ _ _ => rfl) fun _ _ _ => rfl
    rw [hes]
    exact k.append hf
  · have hz : s.regHazard v = true := regHazard_iff.mpr (.inl ⟨by rcases hv with hv | hv <;> simp [hv], hr⟩)
    exact perform_raise ((regWriteOp_raise_iff v).mpr ⟨rfl, hz⟩)

/-- Settles O22: the control invariant rules mode `None` out in a transaction, so `exec_course` holds of the table itself. -/
theorem modeTransitions : Obligations.ModeTransitions := by
  unfold Obligations.ModeTransitions
  intro i s t hc h
  obtain ⟨es, hes, hf, hp⟩ := exec_course (tr := transitionsOf i) h (fun _ _ k => k)
    fun htxn hnone => absurd hnone (hc.txn_mode htxn)
  exact ⟨es, hes, hp, hf⟩

/-! ## The mode after a scalar write (R145) -/

/-- A command that is stopped leaves the command pointer at its header. -/
theorem Halted_pc {i : Instr} {s t : State} (h : Halted i s t) : t.S.pc = s.S.pc := by
  have hd : ∀ {u}, Did i s u → u.S.pc = s.S.pc := fun d =>
    d.keeps (I := fun u => u.S.pc = s.S.pc) rfl (fun _ _ k => k) (fun u m k _ => by rw [(moved_beside u m).S]; exact k)
      fun _ _ k p => (Performs_pointer p).1.trans k
  cases h with
  | raised d => simpa using hd d
  | moved d m => rw [(moved_beside _ m).S]; exact hd d
  | held d => simpa using hd d

/-- A command that advances the command pointer ran to its end. -/
theorem command_completes {i : Instr} {o : Opcode} {m : Act Unit} {s t : State} (hm : Doing i m)
    (h : command o m s = .next t) (hpc : t.S.pc ≠ s.S.pc) : ∃ u, m s = .ok () u ∧ t = u.advance o.row.len := by
  have hd := hm s trivial
  rcases command_next o m s with ⟨u, hu, he⟩ | ⟨e, u, hu, he⟩
  · cases h.symm.trans he
    exact ⟨u, hu, rfl⟩
  · rw [hu] at hd
    cases h.symm.trans he
    exact absurd (Halted_pc hd) hpc

/-- The checks and the transfer of `writeCommand` and `writeData` (R148, R149). -/
def scalarCommand (tag : Bool) (v : Word) (b : Nat) : Act Unit := do
  writeChecks
  needOperand fun _ => legalBitLength b
  scalarWrite tag v b

theorem Doing_scalarCommand {i : Instr} (h : i.opcode ∈ writers) (tag : Bool) (v : Word) (b : Nat) :
    Doing i (scalarCommand tag v b) :=
  Doing_bind Doing_writeChecks fun _ => Doing_bind (Doing_check _ _) fun _ => Doing_scalarWrite h _ _ _

/-- With no transition ruled out, all that is left to say is the mode it ends in. -/
theorem Runs_along_scalarCommand (tag : Bool) (v : Word) (b : Nat) :
    Runs (Along (fun _ _ => true) s₀ False A) (scalarCommand tag v b)
      (fun _ => Along (fun _ _ => true) s₀ False (· = .scalar32)) (Ended (fun _ _ => true) s₀) :=
  Runs_bind (Runs_bind (Runs_along_check _ _) fun _ => Runs_bind (Runs_along_check _ _) fun _ => Runs_along_check _ _)
    fun _ => Runs_bind (Runs_along_check _ _) fun _ =>
      Runs_along_scalarWrite (B := (· = .scalar32)) (fun _ _ _ => rfl) rfl _ _ _

/-- A scalar command that completes has switched to scalar-32. -/
theorem scalarCommand_mode {i : Instr} {o : Opcode} {tag : Bool} {v : Word} {b : Nat} {s t : State}
    (hi : i.opcode ∈ writers) (h : command o (scalarCommand tag v b) s = .next t) (hpc : t.S.pc ≠ s.S.pc) :
    t.S.mode = .scalar32 := by
  obtain ⟨u, hu, rfl⟩ := command_completes (Doing_scalarCommand hi tag v b) h hpc
  have hend := Runs_along_scalarCommand (A := fun _ => True) tag v b s (Along.start trivial)
  rw [hu] at hend
  exact hend.1

/-- Settles O24: both commands are `scalarCommand`s. -/
theorem scalarCommandsLeaveScalarMode : Obligations.ScalarCommandsLeaveScalarMode := by
  unfold Obligations.ScalarCommandsLeaveScalarMode
  exact fun s t v b => ⟨scalarCommand_mode (i := .writeCommand v b) (by simp [Instr.opcode, writers]),
    scalarCommand_mode (i := .writeData v b) (by simp [Instr.opcode, writers])⟩

end Sys2Proof.Machine
end

section
/-!
PROOFS. The commands of a transaction that write no register: `endTransaction`, `busy` and `wait` (R140 to R142).
* `pollIdle_ready`, `pollIdle_latches`: a poll with no move listed, at once or after the latch it waits for.
* `SentWhenIdle`: a transmission runs, or all of it has been sent; no move ends this.
* `waitIdle_drains`: where an unhindered wait ends while a transmission runs, from a state that need not be between commands.
-/

namespace Sys2Proof.Machine

/-! ## endTransaction (R140) -/

/-- `endTransaction` is its three checks in order and the one assignment. -/
theorem exec_endTransaction (s : State) : exec .endTransaction s =
    if (s.S.life == .initialised) = true then
      if s.S.txn = true then
        if (!s.S.read) = true then .next ((s.setTxn false).advance 1) else .next (s.takeFault .readMode)
      else .next (s.takeFault .noTxn)
    else .next (s.takeFault .lifecycle) := by
  refine (command_check _ _ _ _ _).trans ?_
  rw [needTxn, needNotReading, command_check, command_check, command_update]
  rfl

/-- Settles O21: the checks one by one, in the order of R185. -/
theorem endTransactionCommand : Obligations.EndTransactionCommand := by
  unfold Obligations.EndTransactionCommand
  intro s
  rw [exec_endTransaction]
  by_cases hl : s.S.life = .initialised
  · cases ht : s.S.txn with
    | false => simp [hl, State.takeFault]
    | true => cases hr : s.S.read <;> simp [hl, State.takeFault, State.setTxn, State.advance]
  · simp [hl, State.takeFault]

/-! ## busy (R142) -/

/-- `busy` once its poll is known. -/
theorem exec_busy_polled {s t : State} {b : Bool} (hl : s.S.life = .initialised) (hp : pollIdle s = .ok b t) :
    exec .busy s = .next ((t.setRes (if b then 0#32 else 1#32)).advance 1) := by
  refine (command_check _ _ _ _ _).trans ?_
  rw [if_pos (by simp [hl]), command_bind_ok hp]
  rfl

/-- With no move listed, a poll that does not wait for the latch. -/
theorem pollIdle_ready {s : State} (hq : s.E.sched = []) (hr : s.pollReady = true) :
    pollIdle s = .ok s.idleFlag (s.emit (.poll s.idleFlag)) :=
  (micro_unblocked hq (if_pos hr)).trans rfl

/-- With no move listed, a poll that waits for the latch: the transmitter takes its latch step first (R87, R94). -/
theorem pollIdle_latches {s : State} (hf : s.S.fault = none) (hq : s.E.sched = []) (hp : s.par.hwProgress = true)
    (hlatch : s.P.tx.latchPending = true) (hr : s.pollReady = false) :
    pollIdle s = .ok (!s.P.tx.running) ((s.setTx ⟨s.P.tx.running, false⟩).emit (.poll !s.P.tx.running)) := by
  have hstep : hwStep s = some (s.setTx ⟨s.P.tx.running, false⟩) := by simp [hwStep, txStep, hlatch]
  have hready : (s.setTx ⟨s.P.tx.running, false⟩).pollReady = true := by simp [State.pollReady]
  simp [pollIdle, micro, hq, await, hwFuel, settle, hr, hp, hstep, hf, hready, perform, pollIdleOp, State.idleFlag]

/-- Where a poll does not wait for the latch, the flag shows the transmission unless its start is not latched. -/
theorem idleFlag_of_ready {s : State} (hr : s.pollReady = true) :
    s.idleFlag = !(s.P.tx.running && (s.par.pStartLatch || !s.P.tx.latchPending)) ∧
      (s.P.tx.latchPending && !s.par.pStartLatch) = s.P.tx.latchPending := by
  unfold State.pollReady at hr
  unfold State.idleFlag
  cases hl : s.par.pStartLatch <;> cases hp : s.P.tx.latchPending <;> simp [hl, hp] at hr ⊢

/-- Settles O12: while nothing is transmitted the poll is `pollIdle_still`; with no move listed it is answered at once, or
after the latch step that it waits for. -/
theorem busyCommand : Obligations.BusyCommand := by
  unfold Obligations.BusyCommand
  refine ⟨fun s h hl => exec_busy_polled hl (pollIdle_still h), fun s hf hl hq hp => ?_⟩
  cases hr : s.pollReady with
  | true =>
    obtain ⟨hflag, hkeep⟩ := idleFlag_of_ready hr
    rw [exec_busy_polled hl (pollIdle_ready hq hr), hflag, hkeep]
    cases hrun : s.P.tx.running && (s.par.pStartLatch || !s.P.tx.latchPending) <;> rfl
  | false =>
    have hlatch : s.par.pStartLatch = true ∧ s.P.tx.latchPending = true := by simpa [State.pollReady] using hr
    rw [exec_busy_polled hl (pollIdle_latches hf hq (hp hlatch.1 hlatch.2) hlatch.2 hr)]
    cases hrun : s.P.tx.running <;> simp [State.setRes, State.advance, State.emit, State.setTx, hlatch, hrun]

/-! ## wait (R141) -/

/-- A transmission runs, or it has finished and nothing is left to send. -/
def SentWhenIdle (s : State) : Prop := s.P.tx.running = true ∨ s.P.tx = ⟨false, false⟩ ∧ s.pending = []

theorem finish_pending {s : State} (h : s.drained) : s.finish.pending = [] := by
  rcases h with ⟨hd, hq⟩ | ⟨hd, ⟨hl, hq⟩ | ⟨hl, ho⟩⟩ <;> simp [State.pending, finish_dma, *]

theorem SentWhenIdle_moved {s : State} {m : Move} (h : SentWhenIdle s) (hf : (s.moved m).S.fault = none) :
    SentWhenIdle (s.moved m) := by
  cases m with
  | seq => exact h
  | tx =>
    cases hx : txStep s with
    | none => simpa [State.moved, hx] using h
    | some t =>
      simp only [State.moved, hx, Option.getD_some] at hf ⊢
      rcases h with hr | ⟨htx, -⟩
      · rcases txStep_cases hx with ⟨-, rfl⟩ | ⟨hp, -, ⟨-, w, ws, -, rfl⟩ | ⟨-, -, x, xs, -, ⟨-, rfl⟩ | ⟨-, rfl⟩⟩ | ⟨hd, rfl⟩⟩
        · exact .inl hr
        · exact .inl (by simpa using hr)
        · exact .inl hr
        · exact .inl (by simpa using hr)
        · exact .inr ⟨by simp [hp], finish_pending hd⟩
      · simp [txStep, htx] at hx
  | dma =>
    cases hx : dmaStep s with
    | none => simpa [State.moved, hx] using h
    | some t =>
      simp only [State.moved, hx, Option.getD_some] at hf ⊢
      have htx : t.P.tx = s.P.tx := by rcases dmaStep_cases hx with ⟨-, -, -, ⟨-, rfl⟩ | ⟨-, rfl⟩⟩ <;> rfl
      unfold SentWhenIdle
      rw [htx, (dmaStep_pending hx hf).2.2]
      exact h
  | radio v => exact h
  | clkm v => simp only [State.moved]; split <;> exact h

theorem SentWhenIdle_stable : Stable SentWhenIdle := .of_moves (fun _ _ h => h) fun _ _ => SentWhenIdle_moved

/-- In write routing no move changes the view. -/
theorem view_stable (γ : View) : Stable fun s => Routed s ∧ s.view = γ :=
  .of_moves (fun _ _ h => h) fun _ m h hf => ⟨Routed_moved h.1 m, (moved_view h.1 hf).trans h.2⟩

/-- Only the radio stops a move, and only in DMA mode (R99). -/
theorem moved_unfaulted {s : State} (m : Move) (hf : s.S.fault = none)
    (hr : s.P.regs.fconf.dscrEn = true → s.radioOn = false) : (s.moved m).S.fault = none := by
  cases m with
  | seq => exact hf
  | tx =>
    cases hx : txStep s with
    | none => simpa [State.moved, hx] using hf
    | some t =>
      simp only [State.moved, hx, Option.getD_some]
      rcases txStep_cases hx with ⟨-, rfl⟩ | ⟨-, -, ⟨-, w, ws, -, rfl⟩ | ⟨hd, -, x, xs, -, ⟨ho, -⟩ | ⟨-, rfl⟩⟩ | ⟨-, rfl⟩⟩
      · exact hf
      · simpa using hf
      · simp [hr hd] at ho
      · simpa using hf
      · simpa using hf
  | dma =>
    cases hx : dmaStep s with
    | none => simpa [State.moved, hx] using hf
    | some t =>
      simp only [State.moved, hx, Option.getD_some]
      rcases dmaStep_cases hx with ⟨-, -, hd, ⟨ho, -⟩ | ⟨-, rfl⟩⟩
      · simp [hr hd] at ho
      · exact hf
  | radio v => exact hf
  | clkm v => simp only [State.moved]; split <;> exact hf

theorem Unhindered.not_fails {s t : State} (h : Unhindered s) (hf : s.S.fault = none) : ¬ Fails s t := by
  have hr : s.P.regs.fconf.dscrEn = true → s.radioOn = false := fun hd => by simp [State.radioOn, (h.radio hd).1]
  intro f
  cases f with
  | listed _ hn => exact hn (moved_unfaulted (s := s.setSched _) _ hf hr)
  | settled _ _ hw hn => obtain ⟨m, rfl⟩ := hwStep_moved hw; exact hn (moved_unfaulted m hf hr)

/-- An unhindered wait comes to its turn with everything sent and the transmitter finished. -/
theorem waitIdle_drains {s : State} (hf : s.S.fault = none) (hr : s.P.tx.running = true) (hw : s.G.writeRouting = true)
    (hu : Unhindered s) : ∃ t : State, waitIdle s = .ok () (t.emit .wait) ∧ t.view = s.view ∧ t.P.tx = ⟨false, false⟩ ∧
      t.pending = [] := by
  have hstable := ((view_stable s.view).and Unhindered_stable).and SentWhenIdle_stable
  have hinv : ∀ {t}, Waits s t → ((Routed t ∧ t.view = s.view) ∧ Unhindered t) ∧ SentWhenIdle t := fun w =>
    hstable.waits w ⟨⟨⟨fun _ => hw, rfl⟩, hu⟩, .inl hr⟩
  rcases micro_waits (blocked := fun s => if s.waitReady then none else some .waitIdle) (op := waitIdleOp) hf with
    ⟨t, _, u, he, w, hb, ho⟩ | ⟨t, c, -, -, -, ho⟩ | ⟨t, v, -, w, hv⟩ | ⟨t, x, -, w, hb, -, hn⟩
  · cases ho
    obtain ⟨⟨⟨-, hview⟩, hut⟩, hsent⟩ := hinv w
    obtain ⟨hp, hidle⟩ := hut.finished (by simpa using hb)
    refine ⟨t, he, hview, tx_idle hp hidle, ?_⟩
    rcases hsent with hrun | ⟨-, hpending⟩
    · simp [hidle] at hrun
    · exact hpending
  · cases ho
  · obtain ⟨⟨⟨-, hview⟩, hut⟩, -⟩ := hinv w
    exact absurd hv (hut.not_fails ((congrArg (fun γ => γ.S.fault) hview).trans hf))
  · obtain ⟨⟨-, hut⟩, -⟩ := hinv w
    obtain ⟨hp, hidle⟩ := hwStep_none (hn hut.progress)
    simp [State.waitReady, State.pollReady, State.idleFlag, hp, hidle] at hb

/-- Settles O13: with the peripheral idle the wait is `waitIdle_still`; while a transmission runs it is `waitIdle_drains`, and
the view says what the bus gained and what stayed. -/
theorem waitCommand : Obligations.WaitCommand := by
  unfold Obligations.WaitCommand
  refine ⟨fun s h hl => exec_wait_of_ok hl (waitIdle_still h), fun s hf hl hp hr hlatch hw hradio => ?_⟩
  obtain ⟨t, he, hview, htx, hpending⟩ := waitIdle_drains hf hr hw ⟨hlatch, hp, hradio⟩
  have hS : t.S = s.S := congrArg View.S hview
  have hhist : t.hist = s.hist := congrArg View.hist hview
  have hout : t.output = s.output := congrArg View.output hview
  rw [State.output, hpending, List.append_nil] at hout
  refine ⟨_, exec_wait_of_ok hl he, hout, hpending, htx, ?_, ?_, congrArg View.G hview, congrArg View.M hview⟩
  · simp [State.advance, hS]
  · simp [State.advance, hS, hhist]

end Sys2Proof.Machine
end

section
/-!
PROOFS. `writeCommand` and `writeData` with the peripheral idle (R147 to R149), exact under every interleaving.
* `Gives.switchMode`, `Gives.fifoPushes`: the switch and the pushes, each as one change of the state and one piece of history.
* `Gives.scalarWrite`: `ScalarWrite` ends in `State.scalarWritten`.
* `command_scalarCommand`: what both commands do, for either tag.
-/

namespace Sys2Proof.Machine

/-! ## The registers after a mode switch (R138) -/

section
variable (s : State) (m : Mode) (w : Width) (f : FconfImage)

@[simp] theorem switched_fifo : (s.switched m w f).P.fifo = s.P.fifo := by unfold State.switched; split <;> rfl
@[simp] theorem switched_par : (s.switched m w f).par = s.par := by unfold State.switched; split <;> rfl
@[simp] theorem switched_E : (s.switched m w f).E = s.E := by unfold State.switched; split <;> rfl

theorem switched_emit (e : Event) : (s.emit e).switched m w f = (s.switched m w f).emit e := by
  unfold State.switched
  rw [emit_S]
  split <;> rfl

end

theorem Calm_switched {s : State} (h : Calm s) (m : Mode) (w : Width) (f : FconfImage) : Calm (s.switched m w f) := by
  unfold State.switched
  split <;> exact h

theorem Calm_logged {s : State} (h : Calm s) (es : List Event) : Calm (s.logged es) := h

/-! ## The parts of `ScalarWrite` (R147) -/

/-- The checks of a write command pass. -/
theorem Gives.writeChecks {s : State} (h : WriteReady s) : Gives writeChecks s () s := by
  unfold Machine.writeChecks
  refine (Gives.check fun ms r => ?_).bind rfl ((Gives.check fun ms r => ?_).bind rfl (Gives.check fun ms r => ?_))
  · show (s.S.life == .initialised) = true
    simp [h.life]
  · exact h.txn
  · show (!s.S.read) = true
    simp [h.write]

/-- The switch of the mode registers and its history. -/
theorem Gives.switchMode {s : State} (h : Calm s) (m : Mode) : Gives (Machine.ensureMode m) s ()
    ((s.switched m m.width m.fconf).logged (modeSwitch s.S.mode m m.width m.fconf)) := by
  refine (Gives.ensureMode h m).congr ?_
  unfold State.switched modeSwitch
  split <;> simp [State.logged, State.setRegs, State.emit, State.setMode]

/-- Words pushed where the FIFO has room for all of them. -/
theorem Gives.fifoPushes {s : State} (h : Calm s) (ws : List Word)
    (hroom : s.P.fifo.length + ws.length ≤ s.par.fifoDepth) : Gives (Machine.forEach Machine.fifoPush ws) s ()
      ((s.setFifo (s.P.fifo ++ ws)).logged (ws.map .push)) := by
  induction ws generalizing s with
  | nil => exact (Gives.pure () s).congr (by simp [State.logged, State.setFifo])
  | cons w ws ih =>
    rw [List.length_cons] at hroom
    have hrest := ih (s := (s.setFifo (s.P.fifo ++ [w])).emit (.push w)) h (by simp; omega)
    refine ((Gives.fifoPush h w (by omega)).bind rfl hrest).congr ?_
    simp [State.logged, State.setFifo, State.emit]

/-- Words pushed into the empty FIFO, and the start. -/
theorem Gives.pushesStart {s : State} (h : Calm s) (hfifo : s.P.fifo = []) (ws : List Word)
    (hroom : ws.length ≤ s.par.fifoDepth) :
    Gives (Machine.forEach Machine.fifoPush ws >>= fun _ => Machine.txStart) s ()
      ((s.started ws).logged (ws.map .push ++ [.start])) := by
  have hcalm : Calm ((s.setFifo (s.P.fifo ++ ws)).logged (ws.map .push)) := h
  refine ((Gives.fifoPushes h ws (by simpa [hfifo] using hroom)).bind rfl (Gives.txStart hcalm)).congr ?_
  simp [State.started, State.logged, State.setFifo, State.setRegs, State.setTx, State.emit, hfifo]

/-! ## A scalar write (R147) -/

/-- The state after `ScalarWrite` of the words `ws` from an idle peripheral. -/
def State.scalarWritten (s : State) (ws : List Word) : State :=
  ((s.switched .scalar32 .w32 ⟨.scalar, false⟩).started ws).logged
    (.wait :: modeSwitch s.S.mode .scalar32 .w32 ⟨.scalar, false⟩ ++ ws.map Event.push ++ [.start])

theorem Gives.scalarWrite {s : State} (h : Calm s) (hfifo : s.P.fifo = []) (tag : Bool) (v : Word) {b : Nat}
    (hroom : scalarBytes b ≤ s.par.fifoDepth) :
    Gives (Machine.scalarWrite tag v b) s () (s.scalarWritten (scalarWords tag v b)) := by
  have hswitched := Calm_logged (Calm_switched (Calm_emit h .wait) .scalar32 .w32 ⟨.scalar, false⟩)
    (modeSwitch s.S.mode .scalar32 .w32 ⟨.scalar, false⟩)
  have hsend := Gives.pushesStart hswitched (by simpa [State.logged] using hfifo) (scalarWords tag v b)
    (by simpa [State.logged, scalarWords] using hroom)
  refine ((Gives.waitIdle h).bind rfl <| (Gives.switchMode (Calm_emit h .wait) .scalar32).bind ?_ hsend).congr ?_
  · simp [State.logged]
  · rw [switched_emit]
    simp [State.scalarWritten, State.logged, State.started, State.emit]

theorem scalarWords_upperWord (tag : Bool) (v : Word) (b : Nat) : scalarWords tag v b =
    (List.range (max 1 ((b + 7) / 8))).map fun i => upperWord (if tag then 1 else 0) (byteAt v i) := by
  simp [scalarWords, scalarBytes, ceil8, WS_byteOf]

/-- Both scalar commands, for either tag. -/
theorem command_scalarCommand {s : State} (h : WriteReady s) {b : Nat} (hb : b ≤ 32) (hdepth : 4 ≤ s.par.fifoDepth)
    (o : Opcode) (tag : Bool) (v : Word) : ∃ ms r, ms <:+ s.E.sched ∧ command o (scalarCommand tag v b) s =
      .next (passed ((s.scalarWritten ((List.range (max 1 ((b + 7) / 8))).map fun i =>
        upperWord (if tag then 1 else 0) (byteAt v i))).advance o.row.len) ms r) := by
  have hlegal : Gives (needOperand fun _ => legalBitLength b) s () s := .check fun _ _ => by simpa [legalBitLength] using hb
  rw [← scalarWords_upperWord]
  exact ((Gives.writeChecks h).bind rfl <| hlegal.bind rfl <|
    .scalarWrite h.calm h.fifo tag v ((scalarBytes_le hb).trans hdepth)).command o

/-- Settles O25: `writeCommand` is the scalar command with tag 0. -/
theorem writeCommandEffect : Obligations.WriteCommandEffect := by
  unfold Obligations.WriteCommandEffect
  exact fun s v b h hb hdepth => command_scalarCommand h hb hdepth .writeCommand false v

/-- Settles O26: `writeData` is the scalar command with tag 1. -/
theorem writeDataEffect : Obligations.WriteDataEffect := by
  unfold Obligations.WriteDataEffect
  exact fun s v b h hb hdepth => command_scalarCommand h hb hdepth .writeData true v

end Sys2Proof.Machine
end

section
/-!
PROOFS. `writeDataRepeat` and the batch law (R152 to R155), under any interleaving and whatever is still being sent.
* `View.wrote`: the view after a FIFO write: the mode it leaves, its history, its bus events; two in a row are one.
* `Runs_leftoverPixel`, `Runs_repeatPairs`, `Runs_repeat2`, `Runs_repeat3`: what each part of the rules adds to the view.
* `writeCommand_completes`: a write command whose checks pass and that nothing can stop completes.
-/

namespace Sys2Proof.Machine

/-! ## The batch law (R155) -/

/-- `ceil(n / b)`, the leading batch counted apart. -/
theorem ceil_div_eq {n b : Nat} (hn : 1 ≤ n) (hb : 1 ≤ b) : (n + b - 1) / b = (n - 1) / b + 1 := by
  rw [show n + b - 1 = n - 1 + b by omega, Nat.add_div_right _ hb]

theorem batchSizes_bounds (n : Nat) {b : Nat} (hb : 1 ≤ b) : ∀ x ∈ batchSizes n b, 1 ≤ x ∧ x ≤ b := by
  intro x hx
  have hlead := Nat.mod_lt (n - 1) hb
  simp only [batchSizes, List.mem_cons, List.mem_replicate] at hx
  omega

/-- Settles O31: the leading batch takes the remainder, so the full batches take the rest exactly. -/
theorem batchLaw : Obligations.BatchLaw := by
  unfold Obligations.BatchLaw
  intro n b hn hb
  refine ⟨batchSizes_sum hn, ?_, batchSizes_bounds n hb, rfl⟩
  rw [ceil_div_eq hn hb]
  simp [batchSizes]

/-! ## Copies of a pixel -/

/-- Copies of the words of `bs` give copies of `bs` (R50). -/
theorem cyclesOf_copies {w : Width} {ws : List Word} {bs : List Byte} (h : cyclesOf w ws = dataCycles bs) (n : Nat) :
    cyclesOf w (List.replicate n ws).flatten = dataCycles (List.replicate n bs).flatten := by
  induction n with
  | zero => rfl
  | succ n ih => simp [List.replicate_succ, h, ih]

theorem flatten_copies_twice {α : Type} (xs : List α) (n : Nat) :
    (List.replicate n (xs ++ xs)).flatten = (List.replicate (2 * n) xs).flatten := by
  induction n with
  | zero => rfl
  | succ n ih => simp [List.replicate_succ, Nat.mul_succ, ih]

/-- An odd copy and the pairs are all the copies. -/
theorem flatten_copies_pairs {α : Type} (xs : List α) (n : Nat) :
    (if n % 2 = 1 then xs else []) ++ (List.replicate (n / 2) (xs ++ xs)).flatten = (List.replicate n xs).flatten := by
  rw [flatten_copies_twice]
  by_cases h : n % 2 = 1
  · rw [if_pos h]
    conv_rhs => rw [show n = 2 * (n / 2) + 1 by omega, List.replicate_succ, List.flatten_cons]
  · rw [if_neg h, show 2 * (n / 2) = n by omega, List.nil_append]

theorem WR2_eq (c : Word) : WR2 c = pairWord (byteAt c 0) (byteAt c 1) := WB_byteOf c 0 1

theorem WR2_cycles (c : Word) : cyclesOf .w16 [WR2 c] = dataCycles (pixelBytes c 2) := by
  rw [WR2, WB_cycles, byteOf_eq, byteOf_eq]; rfl

theorem WR3_pushes (c : Word) : (WR3 c).map Event.push = pairPushes c := by
  simp [WR3, pairPushes, WB_byteOf]

theorem WR3_cycles (c : Word) : cyclesOf .w16 (WR3 c) = dataCycles (pixelBytes c 3 ++ pixelBytes c 3) := by
  rw [WR3, cyclesOf_cons, cyclesOf_cons _ (WB (byteOf c 2) _), WB_cycles, WB_cycles, WB_cycles, byteOf_eq, byteOf_eq,
    byteOf_eq]
  rfl

/-- The pushes of copies of the same words. -/
theorem map_push_copies (ws : List Word) (n : Nat) :
    (List.replicate n ws).flatten.map Event.push = (List.replicate n (ws.map Event.push)).flatten := by
  rw [List.map_flatten, List.map_replicate]

/-! ## The view after a FIFO write -/

/-- The view after a write through the FIFO that leaves mode `m`, records `es` and puts `bs` on the bus. -/
def View.wrote (γ : View) (m : Mode) (es : List Event) (bs : List BusEvent) : View := ((γ.setMode m).logged es).sends bs

theorem View.wrote_wrote (γ : View) (m m' : Mode) (es es' : List Event) (bs bs' : List BusEvent) :
    (γ.wrote m es bs).wrote m' es' bs' = γ.wrote m' (es ++ es') (bs ++ bs') := by
  simp only [View.wrote, View.setMode_sends, View.sends_logged, View.sends_sends, ← View.setMode_logged,
    View.logged_logged]
  rfl

theorem View.wrote_nothing (γ : View) : γ.wrote γ.S.mode [] [] = γ := by
  rw [View.wrote, View.logged_nil, View.sends_nil]; rfl

theorem Sent.wrote (γ : View) (m : Mode) (es : List Event) (bs : List BusEvent) : Sent γ bs (γ.wrote m es bs) :=
  (((Sent.setMode γ m).trans (Sent.logged _ es)).trans (Sent.sends _ bs)).cast (by simp)

/-! ## The parts of `writeDataRepeat` -/

section
variable {g r : Prop} {γ : View}

/-- `Repeat2` (R153). -/
theorem Runs_repeat2 (c : Word) {count : Nat} (hcount : 1 ≤ count) :
    Runs (fun s => Sending g r s ∧ s.view = γ) (repeat2 c count)
      (fun _ s => Sending g r s ∧ s.view = γ.wrote .bulk16 (repeat2Events γ.S.mode γ.par.kRepeat c count)
        (dataCycles (List.replicate count (pixelBytes c 2)).flatten)) (Halts g) := by
  have h := Runs_repeat (g := g) (r := r) (unit := [WR2 c]) (full := repBatch2) (by simp [repBatch2]) (by decide) hcount γ
  have hpush (n : Nat) : (List.replicate n [WR2 c]).flatten.map Event.push =
      List.replicate n (.push (pairWord (byteAt c 0) (byteAt c 1))) := by
    rw [map_push_copies, ← WR2_eq]; simp
  simp only [hpush, cyclesOf_copies (WR2_cycles c)] at h
  exact h

/-- The leftover pixel of `Repeat3`, if the count is odd (R154). -/
theorem Runs_leftoverPixel (c : Word) {b : Nat} (h17 : 17 ≤ b) (h24 : b ≤ 24) (count : Nat) :
    Runs (fun s => Sending g r s ∧ s.view = γ) (leftoverPixel c b count)
      (fun _ s => Sending g r s ∧ s.view = γ.wrote (if count % 2 = 1 then .scalar32 else γ.S.mode)
        (if count % 2 = 1 then scalarEvents γ.S.mode 1 [byteAt c 0, byteAt c 1, byteAt c 2] else [])
        (dataCycles (if count % 2 = 1 then pixelBytes c 3 else []))) (Halts g) := by
  unfold leftoverPixel
  by_cases hodd : count % 2 = 1
  · simp only [if_pos hodd]
    have hbytes : (b + 7) / 8 = 3 := by omega
    have hpush : (scalarWords true c b).map Event.push =
        [byteAt c 0, byteAt c 1, byteAt c 2].map fun x => .push (upperWord 1 x) := by
      simp [scalarWords, scalarBytes, ceil8, hbytes, WS_byteOf, List.range_succ]
    have h := Runs_scalarWrite (g := g) (r := r) (γ := γ) true c (b := b) (by omega)
    rw [hpush, scalarWords_cycles, hbytes] at h
    exact h
  · simp only [if_neg hodd]
    exact fun s hs => ⟨hs.1, hs.2.trans γ.wrote_nothing.symm⟩

/-- The pairs of `Repeat3` (R154). -/
theorem Runs_repeatPairs (c : Word) (pairs : Nat) :
    Runs (fun s => Sending g r s ∧ s.view = γ) (repeatPairs c pairs)
      (fun _ s => Sending g r s ∧ s.view = γ.wrote (if pairs = 0 then γ.S.mode else .bulk16)
        (if pairs = 0 then [] else burstEvents γ.par.kRepeat (toBulk16 γ.S.mode)
          ((batchSizes pairs 10).map fun n => (List.replicate n (pairPushes c)).flatten))
        (dataCycles (List.replicate pairs (pixelBytes c 3 ++ pixelBytes c 3)).flatten)) (Halts g) := by
  unfold repeatPairs
  by_cases hzero : pairs = 0
  · subst hzero
    exact fun s hs => ⟨hs.1, hs.2.trans γ.wrote_nothing.symm⟩
  · simp only [if_neg hzero]
    have h := Runs_repeat (g := g) (r := r) (unit := WR3 c) (full := repBatch3) (n := pairs) (by simp [WR3, repBatch3])
      (by decide) (by omega) γ
    simp only [map_push_copies, WR3_pushes, cyclesOf_copies (WR3_cycles c)] at h
    exact h

/-- `Repeat3` (R154): the leftover pixel, then the pairs. -/
theorem Runs_repeat3 (c : Word) {b count : Nat} (h17 : 17 ≤ b) (h24 : b ≤ 24) (hcount : 1 ≤ count) :
    Runs (fun s => Sending g r s ∧ s.view = γ) (repeat3 c b count)
      (fun _ s => Sending g r s ∧ s.view = γ.wrote (if count = 1 then .scalar32 else .bulk16)
        (repeat3Events γ.S.mode γ.par.kRepeat c count)
        (dataCycles (List.replicate count (pixelBytes c 3)).flatten)) (Halts g) := by
  refine Runs_bind (Runs_leftoverPixel c h17 h24 count) fun _ => ?_
  refine Runs_weaken (Runs_repeatPairs c (count / 2)) (fun _ h => h) (fun _ s h => ⟨h.1, h.2.trans ?_⟩) fun _ h => h
  rw [View.wrote_wrote, ← dataCycles_append, flatten_copies_pairs]
  have hmode : (if count / 2 = 0 then if count % 2 = 1 then Mode.scalar32 else γ.S.mode else .bulk16) =
      if count = 1 then .scalar32 else .bulk16 := by
    by_cases hone : count = 1
    · subst hone; rfl
    · rw [if_neg hone, if_neg (by omega)]
  exact congrArg (fun m => γ.wrote m _ _) hmode

end

/-! ## A write command that nothing stops -/

/-- A write command whose first checks pass is what follows them. -/
theorem command_writeChecks_pass {s : State} (hlife : s.S.life = .initialised) (htxn : s.S.txn = true)
    (hread : s.S.read = false) (o : Opcode) (m : Unit → Act Unit) :
    command o (writeChecks >>= m) s = command o (m ()) s := by
  simp [writeChecks_bind, needInitialised, needTxn, needNotReading, command_check, hlife, htxn, hread]

/-- A command whose operand passes its check is what follows it. -/
theorem command_operand_pass {c : State → Bool} {s : State} (h : c s = true) (o : Opcode) (m : Unit → Act Unit) :
    command o (needOperand c >>= m) s = command o (m ()) s := by
  rw [needOperand, command_check, if_pos h]

/-- In a sound launch a sequence that stops only outside one completes its command. -/
theorem command_sound_completes {r : Prop} {s : State} {m : Act Unit} {Q : View → Prop} (hs : Sending True r s)
    (hm : Runs (fun u => Sending True r u ∧ u.view = s.view) m (fun _ u => Sending True r u ∧ Q u.view) (Halts True))
    (o : Opcode) : ∃ u : State, command o m s = .next (u.advance o.row.len) ∧ u.live ∧ Q u.view := by
  rcases command_runs hm o ⟨hs, rfl⟩ with ⟨u, he, hu, hQ⟩ | ⟨u, -, -, hsound, -⟩
  · exact ⟨u, he, hu.writing.live, hQ⟩
  · exact absurd trivial hsound

/-- What a completed command leaves, from the view it ends in. -/
theorem Sent.advance {s u : State} {bs : List BusEvent} (h : Sent s.view bs u.view) (n : Nat) :
    (u.advance n).S.pc = s.S.pc + n ∧ (u.advance n).M = s.M ∧ (u.advance n).output = s.output ++ bs :=
  ⟨congrArg (· + n) h.pc, h.M, h.output⟩

/-- `writeDataRepeat` once its checks pass (R152). -/
theorem exec_writeDataRepeat_pass {s : State} (h : BurstReady s) (c : Word) {b count : Nat} (h9 : 9 ≤ b) (h24 : b ≤ 24)
    (hcount : 1 ≤ count) : exec (.writeDataRepeat c b count) s =
      command .writeDataRepeat (if ceil8 b = 2 then repeat2 c count else repeat3 c b count) s := by
  have hlegal : legalRepeatLength b = true := by
    have : ceil8 b = 2 ∨ ceil8 b = 3 := by unfold ceil8; omega
    rcases this with e | e <;> simp [legalRepeatLength, e]
  refine (command_writeChecks_pass h.life h.txn h.write _ _).trans ?_
  exact (command_operand_pass hlegal _ _).trans (command_operand_pass (decide_eq_true hcount) _ _)

/-- Settles O29: `Repeat2` from a burst-ready state, which nothing stops. -/
theorem repeatTwoBytePixels : Obligations.RepeatTwoBytePixels := by
  unfold Obligations.RepeatTwoBytePixels
  intro s c b count h h9 h16 hcount
  have htwo : ceil8 b = 2 := by unfold ceil8; omega
  obtain ⟨u, he, hlive, hview⟩ := command_sound_completes (Q := (· = _)) h.sending (Runs_repeat2 c hcount) .writeDataRepeat
  have hsent : Sent s.view _ u.view := hview ▸ Sent.wrote _ _ _ _
  obtain ⟨hpc, hM, hout⟩ := hsent.advance 3
  refine ⟨u.advance 3, ?_, hlive, hpc, congrArg (·.S.mode) hview, hM, congrArg View.hist hview, hout⟩
  rw [exec_writeDataRepeat_pass h c h9 (by omega) hcount, if_pos htwo, he]
  rfl

/-- Settles O30: `Repeat3` from a burst-ready state, which nothing stops. -/
theorem repeatThreeBytePixels : Obligations.RepeatThreeBytePixels := by
  unfold Obligations.RepeatThreeBytePixels
  intro s c b count h h17 h24 hcount
  have hthree : ceil8 b = 3 := by unfold ceil8; omega
  obtain ⟨u, he, hlive, hview⟩ :=
    command_sound_completes (Q := (· = _)) h.sending (Runs_repeat3 c h17 h24 hcount) .writeDataRepeat
  have hsent : Sent s.view _ u.view := hview ▸ Sent.wrote _ _ _ _
  obtain ⟨hpc, hM, hout⟩ := hsent.advance 3
  refine ⟨u.advance 3, ?_, hlive, hpc, hM, congrArg (·.S.mode) hview, congrArg View.hist hview, hout⟩
  rw [exec_writeDataRepeat_pass h c (by omega) h24 hcount, if_neg (by omega), he]
  rfl

end Sys2Proof.Machine
end

section
/-!
PROOFS. `writeBytes` (R158 to R166), under any interleaving and whatever is still being sent.
* `command_bytesBody_output`: unless it is stopped `writeBytes` sends the buffer's bytes, by `Runs_bytesBody` without a sound launch.
* `writeBytes_completes`: in a sound launch, the radio staying off or staying on, it completes with what `BytesRun` says.
* `DmaRun.hist_eq`, `FifoRun.hist_eq`, `BytesRun.hist_eq`: with the radio off the history is the one of R158 to R164.
* `FifoRun.linkFree`: with the radio on there are FIFO batches only (R161).
-/

namespace Sys2Proof.Machine

/-! ## The buffer in host memory (R158) -/

/-- Byte `k` of a buffer in host memory. -/
def bufferByte (M : Memory) (buffer k : Nat) : Byte := M.read (buffer + k)

/-- The event of reading byte `k` of a buffer in host memory (R123). -/
def bufferRead (M : Memory) (buffer k : Nat) : List Event := [.mRd (buffer + k) (M.read (buffer + k))]

theorem Reads_buffer {g r : Prop} {γ : View} {buffer length : Nat} (ha : g → admitsAll γ.par buffer length) :
    Reads g r γ.source length (fun k => memRead (buffer + k)) (bufferByte γ.M buffer) (bufferRead γ.M buffer) :=
  Reads_memory (σ := γ.source) ha

theorem bytesAt_buffer (M : Memory) (buffer length : Nat) :
    bytesAt (bufferByte M buffer) 0 length = hostBytes M buffer length := by
  simp [bytesAt, bufferByte, hostBytes]

theorem readsLog_buffer (M : Memory) (buffer k n : Nat) :
    readsLog (bufferRead M buffer) k n = readEventsAt M (buffer + k) n := by
  simp [readsLog, bufferRead, readEventsAt, Nat.add_assoc, ← List.map_eq_flatMap]

theorem pairsLog_buffer (M : Memory) (buffer k n : Nat) :
    pairsLog (bufferByte M buffer) (bufferRead M buffer) k n = pairEvents M (buffer + k) n := by
  simp [pairsLog, pairEvents, readsLog_buffer, bufferByte, Nat.add_assoc]

/-! ## The bytes sent (R166) -/

/-- `writeBytes` after its first checks, for any launch: unless it is stopped it adds the buffer's bytes to the output. -/
theorem command_bytesBody_output {s t : State} {o : Opcode} {buffer length : Nat} {useDma : Bool}
    (hs : Sending False True s) (hsc : s.par.scratchAddr0 ≠ s.par.scratchAddr1)
    (h : command o (bytesBody (fun k => memRead (buffer + k)) length useDma) s = .next t) (ht : t.live) :
    t.output = s.output ++ dataCycles (hostBytes s.M buffer length) := by
  refine command_leaves (R := fun t => t.live → t.output = s.output ++ dataCycles (hostBytes s.M buffer length))
    (Runs_bytesBody (Reads_buffer (γ := s.view) False.elim) (fun _ => hsc) rfl False.elim) ?_ ?_ ⟨hs, rfl⟩ h ht
  · rintro u n ⟨-, hrun⟩ -
    rw [← bytesAt_buffer]
    exact hrun.sent.output
  · exact fun u hu hl => absurd hl hu.1

/-- Settles O32: the rule of the body, without a sound launch. -/
theorem writeBytesSendsTheBuffer : Obligations.WriteBytesSendsTheBuffer := by
  unfold Obligations.WriteBytesSendsTheBuffer
  intro s t buffer length useDma hs hl hsc h ht
  obtain ⟨c, rfl⟩ | ⟨⟨-, htxn, hread⟩, h⟩ := command_writeChecks_cases h
  · exact absurd ht (takeFault_not_live s c)
  obtain rfl | ⟨-, h⟩ := command_check_cases h
  · exact absurd ht (takeFault_not_live s .operand)
  exact command_bytesBody_output (hs.sending hl htxn hread False.elim) hsc h ht

/-! ## Completion in a sound launch -/

/-- In a sound launch with the buffer admitted, and the allocator answering where the DMA phase may be entered,
`writeBytes` completes. -/
theorem writeBytes_completes {r : Prop} {s : State} {buffer length : Nat} {useDma : Bool} (hs : Sending True r s)
    (hlife : s.S.life = .initialised) (htxn : s.S.txn = true) (hread : s.S.read = false) (hlength : 1 ≤ length)
    (hadm : admitsAll s.par buffer length) (hsup : r → useDma = true → Supplied s.view length) :
    ∃ u : State, exec (.writeBytes buffer length useDma) s = .next (u.advance 3) ∧ u.live ∧
      BytesRun True r (bufferByte s.M buffer) (bufferRead s.M buffer) useDma s.view length u.view := by
  have hsc : s.par.scratchAddr0 ≠ s.par.scratchAddr1 := (hs.writing.good trivial).1.scratch
  obtain ⟨u, he, hlive, hrun⟩ := command_sound_completes hs
    (Runs_bytesBody (Reads_buffer (γ := s.view) fun _ => hadm) (fun _ => hsc) rfl fun _ => hsup) .writeBytes
  refine ⟨u, ?_, hlive, hrun⟩
  refine (command_writeChecks_pass hlife htxn hread _ _).trans ?_
  exact (command_operand_pass (decide_eq_true hlength) _ _).trans he

/-- What a completed `writeBytes` leaves but its history and mode. -/
theorem BytesRun.advance {g r : Prop} {s u : State} {buffer length : Nat} {useDma : Bool}
    (h : BytesRun g r (bufferByte s.M buffer) (bufferRead s.M buffer) useDma s.view length u.view) (n : Nat) :
    (u.advance n).S.pc = s.S.pc + n ∧ (u.advance n).M = s.M ∧
      (u.advance n).output = s.output ++ dataCycles (hostBytes s.M buffer length) := by
  rw [← bytesAt_buffer]
  exact h.sent.advance n

/-! ## The load sizes (R162) -/

/-- The last load takes what remains. -/
theorem loadsFrom_last {fuel rem load : Nat} (hfuel : 1 ≤ fuel) (h : rem ≤ load) : loadsFrom fuel rem load = [rem] := by
  obtain ⟨fuel, rfl⟩ := Nat.exists_eq_add_of_le' hfuel
  simp [loadsFrom, h]

/-- A load that leaves bytes is full, and the next one twice as large, up to 256. -/
theorem loadsFrom_full {fuel rem load : Nat} (h : load < rem) :
    loadsFrom (fuel + 1) rem load = load :: loadsFrom fuel (rem - load) (min (2 * load) dmaLoadMax) := by
  rw [loadsFrom, Nat.min_eq_left h.le, if_neg (by omega)]

/-- The loads once they have their full size. -/
theorem loadsFrom_max {fuel rem : Nat} (hrem : 1 ≤ rem) (hfuel : rem ≤ fuel) : loadsFrom fuel rem 256 =
    List.replicate (rem / 256) 256 ++ (if rem % 256 = 0 then [] else [rem % 256]) := by
  induction fuel generalizing rem with
  | zero => omega
  | succ fuel ih =>
    rcases Nat.lt_trichotomy rem 256 with hlt | rfl | hgt
    · rw [loadsFrom_last (by omega) hlt.le, Nat.div_eq_of_lt hlt, Nat.mod_eq_of_lt hlt, if_neg (by omega)]; rfl
    · rw [loadsFrom_last (by omega) le_rfl]; rfl
    · rw [loadsFrom_full hgt, show min (2 * 256) dmaLoadMax = 256 from rfl, ih (by omega) (by omega),
        show (rem - 256) % 256 = rem % 256 by omega, show rem / 256 = (rem - 256) / 256 + 1 by omega,
        List.replicate_succ, List.cons_append]

/-- The loop of the DMA phase makes the loads of R162. -/
theorem loadsFrom_eq_loadSizes {fuel rem : Nat} (hrem : 1 ≤ rem) (hfuel : rem ≤ fuel) :
    loadsFrom fuel rem dmaLoadMin = loadSizes rem := by
  unfold loadSizes dmaLoadMin
  by_cases h64 : rem ≤ 64
  · rw [if_pos h64, loadsFrom_last (by omega) h64]
  obtain ⟨fuel, rfl⟩ := Nat.exists_eq_add_of_le' (show 2 ≤ fuel by omega)
  rw [if_neg h64, loadsFrom_full (by omega), show min (2 * 64) dmaLoadMax = 128 from rfl]
  by_cases h192 : rem ≤ 192
  · rw [if_pos h192, loadsFrom_last (by omega) (by omega)]
  · rw [if_neg h192, loadsFrom_full (by omega), show min (2 * 128) dmaLoadMax = 256 from rfl, Nat.sub_sub,
      loadsFrom_max (by omega) (by omega)]
    rfl

theorem loadsFrom_length_le {fuel rem load : Nat} (hrem : 1 ≤ rem) (hload : 1 ≤ load) :
    (loadsFrom fuel rem load).length ≤ rem := by
  induction fuel generalizing rem load with
  | zero => exact Nat.zero_le _
  | succ fuel ih =>
    rcases Nat.lt_or_ge load rem with hlt | hge
    · rw [loadsFrom_full hlt, List.length_cons]
      have := ih (rem := rem - load) (load := min (2 * load) dmaLoadMax) (by omega) (by unfold dmaLoadMax; omega)
      omega
    · rw [loadsFrom_last (by omega) hge]; exact hrem

/-! ## The history with the radio off (R158 to R160, R163, R164) -/

/-- The descriptor record of a view whose allocator answers `as` and then `more` (R116, R119). -/
structure Allocator (γ : View) (as : List Word) (more : List (Option Word)) : Prop where
  allocated : γ.S.desc.allocated = true
  allocs : γ.allocs = as.map some ++ more

@[simp] theorem bytesAt_length (f : Nat → Byte) (k n : Nat) : (bytesAt f k n).length = n := by simp [bytesAt]

/-- No register is written when the mode is entered again (R138). -/
@[simp] theorem ensureEvents_same (m : Mode) : ensureEvents m m = [] := if_pos rfl

/-- The mode registers written on entering the FIFO phase (R138). -/
theorem toBulk16_eq (m : Mode) : toBulk16 m = ensureEvents m .bulk16 := rfl

section
variable {M : Memory} {buffer : Nat}

/-- The history of the loads (R160, R163, R164): a load after the first finds its mode entered. -/
theorem DmaRun.hist_eq {γ ε : View} {k : Nat} {ns : List Nat}
    (h : DmaRun True (bufferByte M buffer) (bufferRead M buffer) γ k ns ε) {as : List Word} {more : List (Option Word)}
    (ha : Allocator γ as more) (hlen : ns.length ≤ as.length) :
    ε.hist = (γ.logged (dmaEvents γ.par M (ensureEvents γ.S.mode .bulk16Dma) (buffer + k) γ.S.flip γ.S.desc.capacity
      γ.S.desc.addr as ns)).hist := by
  induction h generalizing as with
  | nil => simp [dmaEvents]
  | @cons γ δ ε k n ns hcap hrun ih =>
    rw [List.length_cons] at hlen
    rcases hcap with ⟨hn, rfl⟩ | ⟨hn, a, al, hal, rfl⟩
    · have hsame : 2 * n = γ.S.desc.capacity := hn
      rw [ih ⟨ha.allocated, ha.allocs⟩ (by omega)]
      simp [dmaEvents, ← hsame, View.linked, View.prepared, View.logged, View.setMode, View.sends, View.flipped,
        readsLog_buffer, loadDescriptor, Params.scratchAddr, Nat.add_assoc]
    · have hdiff : 2 * n ≠ γ.S.desc.capacity := hn
      obtain ⟨b, bs, rfl⟩ := List.exists_cons_of_length_pos (show 0 < as.length by omega)
      obtain ⟨rfl, rfl⟩ : b = a ∧ bs.map some ++ more = al := by simpa using ha.allocs.symm.trans (hal trivial)
      rw [ih (as := bs) ⟨ha.allocated, rfl⟩ (by simpa using hlen)]
      simp [dmaEvents, hdiff, View.linked, View.prepared, View.realloc, View.logged, View.setMode, View.sends,
        View.flipped, readsLog_buffer, loadDescriptor, Params.scratchAddr, Nat.add_assoc, ha.allocated]

/-- The history of the FIFO phase and of the loads it may continue in (R159): with the radio off it is polled only where
the loads begin. -/
theorem FifoRun.hist_eq {useDma : Bool} {γ ε : View} {k sent : Nat} {ns : List Nat}
    (h : FifoRun True True (bufferByte M buffer) (bufferRead M buffer) useDma γ k sent ns ε) {as : List Word}
    {more : List (Option Word)} (ha : useDma = true → Allocator γ as more ∧ 2 * ns.sum ≤ as.length)
    (hpos : ∀ n ∈ ns, 1 ≤ n) :
    ε.hist = (γ.logged (fifoEvents γ.par M useDma
      (fun a rem => dmaEvents γ.par M toBulk16Dma a γ.S.flip γ.S.desc.capacity γ.S.desc.addr as (loadSizes rem))
      (toBulk16 γ.S.mode) (buffer + k) sent ns)).hist := by
  induction h with
  | last => simp [fifoEvents, pairsLog_buffer, toBulk16_eq, View.sends, View.logged, View.setMode]
  | @more γ ε k sent n n' ns polled hp hq run ih =>
    have hnone : polled = [] := hq trivial trivial
    have hgo : ¬ (useDma = true ∧ γ.par.tDma ≤ sent + 2 * n) := fun hc => by
      rw [if_pos hc, hnone] at hp
      cases hp
    rw [ih (fun hu => ?_) fun m hm => hpos m (List.mem_cons_of_mem _ hm)]
    · simp [fifoEvents, hgo, hnone, pairsLog_buffer, toBulk16_eq, View.sends, View.logged, View.setMode, Nat.add_assoc]
    · obtain ⟨hal, hlen⟩ := ha hu
      rw [List.sum_cons] at hlen
      exact ⟨⟨hal.allocated, hal.allocs⟩, by omega⟩
  | @dma γ ε k sent n n' ns hu ht hr run =>
    obtain ⟨hal, hlen⟩ := ha hu
    have hfirst : 1 ≤ n' := hpos n' (by simp)
    have hrem : 1 ≤ 2 * (n' :: ns).sum := by rw [List.sum_cons]; omega
    have hloads := loadsFrom_length_le (fuel := 2 * (n' :: ns).sum) (load := dmaLoadMin) hrem (by decide)
    rw [List.sum_cons] at hlen
    rw [run.hist_eq (as := as) ⟨hal.allocated, hal.allocs⟩ (by omega), loadsFrom_eq_loadSizes hrem le_rfl]
    have hswitch : ensureEvents .bulk16 .bulk16Dma = toBulk16Dma := rfl
    simp [fifoEvents, hu, ht, hswitch, pairsLog_buffer, toBulk16_eq, View.sends, View.logged, View.setMode, Nat.add_assoc]

/-- The history of the byte pairs after the odd leading byte (R158). -/
theorem pairsRun_hist_eq {useDma : Bool} {δ ε : View} {k pairs : Nat}
    (h : if pairs = 0 then ε = δ
      else FifoRun True True (bufferByte M buffer) (bufferRead M buffer) useDma δ k 0 (batchSizes pairs 32) ε)
    {as : List Word} {more : List (Option Word)} (ha : useDma = true → Allocator δ as more ∧ 2 * pairs ≤ as.length) :
    ε.hist = (δ.logged (if pairs = 0 then [] else fifoEvents δ.par M useDma
      (fun a rem => dmaEvents δ.par M toBulk16Dma a δ.S.flip δ.S.desc.capacity δ.S.desc.addr as (loadSizes rem))
      (toBulk16 δ.S.mode) (buffer + k) 0 (batchSizes pairs 32))).hist := by
  by_cases hzero : pairs = 0
  · rw [if_pos hzero] at h ⊢
    rw [h, View.logged_nil]
  · rw [if_neg hzero] at h ⊢
    have hsum : (batchSizes pairs 32).sum = pairs := batchSizes_sum (by omega)
    exact h.hist_eq (fun hu => by rw [hsum]; exact ha hu) (batchSizes_pos _ (by decide))

end

/-- The odd leading byte is a scalar write of that byte (R147, R158). -/
theorem View.leading_eq (γ : View) (rl : List Event) (b : Byte) :
    γ.leading rl b = γ.wrote .scalar32 (rl ++ scalarEvents γ.S.mode 1 [b.toNat]) (dataCycles [b]) := by
  have hswitch : toScalar32 γ.S.mode = ensureEvents γ.S.mode .scalar32 := rfl
  simp [View.leading, View.wrote, scalarEvents, hswitch]

/-- The history of `writeBytes` (R158): the odd leading byte, then the byte pairs. -/
theorem BytesRun.hist_eq {s : State} {buffer length : Nat} {useDma : Bool} {ε : View} {as : List Word}
    {more : List (Option Word)}
    (h : BytesRun True True (bufferByte s.M buffer) (bufferRead s.M buffer) useDma s.view length ε)
    (ha : useDma = true → Allocator s.view as more ∧ length ≤ as.length) :
    ε.hist = (s.logged (bytesEvents s buffer length useDma as)).hist := by
  unfold BytesRun at h
  unfold bytesEvents
  by_cases hodd : length % 2 = 1
  · simp only [hodd, if_true] at h ⊢
    rw [pairsRun_hist_eq h fun hu => ⟨⟨(ha hu).1.allocated, (ha hu).1.allocs⟩, by have := (ha hu).2; omega⟩]
    rw [View.leading_eq, View.wrote, View.sends_logged, View.logged_logged]
    rfl
  · simp only [show length % 2 = 0 by omega] at h ⊢
    exact pairsRun_hist_eq h fun hu => ⟨(ha hu).1, by have := (ha hu).2; omega⟩

theorem BurstReady.allocator {s : State} (h : BurstReady s) {as : List Word} {more : List (Option Word)}
    (ha : s.E.allocs = as.map some ++ more) : Allocator s.view as more :=
  ⟨h.boundary.pins.control.allocated h.life, ha⟩

/-- Settles O33: `writeBytes` from a burst-ready state, which nothing stops, and the history of its run. -/
theorem writeBytesCommand : Obligations.WriteBytesCommand := by
  unfold Obligations.WriteBytesCommand
  intro s buffer length useDma as more h hlength hadm halloc
  obtain ⟨u, he, hlive, hrun⟩ := writeBytes_completes h.sending h.life h.txn h.write hlength hadm
    fun _ hu => ⟨as, more, halloc hu⟩
  obtain ⟨hpc, hM, hout⟩ := hrun.advance 3
  exact ⟨u.advance 3, he, hlive, hpc, hM,
    hrun.hist_eq fun hu => ⟨h.allocator (halloc hu).1, (halloc hu).2⟩, hout⟩

/-! ## The radio on (R159, R161) -/

/-- No event of the list writes the output link. -/
def LinkFree (es : List Event) : Prop := ∀ e ∈ es, ∀ o, e ≠ .regWr (.outlink o)

theorem LinkFree.append {es fs : List Event} (h : LinkFree es) (k : LinkFree fs) : LinkFree (es ++ fs) :=
  fun e he => (List.mem_append.mp he).elim (h e) (k e)

theorem LinkFree.flatMap {α : Type} {f : α → List Event} {as : List α} (h : ∀ a, LinkFree (f a)) :
    LinkFree (as.flatMap f) := fun e he => by
  obtain ⟨a, -, hea⟩ := List.mem_flatMap.mp he
  exact h a e hea

theorem linkFree_ensureEvents (m m' : Mode) : LinkFree (ensureEvents m m') := by
  unfold ensureEvents LinkFree
  split <;> simp

theorem linkFree_pairsLog (M : Memory) (buffer k n : Nat) :
    LinkFree (pairsLog (bufferByte M buffer) (bufferRead M buffer) k n) :=
  .flatMap fun _ => (LinkFree.flatMap fun _ => by simp [LinkFree, bufferRead]).append (by simp [LinkFree])

/-- A batch of the FIFO phase and what follows it, no output-link write among that. -/
theorem linkFree_batch (M : Memory) (buffer k n : Nat) (m : Mode) {after : List Event} (h : LinkFree after) :
    LinkFree (.wait :: ensureEvents m .bulk16 ++ pairsLog (bufferByte M buffer) (bufferRead M buffer) k n ++ after) :=
  ((LinkFree.append (es := [.wait]) (by simp [LinkFree]) (linkFree_ensureEvents m .bulk16)).append
    (linkFree_pairsLog M buffer k n)).append h

/-- `ε` is `γ` after events that write no output link. -/
def LogsNoLink (γ ε : View) : Prop := ∃ es, ε.hist = (γ.logged es).hist ∧ LinkFree es

/-- While the radio stays on the FIFO phase never continues in loads, and ends in bulk-16. -/
theorem FifoRun.linkFree {M : Memory} {buffer : Nat} {useDma : Bool} {γ ε : View} {k sent : Nat} {ns : List Nat}
    (h : FifoRun True False (bufferByte M buffer) (bufferRead M buffer) useDma γ k sent ns ε) :
    ε.S.mode = .bulk16 ∧ LogsNoLink γ ε := by
  induction h with
  | last => exact ⟨rfl, _, rfl, linkFree_batch _ _ _ _ _ (by simp [LinkFree])⟩
  | @more γ ε k sent n n' ns polled hp hq run ih =>
    obtain ⟨hmode, es, hhist, hfree⟩ := ih
    have hpolled : LinkFree polled := by rw [hp]; split <;> simp [LinkFree]
    refine ⟨hmode, _, ?_, (linkFree_batch M buffer k n γ.S.mode
      ((LinkFree.append (es := [.start]) (by simp [LinkFree]) hpolled).append
        (fs := [.spin γ.par.kBytes]) (by simp [LinkFree]))).append hfree⟩
    rw [hhist]
    simp [View.sends, View.logged, View.setMode]
  | dma hu ht hr run => exact (hr trivial).elim

/-- The same of `writeBytes`, of at least one byte pair. -/
theorem BytesRun.linkFree {M : Memory} {buffer length : Nat} {useDma : Bool} {γ ε : View} (hlength : 2 ≤ length)
    (h : BytesRun True False (bufferByte M buffer) (bufferRead M buffer) useDma γ length ε) :
    ε.S.mode = .bulk16 ∧ LogsNoLink γ ε := by
  unfold BytesRun at h
  simp only [if_neg (show length / 2 ≠ 0 by omega)] at h
  obtain ⟨hmode, es, hhist, hfree⟩ := h.linkFree
  refine ⟨hmode, ?_⟩
  by_cases hodd : length % 2 = 1
  · rw [if_pos hodd] at hhist
    refine ⟨_, ?_, (LinkFree.append (es := bufferRead M buffer 0 ++ [.wait]) (by simp [LinkFree, bufferRead])
      (linkFree_ensureEvents γ.S.mode .scalar32)).append
        ((LinkFree.append (es := [.push (upperWord 1 (bufferByte M buffer 0).toNat), .start]) (by simp [LinkFree]) hfree))⟩
    rw [hhist]
    simp [View.leading, View.sends, View.logged, View.setMode]
  · rw [if_neg hodd] at hhist
    exact ⟨es, hhist, hfree⟩

/-- Settles O34: `writeBytes` where the radio stays on and no load is held, which nothing stops. -/
theorem radioOnKeepsTheFifoPath : Obligations.RadioOnKeepsTheFifoPath := by
  unfold Obligations.RadioOnKeepsTheFifoPath
  intro s buffer length useDma hsound hboundary hlive hlife htxn hread hidle hradio hmoves hlength hadm
  have hgood : Good False s :=
    ⟨hsound, False.elim, fun _ => ⟨⟨hradio, hmoves⟩, (hboundary.idle_empty hlive hidle).2⟩⟩
  obtain ⟨u, he, hl, hrun⟩ := writeBytes_completes (useDma := useDma)
    (hboundary.sending hlive htxn hread fun _ => hgood) hlife htxn hread (by omega) hadm False.elim
  obtain ⟨hpc, -, hout⟩ := hrun.advance 3
  obtain ⟨hmode, es, hhist, hfree⟩ := hrun.linkFree hlength
  refine ⟨u.advance 3, es.map (Prod.mk s.S.pc), he, hl, hpc, hmode, hhist, fun e hes o => ?_, hout⟩
  obtain ⟨x, hx, rfl⟩ := List.mem_map.mp hes
  exact hfree x hx o

end Sys2Proof.Machine
end

section
/-!
PROOFS. `writePixels` (R167, R168), under any interleaving and whatever is still being sent.
* `pixelLoop_eq_chunks`: the loop is one `pixelChunk` for each range of `chunkRanges`, in order.
* `BytesRun.pulled`: sending from `S.pixbuf` records no pull and writes no output link.
* `Runs_pixelChunks`: chunks answered as the contract asks are pulled and sent, whatever chunks follow.
* `pixelChunk_missed`: a pull that misses the end of its range faults before its chunk is sent.
-/

namespace Sys2Proof.Machine

/-! ## The ranges of the chunks (R168) -/

/-- `count` full chunks from pixel `start` on. -/
def fullChunks (start limit count : Nat) : List (Nat × Nat) :=
  (List.range count).map fun j => (start + j * limit, start + (j + 1) * limit)

theorem fullChunks_succ (start limit count : Nat) : fullChunks start limit (count + 1) =
    (start, start + limit) :: fullChunks (start + limit) limit count := by
  have hshift : ∀ j, start + (j + 1) * limit = start + limit + j * limit := fun j => by rw [Nat.succ_mul]; omega
  simp [fullChunks, List.range_succ_eq_map, hshift]

/-- A short chunk goes first, when the length leaves one. -/
theorem chunkRanges_eq (length limit : Nat) : chunkRanges length limit =
    (if length % limit = 0 then [] else [(0, length % limit)]) ++
      fullChunks (length % limit) limit (length / limit) := rfl

theorem tiles_fullChunks {limit : Nat} (hlimit : 1 ≤ limit) (start count : Nat) :
    Tiles limit start (start + count * limit) (fullChunks start limit count) := by
  induction count generalizing start with
  | zero => simp [fullChunks, Tiles]
  | succ count ih =>
    have hend : start + (count + 1) * limit = start + limit + count * limit := by rw [Nat.succ_mul]; omega
    rw [fullChunks_succ, hend]
    exact ⟨rfl, Nat.lt_add_of_pos_right hlimit, le_rfl, ih (start + limit)⟩

/-- The ranges increase without gap or overlap from 0 to the length. -/
theorem tiles_chunkRanges {limit : Nat} (hlimit : 1 ≤ limit) (length : Nat) :
    Tiles limit 0 length (chunkRanges length limit) := by
  have hfull := tiles_fullChunks hlimit (length % limit) (length / limit)
  rw [Nat.mod_add_div'] at hfull
  rw [chunkRanges_eq]
  by_cases hshort : length % limit = 0
  · rw [hshort] at hfull
    rwa [if_pos hshort, hshort]
  · rw [if_neg hshort]
    exact ⟨rfl, Nat.pos_of_ne_zero hshort, by simpa using (Nat.mod_lt length hlimit).le, hfull⟩

/-- The first range is the leading chunk of R167. -/
theorem chunkRanges_head {length limit : Nat} (hlength : 1 ≤ length) :
    ∃ rest, chunkRanges length limit = (0, leadingChunk length limit) :: rest := by
  unfold leadingChunk
  rw [chunkRanges_eq]
  by_cases hshort : length % limit = 0
  · have hmul := Nat.mod_add_div' length limit
    cases hcount : length / limit with
    | zero => rw [hshort, hcount] at hmul; omega
    | succ count =>
      rw [if_pos hshort, if_pos hshort, hshort, fullChunks_succ, Nat.zero_add]
      exact ⟨_, rfl⟩
  · rw [if_neg hshort, if_neg hshort]
    exact ⟨_, rfl⟩

/-! ## The loop is a sequence of chunks (R167) -/

/-- One chunk: its pull, the contract's check, its bytes. -/
def pixelChunk (p bpp : Nat) (c : Nat × Nat) : Act Unit := do
  let next ← pullWrite p c.1 c.2 ((c.2 - c.1) * bpp)
  check (fun _ => next == c.2) .producer
  bytesBody readPixbuf ((c.2 - c.1) * bpp) false

theorem pixelLoop_chunk {p bpp limit length start : Nat} (h : start < length) (rounds chunk : Nat) :
    pixelLoop p bpp limit length (rounds + 1) start chunk =
      (pixelChunk p bpp (start, start + chunk) >>= fun _ =>
        pixelLoop p bpp limit length rounds (start + chunk) limit) := by
  simp [pixelLoop, pixelChunk, h]

theorem pixelLoop_end {length start : Nat} (h : length ≤ start) (p bpp limit rounds chunk : Nat) :
    pixelLoop p bpp limit length rounds start chunk = pure () := by
  cases rounds with
  | zero => rfl
  | succ rounds => rw [pixelLoop, if_neg (by omega)]

theorem pixelLoop_fullChunks {p bpp limit length start count rounds : Nat} (hlimit : 1 ≤ limit)
    (hrounds : count ≤ rounds) (hlength : start + count * limit = length) :
    pixelLoop p bpp limit length rounds start limit = forEach (pixelChunk p bpp) (fullChunks start limit count) := by
  induction count generalizing start rounds with
  | zero => exact pixelLoop_end (by omega) _ _ _ _ _
  | succ count ih =>
    obtain ⟨rounds, rfl⟩ := Nat.exists_eq_add_of_le' (show 1 ≤ rounds by omega)
    rw [Nat.succ_mul] at hlength
    rw [pixelLoop_chunk (by omega), ih (by omega) (by omega), fullChunks_succ]
    rfl

/-- The loop of `writePixels` runs the chunks of R168. -/
theorem pixelLoop_eq_chunks {limit : Nat} (hlimit : 1 ≤ limit) (p bpp length : Nat) :
    pixelLoop p bpp limit length length 0 (leadingChunk length limit) =
      forEach (pixelChunk p bpp) (chunkRanges length limit) := by
  have hmul := Nat.mod_add_div' length limit
  unfold leadingChunk
  rw [chunkRanges_eq]
  by_cases hshort : length % limit = 0
  · rw [hshort] at hmul
    rw [if_pos hshort, if_pos hshort, hshort]
    exact pixelLoop_fullChunks hlimit (Nat.div_le_self length limit) hmul
  · rw [if_neg hshort, if_neg hshort]
    cases length with
    | zero => exact absurd (Nat.zero_mod limit) hshort
    | succ rounds =>
      have hone : limit ≠ 1 := by rintro rfl; exact hshort (Nat.mod_one _)
      have hfewer : (rounds + 1) / limit < rounds + 1 := Nat.div_lt_self (by omega) (by omega)
      rw [pixelLoop_chunk (by omega), Nat.zero_add, pixelLoop_fullChunks hlimit (by omega) hmul]
      rfl

/-- `writePixels` once its checks pass is its chunks. -/
theorem exec_writePixels_pass {s : State} (hlife : s.S.life = .initialised) (htxn : s.S.txn = true)
    (hread : s.S.read = false) {p bpp limit : Nat} {q : Producer} (hq : s.E.producer p = some q)
    (hbpp : (q.depth + 7) / 8 = bpp) (hlimit : bpp = 2 ∧ limit = 256 ∨ bpp = 3 ∧ limit = 170) (length : Nat) :
    exec (.writePixels p length) s =
      command .writePixels (forEach (pixelChunk p bpp) (chunkRanges length limit)) s := by
  have hsize : s.E.bpp p = bpp := by rw [Env.bpp, hq]; exact hbpp
  have hpix : pixLimit bpp = limit ∧ 1 ≤ limit := by rcases hlimit with ⟨rfl, rfl⟩ | ⟨rfl, rfl⟩ <;> decide
  have hknown : (s.E.producer p).isSome = true := by rw [hq]; rfl
  have hlegal : (s.E.bpp p == 2 || s.E.bpp p == 3) = true := by
    rw [hsize]; rcases hlimit with ⟨rfl, -⟩ | ⟨rfl, -⟩ <;> rfl
  refine (command_writeChecks_pass hlife htxn hread _ _).trans ?_
  rw [producerChecks_bind, command_operand_pass hknown, command_operand_pass hlegal,
    command_bind_ok (Act_get_run s), hsize]
  simp only [hpix.1, pixelLoop_eq_chunks hpix.2]

/-! ## What a chunk adds to the history -/

/-- From `γ` to `ε` the history gains the pulls `rs`, and no output-link write. -/
def Pulled (rs : List (Nat × Nat × Nat)) (γ ε : View) : Prop :=
  ∃ es, ε.hist = γ.hist ++ es ∧ pullsOf es = rs ∧ ∀ e ∈ es, ∀ o, e.2 ≠ .regWr (.outlink o)

/-- The event is no pull and no output-link write. -/
def Event.transfers : Event → Bool
  | .pull .. => false
  | .regWr (.outlink _) => false
  | _ => true

theorem pullsOf_append (es fs : List (Nat × Event)) : pullsOf (es ++ fs) = pullsOf es ++ pullsOf fs :=
  List.filterMap_append

theorem Pulled.trans {rs rs' : List (Nat × Nat × Nat)} {γ δ ε : View} (h : Pulled rs γ δ) (k : Pulled rs' δ ε) :
    Pulled (rs ++ rs') γ ε := by
  obtain ⟨es, hes, rfl, hlink⟩ := h
  obtain ⟨fs, hfs, rfl, hlink'⟩ := k
  exact ⟨es ++ fs, by rw [hfs, hes, List.append_assoc], pullsOf_append es fs,
    fun e he => (List.mem_append.mp he).elim (hlink e) (hlink' e)⟩

/-- Events that only transfer bytes are neither pulls nor output-link writes. -/
theorem Pulled.of_transfers {γ ε : View} {es : List Event} (hhist : ε.hist = (γ.logged es).hist)
    (h : ∀ e ∈ es, e.transfers = true) : Pulled [] γ ε := by
  refine ⟨es.map (Prod.mk γ.S.pc), hhist, ?_, fun e he o => ?_⟩
  · rw [pullsOf, List.filterMap_map, List.filterMap_eq_nil_iff]
    intro e he
    cases e with
    | pull => cases h _ he
    | _ => rfl
  · obtain ⟨x, hx, rfl⟩ := List.mem_map.mp he
    rintro rfl
    cases h _ hx

theorem Pulled.refl (γ : View) : Pulled [] γ γ := .of_transfers (es := []) (by simp) (by simp)

/-- Reading `S.pixbuf` records nothing (R167). -/
def pixbufRead (_ : Nat) : List Event := []

theorem transfers_ensureEvents (m m' : Mode) : ∀ e ∈ ensureEvents m m', e.transfers = true := by
  unfold ensureEvents
  split <;> simp [Event.transfers]

theorem transfers_pairsLog (f : Nat → Byte) (k n : Nat) : ∀ e ∈ pairsLog f pixbufRead k n, e.transfers = true := by
  intro e he
  simp only [pairsLog, List.mem_flatMap, List.mem_append, List.mem_singleton] at he
  obtain ⟨j, -, hread | rfl⟩ := he
  · simp [readsLog, pixbufRead] at hread
  · rfl

/-- A FIFO batch and its mode switch, up to the start and what follows it (R159). -/
theorem Pulled.batch {γ ε : View} {f : Nat → Byte} {k n : Nat} {after : List Event}
    (h : ∀ e ∈ after, e.transfers = true) (hhist : ε.hist = (γ.logged
      (.wait :: ensureEvents γ.S.mode .bulk16 ++ pairsLog f pixbufRead k n ++ after)).hist) : Pulled [] γ ε := by
  refine .of_transfers hhist fun e he => ?_
  simp only [List.cons_append, List.mem_cons, List.mem_append] at he
  rcases he with rfl | (he | he) | he
  · rfl
  · exact transfers_ensureEvents _ _ e he
  · exact transfers_pairsLog f k n e he
  · exact h e he

/-- Without DMA the FIFO phase is its batches. -/
theorem FifoRun.pulled {g r : Prop} {f : Nat → Byte} {γ ε : View} {k sent : Nat} {ns : List Nat}
    (h : FifoRun g r f pixbufRead false γ k sent ns ε) : Pulled [] γ ε := by
  induction h with
  | last => exact .batch (after := [.start]) (by simp [Event.transfers]) rfl
  | @more γ ε k sent n n' ns polled hp hq run ih =>
    refine (Pulled.batch (f := f) (k := k) (n := n) (after := [.start, .spin γ.par.kBytes])
      (by simp [Event.transfers]) ?_).trans ih
    simp [hp, View.sends, View.logged, View.setMode]
  | dma hu => cases hu

/-- The bytes of a chunk are sent by scalar and FIFO writes alone. -/
theorem BytesRun.pulled {g r : Prop} {f : Nat → Byte} {γ ε : View} {length : Nat}
    (h : BytesRun g r f pixbufRead false γ length ε) : Pulled [] γ ε := by
  unfold BytesRun at h
  have hlead : Pulled [] γ (if length % 2 = 1 then γ.leading (pixbufRead 0) (f 0) else γ) := by
    split
    · refine .of_transfers rfl ?_
      simpa [pixbufRead, Event.transfers, or_imp, forall_and] using transfers_ensureEvents γ.S.mode .scalar32
    · exact .refl γ
  by_cases hpairs : length / 2 = 0
  · simp only [if_pos hpairs] at h
    rwa [h]
  · simp only [if_neg hpairs] at h
    exact hlead.trans h.pulled

/-! ## The pull (R120) -/

/-- The answers producer `p` has still to give. -/
def View.answers (γ : View) (p : Nat) : List PullAnswer :=
  (γ.producers.find? fun q => q.handle == p).elim [] (·.answers)

/-- The view after a pull of `[c.1, c.2)` that reported `next` and wrote the bytes `bs`. -/
def View.pulled (γ : View) (p : Nat) (c : Nat × Nat) (next : Nat) (bs : List Byte) : View :=
  { γ.emit (.pull p c.1 c.2 next) with
    S := { γ.S with pixbuf := bs }, producers := dropAnswer p γ.producers }

theorem answers_of_producer {s : State} {p : Nat} {q : Producer} (hq : s.E.producer p = some q) :
    s.view.answers p = q.answers := by
  change s.E.producers.find? _ = _ at hq
  simp [View.answers, State.view, hq]

theorem answers_pulled (γ : View) (p : Nat) (c : Nat × Nat) (next : Nat) (bs : List Byte) :
    (γ.pulled p c next bs).answers p = (γ.answers p).tail := by
  simp only [View.answers, View.pulled, find_dropAnswer]
  cases γ.producers.find? fun q => q.handle == p <;> rfl

theorem hist_pulled (γ : View) (p : Nat) (c : Nat × Nat) (next : Nat) (bs : List Byte) :
    (γ.pulled p c next bs).hist = γ.hist ++ [(γ.S.pc, .pull p c.1 c.2 next)] := rfl

theorem pullAnswer_eq {s : State} {p : Nat} {a : PullAnswer} {as : List PullAnswer}
    (h : s.view.answers p = a :: as) : s.pullAnswer p = a := by
  change (s.E.producer p).elim [] _ = _ at h
  unfold State.pullAnswer
  cases hq : s.E.producer p with
  | none => rw [hq] at h; cases h
  | some q =>
    rw [hq] at h
    change q.answers = _ at h
    simp [h]

theorem answerBytes_of_length {a : PullAnswer} {n : Nat} (h : a.bytes.length = n) (s : State) :
    s.answerBytes a n = a.bytes := by
  subst h
  refine List.ext_getElem (by simp [State.answerBytes]) fun i h1 h2 => ?_
  simp [State.answerBytes, h2]

theorem Pulled.pull (γ : View) (p : Nat) (c : Nat × Nat) (next : Nat) (bs : List Byte) :
    Pulled [(p, c.1, c.2)] γ (γ.pulled p c next bs) :=
  ⟨_, hist_pulled γ p c next bs, rfl, by simp⟩

/-- The pull of a chunk, answered by `a`: the bytes are `a`'s when it lists as many as the chunk has. -/
theorem Runs_pullWrite {g r : Prop} {γ : View} {p : Nat} {a : PullAnswer} {as : List PullAnswer}
    (ha : γ.answers p = a :: as) (c : Nat × Nat) (n : Nat) :
    Runs (fun s => Sending g r s ∧ s.view = γ) (pullWrite p c.1 c.2 n)
      (fun next s => (Sending g r s ∧ next = a.next) ∧
        ∃ bs, (a.bytes.length = n → bs = a.bytes) ∧ s.view = γ.pulled p c a.next bs) (Halts g) := by
  refine Runs_atomic Sending_stable (fun s h => h.writing) ?_ (fun _ _ _ _ o => by simp [pullWriteOp] at o)
  intro s next t h hv o
  subst hv
  simp only [pullWriteOp, pullAnswer_eq ha, Effect.done.injEq] at o
  obtain ⟨rfl, rfl⟩ := o
  have hpulled : Sending g r ((s.afterPull p).setPixbuf (s.answerBytes a n)) := by
    obtain ⟨⟨hlive, hpins, hlatch, hlatched, hload, hfifo, hgood⟩, hmode, hidle⟩ := h
    exact ⟨⟨hlive, hpins, hlatch, hlatched, hload, hfifo, hgood⟩, hmode, hidle⟩
  exact ⟨⟨Sending_emit hpulled _, rfl⟩, s.answerBytes a n, fun hl => answerBytes_of_length hl s, rfl⟩

/-! ## The chunks -/

/-- From `γ` to `ε` the chunks `cs` were pulled from `p`, answered by `as`, and the answers' bytes sent. -/
structure ChunksSent (p : Nat) (γ : View) (cs : List (Nat × Nat)) (as : List PullAnswer) (ε : View) : Prop where
  pc : ε.S.pc = γ.S.pc
  M : ε.M = γ.M
  output : ε.output = γ.output ++ dataCycles (as.map (·.bytes)).flatten
  answers : γ.answers p = as ++ ε.answers p
  pulled : Pulled (cs.map fun c => (p, c.1, c.2)) γ ε

theorem ChunksSent.nil (p : Nat) (γ : View) : ChunksSent p γ [] [] γ :=
  ⟨rfl, rfl, by simp [dataCycles], rfl, .refl γ⟩

theorem ChunksSent.cons {p : Nat} {γ δ ε : View} {c : Nat × Nat} {cs : List (Nat × Nat)} {a : PullAnswer}
    {as : List PullAnswer} (h : ChunksSent p γ [c] [a] δ) (k : ChunksSent p δ cs as ε) :
    ChunksSent p γ (c :: cs) (a :: as) ε where
  pc := k.pc.trans h.pc
  M := k.M.trans h.M
  output := by rw [k.output, h.output]; simp
  answers := by rw [h.answers, k.answers]; rfl
  pulled := h.pulled.trans k.pulled

/-- A chunk answered by `a` has been pulled and `a`'s bytes are sent from `S.pixbuf`. -/
theorem ChunksSent.of_bytesRun {g r : Prop} {p : Nat} {γ ε : View} {c : Nat × Nat} {a : PullAnswer}
    {as : List PullAnswer} (ha : γ.answers p = a :: as)
    (h : BytesRun g r (fun k => a.bytes.getD k 0#8) pixbufRead false (γ.pulled p c a.next a.bytes) a.bytes.length ε) :
    ChunksSent p γ [c] [a] ε := by
  have hbytes : bytesAt (fun k => a.bytes.getD k 0#8) 0 a.bytes.length = a.bytes :=
    List.ext_getElem (by simp) fun i h1 h2 => by simp [bytesAt, h2]
  have hsent := h.sent
  rw [hbytes] at hsent
  refine ⟨hsent.pc, hsent.M, hsent.output.trans ?_, ?_, (Pulled.pull γ p c a.next a.bytes).trans h.pulled⟩
  · simp [View.pulled, View.emit]
  · have hrest : ε.answers p = (γ.answers p).tail := by
      rw [← answers_pulled γ p c a.next a.bytes, View.answers, hsent.producers]; rfl
    rw [hrest, ha]; rfl

/-- The contract of R120 for a chunk: the end of the range reported, and all of its bytes written. -/
def Honours (bpp : Nat) (c : Nat × Nat) (a : PullAnswer) : Prop := a.next = c.2 ∧ a.bytes.length = (c.2 - c.1) * bpp

/-- A chunk whose answer honours the contract. -/
theorem Runs_pixelChunk {p bpp : Nat} {γ : View} {c : Nat × Nat} {a : PullAnswer} {as : List PullAnswer}
    (ha : γ.answers p = a :: as) (hc : Honours bpp c a) :
    Runs (fun s => Sending True True s ∧ s.view = γ) (pixelChunk p bpp c)
      (fun _ s => Sending True True s ∧ ChunksSent p γ [c] [a] s.view) (Halts True) := by
  obtain ⟨hnext, hlen⟩ := hc
  refine Runs_bind (Runs_pullWrite ha c _) fun next => Runs_bind (R := fun _ s =>
    Sending True True s ∧ s.view = γ.pulled p c a.next a.bytes) (Runs_check ?_ ?_) fun _ => ?_
  · rintro s ⟨⟨hs, -⟩, bs, hbs, hv⟩ -
    rw [hbs hlen] at hv
    exact ⟨hs, hv⟩
  · rintro s ⟨⟨-, rfl⟩, -⟩ hmiss
    rw [hnext, beq_self_eq_true] at hmiss
    cases hmiss
  · rw [← hlen]
    exact Runs_weaken (Runs_bytesBody (useDma := false)
      (Reads_pixbuf (σ := (γ.pulled p c a.next a.bytes).source)) Bool.noConfusion rfl fun _ _ => Bool.noConfusion)
      (fun _ h => h) (fun _ s h => ⟨h.1, .of_bytesRun ha h.2⟩) fun _ h => h

/-- Chunks answered as the contract asks. -/
theorem Runs_pixelChunks {p bpp : Nat} {cs : List (Nat × Nat)} {as : List PullAnswer}
    (h : List.Forall₂ (Honours bpp) cs as) {γ : View} {more : List PullAnswer} (ha : γ.answers p = as ++ more) :
    Runs (fun s => Sending True True s ∧ s.view = γ) (forEach (pixelChunk p bpp) cs)
      (fun _ s => Sending True True s ∧ ChunksSent p γ cs as s.view) (Halts True) := by
  induction h generalizing γ with
  | nil => rintro s ⟨hs, rfl⟩; exact ⟨hs, .nil p s.view⟩
  | @cons c a cs as hc _ ih =>
    refine Runs_bind (Runs_pixelChunk ha hc) fun _ s ⟨hs, hsent⟩ => ?_
    have hrest : s.view.answers p = as ++ more := by
      have := hsent.answers
      rw [ha] at this
      exact (List.cons.inj this).2.symm
    exact Runs_weaken (ih hrest) (fun _ h => h) (fun _ u h => ⟨h.1, hsent.cons h.2⟩) (fun _ h => h) s ⟨hs, rfl⟩

/-- In a sound launch a sequence that stops only outside one runs to its end. -/
theorem Runs_ends {α : Type} {P : State → Prop} {m : Act α} {Q : α → State → Prop} (h : Runs P m Q (Halts True))
    {s : State} (hs : P s) : ∃ a t, m s = .ok a t ∧ Q a t := by
  have hrun := h s hs
  cases hm : m s with
  | ok a t => rw [hm] at hrun; exact ⟨a, t, rfl, hrun⟩
  | error e t => rw [hm] at hrun; exact absurd trivial hrun.2.1

/-- A pull that misses the end of its range faults with the state it left (R167). -/
theorem pixelChunk_missed {p bpp next : Nat} {c : Nat × Nat} {s t : State}
    (h : pullWrite p c.1 c.2 ((c.2 - c.1) * bpp) s = .ok next t) (hmiss : next ≠ c.2) :
    pixelChunk p bpp c s = .error .faulted (t.takeFault .producer) := by
  unfold pixelChunk
  rw [Act_bind_ok h]
  exact Act_bind_error (check_false (beq_false_of_ne hmiss))

/-! ## The command -/

/-- Settles O35: the chunks of the rule from a burst-ready state, each answered as the contract asks. -/
theorem writePixelsCommand : Obligations.WritePixelsCommand := by
  unfold Obligations.WritePixelsCommand
  rintro s p length q as more h hq has ⟨bpp, limit, hlimit, hbpp, hanswers⟩
  have hfirst : s.view.answers p = as ++ more := (answers_of_producer hq).trans has
  obtain ⟨u, he, hlive, hsent⟩ := command_sound_completes h.sending (Runs_pixelChunks hanswers hfirst) .writePixels
  obtain ⟨es, hhist, hpulls, hlink⟩ := hsent.pulled
  refine ⟨u.advance 3, es, limit, ?_, hlive, congrArg (· + 3) hsent.pc, hsent.M, hhist, ?_, hpulls,
    tiles_chunkRanges (by omega) length, hlink, hsent.output⟩
  · rw [exec_writePixels_pass h.life h.txn h.write hq hbpp hlimit, he]
    rfl
  · omega

/-- Settles O36: nothing but the pull comes before the first chunk's check. -/
theorem writePixelsProducerFault : Obligations.WritePixelsProducerFault := by
  unfold Obligations.WritePixelsProducerFault
  intro s p length q a more h hq has hlength h9 h24 limit stop hmiss
  obtain ⟨bpp, hbpp, hlimit⟩ : ∃ bpp, (q.depth + 7) / 8 = bpp ∧ (bpp = 2 ∧ limit = 256 ∨ bpp = 3 ∧ limit = 170) := by
    refine ⟨_, rfl, ?_⟩
    by_cases h16 : q.depth ≤ 16
    · exact .inl ⟨by omega, if_pos h16⟩
    · exact .inr ⟨by omega, if_neg h16⟩
  obtain ⟨rest, hranges⟩ := chunkRanges_head (limit := limit) hlength
  obtain ⟨ms, x, -, hpull⟩ := micro_calm (blocked := unblocked) (op := pullWriteOp p 0 stop ((stop - 0) * bpp)) h.calm
    fun _ _ => rfl
  have hanswer : (passed s ms x).pullAnswer p = a := pullAnswer_eq ((answers_of_producer hq).trans has)
  simp only [pullWriteOp, hanswer, perform] at hpull
  have hexec := exec_writePixels_pass h.life h.txn h.write hq hbpp hlimit length
  rw [hranges] at hexec
  exact ⟨_, hexec.trans (command_bind_error (pixelChunk_missed (c := (0, stop)) hpull hmiss)),
    rfl, rfl, rfl, rfl, rfl, rfl, rfl, rfl⟩

/-- Settles O59: the chunks before are sent, then the pull that misses its range end. -/
theorem writePixelsPullFault : Obligations.WritePixelsPullFault := by
  unfold Obligations.WritePixelsPullFault
  intro s p length q as more a before after c h hq has bpp limit hlimit hbpp hranges hanswers hmiss
  have hfirst : s.view.answers p = as ++ a :: more := (answers_of_producer hq).trans has
  obtain ⟨_, u, hbefore, hu, hsent⟩ := Runs_ends (Runs_pixelChunks hanswers hfirst) ⟨h.sending, rfl⟩
  have hnext : u.view.answers p = a :: more := List.append_cancel_left (hsent.answers.symm.trans hfirst)
  obtain ⟨next, t, hpull, ⟨-, rfl⟩, bs, -, hview⟩ := Runs_ends (Runs_pullWrite hnext c ((c.2 - c.1) * bpp)) ⟨hu, rfl⟩
  obtain ⟨es, hhist, hpulls, -⟩ := hsent.pulled
  have hpc : t.S.pc = s.S.pc := (congrArg (·.S.pc) hview).trans hsent.pc
  refine ⟨t.takeFault .producer, es, ?_, by simp [hpc], hpc, (congrArg View.M hview).trans hsent.M,
    (congrArg View.hist hview).trans ?_, hpulls, (congrArg View.output hview).trans hsent.output⟩
  · rw [exec_writePixels_pass h.life h.txn h.write hq hbpp hlimit, hranges, forEach_append, command_bind_ok hbefore]
    exact command_bind_error (pixelChunk_missed hpull hmiss)
  · rw [hist_pulled, hhist, hsent.pc]
    rfl

end Sys2Proof.Machine
end

section
/-!
PROOFS. Raw GPIO words: unscrambling selects the bits at the data pins (R175), and inverts the loopback device's line
mapping (R178).
-/

namespace Sys2Proof.Machine

/-! ## Unscrambling (R175) -/

/-- Bit `i` of the byte is the raw word's bit at data pin `i`. -/
theorem getLsbD_unscramble (d : Vector Nat 8) (w : Word) (i : Fin 8) :
    (unscramble d w).getLsbD i.val = w.getLsbD d[i] := by
  have hsum : ((List.finRange 8).map fun i => (rawBit w d[i]).toNat * 2 ^ i.val).sum =
      Nat.ofBits fun i : Fin 8 => rawBit w d[i] := by
    simp [Nat.ofBits, Fin.foldr_succ, List.finRange_succ]
    omega
  rw [unscramble, hsum, BitVec.getLsbD_ofNat, Nat.testBit_ofBits_lt _ _ i.isLt]
  simp [rawBit]

/-- Bytes with the same eight bits are equal. -/
theorem byte_eq_of_getLsbD {b b' : Byte} (h : ∀ i : Fin 8, b.getLsbD i.val = b'.getLsbD i.val) : b = b' :=
  BitVec.eq_of_getLsbD_eq fun i hi => h ⟨i, hi⟩

/-- Settles O43: a byte is its eight bits. -/
theorem unscrambleSelectsTheDataPins : Obligations.UnscrambleSelectsTheDataPins := by
  unfold Obligations.UnscrambleSelectsTheDataPins
  exact fun d w => ⟨getLsbD_unscramble d w, fun w' h =>
    byte_eq_of_getLsbD fun i => by rw [getLsbD_unscramble, getLsbD_unscramble, h i]⟩

/-! ## The loopback device's line mapping (R178) -/

theorem getLsbD_putBit (w : Word) (k j : Nat) (v : Bool) :
    (putBit w k v).getLsbD j = if j = k ∧ k < 32 then v else w.getLsbD j := by
  have hone : (1#32 <<< k).getLsbD j = decide (j = k ∧ k < 32) := by
    rw [BitVec.getLsbD_shiftLeft, BitVec.getLsbD_one]
    grind
  cases v with
  | true =>
    rw [putBit, if_pos rfl, BitVec.getLsbD_or, hone]
    split <;> simp [*]
  | false =>
    rw [putBit, if_neg Bool.false_ne_true, BitVec.getLsbD_and, BitVec.getLsbD_not, hone]
    split
    · simp [*]
    · simpa [*] using fun h => BitVec.lt_of_getLsbD h

/-- Setting the bits at the pins of some lines leaves the bits at other pins. -/
theorem getLsbD_putBits_other (d : Vector Nat 8) (b : Byte) (is : List (Fin 8)) (w : Word) {k : Nat}
    (hk : ∀ i ∈ is, k ≠ d[i]) :
    (is.foldl (fun acc i => putBit acc d[i] (b.getLsbD i.val)) w).getLsbD k = w.getLsbD k := by
  induction is generalizing w with
  | nil => rfl
  | cons i is ih =>
    rw [List.foldl_cons, ih _ fun j hj => hk j (List.mem_cons_of_mem i hj), getLsbD_putBit,
      if_neg fun h => hk i List.mem_cons_self h.1]

/-- Setting the bits at the distinct pins of some lines sets each of them. -/
theorem getLsbD_putBits_same {d : Vector Nat 8} (b : Byte) {is : List (Fin 8)} (w : Word)
    (hd : ∀ i j : Fin 8, d[i] = d[j] → i = j) (hlt : ∀ i : Fin 8, d[i] < 32) (his : is.Nodup) {i : Fin 8}
    (hi : i ∈ is) :
    (is.foldl (fun acc i => putBit acc d[i] (b.getLsbD i.val)) w).getLsbD d[i] = b.getLsbD i.val := by
  induction is generalizing w with
  | nil => cases hi
  | cons j is ih =>
    obtain ⟨hj, his⟩ := List.nodup_cons.mp his
    rw [List.foldl_cons]
    rcases List.mem_cons.mp hi with rfl | hi
    · rw [getLsbD_putBits_other d b is _ fun k hk e => hj ((hd i k e).symm ▸ hk), getLsbD_putBit, if_pos ⟨rfl, hlt i⟩]
    · exact ih _ his hi

theorem pins_lt {d : Vector Nat 8} (hlt : ∀ p ∈ d.toList, p < 32) (i : Fin 8) : d[i] < 32 := hlt _ (by simp)

section
variable {d : Vector Nat 8} (hd : d.toList.Nodup)
include hd

theorem pins_injective (i j : Fin 8) (h : d[i] = d[j]) : i = j := by
  have hget : d.toList[i.val]'(by simp) = d.toList[j.val]'(by simp) := by simpa using h
  exact Fin.ext ((List.Nodup.getElem_inj_iff hd).mp hget)

theorem getLsbD_scramble (hlt : ∀ p ∈ d.toList, p < 32) (b : Byte) (w : Word) (i : Fin 8) :
    (scramble d b w).getLsbD d[i] = b.getLsbD i.val :=
  getLsbD_putBits_same b w (pins_injective hd) (pins_lt hlt) (List.nodup_finRange 8) (List.mem_finRange i)

theorem unscramble_scramble (hlt : ∀ p ∈ d.toList, p < 32) (b : Byte) (w : Word) : unscramble d (scramble d b w) = b :=
  byte_eq_of_getLsbD fun i => by rw [getLsbD_unscramble, getLsbD_scramble hd hlt]

end

/-- Settles O44: the device's word carries the byte at the data pins, and no line is driven twice. -/
theorem unscrambleInvertsScramble : Obligations.UnscrambleInvertsScramble := by
  unfold Obligations.UnscrambleInvertsScramble
  exact fun d b w hd hlt => ⟨unscramble_scramble hd hlt b w, fun k hk =>
    getLsbD_putBits_other d b _ w fun i _ e => hk (by simp [e])⟩

end Sys2Proof.Machine
end

section
/-!
PROOFS. `beginRead` (R170): the pins of read mode as a list of pad operations, which a calm state runs exactly.
-/

namespace Sys2Proof.Machine

/-! ## The pins of read mode -/

/-- A strobe becomes a GPIO output at 1. -/
def strobeHighOps (r : Role) : List PadOp := [.route r .gpio, .dir r .output, .raise r]

/-- A data pad becomes an input driven by nothing. -/
def floatOps (r : Role) : List PadOp := [.route r .null, .dir r .input]

/-- The pad operations of read mode, in order (R170). -/
def readPinOps : List PadOp :=
  .raise .rd :: .dir .rd .output :: ([Role.wr, .rs].flatMap strobeHighOps ++ dataRoles.flatMap floatOps)

theorem forEach_flatMap {α β : Type} (f : β → Act Unit) (g : α → List β) (as : List α) :
    forEach f (as.flatMap g) = forEach (fun a => forEach f (g a)) as := by
  induction as with
  | nil => rfl
  | cons a as ih => simp [forEach, forEach_append, ih]

theorem readPins_eq : readPins = forEach PadOp.act readPinOps := by
  simp only [readPins, readPinOps, strobeHighOps, floatOps, forEach_append, forEach_flatMap, PadOp.act, forEach,
    bind_assoc, bind_pure_unit]

theorem readPinOps_events : readPinOps.map PadOp.event = readPinsEvents := by decide

/-- The pads of read mode (R170), the data lines' levels left as they were. -/
def Pads.reading (g : Pads) : Pads where
  d := g.d.map fun p => { p with route := .null, dir := .input }
  rd := { g.rd with dir := .output, level := true }
  wr := { g.wr with route := .gpio, dir := .output, level := true }
  rs := { g.rs with route := .gpio, dir := .output, level := true }

theorem readPinOps_of_data : ∀ i : Fin 8,
    readPinOps.filter (·.role = .d i) = [.route (.d i) .null, .dir (.d i) .input] := by decide

theorem padsAfter_readPinOps (g : Pads) : padsAfter readPinOps g = g.reading := by
  have hd : (padsAfter readPinOps g).d = g.reading.d := by
    ext i hi : 1
    have h := padsAfter_get readPinOps g (.d ⟨i, hi⟩)
    rw [readPinOps_of_data] at h
    exact h.trans (by simp [Pads.reading, PadOp.pad, Pad.routed, Pads.get])
  have hrd : (padsAfter readPinOps g).rd = g.reading.rd := padsAfter_get readPinOps g .rd
  have hwr : (padsAfter readPinOps g).wr = g.reading.wr := padsAfter_get readPinOps g .wr
  have hrs : (padsAfter readPinOps g).rs = g.reading.rs := padsAfter_get readPinOps g .rs
  cases h : padsAfter readPinOps g
  simp_all [Pads.reading]

/-- A strobe's level is seen: it is a GPIO output by then. -/
theorem shownBy_strobeHighOps (r : Role) (g : Pads) : shownBy (strobeHighOps r) g = [.lvl r true] := by
  simp [strobeHighOps, shownBy, PadOp.shown, PadOp.pads, PadOp.role, PadOp.pad, Pad.routed]

/-- From `RD` a GPIO output the bus sees all three levels. -/
theorem shownBy_readPinOps {g : Pads} (h : g.rdOutput) :
    shownBy readPinOps g = [.lvl .rd true, .lvl .wr true, .lvl .rs true] := by
  have hrd : (PadOp.raise .rd).shown g = [.lvl .rd true] := if_pos (rdOutput_get.mp h)
  have hstrobes : ∀ g, shownBy ([Role.wr, .rs].flatMap strobeHighOps) g = [.lvl .wr true, .lvl .rs true] := fun g => by
    rw [List.flatMap_cons, List.flatMap_singleton, shownBy_append, shownBy_strobeHighOps, shownBy_strobeHighOps]
    rfl
  have hdata : ∀ g, shownBy (dataRoles.flatMap floatOps) g = [] := shownBy_quiet (by simp [floatOps])
  rw [readPinOps, shownBy, shownBy, shownBy_append, hrd, hstrobes, hdata]
  rfl

/-- Settles O37: the checks pass, the wait only records itself, and the pins of read mode are `readPinOps`. -/
theorem beginReadCommand : Obligations.BeginReadCommand := by
  unfold Obligations.BeginReadCommand
  intro s h hrd
  have hrun : Gives (writeChecks >>= fun _ => waitIdle >>= fun _ => forEach PadOp.act readPinOps >>= fun _ =>
      update fun t => t.setRead true) s () _ :=
    (Gives.writeChecks h).bind rfl <| (Gives.waitIdle h.calm).bind rfl <|
      (Gives.padOps (Calm_emit h.calm .wait) readPinOps).bind rfl <| Gives.update fun _ _ => rfl
  rw [← readPins_eq] at hrun
  obtain ⟨ms, r, hms, he⟩ := hrun.command .beginRead
  refine ⟨ms, r, hms, he.trans ?_⟩
  rw [State.padded, padsAfter_readPinOps, emit_G, shownBy_readPinOps hrd, readPinOps_events]
  simp [State.logged, State.emit, State.setRead, State.advance, Opcode.row, Pads.reading, hrd.2]

end Sys2Proof.Machine
end

section
/-!
PROOFS. Bytes read in a calm state (R172, R173, R177, R178).
* `Env.samples`: the raw words that the reads of `n` bytes sample; `samples_scripted` and `sampledBytes_loopback` say
  what they are without and with a loopback device.
* `State.bytesRead`: the state after `n` bytes were read, `Gives.readByte_bind` gets there one byte at a time.
-/

namespace Sys2Proof.Machine

/-! ## The raw words sampled (R177, R178) -/

/-- The raw word the device presents. -/
def Env.rawWord (d : Vector Nat 8) (e : Env) : Word :=
  match e.device.loopback with
  | some (b :: _) => scramble d b (e.device.script.headD (Config.freeRaw e.drawn))
  | some [] => e.device.script.headD (Config.freeRaw e.drawn)
  | none => e.device.script.headD (Config.freeRaw e.drawn)

/-- The environment after `n` bytes were read: two samples each, and a falling edge of `RD`. -/
def Env.bytesRead (e : Env) (n : Nat) : Env :=
  { e.sampled (2 * n) with
    device := { (e.sampled (2 * n)).device with loopback := e.device.loopback.map (·.drop n) } }

/-- The raw words of the samples of `n` bytes, two for each. -/
def Env.samples (d : Vector Nat 8) : Nat → Env → List Word
  | 0, _ => []
  | n + 1, e => e.rawWord d :: (e.sampled 1).rawWord d :: Env.samples d n (e.bytesRead 1)

theorem rawWord_env (s : State) : s.rawWord = s.E.rawWord s.S.cfg.pinD := by
  unfold State.rawWord Env.rawWord
  split <;> simp_all

/-- A sample uses up one raw word. -/
theorem afterRaw_eq (s : State) : s.afterRaw = { s with E := s.E.sampled 1 } := by
  unfold State.afterRaw Env.sampled
  split
  · next h => simp [State.drew, h]; rw [← h]
  · next h => simp [h, State.setDevice]

@[simp] theorem sampled_loopback (e : Env) (n : Nat) : (e.sampled n).device.loopback = e.device.loopback := rfl

theorem sampled_sampled (e : Env) (m n : Nat) : (e.sampled m).sampled n = e.sampled (m + n) := by
  simp only [Env.sampled, List.drop_drop, List.length_drop, Env.mk.injEq, true_and]
  omega

theorem Env.bytesRead_bytesRead (e : Env) (m n : Nat) : (e.bytesRead m).bytesRead n = e.bytesRead (m + n) := by
  have hk : (e.bytesRead m).sampled (2 * n) = { e.sampled (2 * (m + n)) with
      device := { (e.sampled (2 * (m + n))).device with loopback := e.device.loopback.map (·.drop m) } } := by
    rw [Nat.mul_add, ← sampled_sampled]
    rfl
  simp only [Env.bytesRead] at hk ⊢
  rw [hk]
  simp [Function.comp_def, List.drop_drop]

theorem Env.bytesRead_zero (e : Env) : e.bytesRead 0 = e := by
  obtain ⟨_, _, ⟨_, l⟩, _, _, _, _, _⟩ := e
  cases l <;> simp [Env.bytesRead, Env.sampled]

/-- The next raw word, then the rest. -/
theorem rawWords_succ (s : State) (n : Nat) : rawWords s (n + 1) =
    s.E.device.script.headD (Config.freeRaw s.E.drawn) :: rawWords { s with E := s.E.sampled 1 } n := by
  unfold rawWords Env.sampled
  rw [List.range_succ_eq_map, List.map_cons, List.map_map]
  cases s.E.device.script with
  | nil => simp [Nat.add_comm, Nat.add_left_comm]
  | cons w ws => simp

section
variable {s : State} {d : Vector Nat 8}

/-- Without a loopback device the samples are the scripted words, then free values. -/
theorem samples_scripted (h : s.E.device.loopback = none) (n : Nat) : s.E.samples d n = rawWords s (2 * n) := by
  induction n generalizing s with
  | zero => rfl
  | succ n ih =>
    have hsame : s.E.bytesRead 1 = (s.E.sampled 1).sampled 1 := by
      rw [sampled_sampled]
      simp [Env.bytesRead, h, Env.sampled]
    have hnext := ih (s := { s with E := s.E.bytesRead 1 }) (by simp [Env.bytesRead, h])
    rw [Env.samples, Nat.mul_add, rawWords_succ, rawWords_succ, hnext, hsame]
    simp [Env.rawWord, Env.sampled, h]

theorem rawWords_listed {n : Nat} (h : n ≤ s.E.device.script.length) : rawWords s n = s.E.device.script.take n := by
  refine List.ext_getElem (by simpa [rawWords] using h) fun i hi _ => ?_
  have hlt : i < s.E.device.script.length := by simp [rawWords] at hi; omega
  simp [rawWords, hlt]

/-- The loopback device's samples unscramble to the bytes of its queue. -/
theorem sampledBytes_loopback {e : Env} (hd : d.toList.Nodup) (hlt : ∀ p ∈ d.toList, p < 32) {q : List Byte}
    (hq : e.device.loopback = some q) {n : Nat} (hn : n ≤ q.length) : sampledBytes d (e.samples d n) = q.take n := by
  induction n generalizing e q with
  | zero => rfl
  | succ n ih =>
    cases q with
    | nil => simp at hn
    | cons b q =>
      have hnext := ih (e := e.bytesRead 1) (q := q) (by simp [Env.bytesRead, hq]) (by simpa using hn)
      have hbyte : unscramble d ((e.sampled 1).rawWord d) = b := by
        simp [Env.rawWord, Env.sampled, hq, unscramble_scramble hd hlt]
      rw [Env.samples, sampledBytes, hnext, hbyte]
      rfl

end

/-! ## One byte (R173) -/

/-- `RD` after `n` read strobes: low once there was one. -/
def Pads.strobed (g : Pads) : Nat → Pads
  | 0 => g
  | _ + 1 => { g with rd := { g.rd with level := false } }

/-- The state after `n` bytes were read, the history aside. -/
def State.bytesRead (s : State) (n : Nat) : State :=
  { s with G := s.G.strobed n, E := s.E.bytesRead n, bus := s.bus ++ readPulses n }

/-- The raw words that the reads of `n` bytes sample. -/
def State.samples (s : State) (n : Nat) : List Word := s.E.samples s.S.cfg.pinD n

/-- The bytes that the reads of `n` bytes answer. -/
def State.readAnswers (s : State) (n : Nat) : List Byte := sampledBytes s.S.cfg.pinD (s.samples n)

theorem strobed_strobed (g : Pads) (m n : Nat) : (g.strobed m).strobed n = g.strobed (m + n) := by
  cases m <;> cases n <;> simp [Pads.strobed]

theorem readPulses_add (m n : Nat) : readPulses (m + n) = readPulses m ++ readPulses n := by
  rw [readPulses, List.replicate_add, List.flatten_append]
  rfl

theorem State.bytesRead_bytesRead (s : State) (m n : Nat) : (s.bytesRead m).bytesRead n = s.bytesRead (m + n) := by
  simp [State.bytesRead, strobed_strobed, Env.bytesRead_bytesRead, readPulses_add]

theorem State.bytesRead_succ (s : State) (n : Nat) : s.bytesRead (n + 1) = (s.bytesRead 1).bytesRead n := by
  rw [State.bytesRead_bytesRead, Nat.add_comm]

theorem State.bytesRead_zero (s : State) : s.bytesRead 0 = s := by
  simp [State.bytesRead, Env.bytesRead_zero, readPulses, Pads.strobed]

/-- A level written on `RD` as a GPIO output is seen on the bus, and a falling edge by the device (R112, R178). -/
theorem showLevel_rd {s : State} (h : s.G.rdOutput) (l : Bool) : s.showLevel .rd l = { s with
    bus := s.bus ++ [.lvl .rd l]
    E := { s.E with device := if l = false ∧ s.G.rd.level = true then s.E.device.onFallingRD else s.E.device } } := by
  unfold State.showLevel
  rw [if_pos (show (s.G.get .rd).route = .gpio ∧ (s.G.get .rd).dir = .output from h)]
  cases l <;> cases hl : s.G.rd.level <;> simp [State.pushBus, State.setDevice, Pads.get, hl]

theorem State.byteRead_eq {s : State} (h : s.G.rdOutput) :
    s.byteRead = (s.bytesRead 1).logged (readEvents (s.samples 1)) := by
  simp only [State.byteRead, afterRaw_eq, State.emit]
  rw [showLevel_rd (by exact h)]
  rw [showLevel_rd (by exact ⟨h.1, h.2⟩)]
  simp [State.setPad, Pads.put, State.bytesRead, Env.bytesRead, Pads.strobed, State.logged, readEvents,
    State.samples, Env.samples, readPulses, rawWord_env, sampled_sampled, Device.onFallingRD]

/-- The byte is in the second of the two samples. -/
theorem State.byteAnswer_eq (s : State) :
    s.byteAnswer = unscramble s.S.cfg.pinD ((s.E.sampled 1).rawWord s.S.cfg.pinD) := by
  simp [State.byteAnswer, afterRaw_eq, rawWord_env]

/-- A byte read, and what follows it. -/
theorem Gives.readByte_bind {α : Type} {f : Byte → Act α} {s t : State} {a : α} (h : Calm s) (hr : s.G.rdOutput)
    (k : Gives (f s.byteAnswer) ((s.bytesRead 1).logged (readEvents (s.samples 1))) a t) :
    Gives (Machine.readByte >>= f) s a t :=
  ((Gives.readByte h).congr (State.byteRead_eq hr)).bind rfl k

/-! ## The byte after the first ones -/

theorem rdOutput_strobed {g : Pads} (h : g.rdOutput) (n : Nat) : (g.strobed n).rdOutput := by
  cases n <;> exact h

theorem logged_logged (s : State) (es fs : List Event) : (s.logged es).logged fs = s.logged (es ++ fs) := by
  simp [State.logged]

theorem logged_nil (s : State) : s.logged [] = s := by simp [State.logged]

theorem State.readAnswers_succ (s : State) (n : Nat) :
    s.readAnswers (n + 1) = s.byteAnswer :: (s.bytesRead 1).readAnswers n := by
  rw [State.byteAnswer_eq]; rfl

/-- The events of one more byte read. -/
theorem readEvents_succ (s : State) (n : Nat) :
    readEvents (s.samples (n + 1)) = readEvents (s.samples 1) ++ readEvents ((s.bytesRead 1).samples n) := rfl

/-! ## The value read (R51, R172) -/

/-- A value with its lowest byte apart, where the bytes go in at bit `k`. -/
theorem assembled_cons (b : Byte) (bs : List Byte) (k : Nat) : BitVec.ofNat 32 (assembled (b :: bs)) <<< k =
    b.zeroExtend 32 <<< k ||| BitVec.ofNat 32 (assembled bs) <<< (k + 8) := by
  have hlow : assembled (b :: bs) = 2 ^ 8 * assembled bs ||| b.toNat := by
    rw [← Nat.two_pow_add_eq_or_of_lt b.isLt, assembled, Nat.add_comm]
  have hsplit : BitVec.ofNat 32 (assembled (b :: bs)) = b.zeroExtend 32 ||| BitVec.ofNat 32 (assembled bs) <<< 8 := by
    have hhigh : BitVec.ofNat 32 (2 ^ 8 * assembled bs) = BitVec.ofNat 32 (assembled bs) <<< 8 :=
      BitVec.eq_of_toNat_eq (by simp [Nat.shiftLeft_eq, Nat.mul_comm])
    rw [hlow, BitVec.ofNat_or, BitVec.or_comm, hhigh, BitVec.ofNat_toNat]
  rw [hsplit, BitVec.shiftLeft_or_distrib, ← BitVec.shiftLeft_add, Nat.add_comm]

theorem Gives.readValue {s : State} (h : Calm s) (hr : s.G.rdOutput) (n i : Nat) (v : Word) :
    Gives (readValue n i v) s (v ||| BitVec.ofNat 32 (assembled (s.readAnswers n)) <<< (8 * i))
      ((s.bytesRead n).logged (readEvents (s.samples n))) := by
  induction n generalizing s i v with
  | zero =>
    have hv : v ||| BitVec.ofNat 32 (assembled (s.readAnswers 0)) <<< (8 * i) = v := by
      simp [State.readAnswers, State.samples, Env.samples, sampledBytes, assembled]
    rw [hv, State.bytesRead_zero]
    exact (Gives.pure v s).congr (logged_nil s).symm
  | succ n ih =>
    have hrest := ih (s := (s.bytesRead 1).logged (readEvents (s.samples 1))) h (rdOutput_strobed hr 1) (i + 1)
      (v ||| s.byteAnswer.zeroExtend 32 <<< (8 * i))
    rw [State.readAnswers_succ, assembled_cons, ← BitVec.or_assoc, readEvents_succ, ← logged_logged,
      State.bytesRead_succ s n]
    exact Gives.readByte_bind h hr hrest

/-! ## readData (R172) -/

/-- `readData` in read mode, whatever the device: the bytes its samples unscramble to. -/
theorem exec_readData {s : State} (h : ReadReady s) {b : Nat} (hb : b ≤ 32) :
    ∃ ms r, ms <:+ s.E.sched ∧ exec (.readData b) s = .next (passed ((((s.bytesRead (scalarBytes b)).logged
      (readEvents (s.samples (scalarBytes b)))).setRes
        (BitVec.ofNat 32 (assembled (s.readAnswers (scalarBytes b))))).advance 1) ms r) := by
  have hrun : Gives (readChecks >>= fun _ => needOperand (fun _ => legalBitLength b) >>= fun _ =>
      readValue (scalarBytes b) 0 0#32 >>= fun v => update fun t => t.setRes v) s () _ :=
    (Gives.readChecks h).bind rfl <| (Gives.check fun _ _ => decide_eq_true hb).bind rfl <|
      (Gives.readValue h.calm h.pins.1 (scalarBytes b) 0 0#32).bind rfl <| Gives.update fun _ _ => rfl
  obtain ⟨ms, r, hms, he⟩ := hrun.command .readData
  refine ⟨ms, r, hms, he.trans ?_⟩
  simp [Opcode.row]

theorem strobed_pos (g : Pads) {n : Nat} (h : 1 ≤ n) : g.strobed n = { g with rd := { g.rd with level := false } } := by
  cases n with
  | zero => omega
  | succ n => rfl

theorem scalarBytes_pos (b : Nat) : 1 ≤ scalarBytes b := Nat.le_max_left _ _

/-- Without a loopback device reading is sampling. -/
theorem Env.bytesRead_scripted {e : Env} (h : e.device.loopback = none) (n : Nat) :
    e.bytesRead n = e.sampled (2 * n) := by
  simp [Env.bytesRead, h, Env.sampled]

/-- Settles O39: without a loopback device the samples are the scripted words. -/
theorem readDataCommand : Obligations.ReadDataCommand := by
  unfold Obligations.ReadDataCommand
  intro s b h hb hd n raw
  obtain ⟨ms, r, hms, he⟩ := exec_readData h hb
  have hraw : s.samples (scalarBytes b) = raw := samples_scripted hd _
  refine ⟨ms, r, hms, he.trans ?_⟩
  simp only [State.bytesRead, strobed_pos _ (scalarBytes_pos b), Env.bytesRead_scripted hd, State.readAnswers, hraw]
  rfl

theorem validPins {c : Cfg} {p : Params} (h : c.valid p = true) :
    c.pinD.toList.Nodup ∧ ∀ k ∈ c.pinD.toList, k < 32 := by
  obtain ⟨hdistinct, -, hlt, -⟩ := cfgValid_iff.mp h
  exact ⟨(List.nodup_append.mp hdistinct).1, hlt⟩

/-- With a valid configuration the bytes read from a loopback device are its queue's. -/
theorem readAnswers_loopback {s : State} (hc : s.S.cfg.valid s.par = true) {q : List Byte}
    (hq : s.E.device.loopback = some q) {n : Nat} (hn : n ≤ q.length) : s.readAnswers n = q.take n :=
  sampledBytes_loopback (validPins hc).1 (validPins hc).2 hq hn

/-- Settles O40: the samples carry the queue's bytes, and each strobe drops one. -/
theorem readDataFromLoopback : Obligations.ReadDataFromLoopback := by
  unfold Obligations.ReadDataFromLoopback
  intro s b q h hb hc hq hn n
  obtain ⟨ms, r, -, he⟩ := exec_readData h hb
  rw [readAnswers_loopback (n := scalarBytes b) hc hq hn] at he
  exact ⟨_, he, rfl, congrArg (Option.map _) hq, rfl, rfl, rfl⟩

/-! ## readBytes (R174) -/

/-- Host memory after a list of bytes was stored from `a` on. -/
def Memory.store (m : Memory) : Nat → List Byte → Memory
  | _, [] => m
  | a, b :: bs => Memory.store (m.write a b) (a + 1) bs

theorem Memory_store_other (m : Memory) {a k : Nat} (bs : List Byte) (h : k < a ∨ a + bs.length ≤ k) :
    (m.store a bs).read k = m.read k := by
  induction bs generalizing m a with
  | nil => rfl
  | cons b bs ih =>
    rw [List.length_cons] at h
    rw [Memory.store, ih _ (by omega), Memory_read_write_other _ _ (by omega)]

theorem Memory_store_same {m : Memory} (hm : m.wf = true) (a : Nat) {bs : List Byte} {k : Nat} (hk : k < bs.length) :
    bs[k]? = some ((m.store a bs).read (a + k)) := by
  induction bs generalizing m a k with
  | nil => simp at hk
  | cons b bs ih =>
    rw [Memory.store]
    cases k with
    | zero => rw [Memory_store_other _ _ (by omega)]; simp [Memory_read_write_same hm]
    | succ k =>
      have := ih (Memory_write_wf hm a b) (a + 1) (k := k) (by simpa using hk)
      rwa [Nat.add_assoc, Nat.add_comm 1] at this

/-- The events of one more byte read and stored. -/
theorem storeEvents_succ (s : State) (a n : Nat) : storeEvents s.S.cfg.pinD a (s.samples (n + 1)) =
    readEvents (s.samples 1) ++
      (.mWr a s.byteAnswer :: storeEvents s.S.cfg.pinD (a + 1) ((s.bytesRead 1).samples n)) := by
  rw [State.byteAnswer_eq]; rfl

/-- The state after `n` bytes were read and stored from `a` on. -/
def State.bytesStored (s : State) (n a : Nat) : State :=
  ((s.bytesRead n).setMem (s.M.store a (s.readAnswers n))).logged (storeEvents s.S.cfg.pinD a (s.samples n))

theorem State.bytesStored_succ (s : State) (n a : Nat) : s.bytesStored (n + 1) a =
    ((((s.bytesRead 1).logged (readEvents (s.samples 1))).setMem (s.M.write a s.byteAnswer)).emit
      (.mWr a s.byteAnswer)).bytesStored n (a + 1) := by
  rw [State.bytesStored, storeEvents_succ, State.readAnswers_succ, State.bytesRead_succ s n, List.append_cons,
    ← logged_logged, ← logged_logged]
  rfl

theorem Gives.storeBytes {s : State} (h : Calm s) (hr : s.G.rdOutput) {n a : Nat} (ha : admitsAll s.par a n) :
    Gives (storeBytes n a) s () (s.bytesStored n a) := by
  induction n generalizing s a with
  | zero =>
    rw [State.bytesStored, State.bytesRead_zero]
    exact (Gives.pure () s).congr (logged_nil s).symm
  | succ n ih =>
    have hwrite := Gives.memWrite (s := (s.bytesRead 1).logged (readEvents (s.samples 1))) h s.byteAnswer
      (ha 0 (Nat.succ_pos n))
    have hrest := ih (s := (((s.bytesRead 1).logged (readEvents (s.samples 1))).setMem (s.M.write a s.byteAnswer)).emit
      (.mWr a s.byteAnswer)) h (rdOutput_strobed hr 1) (a := a + 1) fun k hk => by
        have := ha (k + 1) (by omega)
        rwa [Nat.add_comm k, ← Nat.add_assoc] at this
    exact Gives.readByte_bind h hr ((hwrite.bind rfl hrest).congr (State.bytesStored_succ s n a).symm)

/-- `readBytes` in read mode with its destination admitted, whatever the device. -/
theorem exec_readBytes {s : State} (h : ReadReady s) {dst length : Nat} (hl : 1 ≤ length)
    (ha : admitsAll s.par dst length) (allowDma : Bool) : ∃ ms r, ms <:+ s.E.sched ∧
      exec (.readBytes dst length allowDma) s = .next (passed ((s.bytesStored length dst).advance 3) ms r) := by
  have hrun : Gives (readChecks >>= fun _ => needOperand (fun _ => decide (1 ≤ length)) >>= fun _ =>
      Machine.storeBytes length dst) s () _ :=
    (Gives.readChecks h).bind rfl <| (Gives.check fun _ _ => decide_eq_true hl).bind rfl <|
      Gives.storeBytes h.calm h.pins.1 ha
  exact hrun.command .readBytes

theorem readAnswers_length (s : State) (n : Nat) : (s.readAnswers n).length = n := by
  induction n generalizing s with
  | zero => rfl
  | succ n ih => rw [State.readAnswers_succ, List.length_cons, ih]

/-- Settles O41: the bytes are stored as they are read, and without a loopback device the samples are the scripted
words. -/
theorem readBytesCommand : Obligations.ReadBytesCommand := by
  unfold Obligations.ReadBytesCommand
  intro s dst length allowDma h hm hl ha hd raw
  obtain ⟨ms, r, -, he⟩ := exec_readBytes h hl ha allowDma
  have hraw : s.samples length = raw := samples_scripted hd _
  refine ⟨_, he, rfl, rfl, fun k hk => ?_, fun a ha => ?_, strobed_pos _ hl, rfl, ?_⟩
  · rw [← hraw]
    exact Memory_store_same hm dst (bs := s.readAnswers length) (by rwa [readAnswers_length])
  · exact Memory_store_other s.M _ (by rwa [readAnswers_length])
  · rw [← hraw]
    rfl

end Sys2Proof.Machine
end

section
/-!
PROOFS. `readPixels` (R176, R177).
* `readLoop_eq_batches`: its loop runs the ranges of R176, one `readBatch` each.
* `BatchesRead`: what batches add to a state; `Gives.readBatches` for batches whose pulls report their range ends, and
  `Gives.batchPull` for a batch up to its contract's check.
-/

namespace Sys2Proof.Machine

/-! ## The ranges of the batches (R176) -/

theorem Tiles_append {limit a b c : Nat} {rs qs : List (Nat × Nat)} (h : Tiles limit a b rs) (k : Tiles limit b c qs) :
    Tiles limit a c (rs ++ qs) := by
  induction rs generalizing a with
  | nil => cases h; exact k
  | cons r rs ih =>
    obtain ⟨h1, h2, h3, h⟩ := h
    exact ⟨h1, h2, h3, ih h⟩

/-- Ranges up to one of them end where it ends. -/
theorem Tiles_upto {limit a b : Nat} {rs qs : List (Nat × Nat)} {r : Nat × Nat} (h : Tiles limit a b (rs ++ r :: qs)) :
    Tiles limit a r.2 (rs ++ [r]) := by
  induction rs generalizing a with
  | nil =>
    obtain ⟨h1, h2, h3, -⟩ := h
    exact ⟨h1, h2, h3, rfl⟩
  | cons q rs ih =>
    obtain ⟨h1, h2, h3, h⟩ := h
    exact ⟨h1, h2, h3, ih h⟩

/-- The bytes of the pixels of some ranges. -/
def bytesIn (bpp : Nat) (rs : List (Nat × Nat)) : Nat := (rs.map fun r => (r.2 - r.1) * bpp).sum

theorem bytesIn_append (bpp : Nat) (rs qs : List (Nat × Nat)) :
    bytesIn bpp (rs ++ qs) = bytesIn bpp rs + bytesIn bpp qs := by
  simp [bytesIn]

theorem bytesIn_singleton (bpp : Nat) (r : Nat × Nat) : bytesIn bpp [r] = (r.2 - r.1) * bpp := by
  simp [bytesIn]

/-- Ranges without gap or overlap hold the pixels between their ends. -/
theorem bytesIn_tiles {limit a b : Nat} {rs : List (Nat × Nat)} (h : Tiles limit a b rs) (bpp : Nat) :
    a ≤ b ∧ bytesIn bpp rs = (b - a) * bpp := by
  induction rs generalizing a with
  | nil => cases h; simp [bytesIn]
  | cons r rs ih =>
    obtain ⟨rfl, hlt, -, h⟩ := h
    obtain ⟨hle, hbytes⟩ := ih h
    refine ⟨by omega, ?_⟩
    rw [← List.singleton_append, bytesIn_append, bytesIn_singleton, hbytes, ← Nat.add_mul]
    congr 1
    omega

/-- A short batch goes last, when the length leaves one. -/
theorem batchRanges_eq (length batch : Nat) : batchRanges length batch = fullChunks 0 batch (length / batch) ++
    if length % batch = 0 then [] else [(length / batch * batch, length)] := by
  simp [batchRanges, fullChunks]

/-- The ranges increase without gap or overlap from 0 to the length. -/
theorem tiles_batchRanges {batch : Nat} (hbatch : 1 ≤ batch) (length : Nat) :
    Tiles batch 0 length (batchRanges length batch) := by
  have hfull := tiles_fullChunks hbatch 0 (length / batch)
  have hmul := Nat.div_add_mod' length batch
  rw [Nat.zero_add] at hfull
  rw [batchRanges_eq]
  refine Tiles_append hfull ?_
  split
  · next h => exact (Nat.div_mul_cancel (Nat.dvd_of_mod_eq_zero h))
  · have := Nat.mod_lt length hbatch
    exact ⟨rfl, by omega, by simp only; omega, rfl⟩

/-! ## The loop is a sequence of batches (R176) -/

/-- A batch up to its pull. -/
def batchPull (p dst bpp : Nat) (r : Nat × Nat) : Act Nat := do
  update fun t => t.setRdbuf []
  fillRdbuf ((r.2 - r.1) * bpp)
  pullRead p dst r.1 r.2

/-- One batch: its bytes, its pull, the contract's check. -/
def readBatch (p dst bpp : Nat) (r : Nat × Nat) : Act Unit := do
  let next ← batchPull p dst bpp r
  check (fun _ => next == r.2) .producer

section
variable (p dst bpp : Nat) {batch length : Nat}

theorem readLoop_batch {start : Nat} (h : start < length) (rounds : Nat) :
    readLoop p dst bpp batch length (rounds + 1) start =
      (readBatch p dst bpp (start, start + min batch (length - start)) >>= fun _ =>
        readLoop p dst bpp batch length rounds (start + min batch (length - start))) := by
  simp [readLoop, readBatch, batchPull, h, bind_assoc]

theorem readLoop_end {start : Nat} (h : length ≤ start) (rounds : Nat) :
    readLoop p dst bpp batch length rounds start = pure () := by
  cases rounds with
  | zero => rfl
  | succ rounds => rw [readLoop, if_neg (by omega)]

/-- From `start` on: the full batches, then what is left of the length. -/
theorem readLoop_batches {rounds start count : Nat} (hbatch : 1 ≤ batch) (hrounds : length ≤ start + rounds)
    (hfull : start + count * batch ≤ length) (hlast : length < start + count * batch + batch) :
    readLoop p dst bpp batch length rounds start = forEach (readBatch p dst bpp) (fullChunks start batch count ++
      if length = start + count * batch then [] else [(start + count * batch, length)]) := by
  induction count generalizing start rounds with
  | zero =>
    rw [Nat.zero_mul, Nat.add_zero] at *
    split
    · exact readLoop_end p dst bpp (by omega) rounds
    · obtain ⟨rounds, rfl⟩ := Nat.exists_eq_add_of_le' (show 1 ≤ rounds by omega)
      have hstop : start + min batch (length - start) = length := by omega
      rw [readLoop_batch p dst bpp (by omega), hstop, readLoop_end p dst bpp le_rfl]
      rfl
  | succ count ih =>
    rw [Nat.succ_mul] at *
    obtain ⟨rounds, rfl⟩ := Nat.exists_eq_add_of_le' (show 1 ≤ rounds by omega)
    have hstop : start + min batch (length - start) = start + batch := by omega
    have hshift : start + (count * batch + batch) = start + batch + count * batch := by omega
    rw [readLoop_batch p dst bpp (by omega), hstop, ih (by omega) (by omega) (by omega), fullChunks_succ, hshift]
    rfl

/-- The loop of `readPixels` runs the ranges of R176. -/
theorem readLoop_eq_batches (hbatch : 1 ≤ batch) : readLoop p dst bpp batch length length 0 =
    forEach (readBatch p dst bpp) (batchRanges length batch) := by
  have hmul := Nat.div_add_mod' length batch
  have hmod := Nat.mod_lt length hbatch
  rw [readLoop_batches p dst bpp (count := length / batch) hbatch (by omega) (by omega) (by omega), batchRanges_eq,
    Nat.zero_add]
  congr 2
  exact if_congr (by omega) rfl rfl

end

/-- A read command whose first checks pass is what follows them. -/
theorem command_readChecks_pass {s : State} (h : ReadReady s) (o : Opcode) (m : Unit → Act Unit) :
    command o (readChecks >>= m) s = command o (m ()) s := by
  simp [readChecks_bind, needInitialised, needTxn, needReading, command_check, h.life, h.txn, h.reading]

/-- `readPixels` once its checks pass is its batches. -/
theorem exec_readPixels_pass {s : State} (h : ReadReady s) {p bpp batch : Nat} {q : Producer}
    (hq : s.E.producer p = some q) (hbpp : (q.depth + 7) / 8 = bpp)
    (hbatch : bpp = 2 ∧ batch = 16 ∨ bpp = 3 ∧ batch = 10) (dst length : Nat) : exec (.readPixels dst p length) s =
      command .readPixels (forEach (readBatch p dst bpp) (batchRanges length batch)) s := by
  have hsize : s.E.bpp p = bpp := by rw [Env.bpp, hq]; exact hbpp
  have hrd : rdBatch bpp = batch ∧ 1 ≤ batch := by rcases hbatch with ⟨rfl, rfl⟩ | ⟨rfl, rfl⟩ <;> decide
  have hknown : (s.E.producer p).isSome = true := by rw [hq]; rfl
  have hlegal : (s.E.bpp p == 2 || s.E.bpp p == 3) = true := by
    rw [hsize]; rcases hbatch with ⟨rfl, -⟩ | ⟨rfl, -⟩ <;> rfl
  refine (command_readChecks_pass h _ _).trans ?_
  rw [producerChecks_bind, command_operand_pass hknown, command_operand_pass hlegal,
    command_bind_ok (Act_get_run s), hsize]
  simp only [hrd.1, readLoop_eq_batches p dst bpp hrd.2]

/-! ## A batch up to its pull -/

theorem Gives.fillRdbuf {s : State} (h : Calm s) (hr : s.G.rdOutput) (n : Nat) : Gives (fillRdbuf n) s ()
    (((s.bytesRead n).logged (readEvents (s.samples n))).setRdbuf (s.S.rdbuf ++ s.readAnswers n)) := by
  induction n generalizing s with
  | zero =>
    rw [State.bytesRead_zero]
    refine (Gives.pure () s).congr ?_
    simp [State.logged, State.setRdbuf, State.readAnswers, State.samples, Env.samples, readEvents, sampledBytes]
  | succ n ih =>
    have hkeep : Gives (Machine.update fun t => t.setRdbuf (t.S.rdbuf ++ [s.byteAnswer]))
        ((s.bytesRead 1).logged (readEvents (s.samples 1))) () _ := Gives.update fun _ _ => rfl
    have hrest := ih (s := ((s.bytesRead 1).logged (readEvents (s.samples 1))).setRdbuf (s.S.rdbuf ++ [s.byteAnswer]))
      h (rdOutput_strobed hr 1)
    refine Gives.readByte_bind h hr ((hkeep.bind rfl hrest).congr ?_)
    rw [State.readAnswers_succ, List.append_cons s.S.rdbuf s.byteAnswer (State.readAnswers _ _),
      State.bytesRead_succ s n, readEvents_succ s n, ← logged_logged]
    rfl

/-- The state after the pull of a batch of `n` bytes that `a` answered. -/
def State.batchPulled (s : State) (p dst n : Nat) (r : Nat × Nat) (a : PullAnswer) : State :=
  let u := ((s.bytesRead n).logged (readEvents (s.samples n))).setRdbuf (s.readAnswers n)
  (((u.afterPull p).setHanded (s.E.handed ++ [⟨p, dst, r.1, r.2, s.readAnswers n⟩])).setMem
    (s.M.writeAll a.stores)).emit (.pull p r.1 r.2 a.next)

theorem Gives.pullRead {s : State} (h : Calm s) {p : Nat} {a : PullAnswer} (ha : s.pullAnswer p = a) (dst x y : Nat) :
    Gives (pullRead p dst x y) s a.next ((((s.afterPull p).setHanded (s.E.handed ++ [⟨p, dst, x, y, s.S.rdbuf⟩])).setMem
      (s.M.writeAll a.stores)).emit (.pull p x y a.next)) :=
  .atom h fun _ _ => by subst ha; rfl

theorem Gives.batchPull {s : State} (h : Calm s) (hr : s.G.rdOutput) {p : Nat} {a : PullAnswer} {as : List PullAnswer}
    (ha : s.view.answers p = a :: as) (dst bpp : Nat) (r : Nat × Nat) :
    Gives (batchPull p dst bpp r) s a.next (s.batchPulled p dst ((r.2 - r.1) * bpp) r a) := by
  have hclear : Gives (Machine.update fun t => t.setRdbuf []) s () (s.setRdbuf []) := Gives.update fun _ _ => rfl
  refine hclear.bind rfl ((Gives.fillRdbuf (s := s.setRdbuf []) h hr _).bind rfl ?_)
  exact Gives.pullRead (s := ((s.bytesRead _).logged (readEvents (s.samples _))).setRdbuf (s.readAnswers _)) h
    (pullAnswer_eq (as := as) ha) dst r.1 r.2

/-! ## What batches add -/

/-- The events of bytes read pull nothing. -/
theorem pullsOf_readEvents (pc : Nat) : ∀ ws, pullsOf ((readEvents ws).map (Prod.mk pc)) = []
  | [] => rfl
  | [_] => rfl
  | _ :: _ :: ws => pullsOf_readEvents pc ws

theorem sampledBytes_append (d : Vector Nat 8) : ∀ (n : Nat) {ws : List Word}, ws.length = 2 * n → ∀ vs,
    sampledBytes d (ws ++ vs) = sampledBytes d ws ++ sampledBytes d vs
  | 0, ws, h, vs => by rw [List.length_eq_zero_iff.mp h]; rfl
  | n + 1, w :: w' :: ws, h, vs => congrArg _ (sampledBytes_append d n (by simpa [Nat.mul_add] using h) vs)

/-- The handovers of the ranges `rs` of producer `p` and destination `dst`, with the bytes sampled as `ws`. -/
structure HandsOver (p dst bpp : Nat) (d : Vector Nat 8) (rs : List (Nat × Nat)) (ws : List Word)
    (hs : List Handover) : Prop where
  ranges : hs.map (fun h => (h.producer, h.dst, h.start, h.stop)) = rs.map (fun r => (p, dst, r.1, r.2))
  sizes : ∀ h ∈ hs, h.bytes.length = (h.stop - h.start) * bpp
  bytes : (hs.map (·.bytes)).flatten = sampledBytes d ws

/-- From `s` to `t` the batches `rs` were read without a loopback device from words it lists, handed to `p`, and
answered by `as`. -/
structure BatchesRead (p dst bpp : Nat) (s : State) (rs : List (Nat × Nat)) (as : List PullAnswer)
    (t : State) : Prop where
  listed : 2 * bytesIn bpp rs ≤ s.E.device.script.length
  S : t.S = { s.S with rdbuf := t.S.rdbuf }
  P : t.P = s.P
  G : t.G = s.G.strobed (bytesIn bpp rs)
  sched : t.E.sched = s.E.sched
  loopback : t.E.device.loopback = none
  script : t.E.device.script = s.E.device.script.drop (2 * bytesIn bpp rs)
  answers : s.view.answers p = as ++ t.view.answers p
  M : t.M = s.M.writeAll (as.map (·.stores)).flatten
  bus : t.bus = s.bus ++ readPulses (bytesIn bpp rs)
  handed : ∃ hs, t.E.handed = s.E.handed ++ hs ∧
    HandsOver p dst bpp s.S.cfg.pinD rs (s.E.device.script.take (2 * bytesIn bpp rs)) hs
  hist : ∃ es, t.hist = s.hist ++ es ∧ pullsOf es = rs.map fun r => (p, r.1, r.2)

section
variable {p dst bpp : Nat}

theorem BatchesRead.nil {s : State} (h : s.E.device.loopback = none) : BatchesRead p dst bpp s [] [] s where
  listed := Nat.zero_le _
  S := rfl
  P := rfl
  G := rfl
  sched := rfl
  loopback := h
  script := rfl
  answers := rfl
  M := rfl
  bus := (List.append_nil _).symm
  handed := ⟨[], by simp, rfl, by simp, rfl⟩
  hist := ⟨[], by simp, rfl⟩

theorem HandsOver.append {d : Vector Nat 8} {rs qs : List (Nat × Nat)} {ws vs : List Word} {hs ks : List Handover}
    (h : HandsOver p dst bpp d rs ws hs) (hw : ws.length = 2 * bytesIn bpp rs) (k : HandsOver p dst bpp d qs vs ks) :
    HandsOver p dst bpp d (rs ++ qs) (ws ++ vs) (hs ++ ks) where
  ranges := by rw [List.map_append, List.map_append, h.ranges, k.ranges]
  sizes x hx := (List.mem_append.mp hx).elim (h.sizes x) (k.sizes x)
  bytes := by rw [List.map_append, List.flatten_append, h.bytes, k.bytes, sampledBytes_append d _ hw]

theorem writeAll_append (m : Memory) (cs ds : List Host.Cell) :
    m.writeAll (cs ++ ds) = (m.writeAll cs).writeAll ds := by
  induction cs generalizing m with
  | nil => rfl
  | cons c cs ih => exact ih _

theorem BatchesRead.append {s t u : State} {rs qs : List (Nat × Nat)} {as bs : List PullAnswer}
    (h : BatchesRead p dst bpp s rs as t) (k : BatchesRead p dst bpp t qs bs u) :
    BatchesRead p dst bpp s (rs ++ qs) (as ++ bs) u := by
  have hcount := bytesIn_append bpp rs qs
  have hlisted := k.listed
  have hshort := h.listed
  rw [h.script, List.length_drop] at hlisted
  obtain ⟨hs, hhanded, hover⟩ := h.handed
  obtain ⟨ks, khanded, kover⟩ := k.handed
  obtain ⟨es, hhist, hpulls⟩ := h.hist
  obtain ⟨fs, khist, kpulls⟩ := k.hist
  refine ⟨by omega, by rw [k.S, h.S], k.P.trans h.P, ?_, k.sched.trans h.sched, k.loopback, ?_, ?_, ?_, ?_,
    ⟨hs ++ ks, ?_, ?_⟩, ⟨es ++ fs, ?_, ?_⟩⟩
  · rw [k.G, h.G, strobed_strobed, hcount]
  · rw [k.script, h.script, List.drop_drop, hcount, Nat.mul_add]
  · rw [h.answers, k.answers, List.append_assoc]
  · rw [k.M, h.M, List.map_append, List.flatten_append, writeAll_append]
  · rw [k.bus, h.bus, hcount, readPulses_add, List.append_assoc]
  · rw [khanded, hhanded, List.append_assoc]
  · rw [h.S, h.script] at kover
    rw [hcount, Nat.mul_add, List.take_add]
    exact hover.append (by rw [List.length_take, Nat.min_eq_left h.listed]) kover
  · rw [khist, hhist, List.append_assoc]
  · rw [pullsOf_append, hpulls, kpulls, List.map_append]

section
variable {s : State} (hd : s.E.device.loopback = none) {r : Nat × Nat}
  (hlisted : 2 * ((r.2 - r.1) * bpp) ≤ s.E.device.script.length)
  {a : PullAnswer} {as : List PullAnswer} (ha : s.view.answers p = a :: as)
include hd hlisted ha

/-- A batch up to its pull. -/
theorem BatchesRead.batchPulled : BatchesRead p dst bpp s [r] [a] (s.batchPulled p dst ((r.2 - r.1) * bpp) r a) := by
  have hcount := bytesIn_singleton bpp r
  have hsamples : s.samples ((r.2 - r.1) * bpp) = s.E.device.script.take (2 * ((r.2 - r.1) * bpp)) :=
    (samples_scripted hd _).trans (rawWords_listed hlisted)
  refine ⟨by rwa [hcount], rfl, rfl, by rw [hcount]; rfl, rfl, ?_, by rw [hcount]; rfl, ?_, ?_, by rw [hcount]; rfl,
    ⟨_, rfl, ⟨rfl, ?_, ?_⟩⟩, ⟨_, (List.append_assoc _ _ _), ?_⟩⟩
  · exact congrArg (Option.map _) hd
  · have hrest := answers_pulled s.view p r a.next s.S.pixbuf
    rw [ha] at hrest
    rw [ha]
    exact congrArg (a :: ·) hrest.symm
  · simp [State.batchPulled]
  · simp [readAnswers_length]
  · rw [hcount, ← hsamples]; simp [State.readAnswers]
  · rw [pullsOf_append, pullsOf_readEvents]; rfl

end

/-- Batches whose pulls report their range ends. -/
theorem Gives.readBatches {s : State} (h : Calm s) (hr : s.G.rdOutput) (hd : s.E.device.loopback = none)
    {rs : List (Nat × Nat)} (hlisted : 2 * bytesIn bpp rs ≤ s.E.device.script.length) {as more : List PullAnswer}
    (ha : s.view.answers p = as ++ more) (hnext : as.map (·.next) = rs.map Prod.snd) :
    ∃ t, Gives (Machine.forEach (readBatch p dst bpp) rs) s () t ∧ Calm t ∧ BatchesRead p dst bpp s rs as t := by
  induction rs generalizing s as with
  | nil =>
    obtain rfl := List.map_eq_nil_iff.mp hnext
    exact ⟨s, .pure () s, h, .nil hd⟩
  | cons r rs ih =>
    obtain ⟨a, as, rfl, hend, hnext⟩ := List.map_eq_cons_iff.mp hnext
    rw [← List.singleton_append, bytesIn_append, bytesIn_singleton] at hlisted
    have hread : BatchesRead p dst bpp s [r] [a] _ := .batchPulled hd (by omega) ha
    have hbatch : Gives (readBatch p dst bpp r) s () (s.batchPulled p dst ((r.2 - r.1) * bpp) r a) :=
      (Gives.batchPull h hr ha dst bpp r).bind rfl (Gives.check fun _ _ => by simp [hend])
    obtain ⟨t, ht, hcalm, hrest⟩ := ih (s := s.batchPulled p dst ((r.2 - r.1) * bpp) r a) h
      (by rw [hread.G]; exact rdOutput_strobed hr _) hread.loopback
      (by rw [hread.script, List.length_drop, bytesIn_singleton]; omega)
      (List.append_cancel_left (hread.answers.symm.trans ha)) hnext
    exact ⟨t, hbatch.bind rfl ht, hcalm, hread.append hrest⟩

/-- A pull that misses the end of its range faults with the state it left (R176). -/
theorem readBatch_missed {next : Nat} {r : Nat × Nat} {s t : State} (h : batchPull p dst bpp r s = .ok next t)
    (hmiss : next ≠ r.2) : readBatch p dst bpp r s = .error .faulted (t.takeFault .producer) := by
  rw [readBatch, Act_bind_ok h]
  exact check_false (beq_false_of_ne hmiss)

/-- Batches whose pulls report their range ends, then one whose pull does not. -/
theorem readBatches_missed {s : State} (h : Calm s) (hr : s.G.rdOutput) (hd : s.E.device.loopback = none)
    {before : List (Nat × Nat)} {r : Nat × Nat} (hlisted : 2 * bytesIn bpp (before ++ [r]) ≤ s.E.device.script.length)
    {as more : List PullAnswer} {a : PullAnswer} (ha : s.view.answers p = as ++ a :: more)
    (hnext : as.map (·.next) = before.map Prod.snd) (hmiss : a.next ≠ r.2) (after : List (Nat × Nat)) :
    ∃ t ms x, let u := t.batchPulled p dst ((r.2 - r.1) * bpp) r a
      forEach (readBatch p dst bpp) (before ++ r :: after) s = .error .faulted ((passed u ms x).takeFault .producer) ∧
      BatchesRead p dst bpp s before as t ∧ BatchesRead p dst bpp t [r] [a] u := by
  rw [bytesIn_append, bytesIn_singleton] at hlisted
  obtain ⟨t, hrun, hcalm, hread⟩ := Gives.readBatches (dst := dst) (bpp := bpp) (more := a :: more) h hr hd (by omega)
    ha hnext
  have hanswers : t.view.answers p = a :: more := List.append_cancel_left (hread.answers.symm.trans ha)
  have hrd : t.G.rdOutput := by rw [hread.G]; exact rdOutput_strobed hr _
  obtain ⟨ms, x, hms, hbefore⟩ := hrun s.E.sched s.E.radioClkEn (List.suffix_refl _)
  obtain ⟨ms', x', -, hpull⟩ := Gives.batchPull hcalm hrd hanswers dst bpp r ms x (by rwa [hread.sched])
  refine ⟨t, ms', x', ?_, hread, .batchPulled hread.loopback (by rw [hread.script, List.length_drop]; omega) hanswers⟩
  rw [passed_self] at hbefore
  rw [forEach_append, Act_bind_ok hbefore]
  exact Act_bind_error (readBatch_missed hpull hmiss)

end

/-! ## The command -/

theorem BatchesRead.sequencer {p dst bpp : Nat} {s t : State} {rs : List (Nat × Nat)} {as : List PullAnswer}
    (h : BatchesRead p dst bpp s rs as t) : t.S.fault = s.S.fault ∧ t.S.hold = s.S.hold ∧ t.S.pc = s.S.pc ∧
      t.S.res = s.S.res := by
  rw [h.S]
  exact ⟨rfl, rfl, rfl, rfl⟩

/-- Settles O42: the batches of the rule, each answered with its range end. -/
theorem readPixelsCommand : Obligations.ReadPixelsCommand := by
  unfold Obligations.ReadPixelsCommand
  intro s dst p length q as more h hq has hd bpp batch hbatch hbpp hnext hlisted
  have htiles : Tiles batch 0 length (batchRanges length batch) := tiles_batchRanges (by omega) length
  obtain ⟨-, hcount⟩ := bytesIn_tiles htiles bpp
  rw [Nat.sub_zero] at hcount
  obtain ⟨t, hrun, -, hread⟩ := Gives.readBatches (dst := dst) h.calm h.pins.1 hd (by rwa [hcount])
    ((answers_of_producer hq).trans has) hnext
  obtain ⟨hfault, hhold, hpc, hres⟩ := hread.sequencer
  obtain ⟨hs, hhanded, hover⟩ := hread.handed
  obtain ⟨es, hhist, hpulls⟩ := hread.hist
  obtain ⟨ms, x, -, he⟩ := hrun.command .readPixels
  rw [hcount] at hover
  refine ⟨passed (t.advance 4) ms x, hs, es, (exec_readPixels_pass h hq hbpp hbatch dst length).trans he,
    hfault.trans h.calm.1, hhold, congrArg (· + 4) hpc, hres, hread.P, hhanded, hover.ranges, hover.sizes, hover.bytes,
    hread.M, hread.bus.trans (by rw [hcount]), hhist, hpulls, htiles⟩

/-- Settles O60: the batches before, then one up to its pull, where the contract's check fails. -/
theorem readPixelsPullFault : Obligations.ReadPixelsPullFault := by
  unfold Obligations.ReadPixelsPullFault
  intro s dst p length q as more a before after r h hq has hd bpp batch hbatch hbpp hranges hnext hmiss hlisted
  have htiles : Tiles batch 0 length (before ++ r :: after) := hranges ▸ tiles_batchRanges (by omega) length
  obtain ⟨-, hcount⟩ := bytesIn_tiles (Tiles_upto htiles) bpp
  rw [Nat.sub_zero] at hcount
  obtain ⟨t, ms, x, hrun, hread, hlast⟩ := readBatches_missed (dst := dst) h.calm h.pins.1 hd (by rwa [hcount])
    ((answers_of_producer hq).trans has) hnext hmiss after
  have hall := hread.append hlast
  obtain ⟨-, -, hpc, hres⟩ := hall.sequencer
  obtain ⟨hs, hhanded, hover⟩ := hall.handed
  obtain ⟨es, hhist, hpulls⟩ := hread.hist
  rw [hcount] at hover
  refine ⟨(passed (t.batchPulled p dst ((r.2 - r.1) * bpp) r a) ms x).takeFault .producer, hs,
    es ++ (readEvents (t.samples ((r.2 - r.1) * bpp))).map (Prod.mk t.S.pc), ?_, ?_, hpc, hres, hall.P, hhanded,
    hover.ranges, hover.sizes, hover.bytes, hall.M, hall.bus.trans (by rw [hcount]), ?_, ?_⟩
  · rw [exec_readPixels_pass h hq hbpp hbatch, hranges, command, hrun]
  · rw [← hpc]; rfl
  · rw [← hpc, ← List.append_assoc, ← hhist]; rfl
  · rw [pullsOf_append, hpulls, pullsOf_readEvents, List.append_nil]

end Sys2Proof.Machine
end

section
/-!
PROOFS. Read mode puts no write cycle on the bus (R180).
* `Hushed s t`: nothing is transmitted in `t`, and since `s` the bus has gained no write cycle.
* `exec_hushed`: a command that is no write command keeps that; a write command faults in read mode.
-/

namespace Sys2Proof.Machine

/-- Since `s` the bus has gained level events only. -/
def NoCycles (s t : State) : Prop := ∃ es, t.bus = s.bus ++ es ∧ ∀ rs b, BusEvent.wr rs b ∉ es

theorem NoCycles.of_eq {s t : State} (h : t.bus = s.bus) : NoCycles s t := ⟨[], by simp [h], by simp⟩

theorem NoCycles.trans {s t u : State} (h : NoCycles s t) (k : NoCycles t u) : NoCycles s u := by
  obtain ⟨es, he, hes⟩ := h
  obtain ⟨fs, hf, hfs⟩ := k
  exact ⟨es ++ fs, by rw [hf, he, List.append_assoc], fun rs b hb => (List.mem_append.mp hb).elim (hes rs b) (hfs rs b)⟩

/-- Nothing is transmitted in `t`, and since `s` the bus has gained no write cycle. -/
def Hushed (s t : State) : Prop := t.P.tx = ⟨false, false⟩ ∧ NoCycles s t

theorem Hushed.of_eq {s t u : State} (h : Hushed s t) (ht : u.P.tx = t.P.tx) (hb : u.bus = t.bus) : Hushed s u :=
  ⟨ht.trans h.1, h.2.trans (.of_eq hb)⟩

/-- With the transmitter finished no agent puts a cycle on the bus. -/
theorem Hushed.moved {s t : State} (h : Hushed s t) (m : Move) : Hushed s (t.moved m) := by
  have htx : txStep t = none := by simp [txStep, h.1]
  cases m with
  | tx => rw [State.moved, htx]; exact h
  | dma =>
    cases hx : dmaStep t with
    | none => rw [State.moved, hx]; exact h
    | some u =>
      rw [State.moved, hx]
      rcases dmaStep_cases hx with ⟨-, -, -, ⟨-, rfl⟩ | ⟨-, rfl⟩⟩ <;> exact h
  | clkm v => rw [State.moved]; split <;> exact h
  | seq | radio v => exact h

/-- Only a write command starts the transmitter. -/
theorem Hushed.performs {s t u : State} {i : Instr} (h : Hushed s t) (hi : i.opcode ∉ writers) (p : Performs i t u) :
    Hushed s u := by
  cases p with
  | start hw => exact absurd hw hi
  | level r l _ hz => exact ⟨by simp [h.1], h.2.trans ⟨_, showLevel_bus t r l, by split <;> simp⟩⟩
  | gate => split <;> [exact ⟨rfl, h.2⟩; exact h]
  | link => exact h.of_eq rfl rfl
  | _ => exact h.of_eq (by simp) (by simp)

theorem exec_hushed {i : Instr} {s t u : State} (h : Hushed s t) (hr : t.S.read = true) (he : exec i t = .next u) :
    Hushed s u := by
  by_cases hi : i.opcode ∈ writers
  · rcases exec_writer_cases hi he with ⟨c, rfl⟩ | ⟨-, hw⟩
    · exact h
    · rw [hr] at hw; cases hw
  · have hdid : ∀ {v}, Did i t v → Hushed s v := fun d =>
      d.keeps h (fun _ _ k => k) (fun _ m k _ => k.moved m) fun _ _ k p => k.performs hi p
    rcases exec_did he with ⟨v, d, rfl⟩ | k
    · exact (hdid d).of_eq rfl rfl
    · cases k with
      | raised d => exact (hdid d).of_eq rfl rfl
      | moved d m => exact (hdid d).moved m
      | held d => exact (hdid d).of_eq rfl rfl

theorem step_hushed {s t u : State} (h : Hushed s t) (hr : t.S.read = true) (he : step t = .next u) : Hushed s u := by
  obtain ⟨-, ⟨m, ms, -, -, rfl⟩ | ⟨ms, -, -, rfl⟩ | ⟨-, -, -, hw⟩ | ⟨v, hv, k⟩⟩ := step_cases he
  · exact Hushed.moved (t := t.setSched ms) h m
  · exact h
  · obtain ⟨m, rfl⟩ := hwStep_moved hw
    exact h.moved m
  · have hvh : Hushed s v := by rcases hv with ⟨-, ⟨-, rfl⟩ | ⟨ms, -, rfl⟩⟩ <;> exact h
    rcases k with ⟨i, rest, -, k⟩ | ⟨-, rfl⟩ | rfl
    · exact exec_hushed hvh (by rwa [Fetches_S hv]) k
    · exact hvh
    · exact hvh

/-- In read mode the transmitter has finished. -/
theorem PinInv.tx_read {s : State} (h : PinInv s) (hr : s.S.read = true) : s.P.tx = ⟨false, false⟩ := by
  have hrun : s.P.tx.running = false := by
    by_contra k
    rw [h.running_write (by simpa using k)] at hr
    cases hr
  exact tx_idle (by by_contra k; rw [h.latch_running (by simpa using k)] at hrun; cases hrun) hrun

/-- Settles O45: in read mode nothing is transmitted, and the pin invariant lasts. -/
theorem readModeIsSilent : Obligations.ReadModeIsSilent := by
  unfold Obligations.ReadModeIsSilent
  exact fun s t h _ hr he => ⟨(step_hushed ⟨h.tx_read hr, .of_eq rfl⟩ hr he).2, (stepKeepsPins s t h he).read_pins⟩

end Sys2Proof.Machine
end

section
/-!
PROOFS. The loopback round trip (R178).
* `Echoing q s`: the loopback device has queued `q`, counting what is still to be transmitted; `writeBytes` sends the
  buffer's bytes there, and `beginRead`, stopped or not, leaves it.
* `Runs_admitted`: a `readBytes` that is not held has its destination admitted.
-/

namespace Sys2Proof.Machine

/-! ## What the loopback device will have queued -/

/-- No fault is set, a transmission runs in write routing only, and the loopback device will have queued `q`. -/
structure Echoing (q : Option (List Byte)) (s : State) : Prop where
  fault : s.S.fault = none
  routed : Routed s
  echo : s.view.echo = q

theorem Echoing_lasting (q : Option (List Byte)) : Lasting (Echoing q) (¬ ·.live) where
  fault h := h.fault
  took _ h := ⟨h.fault, h.routed, h.echo⟩
  moved m h hf := ⟨hf, Routed_moved h.routed m, (congrArg View.echo (moved_view h.routed hf)).trans h.echo⟩
  raised c _ := takeFault_not_live _ c

/-- While a transmission runs a pad operation reaches `RD` only. -/
theorem Echoing.padOp {q : Option (List Byte)} {s : State} (h : Echoing q s) {o : PadOp}
    (hz : s.padHazard o.role = false) : Echoing q (o.apply s) := by
  refine ⟨h.fault, fun hr => ?_, h.echo⟩
  have hrd : o.role = .rd := by
    by_contra k
    rw [padHazard_iff.mpr ⟨k, show s.P.tx.running = true from hr⟩] at hz
    cases hz
  have hw : s.G.writeRouting = true := h.routed hr
  rw [writeRouting_iff] at hw ⊢
  simp only [PadOp.apply, PadOp.pads, hrd]
  simpa [get_put] using hw

/-- A pad operation. -/
theorem Runs_padOp {P Q E : State → Prop} (hl : Lasting P E) {o : PadOp}
    (h : ∀ s, P s → s.padHazard o.role = false → Q (o.apply s)) : Runs P o.act (fun _ => Q) E := by
  cases o with
  | claim r =>
    refine hl.atom fun s _ t hs ho => ?_
    obtain ⟨hz, rfl⟩ := gpioClaimOp_done ho
    exact apply_quiet (s := s) (o := .claim r) rfl ▸ h s hs hz
  | raise r =>
    refine hl.atom fun s _ t hs ho => ?_
    obtain ⟨hz, rfl⟩ := gpioLevelOp_done ho
    exact apply_raise s r ▸ h s hs hz
  | dir r d =>
    refine hl.atom fun s _ t hs ho => ?_
    obtain ⟨hz, rfl⟩ := gpioDirOp_done ho
    exact apply_quiet (s := s) (o := .dir r d) rfl ▸ h s hs hz
  | route r x =>
    refine hl.atom fun s _ t hs ho => ?_
    obtain ⟨hz, rfl⟩ := routeOp_done ho
    exact apply_quiet (s := s) (o := .route r x) rfl ▸ h s hs hz

/-- `beginRead` leaves what the device will have queued. -/
theorem Runs_echoing_beginRead (q : Option (List Byte)) :
    Runs (Echoing q) (waitIdle >>= fun _ => readPins >>= fun _ => update fun t => t.setRead true)
      (fun _ => Echoing q) (¬ ·.live) := by
  refine Runs_bind (R := fun _ => Echoing q) ((Echoing_lasting q).micro (fun s _ t h _ ho => ?_) fun s x _ _ =>
    setHold_not_live s x) fun _ => Runs_bind (R := fun _ => Echoing q) ?_ fun _ s h => ⟨h.fault, h.routed, h.echo⟩
  · cases ho
    exact ⟨h.fault, h.routed, h.echo⟩
  · rw [readPins_eq]
    exact Runs_forEach fun o _ => Runs_padOp (Echoing_lasting q) fun s h hz => h.padOp hz

theorem exec_beginRead_echo {q : Option (List Byte)} {s t : State} (h : Echoing q s)
    (he : exec .beginRead s = .next t) (ht : t.live) : Echoing q t := by
  obtain ⟨c, rfl⟩ | ⟨-, he⟩ := command_writeChecks_cases he
  · exact absurd ht (takeFault_not_live s c)
  · exact command_leaves (R := fun t => t.live → Echoing q t) (Runs_echoing_beginRead q)
      (fun u n k _ => ⟨k.fault, k.routed, k.echo⟩) (fun u k hl => absurd hl k) h he ht

/-- Between commands with the transmitter finished nothing is left to send. -/
theorem BoundaryInv.pending_idle {s : State} (h : BoundaryInv s) (hl : s.live) (hr : s.P.tx.running = false) :
    s.pending = [] := by
  obtain ⟨hfifo, hload⟩ := h.idle_empty hl hr
  have hlatch : s.P.dma.latched = false := by
    by_contra k
    rw [h.pins.latched_loaded (by simpa using k)] at hload
    cases hload
  simp [State.pending, hfifo, hload, hlatch]

/-- With nothing left to send, what the device will have queued is its queue. -/
theorem echo_idle {s : State} (h : s.pending = []) : s.view.echo = s.E.device.loopback := by
  simp [State.view, h, dataOf]

/-- `writeBytes`, unless it is stopped, sends the buffer's bytes to the device. -/
theorem exec_writeBytes_echo {s t : State} {buffer length : Nat} {useDma : Bool} (hs : BoundaryInv s) (hl : s.live)
    (hsc : s.par.scratchAddr0 ≠ s.par.scratchAddr1) (he : exec (.writeBytes buffer length useDma) s = .next t)
    (ht : t.live) : Echoing (s.view.echo.map (· ++ hostBytes s.M buffer length)) t := by
  obtain ⟨c, rfl⟩ | ⟨⟨-, htxn, hread⟩, he⟩ := command_writeChecks_cases he
  · exact absurd ht (takeFault_not_live s c)
  obtain rfl | ⟨-, he⟩ := command_check_cases he
  · exact absurd ht (takeFault_not_live s .operand)
  have hstart : Sending False True s := hs.sending hl htxn hread False.elim
  refine command_leaves (R := fun t => t.live → Echoing (s.view.echo.map (· ++ hostBytes s.M buffer length)) t)
    (Runs_bytesBody (Reads_buffer (γ := s.view) False.elim) (fun _ => hsc) rfl False.elim) ?_ ?_
    ⟨hstart, rfl⟩ he ht
  · rintro u n ⟨hu, hrun⟩ hlive
    have hecho := hrun.sent.echo
    rw [bytesAt_buffer, dataOf_dataCycles] at hecho
    exact ⟨hlive.1, fun _ => hu.writing.pins, hecho⟩
  · exact fun u hu hlive => absurd hlive hu.1

/-! ## readBytes, from its outcome -/

/-- No fault is set, and the launch is the one of `par`. -/
def Launched (par : Params) (s : State) : Prop := s.S.fault = none ∧ s.par = par

theorem Launched_lasting (par : Params) : Lasting (Launched par) fun _ => True where
  fault h := h.1
  took _ h := h
  moved {s} m h hf := ⟨hf, (moved_beside s m).par.trans h.2⟩
  raised _ _ := trivial

theorem Launched.performs {par : Params} {i : Instr} (s t : State) (h : Launched par s) (p : Performs i s t) :
    Launched par t := ⟨(Performs_pointer p).2.1.trans h.1, (Performs_sameLaunch p).2.trans h.2⟩

/-- Bytes that were stored had their addresses admitted. -/
theorem Runs_admitted (par : Params) (n a : Nat) :
    Runs (Launched par) (storeBytes n a) (fun _ _ => admitsAll par a n) (fun _ => True) := by
  induction n generalizing a with
  | zero => exact fun s _ k hk => absurd hk (Nat.not_lt_zero k)
  | succ n ih =>
    have hread : Runs (Launched par) readByte (fun _ => Launched par) fun _ => True :=
      (Launched_lasting par).doing (Doing_readByte (i := .readData 0) (by decide)) Launched.performs
        fun _ _ _ => trivial
    refine Runs_bind hread fun b => Runs_bind (R := fun _ s => Launched par s ∧ par.admits a = true)
      ((Launched_lasting par).micro (fun s _ t h hb ho => ?_) fun _ _ _ _ => trivial) fun _ s ⟨h, ha⟩ => ?_
    · cases ho
      refine ⟨h, ?_⟩
      rw [h.2] at hb
      by_contra k
      rw [if_neg k] at hb
      cases hb
    · refine Runs_weaken (ih (a + 1)) (fun _ k => k) (fun _ _ hrest k hk => ?_) (fun _ k => k) s h
      cases k with
      | zero => exact ha
      | succ k => rw [Nat.add_comm k, ← Nat.add_assoc]; exact hrest k (by omega)

/-- A `readBytes` that completes read at least one byte in read mode, to a destination that is admitted. -/
theorem exec_readBytes_live {s t : State} (h : s.live) {dst length : Nat} {allowDma : Bool}
    (he : exec (.readBytes dst length allowDma) s = .next t) (ht : t.live) :
    (s.S.life = .initialised ∧ s.S.txn = true ∧ s.S.read = true) ∧ 1 ≤ length ∧ admitsAll s.par dst length := by
  have hcmd : command .readBytes (readChecks >>= fun _ => needOperand (fun _ => decide (1 ≤ length)) >>= fun _ =>
    storeBytes length dst) s = .next t := he
  obtain ⟨c, rfl⟩ | ⟨hchecks, hcmd⟩ := command_readChecks_cases hcmd
  · exact absurd ht (takeFault_not_live s c)
  obtain rfl | ⟨hl, hcmd⟩ := command_check_cases hcmd
  · exact absurd ht (takeFault_not_live s .operand)
  have hpc : t.S.pc ≠ s.S.pc := by
    rcases (commandPointer _ s t h he).2 with ⟨-, hpc⟩ | ⟨-, ⟨c, hf, -⟩ | ⟨-, hh⟩⟩
    · rw [hpc]; simp [Instr.opcode, Opcode.row, packetLength]
    · rw [ht.1] at hf; cases hf
    · exact absurd ht.2 hh
  obtain ⟨u, hu, -⟩ := command_completes (i := .readBytes dst length allowDma)
    (Doing_storeBytes rfl length dst le_rfl le_rfl) hcmd hpc
  have hrun := Runs_admitted s.par length dst s ⟨h.1, rfl⟩
  rw [hu] at hrun
  exact ⟨hchecks, of_decide_eq_true hl, hrun⟩

/-! ## The round trip (R178) -/

/-- What `readBytes` leaves from a loopback device whose queue it reads to its end. -/
theorem exec_readBytes_loopback {s t : State} (h : PinInv s) (hl : s.live) (hload : s.P.dma.loaded = false)
    (hm : s.M.wf = true) (hc : s.S.cfg.valid s.par = true) {q : List Byte} (hq : s.E.device.loopback = some q)
    {dst : Nat} {allowDma : Bool} (he : exec (.readBytes dst q.length allowDma) s = .next t) (ht : t.live) :
    (∀ k < q.length, q[k]? = some (t.M.read (dst + k))) ∧ t.E.device.loopback = some [] := by
  obtain ⟨⟨hlife, htxn, hread⟩, hlen, ha⟩ := exec_readBytes_live hl he ht
  have hready : ReadReady s :=
    ⟨⟨hl.1, h.tx_read hread, hload, .inl htxn⟩, hlife, htxn, hread, h.read_pins hl.1 hread⟩
  obtain ⟨ms, r, -, he'⟩ := exec_readBytes hready hlen ha allowDma
  obtain rfl := Host.Outcome.next.inj (he.symm.trans he')
  have hbytes : s.readAnswers q.length = q := by rw [readAnswers_loopback hc hq le_rfl, List.take_length]
  have hM : (passed ((s.bytesStored q.length dst).advance 3) ms r).M = s.M.store dst q :=
    congrArg (s.M.store dst) hbytes
  refine ⟨fun k hk => hM ▸ Memory_store_same hm dst hk, ?_⟩
  · show Option.map (·.drop q.length) s.E.device.loopback = some []
    rw [hq, Option.map_some, List.drop_length]

/-- Settles O46: `writeBytes` and what is still to be transmitted after it queue the buffer's bytes, `beginRead` leaves
them, and `readBytes` reads them back. -/
theorem loopbackRoundTrip : Obligations.LoopbackRoundTrip := by
  unfold Obligations.LoopbackRoundTrip
  refine ⟨fun script q d => ⟨rfl, rfl, rfl⟩, fun s b q hc hq i => ?_, fun s l h => ?_, ?_⟩
  · rw [rawWord_env, Env.rawWord, hq]
    exact getLsbD_scramble (validPins hc).1 (validPins hc).2 b _ i
  · rw [showLevel_rd h]
  intro s t u v buffer dst length useDma allowDma hstorage hs hl hidle hc hsc hq hwrite ht hbegin hu hread hv
  have hqueued := exec_writeBytes_echo hs hl hsc hwrite ht
  rw [echo_idle (hs.pending_idle hl hidle), hq] at hqueued
  have hecho := exec_beginRead_echo hqueued hbegin hu
  have hbu : BoundaryInv u := exec_boundary (exec_boundary hs hl hwrite) ht hbegin
  obtain ⟨⟨-, -, hreading⟩, -⟩ := exec_readBytes_live hu hread hv
  have hstopped : u.P.tx.running = false := by rw [hbu.pins.tx_read hreading]
  have hloop : u.E.device.loopback = some (hostBytes s.M buffer length) :=
    (echo_idle (hbu.pending_idle hu hstopped)).symm.trans hecho.echo
  have hM : u.M = s.M := (hostMemoryFrame.1 _ t u hbegin (by decide) (by decide)).trans
    (hostMemoryFrame.1 _ s t hwrite (by simp [Instr.opcode]) (by simp [Instr.opcode]))
  have hcfg : u.S.cfg.valid u.par = true := by
    rw [(exec_sequencer hbegin).cfg (by decide), (exec_sequencer hwrite).cfg (by simp [Instr.opcode]),
      (exec_sameLaunch hbegin).2, (exec_sameLaunch hwrite).2]
    exact hc
  have hlength : (hostBytes s.M buffer length).length = length := by simp [hostBytes]
  obtain ⟨hmem, hempty⟩ := exec_readBytes_loopback hbu.pins hu (hbu.idle_empty hu hstopped).2 (hM ▸ hstorage.memory)
    hcfg hloop (hlength.symm ▸ hread) hv
  refine ⟨fun k hk => ?_, hempty⟩
  have hbyte := hmem k (by rwa [hlength])
  simp only [hostBytes, List.getElem?_map, List.getElem?_range hk, Option.map_some, Option.some.injEq] at hbyte
  exact hbyte.symm

end Sys2Proof.Machine
end

section
/-!
PROOFS. Faults: the precondition checks (R185, R189), and what a fault leaves (R184).
* `ChecksFirst checks m s`: from `s`, the first of `checks` that fails stops `m`, with its fault and nothing else.  One
  rule for a check, and one for each group of checks that commands share.
* `exec_checksFirst`: every command runs its row of R185 before all else.
-/

namespace Sys2Proof.Machine

/-! ## The precondition checks (R185, R189) -/

/-- From `s`, `m` takes the fault of the first of `checks` that fails, and does nothing else. -/
def ChecksFirst (checks : List (Bool × FaultCode)) (m : Act Unit) (s : State) : Prop :=
  ∀ c, firstFailing checks = some c → m s = .error .faulted (s.takeFault c)

section
variable {checks : List (Bool × FaultCode)} {m : Unit → Act Unit} {s : State}

theorem checksFirst_nil (m : Act Unit) (s : State) : ChecksFirst [] m s := fun c h => by simp [firstFailing] at h

theorem checksFirst_check {cond : State → Bool} {f : FaultCode} {b : Bool} (hb : cond s = b)
    (h : ChecksFirst checks (m ()) s) : ChecksFirst ((b, f) :: checks) (check cond f >>= m) s := by
  intro c hc
  cases b with
  | true =>
    rw [Act_bind_ok (check_true hb)]
    exact h c (by simpa [firstFailing] using hc)
  | false =>
    obtain rfl : f = c := by simpa [firstFailing] using hc
    exact Act_bind_error (check_false hb)

theorem checksFirst_write (h : ChecksFirst checks (m ()) s) :
    ChecksFirst (writeRow s ++ checks) (writeChecks >>= m) s := by
  rw [writeChecks_bind]
  exact checksFirst_check rfl (checksFirst_check rfl (checksFirst_check rfl h))

theorem checksFirst_read (h : ChecksFirst checks (m ()) s) :
    ChecksFirst (readRow s ++ checks) (readChecks >>= m) s := by
  rw [readChecks_bind]
  exact checksFirst_check rfl (checksFirst_check rfl (checksFirst_check rfl h))

theorem checksFirst_producer {p : Nat} (h : ChecksFirst checks (m ()) s) :
    ChecksFirst (producerRow s p ++ checks) (producerChecks p >>= m) s := by
  rw [producerChecks_bind]
  exact checksFirst_check rfl (checksFirst_check rfl h)

end

/-- The pixel lengths of 2 and 3 bytes are 9 to 24 bits (R152). -/
theorem legalRepeatLength_eq (blen : Nat) : legalRepeatLength blen = decide (9 ≤ blen ∧ blen ≤ 24) := by
  rw [Bool.eq_iff_iff]
  simp only [legalRepeatLength, ceil8, decide_eq_true_eq, Bool.or_eq_true, beq_iff_eq]
  omega

/-- Every command is its row of R185 and then the rest. -/
theorem exec_checksFirst (i : Instr) (s : State) :
    ∃ m, exec i s = command i.opcode m s ∧ ChecksFirst (checksOf s i) m s := by
  cases i with
  | config => exact ⟨_, rfl, checksFirst_check rfl (checksFirst_check rfl (checksFirst_nil _ s))⟩
  | init => exact ⟨_, rfl, checksFirst_check rfl (checksFirst_nil _ s)⟩
  | release => exact ⟨pure (), rfl, checksFirst_nil _ s⟩
  | beginTransaction => exact ⟨_, rfl, checksFirst_check rfl (checksFirst_check rfl (checksFirst_nil _ s))⟩
  | endTransaction =>
    exact ⟨_, rfl, checksFirst_check rfl (checksFirst_check rfl (checksFirst_check rfl (checksFirst_nil _ s)))⟩
  | wait => exact ⟨_, rfl, checksFirst_check rfl (checksFirst_nil _ s)⟩
  | busy => exact ⟨_, rfl, checksFirst_check rfl (checksFirst_nil _ s)⟩
  | writeCommand => exact ⟨_, rfl, checksFirst_write (checksFirst_check rfl (checksFirst_nil _ s))⟩
  | writeData => exact ⟨_, rfl, checksFirst_write (checksFirst_check rfl (checksFirst_nil _ s))⟩
  | writeDataRepeat _ blen =>
    exact ⟨_, rfl, checksFirst_write (checksFirst_check (legalRepeatLength_eq blen)
      (checksFirst_check rfl (checksFirst_nil _ s)))⟩
  | writeBytes => exact ⟨_, rfl, checksFirst_write (checksFirst_check rfl (checksFirst_nil _ s))⟩
  | writePixels => exact ⟨_, rfl, checksFirst_write (checksFirst_producer (checksFirst_nil _ s))⟩
  | beginRead => exact ⟨_, rfl, checksFirst_write (checksFirst_nil _ s)⟩
  | endRead => exact ⟨_, rfl, checksFirst_read (checksFirst_nil _ s)⟩
  | readData => exact ⟨_, rfl, checksFirst_read (checksFirst_check rfl (checksFirst_nil _ s))⟩
  | readBytes => exact ⟨_, rfl, checksFirst_read (checksFirst_check rfl (checksFirst_nil _ s))⟩
  | readPixels => exact ⟨_, rfl, checksFirst_read (checksFirst_producer (checksFirst_nil _ s))⟩

/-- Settles O47: a command stopped by its row of R185 ends in the state the failing check leaves. -/
theorem preconditionChecks : Obligations.PreconditionChecks := by
  unfold Obligations.PreconditionChecks
  intro i s c hc
  obtain ⟨m, hexec, hchecks⟩ := exec_checksFirst i s
  rw [hexec, command, hchecks c hc]
  rfl

/-! ## A fault ends the run (R184) -/

theorem step_of_fault {s : State} {c : FaultCode} {pc : Nat} (h : s.S.fault = some (c, pc)) :
    step s = .fault (.stopped c pc) := by
  simp [step, State.nextTurn, h]

/-- Settles O7: no step follows a fault, and each of the three raisers of R184 takes it and does nothing else. -/
theorem faultFreezesTheMachine : Obligations.FaultFreezesTheMachine := by
  unfold Obligations.FaultFreezesTheMachine
  exact ⟨fun _ _ _ => step_of_fault, fun _ _ _ => perform_raise, fun _ _ _ => check_false, fun _ _ => moved_fault⟩

end Sys2Proof.Machine
end

section
/-!
PROOFS. When no step is left (R100, R207, R208).
* `hwStep_none_iff`: the peripheral has no enabled step.
* `nextTurn_ended`: the turn with no move listed, once the sequencer has none.
* `micro_held`: with no move listed, a blocked micro-operation that no peripheral step lifts is held.
-/

namespace Sys2Proof.Machine

variable {α : Type}

/-- The peripheral has no enabled step: no start waits for its latch, nothing is transmitted, and no load waits for the DMA
engine (R87 to R91, R97). -/
theorem hwStep_none_iff {s : State} : hwStep s = none ↔ s.P.tx.latchPending = false ∧ s.P.tx.running = false ∧
    (s.P.dma.loaded = true → s.P.regs.fconf.dscrEn = true → s.P.dma.latched = true) := by
  constructor
  · intro h
    obtain ⟨hp, hr⟩ := hwStep_none h
    refine ⟨hp, hr, fun hl hd => ?_⟩
    by_contra ha
    simp [hwStep, txStep, dmaStep, hp, hr, hl, hd, ha] at h
  · rintro ⟨hp, hr, hd⟩
    have hfetch : s.P.dma.loaded = true → s.P.dma.latched = false → s.P.regs.fconf.dscrEn = false := fun hl ha => by
      simpa [ha] using mt (hd hl)
    simpa [hwStep, txStep, dmaStep, hp, hr] using hfetch

theorem hwStep_setHold {s : State} (x : Hold) : hwStep (s.setHold x) = none ↔ hwStep s = none := by
  rw [hwStep_none_iff, hwStep_none_iff]; rfl

/-! ## The turn of the peripheral alone -/

theorem nextTurn_ended {s : State} (hf : s.S.fault = none) (hq : s.E.sched = []) (hd : s.sequencerDone = true) :
    s.nextTurn = s.idleTurn := by
  simp [State.nextTurn, hf, hq, hd]

theorem idleTurn_moves {s t : State} (hp : s.par.hwProgress = true) (hw : hwStep s = some t) : s.idleTurn = .moved t := by
  simp [State.idleTurn, hp, hw]

theorem idleTurn_ends {s : State} (hw : s.par.hwProgress = true → hwStep s = none) : s.idleTurn = s.endTurn := by
  cases hp : s.par.hwProgress with
  | true => simp [State.idleTurn, hp, hw hp]
  | false => simp [State.idleTurn, hp]

theorem endTurn_held {s : State} {x : Hold} (hx : s.S.hold = some x) : s.endTurn = .stop (.held x) := by
  simp [State.endTurn, hx]

theorem endTurn_complete {s : State} (hh : s.S.hold = none) (hr : s.S.refused = false) (hw : hwStep s = none) :
    s.endTurn = .stop .runComplete := by
  simp [State.endTurn, hh, hr, hw]

/-- Settles O10: the stream has ended, so the turn is the peripheral's, and without a step of its own the run's end. -/
theorem runGoesOnToItsEnd : Obligations.RunGoesOnToItsEnd := by
  unfold Obligations.RunGoesOnToItsEnd
  intro s hf hh hr hq hp hpc
  have hd : s.sequencerDone = true := by simp [State.sequencerDone, hpc]
  refine ⟨fun t hw => ?_, fun hw => ?_⟩
  · rw [step, nextTurn_ended hf hq hd, idleTurn_moves hp hw]
  · rw [step, nextTurn_ended hf hq hd, idleTurn_ends fun _ => hw, endTurn_complete hh hr hw]

/-! ## Holds for good -/

/-- No step is taken from a held state with no move listed, once the peripheral has none to take. -/
theorem step_setHold {s : State} (x : Hold) (hf : s.S.fault = none) (hq : s.E.sched = [])
    (hw : s.par.hwProgress = true → hwStep s = none) : step (s.setHold x) = .fault (.held x) := by
  have hd : (s.setHold x).sequencerDone = true := by simp [State.sequencerDone]
  rw [step, nextTurn_ended (s := s.setHold x) hf hq hd, idleTurn_ends fun hp => (hwStep_setHold x).mpr (hw hp),
    endTurn_held rfl]

/-- With no move listed, a blocked micro-operation is held at once unless a peripheral step is taken. -/
theorem micro_held {blocked : State → Option Hold} {op : State → Effect α} {s : State} {x : Hold} (hq : s.E.sched = [])
    (hb : blocked s = some x) (hw : s.par.hwProgress = true → hwStep s = none) :
    micro blocked op s = .error .held (s.setHold x) := by
  cases hp : s.par.hwProgress with
  | true => simp [micro, hq, await, hwFuel, settle, hb, hp, hw hp]
  | false => simp [micro, hq, await, hwFuel, settle, hb, hp]

theorem exec_busy_of_error {s t : State} {e : Stop} (hl : s.S.life = .initialised) (hp : pollIdle s = .error e t) :
    exec .busy s = .next t := by
  refine (command_check _ _ _ _ _).trans ?_
  rw [if_pos (by simp [hl]), command_bind_error hp]

/-- An odd `writeBytes` in write mode stops where the read of its first byte does (R158). -/
theorem exec_writeBytes_of_error {s t : State} {e : Stop} {buffer length : Nat} {useDma : Bool}
    (hl : s.S.life = .initialised) (ht : s.S.txn = true) (hr : s.S.read = false) (hodd : length % 2 = 1)
    (hm : memRead buffer s = .error e t) : exec (.writeBytes buffer length useDma) s = .next t := by
  have hbody : exec (.writeBytes buffer length useDma) s =
      command .writeBytes (bytesBody (fun k => memRead (buffer + k)) length useDma) s := by
    show command .writeBytes (writeChecks >>= fun _ => _) s = _
    rw [writeChecks_bind, needInitialised, needTxn, needNotReading, needOperand]
    simp only [command_check, hl, ht, hr, show 1 ≤ length by omega]
    rfl
  rw [hbody, bytesBody, if_pos hodd]
  exact command_bind_error hm

/-- Settles O14: each of the three micro-operations is blocked, and no peripheral step is taken that could lift it. -/
theorem holdsForGood : Obligations.HoldsForGood := by
  unfold Obligations.HoldsForGood
  intro s hf hl hq
  refine ⟨fun hp hrun hlatch => ?_, fun hp hpar hlatch => ?_, fun buffer length useDma ht hr ha hodd hw => ?_⟩
  · have hw : s.par.hwProgress = true → hwStep s = none := by simp [hp]
    have hblocked : s.waitReady = false := by simp [State.waitReady, State.idleFlag, hrun, hlatch]
    exact ⟨exec_wait_of_error hl (micro_held hq (by simp [hblocked]) hw), step_setHold _ hf hq hw⟩
  · have hw : s.par.hwProgress = true → hwStep s = none := by simp [hp]
    have hblocked : s.pollReady = false := by simp [State.pollReady, hpar, hlatch]
    exact ⟨exec_busy_of_error hl (micro_held hq (by simp [hblocked]) hw), step_setHold _ hf hq hw⟩
  · exact ⟨exec_writeBytes_of_error hl ht hr hodd (micro_held hq (by simp [ha]) fun _ => hw),
      step_setHold _ hf hq fun _ => hw⟩

end Sys2Proof.Machine
end

section
/-!
PROOFS. Holds under `HW_PROGRESS` (R100, R208): only a host-memory access outside `Adm` lasts.
* `Unstopped h A s`: no fault, the mark of a hold as it was, a mode with `A`; `HeldRightly h t`: where a stop leaves the mark.
* `Runs_unstopped_micro`: the rule for one micro-operation, and one lemma per micro-operation that can be blocked.
* `Runs_unstopped_spinDma`: after an `OutLinkStart` in DMA mode the engine's latch step is enabled until it is taken.
* `Lifts h m`: no peripheral hold of `m` lasts; one lemma per sequence of the rules.
* `exec_heldRightly`: every command.
-/

namespace Sys2Proof.Machine

variable {α : Type} {h : Option Hold} {A : Mode → Prop}

/-- No fault is set, the mark of a hold is still `h`, and the mode has `A`. -/
structure Unstopped (h : Option Hold) (A : Mode → Prop) (s : State) : Prop where
  fault : s.S.fault = none
  hold : s.S.hold = h
  mode : A s.S.mode

/-- Under `HW_PROGRESS`, with the mode registers as the control invariant has them, the mark of a hold is still `h` or at a
host-memory access outside `Adm`. -/
def HeldRightly (h : Option Hold) (t : State) : Prop :=
  ControlInv t → t.par.hwProgress = true →
    t.S.hold = h ∨ (∃ a, t.S.hold = some (.memRead a) ∧ t.par.admits a = false) ∨
    ∃ a, t.S.hold = some (.memWrite a) ∧ t.par.admits a = false

/-- `m` runs to its end, or to a stop that is no peripheral hold. -/
abbrev Lifts (h : Option Hold) (m : Act α) : Prop :=
  Runs (Unstopped h fun _ => True) m (fun _ => Unstopped h fun _ => True) (HeldRightly h)

theorem Unstopped.anyMode {s : State} (k : Unstopped h A s) : Unstopped h (fun _ => True) s := ⟨k.fault, k.hold, trivial⟩

theorem HeldRightly.of_hold {t : State} (e : t.S.hold = h) : HeldRightly h t := fun _ _ => .inl e

theorem Unstopped_stable : Stable (Unstopped h A) :=
  .of_moves (fun _ _ k => ⟨k.fault, k.hold, k.mode⟩) fun u m k hf => by
    have e := moved_S_of_fault hf
    exact ⟨hf, by rw [e]; exact k.hold, by rw [e]; exact k.mode⟩

theorem Fails_hold {s t : State} (f : Fails s t) : t.S.hold = s.S.hold := by
  cases f with
  | listed => rw [(moved_beside _ _).S]; rfl
  | settled _ _ hw => obtain ⟨m, rfl⟩ := hwStep_moved hw; rw [(moved_beside _ _).S]

/-! ## The micro-operations -/

/-- The sequencer's fault, its mark of a hold and its mode. -/
def State.standing (s : State) : Option (FaultCode × Nat) × Option Hold × Mode := (s.S.fault, s.S.hold, s.S.mode)

theorem Unstopped.congr {s t : State} (k : Unstopped h A s) (e : t.standing = s.standing) : Unstopped h A t := by
  simp only [State.standing, Prod.mk.injEq] at e
  obtain ⟨ef, eh, em⟩ := e
  exact ⟨ef.trans k.fault, eh.trans k.hold, em ▸ k.mode⟩

/-- The effect writes neither a fault, nor the mark of a hold, nor the mode. -/
def KeepsStanding (op : State → Effect α) : Prop := ∀ s a t, op s = .done a t → t.standing = s.standing

/-- A micro-operation, from a property `I` that the moves before it keep. -/
theorem Runs_micro_of_unstopped {I : State → Prop} {blocked : State → Option Hold} {op : State → Effect α}
    (hI : Stable I) (hu : ∀ s, I s → Unstopped h A s) (hk : KeepsStanding op)
    (held : ∀ s x, I s → blocked s = some x → (s.par.hwProgress = true → hwStep s = none) → HeldRightly h (s.setHold x)) :
    Runs I (micro blocked op) (fun _ => Unstopped h A) (HeldRightly h) :=
  Runs_micro hI (fun s k => (hu s k).fault) (fun s a t k _ o => (hu s k).congr (hk s a t o))
    (fun s _ k _ _ => .of_hold (hu s k).hold) (fun s _ k f => .of_hold ((Fails_hold f).trans (hu s k).hold))
    fun s x k b _ n => held s x k b n

theorem Runs_unstopped_micro {blocked : State → Option Hold} {op : State → Effect α} (hk : KeepsStanding op)
    (held : ∀ s x, blocked s = some x → (s.par.hwProgress = true → hwStep s = none) → HeldRightly h (s.setHold x)) :
    Runs (Unstopped h A) (micro blocked op) (fun _ => Unstopped h A) (HeldRightly h) :=
  Runs_micro_of_unstopped Unstopped_stable (fun _ k => k) hk fun s x _ => held s x

theorem Runs_unstopped_atom {op : State → Effect α} (hk : KeepsStanding op) :
    Runs (Unstopped h A) (atom op) (fun _ => Unstopped h A) (HeldRightly h) :=
  Runs_unstopped_micro hk fun _ _ b => nomatch b

theorem Runs_unstopped_check (c : State → Bool) (f : FaultCode) :
    Runs (Unstopped h A) (check c f) (fun _ => Unstopped h A) (HeldRightly h) :=
  Runs_check (fun _ k _ => k) fun _ k _ => .of_hold k.hold

theorem Runs_unstopped_update {f : State → State} (hf : ∀ s, (f s).standing = s.standing) :
    Runs (Unstopped h A) (update f) (fun _ => Unstopped h A) (HeldRightly h) := fun s k => k.congr (hf s)

theorem Runs_unstopped_get {f : State → Act α} {Q : α → State → Prop}
    (hf : ∀ s, Runs (Unstopped h A) (f s) Q (HeldRightly h)) :
    Runs (Unstopped h A) ((get : Act State) >>= f) Q (HeldRightly h) := fun s k => hf s s k

/-- `WaitIdle` (R94, R109): a wait that is not over leaves the transmitter a step. -/
theorem Runs_unstopped_waitIdle : Runs (Unstopped h A) waitIdle (fun _ => Unstopped h A) (HeldRightly h) :=
  Runs_unstopped_micro (fun _ _ _ o => by cases o; rfl) fun s x b n _ hp => by
    obtain ⟨hlatch, hrun, -⟩ := hwStep_none_iff.mp (n hp)
    simp [State.waitReady, State.pollReady, State.idleFlag, hlatch, hrun] at b

/-- `PollIdle` (R93, R108): a pending start leaves the transmitter its latch step. -/
theorem Runs_unstopped_pollIdle : Runs (Unstopped h A) pollIdle (fun _ => Unstopped h A) (HeldRightly h) :=
  Runs_unstopped_micro (fun _ _ _ o => by cases o; rfl) fun s x b n _ hp => by
    obtain ⟨hlatch, -, -⟩ := hwStep_none_iff.mp (n hp)
    simp [State.pollReady, hlatch] at b

theorem Runs_unstopped_memRead (a : Nat) : Runs (Unstopped h A) (memRead a) (fun _ => Unstopped h A) (HeldRightly h) :=
  Runs_unstopped_micro (fun _ _ _ o => by cases o; rfl) fun s x b _ _ _ => by
    cases ha : s.par.admits a <;> simp [ha] at b
    subst b
    exact .inr (.inl ⟨a, rfl, ha⟩)

theorem Runs_unstopped_memWrite (a : Nat) (v : Byte) :
    Runs (Unstopped h A) (memWrite a v) (fun _ => Unstopped h A) (HeldRightly h) :=
  Runs_unstopped_micro (fun _ _ _ o => by cases o; rfl) fun s x b _ _ _ => by
    cases ha : s.par.admits a <;> simp [ha] at b
    subst b
    exact .inr (.inr ⟨a, rfl, ha⟩)

theorem Runs_unstopped_spin (k : State → Nat) :
    Runs (Unstopped h A) (atom (spinOp k)) (fun _ => Unstopped h A) (HeldRightly h) :=
  Runs_unstopped_atom fun _ _ _ o => by cases o; rfl

theorem Runs_unstopped_regWrite (v : RegImage) :
    Runs (Unstopped h A) (regWrite v) (fun _ => Unstopped h A) (HeldRightly h) :=
  Runs_unstopped_atom fun _ _ _ o => by obtain ⟨-, rfl⟩ := regWriteOp_done o; rfl

theorem Runs_unstopped_fifoPush (w : Word) :
    Runs (Unstopped h A) (fifoPush w) (fun _ => Unstopped h A) (HeldRightly h) :=
  Runs_unstopped_atom fun _ _ _ o => by obtain ⟨-, rfl⟩ := fifoPushOp_done o; rfl

theorem Runs_unstopped_txStart :
    Runs (Unstopped h A) txStart (fun _ => Unstopped h fun _ => True) (HeldRightly h) :=
  Runs_weaken (Runs_unstopped_atom fun _ _ _ o => by obtain ⟨-, -, rfl⟩ := txStartOp_done o; rfl) (fun _ k => k)
    (fun _ _ k => Unstopped.anyMode (A := A) k) fun _ k => k

theorem Runs_unstopped_gpioLevel (r : Role) (l : Bool) :
    Runs (Unstopped h A) (gpioLevel r l) (fun _ => Unstopped h A) (HeldRightly h) :=
  Runs_unstopped_atom fun _ _ _ o => by obtain ⟨-, rfl⟩ := gpioLevelOp_done o; simp [State.standing]

theorem Runs_unstopped_gpioDir (r : Role) (d : Dir) :
    Runs (Unstopped h A) (gpioDir r d) (fun _ => Unstopped h A) (HeldRightly h) :=
  Runs_unstopped_atom fun _ _ _ o => by obtain ⟨-, rfl⟩ := gpioDirOp_done o; rfl

theorem Runs_unstopped_route (r : Role) (slot : Route) :
    Runs (Unstopped h A) (route r slot) (fun _ => Unstopped h A) (HeldRightly h) :=
  Runs_unstopped_atom fun _ _ _ o => by obtain ⟨-, rfl⟩ := routeOp_done o; rfl

theorem Runs_unstopped_gpioReadRaw :
    Runs (Unstopped h A) gpioReadRaw (fun _ => Unstopped h A) (HeldRightly h) :=
  Runs_unstopped_atom fun _ _ _ o => by cases o; simp [State.standing]

/-- `EnsureMode` (R138) ends in its mode. -/
theorem Runs_unstopped_ensureMode (m : Mode) :
    Runs (Unstopped h A) (ensureMode m) (fun _ => Unstopped h (· = m)) (HeldRightly h) := by
  intro s k
  by_cases e : s.S.mode = m
  · rw [ensureMode_same e]
    exact ⟨k.fault, k.hold, e⟩
  · rw [ensureMode_switch e]
    refine Runs_bind (Runs_unstopped_regWrite _) (fun _ => Runs_bind (Runs_unstopped_regWrite _) fun _ u k => ?_) s k
    exact ⟨k.fault, k.hold, rfl⟩

/-- `DescRealloc` (R119). -/
theorem Runs_unstopped_descRealloc (n : Nat) :
    Runs (Unstopped h A) (descRealloc n) (fun _ => Unstopped h A) (HeldRightly h) := by
  refine Runs_bind (R := fun _ => Unstopped h A) (Runs_unstopped_get fun s => ?_) fun _ =>
    Runs_unstopped_atom fun _ _ _ o => by obtain ⟨-, a, -, rfl⟩ := descAllocOp_done o; simp [State.standing]
  split
  · exact Runs_unstopped_atom fun _ _ _ o => by obtain ⟨-, rfl⟩ := descFreeOp_done o; rfl
  · exact Runs_return ()

/-! ## A DMA load (R97, R98, R118) -/

/-- In DMA mode a load is held and nothing is transmitted: the DMA engine latches the load, or it has. -/
structure LoadHeld (h : Option Hold) (s : State) : Prop where
  unstopped : Unstopped h (· = .bulk16Dma) s
  idle : s.P.tx.running = false
  loaded : s.P.dma.loaded = true

theorem LoadHeld_stable : Stable (LoadHeld h) :=
  .of_moves (fun _ _ k => ⟨⟨k.unstopped.fault, k.unstopped.hold, k.unstopped.mode⟩, k.idle, k.loaded⟩) fun u m k hf => by
    have e := moved_S_of_fault hf
    have hP : (u.moved m).P.tx.running = false ∧ (u.moved m).P.dma.loaded = true := by
      have p := moved_P u m
      generalize (u.moved m).P = Q at p
      cases p with
      | finishFifo hr | finishDma hr => simp [k.idle] at hr
      | _ => exact ⟨k.idle, k.loaded⟩
    exact ⟨⟨hf, by rw [e]; exact k.unstopped.hold, by rw [e]; exact k.unstopped.mode⟩, hP.1, hP.2⟩

theorem Runs_unstopped_outLinkStart :
    Runs (Unstopped h (· = .bulk16Dma)) outLinkStart (fun _ => LoadHeld h) (HeldRightly h) :=
  Runs_micro Unstopped_stable (fun _ k => k.fault)
    (fun s _ _ k _ o => by
      obtain ⟨hr, -, rfl⟩ := outLinkStartOp_done o
      exact ⟨k.congr rfl, hr, rfl⟩)
    (fun _ _ k _ _ => .of_hold k.hold) (fun _ _ k f => .of_hold ((Fails_hold f).trans k.hold)) fun _ _ _ b => nomatch b

/-- `Spin(K_DMA)` (R98): until the load is latched the DMA engine has its latch step. -/
theorem Runs_unstopped_spinDma :
    Runs (LoadHeld h) spinDma (fun _ => Unstopped h (· = .bulk16Dma)) (HeldRightly h) :=
  Runs_micro_of_unstopped LoadHeld_stable (fun _ k => k.unstopped) (fun _ _ _ o => by cases o; rfl)
    fun s x k b n hc hp => by
      obtain ⟨-, -, hlatched⟩ := hwStep_none_iff.mp (n hp)
      have hm : s.S.mode = .bulk16Dma := k.unstopped.mode
      obtain ⟨-, hfconf⟩ := hc.registers k.unstopped.fault (by simp [hm])
      have hd : s.P.regs.fconf.dscrEn = true := by rw [show s.P.regs.fconf = s.S.mode.fconf from hfconf, hm]; rfl
      simp [State.dmaSpinReady, hlatched k.loaded hd] at b

/-! ## The sequences of the write path -/

theorem lifts_scalarWrite (t : Bool) (v : Word) (n : Nat) : Lifts h (scalarWrite t v n) :=
  Runs_bind Runs_unstopped_waitIdle fun _ => Runs_bind (Runs_unstopped_ensureMode _) fun _ =>
    Runs_bind (Runs_forEach fun w _ => Runs_unstopped_fifoPush w) fun _ => Runs_unstopped_txStart

theorem lifts_repeatLoop (unit : List Word) (full rounds rem len : Nat) : Lifts h (repeatLoop unit full rounds rem len) := by
  induction rounds generalizing rem len with
  | zero => exact Runs_return ()
  | succ n ih =>
    refine Runs_bind Runs_unstopped_waitIdle fun _ => Runs_bind (Runs_unstopped_ensureMode _) fun _ =>
      Runs_bind (Runs_forEach fun w _ => Runs_unstopped_fifoPush w) fun _ => Runs_bind Runs_unstopped_txStart fun _ => ?_
    split
    · exact Runs_return ()
    · exact Runs_bind (Runs_unstopped_spin _) fun _ => ih _ _

theorem lifts_repeat3 (c : Word) (blen count : Nat) : Lifts h (repeat3 c blen count) := by
  refine Runs_bind (R := fun _ => Unstopped h fun _ => True) ?_ fun _ => ?_
  · unfold leftoverPixel
    split
    · exact lifts_scalarWrite _ _ _
    · exact Runs_return ()
  · unfold repeatPairs
    split
    · exact Runs_return ()
    · exact lifts_repeatLoop _ _ _ _ _

/-- Reading a byte of the buffer is held outside `Adm` only, in any mode. -/
def ReadsLifting (h : Option Hold) (rd : Nat → Act Byte) : Prop :=
  ∀ (A : Mode → Prop) (k : Nat), Runs (Unstopped h A) (rd k) (fun _ => Unstopped h A) (HeldRightly h)

theorem readPixbuf_lifting : ReadsLifting h readPixbuf := fun _ _ _ k => k

theorem memRead_lifting (buffer : Nat) : ReadsLifting h fun k => memRead (buffer + k) := fun _ _ => Runs_unstopped_memRead _

variable {rd : Nat → Act Byte}

theorem Runs_unstopped_pushPairs (hr : ReadsLifting h rd) (len k : Nat) :
    Runs (Unstopped h A) (pushPairs rd len k) (fun _ => Unstopped h A) (HeldRightly h) := by
  induction len generalizing k with
  | zero => exact Runs_return ()
  | succ n ih =>
    exact Runs_bind (hr A _) fun _ => Runs_bind (hr A _) fun _ => Runs_bind (Runs_unstopped_fifoPush _) fun _ => ih _

theorem lifts_readMany (hr : ReadsLifting h rd) (n k : Nat) : Lifts h (readMany rd n k) := by
  induction n generalizing k with
  | zero => exact Runs_return []
  | succ n ih => exact Runs_bind (hr _ k) fun x => Runs_bind (ih (k + 1)) fun xs => Runs_return (x :: xs)

theorem Runs_unstopped_ensureCapacity (n : Nat) :
    Runs (Unstopped h A) (ensureCapacity n) (fun _ => Unstopped h A) (HeldRightly h) := by
  refine Runs_unstopped_get fun s => ?_
  split
  · exact Runs_return ()
  · exact Runs_unstopped_descRealloc n

theorem lifts_dmaLoad (hr : ReadsLifting h rd) (k n : Nat) : Lifts h (dmaLoad rd k n) :=
  Runs_bind (lifts_readMany hr n k) fun _ => Runs_unstopped_get fun _ =>
    Runs_bind (Runs_unstopped_atom fun _ _ _ o => by obtain ⟨-, rfl⟩ := bufWriteOp_done o; simp [State.standing]) fun _ =>
    Runs_bind Runs_unstopped_waitIdle fun _ => Runs_bind (Runs_unstopped_ensureMode _) fun _ =>
    Runs_bind (Runs_unstopped_ensureCapacity _) fun _ =>
    Runs_bind (Runs_unstopped_atom fun _ _ _ o => by obtain ⟨-, rfl⟩ := descWriteOp_done o; rfl) fun _ =>
    Runs_bind Runs_unstopped_outLinkStart fun _ => Runs_bind Runs_unstopped_spinDma fun _ =>
    Runs_bind Runs_unstopped_txStart fun _ => Runs_unstopped_update fun _ => rfl

theorem lifts_dmaPhase (hr : ReadsLifting h rd) (rounds k rem load : Nat) : Lifts h (dmaPhase rd rounds k rem load) := by
  induction rounds generalizing k rem load with
  | zero => exact Runs_return ()
  | succ n ih =>
    refine Runs_bind (lifts_dmaLoad hr k _) fun _ => ?_
    split
    · exact Runs_return ()
    · exact ih _ _ _

theorem lifts_dmaEntry (useDma : Bool) (done : Nat) : Lifts h (dmaEntry useDma done) := by
  refine Runs_unstopped_get fun s => ?_
  split
  · exact Runs_bind (Runs_unstopped_atom fun _ _ _ o => by cases o; rfl) fun on => Runs_return (!on)
  · exact Runs_return false

theorem lifts_fifoPhase (hr : ReadsLifting h rd) (useDma : Bool) (rounds k pairs done len : Nat) :
    Lifts h (fifoPhase rd useDma rounds k pairs done len) := by
  induction rounds generalizing k pairs done len with
  | zero => exact Runs_return ()
  | succ n ih =>
    refine Runs_bind Runs_unstopped_waitIdle fun _ => Runs_bind (Runs_unstopped_ensureMode _) fun _ =>
      Runs_bind (Runs_unstopped_pushPairs hr len k) fun _ => Runs_bind Runs_unstopped_txStart fun _ => ?_
    split
    · exact Runs_return ()
    · refine Runs_bind (lifts_dmaEntry useDma _) fun go => ?_
      split
      · exact lifts_dmaPhase hr _ _ _ _
      · exact Runs_bind (Runs_unstopped_spin _) fun _ => ih _ _ _ _

theorem lifts_bytesBody (hr : ReadsLifting h rd) (length : Nat) (useDma : Bool) : Lifts h (bytesBody rd length useDma) := by
  have hp : ∀ k pairs, Lifts h (pairsBody rd k pairs useDma) := fun k pairs => by
    unfold pairsBody
    split
    · exact Runs_return ()
    · exact lifts_fifoPhase hr _ _ _ _ _ _
  unfold bytesBody
  split
  · exact Runs_bind (hr _ 0) fun _ => Runs_bind (lifts_scalarWrite _ _ _) fun _ => hp _ _
  · exact hp _ _

theorem lifts_pixelLoop (p bpp limit length rounds start chunk : Nat) :
    Lifts h (pixelLoop p bpp limit length rounds start chunk) := by
  induction rounds generalizing start chunk with
  | zero => exact Runs_return ()
  | succ n ih =>
    unfold pixelLoop
    split
    · exact Runs_bind (Runs_unstopped_atom fun _ _ _ o => by cases o; rfl) fun _ =>
        Runs_bind (Runs_unstopped_check _ _) fun _ => Runs_bind (lifts_bytesBody readPixbuf_lifting _ _) fun _ => ih _ _
    · exact Runs_return ()

/-! ## The pins and the read path -/

theorem lifts_initPins : Lifts h initPins :=
  Runs_bind (Runs_forEach fun _ _ => Runs_unstopped_atom fun _ _ _ o => by
      obtain ⟨-, rfl⟩ := gpioClaimOp_done o; rfl) fun _ =>
    Runs_bind (Runs_forEach fun _ _ => Runs_bind (Runs_unstopped_gpioLevel _ _) fun _ => Runs_unstopped_gpioDir _ _) fun _ =>
    Runs_bind (Runs_forEach fun _ _ => Runs_unstopped_route _ _) fun _ => Runs_bind (Runs_unstopped_route _ _) fun _ =>
    Runs_bind (Runs_unstopped_route _ _) fun _ => Runs_unstopped_atom fun _ _ _ o => by
      cases o
      simp only [State.standing]
      split <;> rfl

theorem lifts_readPins : Lifts h readPins :=
  Runs_bind (Runs_unstopped_gpioLevel _ _) fun _ => Runs_bind (Runs_unstopped_gpioDir _ _) fun _ =>
    Runs_bind (Runs_forEach fun _ _ => Runs_bind (Runs_unstopped_route _ _) fun _ =>
      Runs_bind (Runs_unstopped_gpioDir _ _) fun _ => Runs_unstopped_gpioLevel _ _) fun _ =>
    Runs_forEach fun _ _ => Runs_bind (Runs_unstopped_route _ _) fun _ => Runs_unstopped_gpioDir _ _

theorem lifts_readByte : Lifts h readByte :=
  Runs_bind Runs_unstopped_gpioReadRaw fun _ => Runs_bind Runs_unstopped_gpioReadRaw fun _ =>
    Runs_bind (Runs_unstopped_gpioLevel _ _) fun _ => Runs_bind (Runs_unstopped_gpioLevel _ _) fun _ =>
    Runs_unstopped_get fun _ => Runs_return _

theorem lifts_readValue (n k : Nat) (v : Word) : Lifts h (readValue n k v) := by
  induction n generalizing k v with
  | zero => exact Runs_return v
  | succ n ih => exact Runs_bind lifts_readByte fun _ => ih _ _

theorem lifts_storeBytes (n a : Nat) : Lifts h (storeBytes n a) := by
  induction n generalizing a with
  | zero => exact Runs_return ()
  | succ n ih => exact Runs_bind lifts_readByte fun _ => Runs_bind (Runs_unstopped_memWrite _ _) fun _ => ih _

theorem lifts_fillRdbuf (n : Nat) : Lifts h (fillRdbuf n) := by
  induction n with
  | zero => exact Runs_return ()
  | succ n ih => exact Runs_bind lifts_readByte fun _ => Runs_bind (Runs_unstopped_update fun _ => rfl) fun _ => ih

theorem lifts_readLoop (p dst bpp batch length rounds start : Nat) :
    Lifts h (readLoop p dst bpp batch length rounds start) := by
  induction rounds generalizing start with
  | zero => exact Runs_return ()
  | succ n ih =>
    unfold readLoop
    split
    · exact Runs_bind (Runs_unstopped_update fun _ => rfl) fun _ => Runs_bind (lifts_fillRdbuf _) fun _ =>
        Runs_bind (Runs_unstopped_atom fun _ _ _ o => by cases o; rfl) fun _ =>
        Runs_bind (Runs_unstopped_check _ _) fun _ => ih _
    · exact Runs_return ()

/-! ## The commands -/

theorem lifts_threeChecks (c₁ c₂ c₃ : State → Bool) (f₁ f₂ f₃ : FaultCode) :
    Lifts h (check c₁ f₁ >>= fun _ => check c₂ f₂ >>= fun _ => check c₃ f₃) :=
  Runs_bind (Runs_unstopped_check _ _) fun _ => Runs_bind (Runs_unstopped_check _ _) fun _ => Runs_unstopped_check _ _

theorem lifts_writeChecks : Lifts h writeChecks := lifts_threeChecks _ _ _ _ _ _

theorem lifts_readChecks : Lifts h readChecks := lifts_threeChecks _ _ _ _ _ _

theorem lifts_producerChecks (p : Nat) : Lifts h (producerChecks p) :=
  Runs_bind (Runs_unstopped_check _ _) fun _ => Runs_unstopped_check _ _

theorem command_heldRightly {o : Opcode} {m : Act Unit} {s t : State} (he : command o m s = .next t)
    (hf : s.S.fault = none) (hm : Lifts s.S.hold m) : HeldRightly s.S.hold t :=
  command_leaves hm (fun _ _ k => .of_hold k.hold) (fun _ k => k) ⟨hf, rfl, trivial⟩ he

/-- Every command, from a state without a fault. -/
theorem exec_heldRightly {i : Instr} {s t : State} (he : exec i s = .next t) (hf : s.S.fault = none) :
    HeldRightly s.S.hold t := by
  cases i with
  | config =>
    exact command_heldRightly he hf (Runs_bind (Runs_unstopped_check _ _) fun _ =>
      Runs_bind (Runs_unstopped_check _ _) fun _ => Runs_unstopped_update fun _ => rfl)
  | init =>
    exact command_heldRightly he hf (Runs_bind (Runs_unstopped_check _ _) fun _ =>
      Runs_bind (Runs_unstopped_update fun _ => rfl) fun _ => Runs_bind lifts_initPins fun _ => Runs_unstopped_get fun _ =>
      Runs_bind (Runs_unstopped_regWrite _) fun _ =>
      Runs_bind (Runs_forEach fun _ _ => Runs_unstopped_atom fun _ _ _ o => by cases o; rfl) fun _ =>
      Runs_bind (Runs_unstopped_descRealloc 0) fun _ => Runs_unstopped_update fun _ => rfl)
  | release => exact command_heldRightly (o := .release) (m := pure ()) he hf (Runs_return ())
  | beginTransaction =>
    exact command_heldRightly he hf (Runs_bind (Runs_unstopped_check _ _) fun _ =>
      Runs_bind (Runs_unstopped_check _ _) fun _ => Runs_bind Runs_unstopped_waitIdle fun _ =>
      Runs_bind (Runs_unstopped_atom fun _ _ _ o => by cases o; simp [State.standing]) fun _ =>
      Runs_bind (Runs_unstopped_update fun _ => rfl) fun _ => Runs_unstopped_get fun _ =>
      Runs_bind (Runs_unstopped_regWrite _) fun _ => Runs_bind (Runs_unstopped_regWrite _) fun _ =>
      Runs_bind (Runs_unstopped_regWrite _) fun _ _ k => Unstopped.mk k.fault k.hold trivial)
  | endTransaction =>
    exact command_heldRightly he hf (Runs_bind (Runs_unstopped_check _ _) fun _ =>
      Runs_bind (Runs_unstopped_check _ _) fun _ => Runs_bind (Runs_unstopped_check _ _) fun _ =>
      Runs_unstopped_update fun _ => rfl)
  | wait => exact command_heldRightly he hf (Runs_bind (Runs_unstopped_check _ _) fun _ => Runs_unstopped_waitIdle)
  | busy =>
    exact command_heldRightly he hf (Runs_bind (Runs_unstopped_check _ _) fun _ =>
      Runs_bind Runs_unstopped_pollIdle fun _ => Runs_unstopped_update fun _ => rfl)
  | writeCommand | writeData =>
    exact command_heldRightly he hf (Runs_bind lifts_writeChecks fun _ => Runs_bind (Runs_unstopped_check _ _) fun _ =>
      lifts_scalarWrite _ _ _)
  | writeDataRepeat =>
    refine command_heldRightly he hf (Runs_bind lifts_writeChecks fun _ => Runs_bind (Runs_unstopped_check _ _) fun _ =>
      Runs_bind (Runs_unstopped_check _ _) fun _ => ?_)
    split
    · exact lifts_repeatLoop _ _ _ _ _
    · exact lifts_repeat3 _ _ _
  | writeBytes buffer =>
    exact command_heldRightly he hf (Runs_bind lifts_writeChecks fun _ => Runs_bind (Runs_unstopped_check _ _) fun _ =>
      lifts_bytesBody (memRead_lifting buffer) _ _)
  | writePixels =>
    exact command_heldRightly he hf (Runs_bind lifts_writeChecks fun _ => Runs_bind (lifts_producerChecks _) fun _ =>
      Runs_unstopped_get fun _ => lifts_pixelLoop _ _ _ _ _ _ _)
  | beginRead =>
    exact command_heldRightly he hf (Runs_bind lifts_writeChecks fun _ => Runs_bind Runs_unstopped_waitIdle fun _ =>
      Runs_bind lifts_readPins fun _ => Runs_unstopped_update fun _ => rfl)
  | endRead =>
    exact command_heldRightly he hf (Runs_bind lifts_readChecks fun _ => Runs_bind Runs_unstopped_waitIdle fun _ =>
      Runs_bind lifts_initPins fun _ => Runs_unstopped_update fun _ => rfl)
  | readData =>
    exact command_heldRightly he hf (Runs_bind lifts_readChecks fun _ => Runs_bind (Runs_unstopped_check _ _) fun _ =>
      Runs_bind (lifts_readValue _ _ _) fun _ => Runs_unstopped_update fun _ => rfl)
  | readBytes =>
    exact command_heldRightly he hf (Runs_bind lifts_readChecks fun _ => Runs_bind (Runs_unstopped_check _ _) fun _ =>
      lifts_storeBytes _ _)
  | readPixels =>
    exact command_heldRightly he hf (Runs_bind lifts_readChecks fun _ => Runs_bind (lifts_producerChecks _) fun _ =>
      Runs_unstopped_get fun _ => lifts_readLoop _ _ _ _ _ _ _)

/-- Settles O15: a command keeps the control invariant, so `HeldRightly` leaves the host-memory accesses only. -/
theorem progressLiftsPeripheralHolds : Obligations.ProgressLiftsPeripheralHolds := by
  unfold Obligations.ProgressLiftsPeripheralHolds
  intro i s t hc hf hp he
  obtain ⟨hflags, hregs⟩ := control_iff.mp hc
  have hready : Ready False s := ⟨hf, hflags, hregs hf, False.elim⟩
  have hpar : t.par = s.par := (exec_sameLaunch he).2
  have hheld := exec_heldRightly he hf (exec_after hready he).control (hpar ▸ hp)
  rwa [hpar] at hheld

end Sys2Proof.Machine
end
